-- ==== Sys2Proof/Word.lean ====
section
/-! DEFINITION. The value types of the AFOS NIC engine (00_scope.md R8, R9: all values are unsigned; 20_memory.md R70). -/

namespace Sys2Proof

/-- One byte of memory, of a frame or of an 8-bit device register. -/
abbrev Byte := BitVec 8

/-- A 16-bit device register or wire field. -/
abbrev Half := BitVec 16

/-- A 32-bit engine or device register, a command word, a host physical address. -/
abbrev Word := BitVec 32

/-- An IPv4 address a.b.c.d as the number a·2^24 + b·2^16 + c·2^8 + d (30_encoding.md R106). -/
abbrev Ip := BitVec 32

/-- A MAC address, the first byte on the wire most significant (30_encoding.md R106). -/
abbrev Mac := BitVec 48

end Sys2Proof
end

