-- ==== Sys2Proof/Config.lean ====
section
/-! DEFINITION. What is fixed for one machine: the parameters of 00_scope.md R6 and R7, the OPEN launch
parameters and the free values (the opaque constants, which nothing can evaluate). -/

namespace Sys2Proof

/-! ## Parameters the source fixes (R6) -/

namespace Config

/-- ARP_CAPACITY. -/
def arpCapacity : Nat := 16
/-- TX_SLOTS. -/
def txSlots : Nat := 4
/-- RX_RING_ALIGN, bytes. -/
def rxRingAlign : Nat := 256
/-- TX_BUF_ALIGN, bytes. -/
def txBufAlign : Nat := 16
/-- RX_PTR_ALIGN, bytes. -/
def rxPtrAlign : Nat := 4
/-- RX_HDR_LEN, the ring header. -/
def rxHdrLen : Nat := 4
/-- ETH_HDR_LEN. -/
def ethHdrLen : Nat := 14
/-- ETH_MIN_FRAME, the padded length. -/
def ethMinFrame : Nat := 60
/-- ETH_MAX_PAYLOAD_TX, "1500−14". -/
def ethMaxPayloadTx : Nat := 1486
/-- POLL_MAX_FRAMES. -/
def pollMaxFrames : Nat := 10
/-- RESOLVE_INTERVAL_MS. -/
def resolveIntervalMs : Nat := 10
/-- IP_RESOLVE_TIMEOUT_MS. -/
def ipResolveTimeoutMs : Nat := 2000
/-- IP_HDR_LEN. -/
def ipHdrLen : Nat := 20
/-- ICMP_HDR_LEN. -/
def icmpHdrLen : Nat := 8
/-- The length of an Ethernet/IPv4 ARP packet (30_encoding.md R111). -/
def arpPacketLen : Nat := 28
/-- ETHERTYPE_ARP. -/
def etherTypeArp : Half := 0x0806
/-- ETHERTYPE_IPV4. -/
def etherTypeIpv4 : Half := 0x0800
/-- ARP_OP_REQUEST. -/
def arpOpRequest : Half := 1
/-- ARP_OP_REPLY. -/
def arpOpReply : Half := 2
/-- ICMP_ECHO_REQUEST. -/
def icmpEchoRequest : Byte := 8
/-- ICMP_ECHO_REPLY. -/
def icmpEchoReply : Byte := 0

/-! ## Other fixed numbers -/

/-- The shortest frame the WIRE may offer (40_nic.md R166). -/
def minRxFrame : Nat := 14
/-- What a 32-bit address register can name: the bound of the canonical form of memory. Host physical memory itself has
`Params.addrSpace` bytes. -/
def addrSpace : Nat := 2 ^ 32
/-- The bytes of the engine register window (10_state.md R20). -/
def windowLen : Nat := 0x50
/-- The broadcast MAC FF:FF:FF:FF:FF:FF. -/
def broadcastMac : Mac := 0xFFFFFFFFFFFF

/-! ## OPEN launch parameters (R7, 93_implementation_defined.md section 7) -/

/-- ENGINE_BASE. -/
opaque engineBase : Word

/-- BURNED_IN_MAC. -/
opaque burnedInMac : Mac

end Config

/-- ARP_FAIL_POLICY (R7, 92_eei_decisions.md D35). -/
inductive ArpFailPolicy where
  | broadcastFallback
  | error
deriving DecidableEq, Repr

/-- ROK_CLEAR_POLICY (R7, 10_state.md R32). -/
inductive RokClearPolicy where
  | stickyWhileNonempty
  | unconditional
deriving DecidableEq, Repr

/-- TX_ORDER (R7, 40_nic.md R168). -/
inductive TxOrder where
  | any
  | inOrder
deriving DecidableEq, Repr

/-- A ring length the device has: 8192 << k for the two bits k of RCR.RBLEN (10_state.md R34). -/
def ringLenOf (k : BitVec 2) : Nat := 8192 * 2 ^ k.toNat

/-- The parameters of R7 a run takes as arguments and never changes (93_implementation_defined.md section 7: "Every parameter of
00_scope.md rule R7 is a model argument"). Held in the state as plain data, so that a statement about every state is about
every choice of them. NIC_PCI_LOCATION and BURNED_IN_MAC are held where they are read, in the PCI header and in the
device's IDR; RESET_LATENCY is a draw. -/
structure Params where
  /-- ENGINE_BASE. -/
  engineBase     : Word
  /-- PCI_VENDOR_ID. -/
  pciVendorId    : Half
  /-- PCI_DEVICE_ID. -/
  pciDeviceId    : Half
  /-- RESET_POLL_LIMIT. -/
  resetPollLimit : Nat
  /-- RX_RING_LEN, as the RBLEN the device is programmed with (30_encoding.md R116). -/
  rblen          : BitVec 2
  /-- RX_RING_SLACK. -/
  rxRingSlack    : Nat
  /-- TX_BUF_SIZE, also the slot stride. -/
  txBufSize      : Nat
  /-- POLL_BUF_SIZE. -/
  pollBufSize    : Nat
  /-- MAX_RX_FRAME. -/
  maxRxFrame     : Nat
  /-- IP_TTL. -/
  ipTtl          : Byte
  /-- ECHO_DEFAULT_PATTERN, ECHO_DEFAULT_LEN bytes (44_icmp.md R252). -/
  echoDefault    : Vector Byte 32
  /-- OUR_IP_RESET. -/
  ourIpReset     : Ip
  /-- ADDR_WIDTH, at most the width of an address register. -/
  addrWidth      : Fin 33
  /-- ARP_FAIL_POLICY. -/
  arpFail        : ArpFailPolicy
  /-- ROK_CLEAR_POLICY. -/
  rokClear       : RokClearPolicy
  /-- TX_ORDER. -/
  txOrder        : TxOrder
deriving DecidableEq, Repr

/-- RX_RING_LEN in bytes. -/
def Params.rxRingLen (p : Params) : Nat := ringLenOf p.rblen

/-- The bytes of host physical memory, 2^ADDR_WIDTH. -/
def Params.addrSpace (p : Params) : Nat := 2 ^ p.addrWidth.val

/-- The RCR NIC_INIT programs: 0x8D with RBLEN = k for RX_RING_LEN = 8192·2^k (30_encoding.md R116). -/
def Params.rcrInit (p : Params) : Word := 0x0000008D ||| p.rblen.zeroExtend 32 <<< 11

/-- The parameters with the values R7 gives; ENGINE_BASE is OPEN. -/
def Config.params : Params where
  engineBase := Config.engineBase
  pciVendorId := 0x10EC
  pciDeviceId := 0x8139
  resetPollLimit := 100000
  rblen := 0
  rxRingSlack := 1552
  txBufSize := 1536
  pollBufSize := 1536
  maxRxFrame := 1514
  ipTtl := 64
  echoDefault := Vector.ofFn fun k : Fin 32 => BitVec.ofNat 8 k.val
  ourIpReset := 0
  addrWidth := 32
  arpFail := .broadcastFallback
  rokClear := .stickyWhileNonempty
  txOrder := .any

/-- A (bus, device, function) triple of PCI configuration space (20_memory.md R70). -/
structure PciLoc where
  bus : BitVec 8
  dev : BitVec 5
  fn  : BitVec 3
deriving DecidableEq, Repr, Inhabited

/-- The NIC's PCI configuration header: the fields R42 of 10_state.md gives, at NIC_PCI_LOCATION. -/
structure NicPci where
  loc     : PciLoc
  /-- offset 0x00 bits [15:0] -/
  vendor  : Half
  /-- offset 0x00 bits [31:16] -/
  device  : Half
  /-- offset 0x04 bits [15:0]: bit 0 I/O decode enable, bit 2 bus master enable -/
  command : Half
  /-- offset 0x10: bit 0 = 1 for an I/O-space BAR, bits [31:2] the I/O base -/
  bar0    : Word
deriving DecidableEq, Repr, Inhabited

/-- NIC_PCI_LOCATION with the header the platform leaves there, or none: OPEN. -/
opaque Config.nicPciAtLaunch : Option NicPci

/-! ## Free values (00_scope.md R11, R15: `draw()`)

Each is applied to a counter of the state, so that every draw is a fresh value about which nothing is known. -/

/-- A 32-bit draw. -/
opaque Config.drawWord : Nat → Word

/-- A draw of one byte. -/
opaque Config.drawByte : Nat → Byte

/-- A draw between two outcomes. -/
opaque Config.drawBool : Nat → Bool

/-- A draw of a natural number: with `State.agenda` empty, which of the enabled agents goes next. -/
opaque Config.drawNat : Nat → Nat

/-- RESET_LATENCY, a draw in ℕ ∪ {∞}; none is ∞ (40_nic.md R142). -/
opaque Config.drawLatency : Nat → Option Nat

/-- The frames a clobbered slot emits, before the limits of R168 are applied (40_nic.md R168, R169). -/
opaque Config.drawFrames : Nat → List (List Byte)

end Sys2Proof
end

