-- ==== Sys2Proof/Syntax.lean ====
section
/-! DEFINITION. The commands of the AFOS NIC engine, one constructor per row of spec/opcode_table.json
(30_encoding.md R100, R101). A command word has no operand field: every operand is in ARG0..ARG4 (R104). -/

namespace Sys2Proof

/-- A command (30_encoding.md R101). -/
inductive Instr where
  /-- NIC_INIT, 40_nic.md R141. -/
  | nicInit
  /-- NIC_SEND, 40_nic.md R143. -/
  | nicSend
  /-- NIC_RECEIVE, 40_nic.md R145. -/
  | nicReceive
  /-- NIC_IRQ, 40_nic.md R150, R151. -/
  | nicIrq
  /-- ETH_SEND_FRAME, 41_ethernet.md R180. -/
  | ethSendFrame
  /-- ETH_RECEIVE_FRAME, 41_ethernet.md R181. -/
  | ethReceiveFrame
  /-- ETH_PROCESS_FRAME, 41_ethernet.md R182. -/
  | ethProcessFrame
  /-- ETH_POLL, 41_ethernet.md R183. -/
  | ethPoll
  /-- ARP_LOOKUP, 42_arp.md R201. -/
  | arpLookup
  /-- ARP_ADD_OR_UPDATE, 42_arp.md R202. -/
  | arpAddOrUpdate
  /-- ARP_SEND_REQUEST, 42_arp.md R203. -/
  | arpSendRequest
  /-- ARP_SEND_REPLY, 42_arp.md R204. -/
  | arpSendReply
  /-- ARP_PROCESS_PACKET, 42_arp.md R205. -/
  | arpProcessPacket
  /-- ARP_RESOLVE, 42_arp.md R214. -/
  | arpResolve
  /-- ARP_POLL, 42_arp.md R211. -/
  | arpPoll
  /-- IP_SET_ADDRESS, 43_ip.md R230. -/
  | ipSetAddress
  /-- IP_SEND_PACKET, 43_ip.md R234. -/
  | ipSendPacket
  /-- IP_PROCESS_PACKET, 43_ip.md R235. -/
  | ipProcessPacket
  /-- IP_CHECKSUM, 43_ip.md R233. -/
  | ipChecksum
  /-- ICMP_SEND_ECHO_REQUEST, 44_icmp.md R250. -/
  | icmpSendEchoRequest
  /-- ICMP_PROCESS_PACKET, 44_icmp.md R251. -/
  | icmpProcessPacket
deriving DecidableEq, Repr, Inhabited

/-- How many ARG registers a command reads: always ARG0 up to the last column its row of R104 names. -/
def Instr.argCount : Instr → Nat
  | .nicInit => 2
  | .nicSend => 2
  | .nicReceive => 2
  | .nicIrq => 0
  | .ethSendFrame => 5
  | .ethReceiveFrame => 2
  | .ethProcessFrame => 2
  | .ethPoll => 0
  | .arpLookup => 1
  | .arpAddOrUpdate => 3
  | .arpSendRequest => 1
  | .arpSendReply => 4
  | .arpProcessPacket => 4
  | .arpResolve => 2
  | .arpPoll => 0
  | .ipSetAddress => 1
  | .ipSendPacket => 4
  | .ipProcessPacket => 4
  | .ipChecksum => 2
  | .icmpSendEchoRequest => 5
  | .icmpProcessPacket => 3

end Sys2Proof
end

