-- ==== Sys2Proof/WellFormed.lean ====
section
/-! DEFINITION. What a well-formed term is. A command has no field, so a bare `Instr` is always well formed; what can be
ill formed is a command with its operands (30_encoding.md R104, R108), what the WIRE offers (40_nic.md
R166), and the parameters of a launch. -/

namespace Sys2Proof

/-- A command line (30_encoding.md R108): the mnemonic and the value of each ARG column of its row, in order. -/
structure CommandLine where
  instr    : Instr
  operands : List Word
deriving DecidableEq, Repr

/-- A command line gives exactly the operands of the command's row of R104. -/
def CommandLine.wellFormed (c : CommandLine) : Bool :=
  c.operands.length == c.instr.argCount

/-- The frames the WIRE may offer: 14 ≤ len(f) ≤ MAX_RX_FRAME (40_nic.md R166). -/
def wellFormedOffer (p : Params) (f : List Byte) : Bool :=
  decide (Config.minRxFrame ≤ f.length) && decide (f.length ≤ p.maxRxFrame)

/-- Parameters that fit each other: the vendor ID is not the 0xFFFF an absent function reads (10_state.md R42), the slot stride keeps TX buffers
aligned (20_memory.md R78) and holds the longest frame eth_send_frame builds (41_ethernet.md R180), and the slack of the ring takes the
internal receive buffer of a poll (30_encoding.md R114). R7's values do (20_memory.md R91). -/
abbrev Params.Wf (p : Params) : Prop :=
  p.pciVendorId ≠ 0xFFFF ∧ p.txBufSize % Config.txBufAlign = 0 ∧ 1500 ≤ p.txBufSize ∧ p.pollBufSize + 4 ≤ p.rxRingSlack

/-- The MBZ field of a command word is zero (30_encoding.md R100). -/
def mbzIsZero (w : Word) : Bool :=
  w.extractLsb' 8 24 == 0

end Sys2Proof
end

