-- ==== Sys2Proof/Decode.lean ====
section
/-! DEFINITION. The decoder of CMD words (30_encoding.md R100 to R102), total and rejecting by name, and after it the
encoder. An engine register is a little-endian 32-bit word (20_memory.md R76). -/

namespace Sys2Proof

/-- Why a word is no command (30_encoding.md R102). -/
inductive DecodeReject where
  /-- The bytes are fewer than one word. -/
  | truncated
  /-- MBZ, bits [31:8], is not zero. -/
  | mbzNotZero
  /-- OPCODE is not in the map of R101. -/
  | unknownOpcode (op : Byte)
deriving DecidableEq, Repr

/-- The opcode map of 30_encoding.md R101, read from OPCODE to the command. -/
def decodeOpcode (op : Byte) : Option Instr :=
  match op.toNat with
  | 0x01 => some .nicInit
  | 0x02 => some .nicSend
  | 0x03 => some .nicReceive
  | 0x04 => some .nicIrq
  | 0x10 => some .ethSendFrame
  | 0x11 => some .ethReceiveFrame
  | 0x12 => some .ethProcessFrame
  | 0x13 => some .ethPoll
  | 0x20 => some .arpLookup
  | 0x21 => some .arpAddOrUpdate
  | 0x22 => some .arpSendRequest
  | 0x23 => some .arpSendReply
  | 0x24 => some .arpProcessPacket
  | 0x25 => some .arpResolve
  | 0x26 => some .arpPoll
  | 0x30 => some .ipSetAddress
  | 0x31 => some .ipSendPacket
  | 0x32 => some .ipProcessPacket
  | 0x33 => some .ipChecksum
  | 0x40 => some .icmpSendEchoRequest
  | 0x41 => some .icmpProcessPacket
  | _ => none

/-- The command a CMD word encodes (30_encoding.md R100, R102). -/
def decode (w : Word) : Except DecodeReject Instr :=
  if mbzIsZero w then
    match decodeOpcode (w.extractLsb' 0 8) with
    | some i => .ok i
    | none => .error (.unknownOpcode (w.extractLsb' 0 8))
  else .error .mbzNotZero

/-- The word four bytes of a little-endian register hold (20_memory.md R76). -/
def wordOfBytes (b0 b1 b2 b3 : Byte) : Word :=
  b3 ++ b2 ++ b1 ++ b0

/-- Decode the first command of a byte sequence and give the rest of it. -/
def decodeBytes : List Byte → Except DecodeReject (Instr × List Byte)
  | b0 :: b1 :: b2 :: b3 :: rest =>
    match decode (wordOfBytes b0 b1 b2 b3) with
    | .ok i => .ok (i, rest)
    | .error e => .error e
  | _ => .error .truncated

/-- The OPCODE of each command (30_encoding.md R101), written from the map a second time for the encoder. -/
def Instr.opcode : Instr → Byte
  | .nicInit => 0x01
  | .nicSend => 0x02
  | .nicReceive => 0x03
  | .nicIrq => 0x04
  | .ethSendFrame => 0x10
  | .ethReceiveFrame => 0x11
  | .ethProcessFrame => 0x12
  | .ethPoll => 0x13
  | .arpLookup => 0x20
  | .arpAddOrUpdate => 0x21
  | .arpSendRequest => 0x22
  | .arpSendReply => 0x23
  | .arpProcessPacket => 0x24
  | .arpResolve => 0x25
  | .arpPoll => 0x26
  | .ipSetAddress => 0x30
  | .ipSendPacket => 0x31
  | .ipProcessPacket => 0x32
  | .ipChecksum => 0x33
  | .icmpSendEchoRequest => 0x40
  | .icmpProcessPacket => 0x41

/-- The CMD word of a command: OPCODE with MBZ zero (30_encoding.md R100). -/
def encode (i : Instr) : Word :=
  (0 : BitVec 24) ++ i.opcode

/-- The four bytes of a word, lowest address first (20_memory.md R76). -/
def bytesOfWord (w : Word) : List Byte :=
  [w.extractLsb' 0 8, w.extractLsb' 8 8, w.extractLsb' 16 8, w.extractLsb' 24 8]

/-- The CMD word of an instruction of `nbits` table bits `w`: every bit above `nbits` is zero. -/
def tableWord (nbits w : Nat) : Word :=
  BitVec.ofNat 32 (w % 2 ^ nbits)

/-- The command this decoder reads from an instruction whose bits are `w`, numbered as spec/opcode_table.json numbers
them. -/
def decodeTableWord (nbits w : Nat) : Option Instr :=
  match decodeBytes (bytesOfWord (tableWord nbits w)) with
  | .ok (i, _) => some i
  | .error _ => none

end Sys2Proof
end

