-- ==== Sys2Proof/Machine/State.lean ====
section
/-! DEFINITION. The state of the block as plain data (10_state.md; 70_reset_and_hazards.md R300), the reasons a step can
stop, and the state after power-on reset. Functions over it are in Ops.lean, Operands.lean and Flags.lean. -/

namespace Sys2Proof.Machine

/-! ## Named outcomes -/

/-- A result code of STATUS.CODE (60_exceptions.md R270). -/
inductive Code where
  | ok
  | noData
  | miss
  | tooLarge
  | notInitialized
  | illegalCmd
  | deviceNotFound
  | barNotIo
  | resetTimeout
  | timeout
  | unresolved
deriving DecidableEq, Repr

/-- A disposition, the fate of a processed packet (60_exceptions.md R271). -/
inductive Disposition where
  | accepted
  | short
  | badFormat
  | badChecksum
  | notForUs
  | unknownType
  | stub
deriving DecidableEq, Repr

/-- A diagnostics event (60_exceptions.md R285). -/
inductive DiagEvent where
  | echoRequestAnswered (srcIp : Ip) (id seq : Half)
  | echoReplyReceived (srcIp : Ip) (id seq : Half)
deriving DecidableEq, Repr

/-- Why a step faults: the model faults of 60_exceptions.md R274, all of them the spec's own. -/
inductive Fault where
  /-- Raised by every command that reads an ARG register the HOST has not written since reset (10_state.md R23). Safe:
  the device would read some value. -/
  | unwrittenArg
  /-- Raised by a CMD write other than NIC_IRQ while STATUS.BUSY = 1 (10_state.md R21). Safe. -/
  | cmdWhileBusy
  /-- Raised by a HOST access to the engine window that is not an aligned 32-bit word (10_state.md R30). Safe. -/
  | badEngineAccess
  /-- Raised by a HOST read of a device register not of the register's width at its offset (10_state.md R41). Safe. -/
  | badDeviceAccess
  /-- Raised by a HOST write to a device register or a HOST access to an unmodelled device offset (10_state.md R41). Safe. -/
  | hostDeviceAccess
  /-- Raised by every command, and by a HOST memory write, whose range (addr, n) has addr + n > 2^ADDR_WIDTH (20_memory.md R82).
  Safe. -/
  | addrWrap
  /-- Raised by every engine memory access that meets the engine window (20_memory.md R74). Safe. -/
  | bufferOverWindow
  /-- Raised by a HOST write into the RX ring region or a TX buffer whose slot is not pending (20_memory.md R83). Safe. -/
  | hostDmaWrite
  /-- Raised by NIC_IRQ when its drain exceeds RX_RING_LEN/4 iterations (40_nic.md R150). Safe: the design hangs there. -/
  | drainHang
  /-- Raised where a resolve would start while the phase is RESOLVING or inside a dispatch (42_arp.md R214, R215). Safe, and
  never raised by a command started as R21 says. -/
  | nestedResolve
deriving DecidableEq, Repr

/-- Why a step is refused. -/
inductive Refusal where
  /-- Raised by `exec`'s arm of an instruction without a meaning. Safe. No arm raises it in this model. -/
  | notModelled (mnemonic : String)
  /-- ENV_FRAME: raised by NIC_RX when the WIRE offers a frame shorter than 14 or longer than MAX_RX_FRAME bytes (40_nic.md
  R166). Safe: such an offer is outside the model. -/
  | envFrame
  /-- Raised by a HOST write of an ARG register while STATUS.BUSY = 1 (70_reset_and_hazards.md R320: "nothing of the block while
  BUSY = 1 except a NIC_IRQ CMD write and reads of the engine window", a violation with "no move"; notes/assumptions/35.md).
  Safe. -/
  | hostBusyWrite
  /-- Raised by `State.start` on a launch state that breaks a premise (70_reset_and_hazards.md R311, 93_implementation_defined.md section 4).
  Safe. -/
  | launchPremise
deriving DecidableEq, Repr

/-! ## Parts of the state -/

/-- A 32-bit register of the engine window with whether anything has written it since reset (10_state.md R23, R24). -/
structure Latch where
  value   : Word
  written : Bool
deriving DecidableEq, Repr

/-- A live entry of the ARP cache (10_state.md R44). -/
structure ArpEntry where
  ip  : Ip
  mac : Mac
  age : Word
deriving DecidableEq, Repr

/-- A range of host physical memory, (addr, n) (20_memory.md R82). -/
structure MemRange where
  base : Nat
  len  : Nat
deriving DecidableEq, Repr

/-- What a blocked command still has to do when its resolve ends (10_state.md R46, `pending`). The range is the
command's source buffer, which R82 of 20_memory.md compares with what the command writes. -/
inductive Pending where
  /-- ARP_RESOLVE: report the MAC (42_arp.md R214). -/
  | arpResolve
  /-- IP_SEND_PACKET and ICMP_SEND_ECHO_REQUEST: send the assembled packet and report the next hop (43_ip.md R234). -/
  | ipSend (src : MemRange) (pkt : List Byte)
  /-- ICMP_PROCESS_PACKET: send the assembled echo reply and report the request (44_icmp.md R251). -/
  | echoReply (src : MemRange) (pkt : List Byte) (sip : Ip) (id seq : Half)
deriving DecidableEq, Repr

/-- The engine phase (10_state.md R46). -/
inductive Phase where
  | idle
  | resolving (cmd : Instr) (ip : Ip) (remaining : Nat) (pending : Pending)
deriving DecidableEq, Repr

/-- rst_left (10_state.md R47): how many reads of CR still return RST = 1; `reads 0` is no reset in progress. -/
inductive ResetLeft where
  | reads (n : Nat)
  | forever
deriving DecidableEq, Repr

/-- The NIC device: its registers (10_state.md R31 to R40, R53) and internal state (R47). -/
structure Device where
  /-- ISR, interrupt status (R31). -/
  isr       : Half
  /-- IMR, interrupt mask (R53). -/
  imr       : Half
  /-- CR.TE, transmitter enable (R33). -/
  te        : Bool
  /-- CR.RE, receiver enable (R33). -/
  re        : Bool
  /-- RCR, receive configuration (R34). -/
  rcr       : Word
  /-- TSD0..TSD3 (R35). -/
  tsd       : Vector Word 4
  /-- TSAD0..TSAD3 (R36). -/
  tsad      : Vector Word 4
  /-- RBSTART (R37). -/
  rbstart   : Word
  /-- CAPR (R38); RP is computed from it. -/
  capr      : Half
  /-- WP, readable as CBR (R39, R47). -/
  wp        : Half
  /-- IDR0..IDR5, IDR0 most significant (R40). -/
  idr       : Mac
  /-- tx_pending[0..3] (R47). -/
  pending   : Vector Bool 4
  /-- tx_clobbered[0..3] (R47). -/
  clobbered : Vector Bool 4
  /-- rst_left (R47), seen as CR.RST (R33). -/
  rstLeft   : ResetLeft
deriving DecidableEq, Repr

/-- The width of a register access. -/
inductive Width where
  | w8
  | w16
  | w32
deriving DecidableEq, Repr

/-- What the HOST can do at a step boundary (20_memory.md R86, 70_reset_and_hazards.md R320, 30_encoding.md R109). -/
inductive HostMove where
  /-- Read the engine window at an offset. -/
  | engineRead (off : Fin 0x50) (w : Width)
  /-- Write the engine window at an offset; offset 0x00 is CMD. -/
  | engineWrite (off : Fin 0x50) (w : Width) (v : Word)
  /-- Read the device at an I/O offset. -/
  | deviceRead (off : Fin 256) (w : Width)
  /-- Write the device at an I/O offset. -/
  | deviceWrite (off : Fin 256) (w : Width) (v : Word)
  /-- Write host memory. -/
  | memWrite (addr : Word) (bytes : List Byte)
  /-- WAIT: read STATUS until BUSY = 0 (R109). -/
  | wait
deriving DecidableEq, Repr

/-- A turn of one agent (00_scope.md R3, R14). -/
inductive Move where
  /-- The HOST moves. -/
  | host (m : HostMove)
  /-- The WIRE offers a frame with its error mark and NIC_RX takes its step (40_nic.md R166). -/
  | wireRx (frame : List Byte) (bad : Bool)
  /-- NIC_TX transmits a slot, with the outcome (40_nic.md R168). -/
  | nicTx (slot : Fin 4) (success : Bool)
  /-- The ENGINE takes a resolve iteration (42_arp.md R214). -/
  | engine
deriving DecidableEq, Repr

/-- Host physical memory: (address, byte) pairs, addresses strictly rising and below 2^32, no pair equal to what an
unlisted address reads as (`Memory.wf`). -/
abbrev Memory := List Host.Cell

/-- The state of the block, its environment's moves still to come, and what it has put out. -/
structure State where
  /-- CMD, the last word written (R21). -/
  cmd         : Word
  /-- Whether any word was written to CMD since reset (R21). -/
  cmdWritten  : Bool
  /-- STATUS.CODE (R22). -/
  code        : Code
  /-- STATUS.BUSY (R22). -/
  busy        : Bool
  /-- ARG0..ARG4 (R23). -/
  args        : Vector Latch 5
  /-- RES0..RES3 (R24). -/
  res         : Vector Latch 4
  /-- IRQ_ISR (R29). -/
  irqIsr      : Half
  /-- IRQ_DRAINED (R29). -/
  irqDrained  : Word
  /-- Whether a NIC_IRQ has written IRQ_ISR and IRQ_DRAINED since reset (R29). -/
  irqWritten  : Bool
  /-- initialized (R43). -/
  initialized : Bool
  /-- io_base (R43). -/
  ioBase      : Word
  /-- mac, the adapter MAC (R43), mirrored by MAC_HI and MAC_LO (R26). -/
  mac         : Mac
  /-- Whether a NIC_INIT has succeeded since reset, so that MAC_HI and MAC_LO are specified (R26). -/
  macKnown    : Bool
  /-- rx_base (R43). -/
  rxBase      : Word
  /-- tx_addr[0..3] (R43). -/
  txAddr      : Vector Word 4
  /-- tx_slot (R43). -/
  txSlot      : Fin 4
  /-- rx_off (R43). -/
  rxOff       : Half
  /-- our_ip (R43), mirrored by OUR_IP (R25). -/
  ourIp       : Ip
  /-- The live entries arp[0..arp_count) of the cache (R44); arp_count (R45) is its length. -/
  arp         : List ArpEntry
  /-- arp_rr (R45). -/
  arpRr       : Fin 16
  /-- The engine phase (R46). -/
  phase       : Phase
  /-- The NIC device (R31 to R40, R47, R53). -/
  dev         : Device
  /-- The NIC's PCI configuration header at NIC_PCI_LOCATION, or none (R42). -/
  pci         : Option NicPci
  /-- Host physical memory (20_memory.md R70, R71). -/
  mem         : Memory
  /-- WIRE_OUT (R48), oldest first. -/
  wireOut     : List (List Byte)
  /-- DIAG (R48), oldest first. -/
  diag        : List DiagEvent
  /-- FAULT (R48, 60_exceptions.md R274): with a fault recorded no agent steps. -/
  faults      : List Fault
  /-- The refusal mark of the run (70_reset_and_hazards.md R311, 93_implementation_defined.md: "The run is marked refused"). -/
  refusals    : List Refusal
  /-- The launch parameters (00_scope.md R7), constant through a run. -/
  params      : Params
  /-- MODEL: the turns still to come, next first: the HOST's program, the WIRE's input and the schedule in one list. -/
  agenda      : List Move
  /-- MODEL: how many free values have been taken. -/
  draws       : Nat
  /-- MODEL: the word the HOST's last register read returned. -/
  hostData    : Word
deriving DecidableEq, Repr

/-- The device after power-on reset (70_reset_and_hazards.md R300) with its burned-in MAC. -/
def Device.reset (mac : Mac) : Device where
  isr := 0
  imr := 0
  te := false
  re := false
  rcr := 0
  tsd := Vector.replicate 4 0x2000
  tsad := Vector.replicate 4 0
  rbstart := 0
  capr := 0xFFF0
  wp := 0
  idr := mac
  pending := Vector.replicate 4 false
  clobbered := Vector.replicate 4 false
  rstLeft := .reads 0

/-- The block after power-on reset (70_reset_and_hazards.md R300) for every argument a launch takes: the parameters of R7, the PCI header
the platform leaves at NIC_PCI_LOCATION (bus mastering off), and the contents of host memory (20_memory.md R71, a free input). Nothing
is placed in the agenda. The registers R300 leaves unspecified hold 0 (DESIGN CHOICE, notes/assumptions/6.md and 7.md). -/
def State.launch (p : Params) (mac : Mac) (pci : Option NicPci) (mem : Memory) : State where
  cmd := 0
  cmdWritten := false
  code := .ok
  busy := false
  args := Vector.replicate 5 ⟨0, false⟩
  res := Vector.replicate 4 ⟨0, false⟩
  irqIsr := 0
  irqDrained := 0
  irqWritten := false
  initialized := false
  ioBase := 0
  mac := 0
  macKnown := false
  rxBase := 0
  txAddr := Vector.replicate 4 0
  txSlot := 0
  rxOff := 0
  ourIp := p.ourIpReset
  arp := []
  arpRr := 0
  phase := .idle
  dev := Device.reset mac
  pci := pci.map fun h => { h with command := h.command &&& 0xFFFB }
  mem := mem
  wireOut := []
  diag := []
  faults := []
  refusals := []
  params := p
  agenda := []
  draws := 0
  hostData := 0

/-- The block after power-on reset with R7's values, the OPEN arguments being the opaque constants of Config, and nothing listed in
memory. -/
def State.reset : State :=
  State.launch Config.params Config.burnedInMac Config.nicPciAtLaunch []

end Sys2Proof.Machine
end

