-- ==== Sys2Proof/Machine/Bytes.lean ====
section
/-! DEFINITION. Byte sequences, multi-byte fields and the arithmetic helpers of 00_scope.md R8 and R9. -/

namespace Sys2Proof.Machine

/-- `align_up(x, a)` (00_scope.md R8). -/
def alignUp (x a : Nat) : Nat :=
  (x + a - 1) / a * a

/-- `ceil_div(x, d)` (00_scope.md R8). -/
def ceilDiv (x d : Nat) : Nat :=
  (x + d - 1) / d

/-- `zeros(n)` (00_scope.md R8). -/
def zeros (n : Nat) : List Byte :=
  List.replicate n 0

/-- Byte `o` of a sequence; every use is behind a length check. -/
def byteAt (b : List Byte) (o : Nat) : Byte :=
  b.getD o 0

/-- `be16(b, o)` (00_scope.md R9). -/
def be16 (b : List Byte) (o : Nat) : Half :=
  byteAt b o ++ byteAt b (o + 1)

/-- `be32(b, o)` (00_scope.md R9). -/
def be32 (b : List Byte) (o : Nat) : Word :=
  be16 b o ++ be16 b (o + 2)

/-- `le16(b, o)` (00_scope.md R9). -/
def le16 (b : List Byte) (o : Nat) : Half :=
  byteAt b (o + 1) ++ byteAt b o

/-- `mac48(b, o)` (00_scope.md R9). -/
def mac48 (b : List Byte) (o : Nat) : Mac :=
  be16 b o ++ be32 b (o + 2)

/-- `BE16(v)` (00_scope.md R9). -/
def bytesBe16 (v : Half) : List Byte :=
  [v.extractLsb' 8 8, v.extractLsb' 0 8]

/-- `BE32(v)` (00_scope.md R9). -/
def bytesBe32 (v : Word) : List Byte :=
  bytesBe16 (v.extractLsb' 16 16) ++ bytesBe16 (v.extractLsb' 0 16)

/-- `LE16(v)` (00_scope.md R9). -/
def bytesLe16 (v : Half) : List Byte :=
  [v.extractLsb' 0 8, v.extractLsb' 8 8]

/-- `MACBYTES(m)` (00_scope.md R9). -/
def macBytes (m : Mac) : List Byte :=
  bytesBe16 (m.extractLsb' 32 16) ++ bytesBe32 (m.extractLsb' 0 32)

/-- Put the two bytes of `BE16(v)` over bytes `o` and `o + 1` of a sequence. -/
def putBe16 (b : List Byte) (o : Nat) (v : Half) : List Byte :=
  b.take o ++ bytesBe16 v ++ b.drop (o + 2)

/-- The sum of the 16-bit words of a sequence in network byte order, an odd last byte being the high byte of a word
(43_ip.md R233). -/
def sumWords : List Byte → Nat
  | [] => 0
  | [b] => b.toNat * 256
  | b0 :: b1 :: rest => b0.toNat * 256 + b1.toNat + sumWords rest

/-- `while s > 0xFFFF: s <- (s & 0xFFFF) + (s >> 16)` (43_ip.md R233), the first argument bounding the rounds. -/
def foldCarries : Nat → Nat → Nat
  | 0, s => s
  | n + 1, s => if s > 0xFFFF then foldCarries n (s % 65536 + s / 65536) else s

/-- `internet_checksum(b)` (43_ip.md R233). Each folding round makes a sum above 0xFFFF smaller, so the sum itself bounds
the rounds. -/
def internetChecksum (b : List Byte) : Half :=
  ~~~(BitVec.ofNat 16 (foldCarries (sumWords b) (sumWords b)))

end Sys2Proof.Machine
end

