-- ==== Sys2Proof/Machine/Ops.lean ====
section
/-! DEFINITION. The named operations over memory and the engine's registers: reading and writing host memory
(20_memory.md), free values, finishing a command (00_scope.md R10; the block takes no trap, 60_exceptions.md R279, so
`finish` and a model fault are all there is of an exception) and the entry of a preempting NIC_IRQ (R280). -/

namespace Sys2Proof.Machine

/-! ## Host physical memory -/

/-- What a byte of memory nobody has written reads as (DESIGN CHOICE, notes/assumptions/5.md: 20_memory.md R71 makes the launch memory a
free input). -/
def Memory.unlisted (_a : Nat) : Byte := 0

/-- Read one byte. -/
def Memory.read : Memory → Nat → Byte
  | [], a => Memory.unlisted a
  | (k, v) :: rest, a => if k = a then v else Memory.read rest a

/-- Write one byte, keeping the canonical form. -/
def Memory.write : Memory → Nat → Byte → Memory
  | [], a, v => if v = Memory.unlisted a then [] else [(a, v)]
  | (k, w) :: rest, a, v =>
    if a < k then
      if v = Memory.unlisted a then (k, w) :: rest else (a, v) :: (k, w) :: rest
    else if a = k then
      if v = Memory.unlisted a then rest else (a, v) :: rest
    else (k, w) :: Memory.write rest a v

/-- The canonical form from a least address on: addresses strictly rising, no byte equal to the unlisted one. -/
def Memory.wfFrom : Nat → Memory → Bool
  | _, [] => true
  | lo, (k, v) :: rest =>
    decide (lo ≤ k) && decide (v ≠ Memory.unlisted k) && Memory.wfFrom (k + 1) rest

/-- The canonical form of memory, every address below 2^32 (the canonical form does not depend on the launch arguments). -/
def Memory.wf (m : Memory) : Bool :=
  Memory.wfFrom 0 m && m.all fun c => decide (c.1 < Config.addrSpace)

/-- The physical address of a sum: address registers have 32 bits (notes/assumptions/16.md). -/
def physAddr (a : Nat) : Nat :=
  a % Config.addrSpace

/-- `MemRead(addr, n)` (00_scope.md R11). -/
def Memory.readBytes (m : Memory) (a : Nat) : Nat → List Byte
  | 0 => []
  | n + 1 => m.read (physAddr a) :: Memory.readBytes m (a + 1) n

/-- `MemWrite(addr, n, bytes)` (00_scope.md R11). -/
def Memory.writeBytes (m : Memory) (a : Nat) : List Byte → Memory
  | [] => m
  | b :: rest => Memory.writeBytes (m.write (physAddr a) b) (a + 1) rest

/-! ## Ranges (20_memory.md R74, R82, R83) -/

/-- Two ranges share a byte. -/
def MemRange.meets (r q : MemRange) : Bool :=
  decide (0 < r.len) && decide (0 < q.len) && decide (r.base < q.base + q.len) && decide (q.base < r.base + r.len)

/-- The empty range: the source of a command that reads no host buffer. -/
def MemRange.none : MemRange := ⟨0, 0⟩

/-- The engine register window ENGINE_BASE..ENGINE_BASE+0x4F (20_memory.md R74). -/
def State.window (s : State) : MemRange :=
  ⟨s.params.engineBase.toNat, Config.windowLen⟩

/-- The RX ring region with its slack (20_memory.md R83). -/
def State.rxRegion (s : State) : MemRange :=
  ⟨s.rxBase.toNat, s.params.rxRingLen + s.params.rxRingSlack⟩

/-- TX buffer `i` (20_memory.md R83). -/
def State.txBuffer (s : State) (i : Fin 4) : MemRange :=
  ⟨s.txAddr[i].toNat, s.params.txBufSize⟩

/-- `check_range(a, n)` (20_memory.md R82). -/
def State.checkRange (s : State) (r : MemRange) : Except Fault Unit :=
  if r.base + r.len ≤ s.params.addrSpace then .ok () else .error .addrWrap

/-- The checks on an engine access to host memory: an empty range touches nothing, a range past the
address space wraps (20_memory.md R82), a range over the engine window faults (R74). -/
def State.checkAccess (s : State) (r : MemRange) : Except Fault Unit :=
  if r.len = 0 then .ok ()
  else if s.params.addrSpace < r.base + r.len then .error .addrWrap
  else if r.meets s.window then .error .bufferOverWindow
  else .ok ()

/-- An engine MemRead (20_memory.md R72, R74, R82). -/
def State.engineLoad (s : State) (r : MemRange) : Except Fault (List Byte) :=
  match s.checkAccess r with
  | .ok _ => .ok (s.mem.readBytes r.base r.len)
  | .error f => .error f

/-- An engine MemWrite (20_memory.md R72, R74, R82). -/
def State.engineStore (s : State) (a : Nat) (b : List Byte) : Except Fault State :=
  match s.checkAccess ⟨a, b.length⟩ with
  | .ok _ => .ok { s with mem := s.mem.writeBytes a b }
  | .error f => .error f

/-- Mark every pending slot whose buffer a write meets (10_state.md R47: "or its buffer written, while pending"). -/
def State.clobberMet (s : State) (r : MemRange) : State :=
  { s with dev := { s.dev with
      clobbered := Vector.ofFn fun i : Fin 4 =>
        s.dev.clobbered[i] || (s.dev.pending[i] && (s.txBuffer i).meets r) } }

/-! ## Free values (00_scope.md R11) -/

/-- Draw a 32-bit value. -/
def State.drawWord (s : State) : Word × State :=
  (Config.drawWord s.draws, { s with draws := s.draws + 1 })

/-- Draw `n` bytes. -/
def State.drawBytes (s : State) (n : Nat) : List Byte × State :=
  ((List.range n).map fun k => Config.drawByte (s.draws + k), { s with draws := s.draws + n })

/-- The bytes a command with source range `src` puts at `dst`: the data, or draws where the two ranges overlap
(20_memory.md R82). -/
def State.stored (s : State) (src dst : MemRange) (data : List Byte) : List Byte × State :=
  if src.meets dst then s.drawBytes data.length else (data, s)

/-! ## Registers of the engine window -/

/-- `RES[i] <- v` (00_scope.md R10, 10_state.md R24). -/
def State.setRes (s : State) (i : Fin 4) (v : Word) : State :=
  { s with res := s.res.set i ⟨v, true⟩ }

/-- A HOST write of ARG register `i` (10_state.md R23). -/
def State.setArg (s : State) (i : Fin 5) (v : Word) : State :=
  { s with args := s.args.set i ⟨v, true⟩ }

/-- `finish(code)`: STATUS.CODE <- code, STATUS.BUSY <- 0 (00_scope.md R10). Every command ends so, in error codes too: the
block takes no trap (60_exceptions.md R279). -/
def State.finish (s : State) (c : Code) : State :=
  { s with code := c, busy := false }

/-- `emit_diag(event)` (00_scope.md R11). -/
def State.emitDiag (s : State) (e : DiagEvent) : State :=
  { s with diag := s.diag ++ [e] }

/-- `emit_wire(frame)` (00_scope.md R11). -/
def State.emitWire (s : State) (f : List Byte) : State :=
  { s with wireOut := s.wireOut ++ [f] }

/-- A NIC_IRQ preempts when the CMD write finds STATUS.BUSY = 1 (40_nic.md R151). -/
def State.preempting (s : State) : Bool := s.busy

/-- The end of NIC_IRQ (40_nic.md R150, R151; 60_exceptions.md R280): a preempting one leaves STATUS as it is and so returns
to the suspended command, any other finishes. -/
def State.finishIrq (s : State) (c : Code) : State :=
  if s.preempting then s else s.finish c

/-- The outcome of a step that either reaches a state or raises a model fault. -/
def outcome (r : Except Fault State) : Host.Outcome State Fault Refusal :=
  match r with
  | .ok t => .next t
  | .error f => .fault f

end Sys2Proof.Machine
end

