-- ==== Sys2Proof/Machine/Operands.lean ====
section
/-! DEFINITION. The operands of a command (30_encoding.md R104 to R107): reading ARG registers, narrow operands, and the
packing of MAC addresses into registers. -/

namespace Sys2Proof.Machine

/-- `ARG[i]`: an ARG register the HOST never wrote since reset faults (10_state.md R23). -/
def State.arg (s : State) (i : Fin 5) : Except Fault Word :=
  if s.args[i].written then .ok s.args[i].value else .error .unwrittenArg

/-- `MAC(hi, lo)` (30_encoding.md R106). -/
def macOf (hi lo : Word) : Mac :=
  hi.extractLsb' 0 16 ++ lo

/-- `mac_hi`: m[47:32] (30_encoding.md R106). -/
def macHi (m : Mac) : Word :=
  (m.extractLsb' 32 16).zeroExtend 32

/-- `mac_lo`: m[31:0] (30_encoding.md R106). -/
def macLo (m : Mac) : Word :=
  m.extractLsb' 0 32

/-- The low 16 bits of an ARG register (30_encoding.md R105). -/
def lowHalf (v : Word) : Half :=
  v.extractLsb' 0 16

/-- The low 8 bits of an ARG register (30_encoding.md R105). -/
def lowByte (v : Word) : Byte :=
  v.extractLsb' 0 8

/-- The host buffer an address operand and a length operand give (30_encoding.md R107). -/
def bufferOf (addr len : Word) : MemRange :=
  ⟨addr.toNat, len.toNat⟩

/-- `check_range(src, n)` and then `MemRead(src, n)` of a command's source buffer (20_memory.md R72, R82). A buffer that lies in the RX ring
region or in a TX buffer is read like any other: that is against the HOST's duty (R83, 70_reset_and_hazards.md R320), but 60_exceptions.md R274
names no fault for it (DESIGN CHOICE, notes/assumptions/40.md). -/
def State.loadSource (s : State) (r : MemRange) : Except Fault (List Byte) :=
  match s.checkRange r with
  | .ok _ => s.engineLoad r
  | .error f => .error f

/-- The write of a received frame into the host buffer at `dst` (20_memory.md R72), read from the ring range `src`: draws where the two
overlap (R82), and a pending slot whose buffer it meets is clobbered (10_state.md R47). A buffer that lies in the RX ring region or in the TX
buffer of a free slot is written like any other: that is against the HOST's duty (R83, 70_reset_and_hazards.md R320), but 60_exceptions.md
R274 names no fault for it (DESIGN CHOICE, notes/assumptions/37.md). -/
def State.deliver (s : State) (src : MemRange) (dst : Nat) (b : List Byte) : Except Fault State :=
  let (b, s) := s.stored src ⟨dst, b.length⟩ b
  match s.engineStore dst b with
  | .ok s => .ok (s.clobberMet ⟨dst, b.length⟩)
  | .error f => .error f

/-- `RES[0] <- m[47:32]; RES[1] <- m[31:0]` (30_encoding.md R104, R106). -/
def State.setResMac (s : State) (m : Mac) : State :=
  (s.setRes 0 (macHi m)).setRes 1 (macLo m)

end Sys2Proof.Machine
end

