-- ==== Sys2Proof/Machine/Flags.lean ====
section
/-! DEFINITION. The flags and registers of the NIC device with the effect of each access (10_state.md R31 to R40, R50, R53),
the words the engine window shows (R22, R27), the codes' numbers (60_exceptions.md R270, R271) and the IRQ line (R276). -/

namespace Sys2Proof.Machine

/-! ## Ring pointers and CR -/

/-- The ring length the device uses: 8192 << RCR.RBLEN, RCR[12:11] (10_state.md R34). -/
def Device.ringLen (d : Device) : Nat :=
  ringLenOf (d.rcr.extractLsb' 11 2)

/-- RP = ((CAPR + 16) mod 2^16) mod RX_RING_LEN (10_state.md R38), the length being the one RCR.RBLEN gives the device. -/
def Device.rp (d : Device) : Nat :=
  (d.capr.toNat + 16) % 65536 % d.ringLen

/-- The ring is empty, CR.BUFE = 1: RP = WP (10_state.md R33, R47). -/
def Device.ringEmpty (d : Device) : Bool :=
  d.rp == d.wp.toNat

/-- A soft reset is in progress, CR.RST = 1 (10_state.md R33). -/
def Device.resetting (d : Device) : Bool :=
  match d.rstLeft with
  | .reads 0 => false
  | .reads (_ + 1) => true
  | .forever => true

/-- CR as a read returns it (10_state.md R33). -/
def Device.crWord (d : Device) : Byte :=
  (BitVec.ofBool d.ringEmpty).zeroExtend 8 ||| (BitVec.ofBool d.te).zeroExtend 8 <<< 2 |||
    (BitVec.ofBool d.re).zeroExtend 8 <<< 3 ||| (BitVec.ofBool d.resetting).zeroExtend 8 <<< 4

/-- One read of CR has been made: a soft reset in progress ends after RESET_LATENCY of them (40_nic.md R142,
70_reset_and_hazards.md R302). -/
def Device.afterCrRead (d : Device) : Device :=
  match d.rstLeft with
  | .reads 0 => d
  | .reads (n + 1) => { d with rstLeft := .reads n }
  | .forever => d

/-- Poll CR.RST at most `limit` times: whether a read returned 0, and the device after the reads (40_nic.md R141 step 3). -/
def Device.pollReset : Nat → Device → Bool × Device
  | 0, d => (false, d)
  | k + 1, d => if d.resetting then Device.pollReset k d.afterCrRead else (true, d.afterCrRead)

/-! ## ISR, IMR and the IRQ line -/

/-- ISR as a read returns it: bits 15:5 read 0 (10_state.md R31). -/
def Device.isrWord (d : Device) : Half :=
  d.isr &&& 0x001F

/-- ISR.ROK. -/
def Device.rok (d : Device) : Bool :=
  d.isr.getLsbD 0

/-- The device sets ISR bit `k` (10_state.md R31). -/
def Device.setIsr (d : Device) (k : Nat) : Device :=
  { d with isr := d.isr ||| (1 : Half) <<< k }

/-- A write of ISR: write-1-to-clear, but under STICKY_WHILE_NONEMPTY ROK stays while the ring holds an unread packet
(10_state.md R31, R32). -/
def Device.writeIsr (p : RokClearPolicy) (v : Half) (d : Device) : Device :=
  let clear : Half :=
    match p with
    | .stickyWhileNonempty => if d.ringEmpty then v &&& 0x001F else v &&& 0x001E
    | .unconditional => v &&& 0x001F
  { d with isr := d.isr &&& ~~~clear }

/-- IRQ = 1 iff (ISR & IMR)[4:0] ≠ 0, a level (60_exceptions.md R276). -/
def State.irqLine (s : State) : Bool :=
  s.dev.isr &&& s.dev.imr &&& 0x001F != 0

/-! ## Transmit descriptors -/

/-- A write of TSD[i]: SIZE, OWN and the stored bits are taken, TUN and TOK read 0, and bit 13 = 0 hands the slot to the
device (10_state.md R35). -/
def Device.writeTsd (d : Device) (i : Fin 4) (v : Word) : Device :=
  { d with
    tsd := d.tsd.set i (v &&& 0xFFFF3FFF)
    pending := if v.getLsbD 13 then d.pending else d.pending.set i true }

/-- TSD[i] as a read returns it: TUN reads 0 (10_state.md R35). -/
def Device.tsdWord (d : Device) (i : Fin 4) : Word :=
  d.tsd[i] &&& 0xFFFFBFFF

/-- TSD[i].SIZE (10_state.md R35). -/
def Device.txSize (d : Device) (i : Fin 4) : Nat :=
  (d.tsd[i].extractLsb' 0 13).toNat

/-- TSD[i].OWN <- 1 (10_state.md R35). -/
def Device.setOwn (d : Device) (i : Fin 4) : Device :=
  { d with tsd := d.tsd.set i (d.tsd[i] ||| 0x2000) }

/-- TSD[i].OWN <- 1 and TSD[i].TOK <- 1 (10_state.md R35). -/
def Device.setOwnTok (d : Device) (i : Fin 4) : Device :=
  { d with tsd := d.tsd.set i (d.tsd[i] ||| 0xA000) }

/-! ## Soft reset -/

/-- RESET_LATENCY as the reads of CR.RST still to return 1 (40_nic.md R142). -/
def ResetLeft.ofLatency : Option Nat → ResetLeft
  | some n => .reads n
  | none => .forever

/-- The effects of a soft reset (70_reset_and_hazards.md R302), the unspecified TSD and RCR and the latency given. -/
def Device.softReset (d : Device) (tsd : Vector Word 4) (rcr : Word) (latency : Option Nat) : Device :=
  { d with
    isr := 0
    imr := 0
    te := false
    re := false
    wp := 0
    capr := 0xFFF0
    pending := Vector.replicate 4 false
    clobbered := Vector.replicate 4 false
    tsd := tsd
    rcr := rcr
    rstLeft := ResetLeft.ofLatency latency }

/-- A soft reset with its draws: four TSD values, RCR and RESET_LATENCY (70_reset_and_hazards.md R302). -/
def State.softReset (s : State) : State :=
  { s with
    dev := s.dev.softReset (Vector.ofFn fun i : Fin 4 => Config.drawWord (s.draws + i.val))
      (Config.drawWord (s.draws + 4)) (Config.drawLatency (s.draws + 5))
    draws := s.draws + 6 }

/-- A write of CR: bit 4 starts a soft reset, otherwise RE and TE are taken (10_state.md R33, 70_reset_and_hazards.md R302). -/
def State.writeCr (s : State) (v : Byte) : State :=
  if v.getLsbD 4 then s.softReset
  else { s with dev := { s.dev with te := v.getLsbD 2, re := v.getLsbD 3 } }

/-! ## Words of the engine window -/

/-- The number of a result code (60_exceptions.md R270). -/
def Code.number : Code → Byte
  | .ok => 0x00
  | .noData => 0x01
  | .miss => 0x02
  | .tooLarge => 0x10
  | .notInitialized => 0x11
  | .illegalCmd => 0x12
  | .deviceNotFound => 0x20
  | .barNotIo => 0x21
  | .resetTimeout => 0x22
  | .timeout => 0x30
  | .unresolved => 0x31

/-- The number of a disposition (60_exceptions.md R271). -/
def Disposition.number : Disposition → Word
  | .accepted => 0
  | .short => 1
  | .badFormat => 2
  | .badChecksum => 3
  | .notForUs => 4
  | .unknownType => 5
  | .stub => 6

/-- STATUS: CODE in [7:0], BUSY in [8], the rest 0 (10_state.md R22). -/
def State.statusWord (s : State) : Word :=
  s.code.number.zeroExtend 32 ||| (BitVec.ofBool s.busy).zeroExtend 32 <<< 8

/-- The engine is in phase RESOLVING (10_state.md R46). -/
def Phase.isResolving : Phase → Bool
  | .idle => false
  | .resolving _ _ _ _ => true

/-- ENGSTAT (10_state.md R27). -/
def State.engstatWord (s : State) : Word :=
  (BitVec.ofBool s.initialized).zeroExtend 32 |||
    (BitVec.ofNat 32 s.txSlot.val) <<< 4 |||
    (BitVec.ofNat 5 s.arp.length).zeroExtend 32 <<< 8 |||
    (BitVec.ofNat 32 s.arpRr.val) <<< 16 |||
    (BitVec.ofBool s.phase.isResolving).zeroExtend 32 <<< 24

end Sys2Proof.Machine
end

