-- ==== Sys2Proof/Machine/Nic.lean ====
section
/-! DEFINITION. The NIC DMA ring descriptor engine (40_nic.md): PCI discovery, the TX and RX operations every layer uses, and the
commands NIC_INIT, NIC_SEND and NIC_RECEIVE. NIC_IRQ, which dispatches frames, stands in Poll.lean. -/

namespace Sys2Proof.Machine

/-! ## PCI configuration space (10_state.md R42, 40_nic.md R141) -/

/-- The `k`-th triple of the scan, in lexicographic order. -/
def PciLoc.ofIndex (k : Nat) : PciLoc :=
  ⟨BitVec.ofNat 8 (k / 256), BitVec.ofNat 5 (k / 8), BitVec.ofNat 3 k⟩

/-- `PciRead32`: the NIC's header at its location; where there is no device the vendor ID reads 0xFFFF (10_state.md R42). -/
def State.pciRead (s : State) (loc : PciLoc) (off : Nat) : Word :=
  match s.pci with
  | none => 0xFFFFFFFF
  | some p =>
    if p.loc = loc then
      if off = 0x00 then p.device ++ p.vendor
      else if off = 0x04 then p.command.zeroExtend 32
      else if off = 0x10 then p.bar0
      else 0
    else 0xFFFFFFFF

/-- The scan over `n` triples from the `k`-th on: the first whose IDs match (40_nic.md R141 step 1). -/
def State.pciScan (s : State) : Nat → Nat → Option PciLoc
  | 0, _ => none
  | n + 1, k =>
    let id := s.pciRead (PciLoc.ofIndex k) 0x00
    if id.extractLsb' 0 16 = s.params.pciVendorId ∧ id.extractLsb' 16 16 = s.params.pciDeviceId then
      some (PciLoc.ofIndex k)
    else State.pciScan s n (k + 1)

/-- The whole scan: bus 0..255, dev 0..31, fn 0..7. -/
def State.pciFind (s : State) : Option PciLoc :=
  s.pciScan 65536 0

/-- `PciWrite32(loc, 0x04, v)`: the command register takes the low half; the status half is written 0, which changes nothing. -/
def State.pciWriteCommand (s : State) (loc : PciLoc) (v : Word) : State :=
  { s with pci := s.pci.map fun p => if p.loc = loc then { p with command := v.extractLsb' 0 16 } else p }

/-- The NIC may do DMA: PCI command bit 2 (10_state.md R42). -/
def State.busMaster (s : State) : Bool :=
  match s.pci with
  | none => false
  | some p => p.command.getLsbD 2

/-! ## NIC_INIT -/

/-- Steps 5 to 7 of NIC_INIT (40_nic.md R141, 30_encoding.md R116): place the ring and the TX buffers, program the device, read the
burned-in MAC. -/
def State.bringUp (s : State) (rxr txr : Word) : State :=
  let rxBase : Word := BitVec.ofNat 32 (alignUp rxr.toNat Config.rxRingAlign)
  let txAddr : Vector Word 4 :=
    Vector.ofFn fun i : Fin 4 => BitVec.ofNat 32 (alignUp txr.toNat Config.txBufAlign + i.val * s.params.txBufSize)
  let s := { s with
    rxBase := rxBase
    txAddr := txAddr
    dev := { s.dev with rbstart := rxBase, tsad := txAddr, rcr := s.params.rcrInit, imr := 0x0005 } }
  let s := s.writeCr 0x0C
  { s with mac := s.dev.idr, macKnown := true, txSlot := 0, rxOff := 0, initialized := true }

/-- NIC_INIT after its range rule (40_nic.md R141, R142, R144). -/
def State.nicInit (s : State) (rxr txr : Word) : State :=
  let s := { s with initialized := false }
  match s.pciFind with
  | none => s.finish .deviceNotFound
  | some loc =>
    let bar := s.pciRead loc 0x10
    if bar.getLsbD 0 = false then s.finish .barNotIo
    else
      let s := ({ s with ioBase := bar &&& 0xFFFFFFFC }).writeCr 0x10
      let (ready, d) := s.dev.pollReset s.params.resetPollLimit
      let s := { s with dev := d }
      if ready = false then s.finish .resetTimeout
      else
        let c := s.pciRead loc 0x04
        let s := (s.pciWriteCommand loc ((c &&& 0x0000FFFF) ||| 0x00000004)).bringUp rxr txr
        (s.setResMac s.mac).finish .ok

/-- NIC_INIT (40_nic.md R141). Both regions are tested before any effect (20_memory.md R82, 90_conflicts.md C17). -/
def execNicInit (s : State) : Host.Outcome State Fault Refusal :=
  outcome do
    let rxr ← s.arg 0
    let txr ← s.arg 1
    if alignUp rxr.toNat Config.rxRingAlign + s.params.rxRingLen + s.params.rxRingSlack > s.params.addrSpace ∨
        alignUp txr.toNat Config.txBufAlign + Config.txSlots * s.params.txBufSize > s.params.addrSpace then
      .error .addrWrap
    else .ok (s.nicInit rxr txr)

/-! ## NIC_SEND -/

/-- A handover of slot `i` for a slot already pending clobbers it (40_nic.md R148, R169). -/
def State.clobberIfPending (s : State) (i : Fin 4) : State :=
  if s.dev.pending[i] then { s with dev := { s.dev with clobbered := s.dev.clobbered.set i true } } else s

/-- TSAD[i] <- tx_addr[i]; TSD[i] <- len & 0x1FFF; advance tx_slot (40_nic.md R148, 30_encoding.md R115). -/
def State.handOver (s : State) (i : Fin 4) (len : Nat) : State :=
  { s with
    dev := ({ s.dev with tsad := s.dev.tsad.set i s.txAddr[i] }).writeTsd i (BitVec.ofNat 32 (len % 8192))
    txSlot := i + 1 }

/-- `nic_send(data)` (40_nic.md R148) for a command whose source buffer is `src`. -/
def State.nicSend (s : State) (src : MemRange) (data : List Byte) : Except Fault State :=
  let i := s.txSlot
  let a := s.txAddr[i].toNat
  let (image, s) := (s.clobberIfPending i).stored src ⟨a, data.length⟩ data
  match s.engineStore a image with
  | .ok s => .ok (s.handOver i data.length)
  | .error f => .error f

/-- NIC_SEND (40_nic.md R143). -/
def execNicSend (s : State) : Host.Outcome State Fault Refusal :=
  outcome do
    let src ← s.arg 0
    let n ← s.arg 1
    if s.initialized = false then .ok (s.finish .notInitialized)
    else if n.toNat > s.params.txBufSize then .ok (s.finish .tooLarge)
    else
      let data ← s.loadSource (bufferOf src n)
      let s ← s.nicSend (bufferOf src n) data
      .ok (s.finish .ok)

/-! ## NIC_RECEIVE -/

/-- `rx_advance(L)` (40_nic.md R146). -/
def State.rxAdvance (s : State) (len : Nat) : State :=
  let off := alignUp (s.rxOff.toNat + Config.rxHdrLen + len) Config.rxPtrAlign % s.params.rxRingLen
  { s with
    rxOff := BitVec.ofNat 16 off
    dev := { s.dev with capr := BitVec.ofNat 16 off - 16 } }

/-- `IoWrite16(0x3E, v)`. -/
def State.writeIsr (s : State) (v : Half) : State :=
  { s with dev := s.dev.writeIsr s.params.rokClear v }

/-- Where the next record of the ring starts in host memory. -/
def State.ringHead (s : State) : Nat :=
  s.rxBase.toNat + s.rxOff.toNat

/-- `nic_receive(buflen) -> (code, bytes)` (40_nic.md R149). -/
def State.nicReceive (s : State) (buflen : Nat) : Except Fault ((Code × List Byte) × State) :=
  if s.initialized = false then .ok ((.notInitialized, []), s)
  else if s.dev.rok = false then .ok ((.noData, []), s)
  else do
    let hdr ← s.engineLoad ⟨s.ringHead, Config.rxHdrLen⟩
    let len := (le16 hdr 2).toNat % 8192
    if (le16 hdr 0).getLsbD 0 = false ∨ len < 4 then .ok ((.noData, []), s.rxAdvance len)
    else
      let bytes ← s.engineLoad ⟨s.ringHead + Config.rxHdrLen, min (len - 4) buflen⟩
      .ok ((.ok, bytes), (s.rxAdvance len).writeIsr 0x0001)

/-- The ring bytes a receive of `n` frame bytes reads (20_memory.md R72): the header and the frame. -/
def State.recordRange (s : State) (n : Nat) : MemRange :=
  ⟨s.ringHead, Config.rxHdrLen + n⟩

/-- The end of NIC_RECEIVE and ETH_RECEIVE_FRAME: a received frame goes to the host buffer and its length to RES0, anything
else gives RES0 = 0 (40_nic.md R145, 41_ethernet.md R181). `before` is the state the receive started in. -/
def State.finishReceive (s before : State) (dst : Word) (r : Code × List Byte) : Except Fault State :=
  match r with
  | (.ok, bytes) => do
    let s ← s.deliver (before.recordRange bytes.length) dst.toNat bytes
    .ok ((s.setRes 0 (BitVec.ofNat 32 bytes.length)).finish .ok)
  | (c, _) => .ok ((s.setRes 0 0).finish c)

/-- NIC_RECEIVE (40_nic.md R145). RES0 is 0 unless the code is OK, without the device too (30_encoding.md R104;
notes/assumptions/18.md). -/
def execNicReceive (s : State) : Host.Outcome State Fault Refusal :=
  outcome do
    let dst ← s.arg 0
    let buflen ← s.arg 1
    if s.initialized = false then .ok ((s.setRes 0 0).finish .notInitialized)
    else
      s.checkRange (bufferOf dst buflen)
      let (r, t) ← s.nicReceive buflen.toNat
      t.finishReceive s dst r

end Sys2Proof.Machine
end

