-- ==== Sys2Proof/Machine/Ethernet.lean ====
section
/-! DEFINITION. The Ethernet frame builder and receiver (41_ethernet.md R180, R181, R184; layout 30_encoding.md R110) and the commands
ETH_SEND_FRAME and ETH_RECEIVE_FRAME. The dispatching commands stand in Poll.lean. -/

namespace Sys2Proof.Machine

/-- Zero-pad a frame to ETH_MIN_FRAME bytes (41_ethernet.md R180). -/
def padFrame (f : List Byte) : List Byte :=
  f ++ zeros (Config.ethMinFrame - f.length)

/-- MACBYTES(d) ++ MACBYTES(mac) ++ BE16(t) ++ p, padded (41_ethernet.md R180, 30_encoding.md R110). -/
def buildFrame (d mac : Mac) (t : Half) (p : List Byte) : List Byte :=
  padFrame (macBytes d ++ macBytes mac ++ bytesBe16 t ++ p)

/-- `eth_send_frame(d, t, p) -> code` (41_ethernet.md R180) for a command whose source buffer is `src`. -/
def State.ethSendFrame (s : State) (src : MemRange) (d : Mac) (t : Half) (p : List Byte) :
    Except Fault (Code × State) :=
  if s.initialized = false then .ok (.notInitialized, s)
  else if p.length > Config.ethMaxPayloadTx then .ok (.tooLarge, s)
  else
    match s.nicSend src (buildFrame d s.mac t p) with
    | .ok s => .ok (.ok, s)
    | .error f => .error f

/-- ETH_SEND_FRAME (41_ethernet.md R180). -/
def execEthSendFrame (s : State) : Host.Outcome State Fault Refusal :=
  outcome do
    let dhi ← s.arg 0
    let dlo ← s.arg 1
    let t ← s.arg 2
    let src ← s.arg 3
    let n ← s.arg 4
    let p ← s.loadSource (bufferOf src n)
    let (c, s) ← s.ethSendFrame (bufferOf src n) (macOf dhi dlo) (lowHalf t) p
    .ok (s.finish c)

/-- The destination filter of a received frame: long enough, and to our MAC or to broadcast (41_ethernet.md R181). -/
def State.acceptsFrame (s : State) (b : List Byte) : Bool :=
  decide (Config.ethHdrLen ≤ b.length) &&
    (decide (mac48 b 0 = s.mac) || decide (mac48 b 0 = Config.broadcastMac))

/-- `eth_receive_frame(buflen) -> (code, bytes)` (41_ethernet.md R181). -/
def State.ethReceiveFrame (s : State) (buflen : Nat) : Except Fault ((Code × List Byte) × State) :=
  match s.nicReceive buflen with
  | .error f => .error f
  | .ok ((c, b), t) =>
    if c = .ok then
      if t.acceptsFrame b then .ok ((.ok, b), t) else .ok ((.noData, []), t)
    else .ok ((c, []), t)

/-- ETH_RECEIVE_FRAME (41_ethernet.md R181). -/
def execEthReceiveFrame (s : State) : Host.Outcome State Fault Refusal :=
  outcome do
    let dst ← s.arg 0
    let buflen ← s.arg 1
    s.checkRange (bufferOf dst buflen)
    let (r, t) ← s.ethReceiveFrame buflen.toNat
    t.finishReceive s dst r

end Sys2Proof.Machine
end

