-- ==== Sys2Proof/Machine/Arp.lean ====
section
/-! DEFINITION. The ARP cache with round-robin eviction and the ARP protocol unit (42_arp.md R200 to R206; layout 30_encoding.md R111). The resolver
stands in Resolve.lean and ARP_POLL in Poll.lean. -/

namespace Sys2Proof.Machine

/-! ## Cache -/

/-- `arp_lookup(ip)`: linear scan of the live entries, first exact match (42_arp.md R201). -/
def State.arpLookup (s : State) (ip : Ip) : Option Mac :=
  (s.arp.find? fun e => decide (e.ip = ip)).map ArpEntry.mac

/-- `arp_add_or_update(ip, m) -> index` (42_arp.md R202): update in place, else append under capacity, else overwrite the entry at the
round-robin index and advance it. -/
def State.arpAddOrUpdate (s : State) (ip : Ip) (m : Mac) : Nat × State :=
  match s.arp.findIdx? fun e => decide (e.ip = ip) with
  | some i => (i, { s with arp := s.arp.set i ⟨ip, m, 0⟩ })
  | none =>
    if s.arp.length < Config.arpCapacity then (s.arp.length, { s with arp := s.arp ++ [⟨ip, m, 0⟩] })
    else (s.arpRr.val, { s with arp := s.arp.set s.arpRr.val ⟨ip, m, 0⟩, arpRr := s.arpRr + 1 })

/-- Learn a sender: `arp_add_or_update` with its index unused (42_arp.md R205, 43_ip.md R235). -/
def State.learn (s : State) (ip : Ip) (m : Mac) : State :=
  (s.arpAddOrUpdate ip m).2

/-- ARP_LOOKUP (42_arp.md R201). -/
def execArpLookup (s : State) : Host.Outcome State Fault Refusal :=
  outcome do
    let ip ← s.arg 0
    match s.arpLookup ip with
    | some m => .ok ((s.setResMac m).finish .ok)
    | none => .ok (s.finish .miss)

/-- ARP_ADD_OR_UPDATE (42_arp.md R202). -/
def execArpAddOrUpdate (s : State) : Host.Outcome State Fault Refusal :=
  outcome do
    let ip ← s.arg 0
    let hi ← s.arg 1
    let lo ← s.arg 2
    let (i, t) := s.arpAddOrUpdate ip (macOf hi lo)
    .ok ((t.setRes 0 (BitVec.ofNat 32 i)).finish .ok)

/-! ## Protocol -/

/-- An ARP packet for Ethernet/IPv4 (30_encoding.md R111). -/
def arpPacket (op : Half) (sha : Mac) (spa : Ip) (tha : Mac) (tpa : Ip) : List Byte :=
  bytesBe16 1 ++ bytesBe16 0x0800 ++ [6, 4] ++ bytesBe16 op ++
    macBytes sha ++ bytesBe32 spa ++ macBytes tha ++ bytesBe32 tpa

/-- `arp_send_request(tip) -> code` (42_arp.md R203). -/
def State.arpSendRequest (s : State) (src : MemRange) (tip : Ip) : Except Fault (Code × State) :=
  s.ethSendFrame src Config.broadcastMac Config.etherTypeArp
    (arpPacket Config.arpOpRequest s.mac s.ourIp 0 tip)

/-- `arp_send_reply(tmac, tip, sip) -> code` (42_arp.md R204). -/
def State.arpSendReply (s : State) (src : MemRange) (tmac : Mac) (tip sip : Ip) : Except Fault (Code × State) :=
  s.ethSendFrame src tmac Config.etherTypeArp (arpPacket Config.arpOpReply s.mac sip tmac tip)

/-- The hardware and protocol types and lengths are Ethernet/IPv4's (42_arp.md R205). -/
def arpFormatOk (d : List Byte) : Bool :=
  decide (be16 d 0 = 1) && decide (be16 d 2 = 0x0800) && decide (byteAt d 4 = 6) && decide (byteAt d 5 = 4)

/-- `arp_process_packet(data, smac) -> disposition` (42_arp.md R205): the sender learned is the packet's SHA, whatever the opcode;
`smac` is unused. -/
def State.arpProcessPacket (s : State) (src : MemRange) (d : List Byte) : Except Fault (Disposition × State) :=
  if d.length < Config.arpPacketLen then .ok (.short, s)
  else if arpFormatOk d = false then .ok (.badFormat, s)
  else
    let sha := mac48 d 8
    let spa := be32 d 14
    let s := s.learn spa sha
    if be16 d 6 = Config.arpOpRequest ∧ be32 d 24 = s.ourIp then
      match s.arpSendReply src sha spa s.ourIp with
      | .ok (_, s) => .ok (.accepted, s)
      | .error f => .error f
    else .ok (.accepted, s)

/-- The end of a process command: RES0 <- disposition, always OK (60_exceptions.md R271). -/
def State.finishDisposition (s : State) (d : Disposition) : State :=
  (s.setRes 0 d.number).finish .ok

/-- ARP_SEND_REQUEST (42_arp.md R203). -/
def execArpSendRequest (s : State) : Host.Outcome State Fault Refusal :=
  outcome do
    let ip ← s.arg 0
    let (c, s) ← s.arpSendRequest MemRange.none ip
    .ok (s.finish c)

/-- ARP_SEND_REPLY (42_arp.md R204). -/
def execArpSendReply (s : State) : Host.Outcome State Fault Refusal :=
  outcome do
    let hi ← s.arg 0
    let lo ← s.arg 1
    let tip ← s.arg 2
    let sip ← s.arg 3
    let (c, s) ← s.arpSendReply MemRange.none (macOf hi lo) tip sip
    .ok (s.finish c)

/-- ARP_PROCESS_PACKET (42_arp.md R205): ARG2 and ARG3, the frame's source MAC, are read and unused. -/
def execArpProcessPacket (s : State) : Host.Outcome State Fault Refusal :=
  outcome do
    let src ← s.arg 0
    let n ← s.arg 1
    let _ ← s.arg 2
    let _ ← s.arg 3
    let d ← s.loadSource (bufferOf src n)
    let (r, s) ← s.arpProcessPacket (bufferOf src n) d
    .ok (s.finishDisposition r)

end Sys2Proof.Machine
end

