-- ==== Sys2Proof/Machine/Resolve.lean ====
section
/-! DEFINITION. Resolution (42_arp.md R214) and the sending of IPv4 packets through it (43_ip.md R234; header 30_encoding.md R112): the first
part of a resolve, what a suspended command does when it ends, and the command ARP_RESOLVE. The iterations stand in
Poll.lean. -/

namespace Sys2Proof.Machine

/-- The 20-byte IPv4 header with a zero checksum field, its TTL being the parameter IP_TTL (43_ip.md R234, 30_encoding.md R112). -/
def ipHeaderZero (ttl : Byte) (our dip : Ip) (proto : Byte) (len : Nat) : List Byte :=
  [0x45, 0x00] ++ bytesBe16 (BitVec.ofNat 16 (Config.ipHdrLen + len)) ++ bytesBe16 0 ++ bytesBe16 0 ++
    [ttl, proto] ++ bytesBe16 0 ++ bytesBe32 our ++ bytesBe32 dip

/-- The assembled IPv4 packet: header with its checksum, then the data (43_ip.md R234). -/
def ipPacket (ttl : Byte) (our dip : Ip) (proto : Byte) (data : List Byte) : List Byte :=
  let h := ipHeaderZero ttl our dip proto data.length
  putBe16 h 10 (internetChecksum h) ++ data

/-- The end of ip_send_packet once the next hop is settled (43_ip.md R234): none is a failed resolve, which falls back to
broadcast or, under ARP_FAIL_POLICY = ERROR, sends nothing. Gives the code, the MAC used and the fallback mark. -/
def State.sendResolved (s : State) (src : MemRange) (pkt : List Byte) (hop : Option Mac) :
    Except Fault ((Code × Mac × Bool) × State) :=
  match hop with
  | some m =>
    match s.ethSendFrame src m Config.etherTypeIpv4 pkt with
    | .ok (c, s) => .ok ((c, m, false), s)
    | .error f => .error f
  | none =>
    match s.params.arpFail with
    | .error => .ok ((.unresolved, 0, false), s)
    | .broadcastFallback =>
      match s.ethSendFrame src Config.broadcastMac Config.etherTypeIpv4 pkt with
      | .ok (c, s) => .ok ((c, Config.broadcastMac, true), s)
      | .error f => .error f

/-- RES0, RES1, RES2 of a send: the next hop and the fallback mark (43_ip.md R234). -/
def State.setResHop (s : State) (m : Mac) (fallback : Bool) : State :=
  (s.setResMac m).setRes 2 ((BitVec.ofBool fallback).zeroExtend 32)

/-- Continue a command whose resolve ended with `hop` (42_arp.md R214), to its `finish`. -/
def State.continuePending (s : State) (k : Pending) (hop : Option Mac) : Except Fault State :=
  match k with
  | .arpResolve =>
    match hop with
    | some m => .ok ((s.setResMac m).finish .ok)
    | none => .ok (s.finish .timeout)
  | .ipSend src pkt => do
    let ((c, m, fb), s) ← s.sendResolved src pkt hop
    .ok ((s.setResHop m fb).finish c)
  | .echoReply src pkt sip id seq => do
    let (_, s) ← s.sendResolved src pkt hop
    .ok ((s.emitDiag (.echoRequestAnswered sip id seq)).finishDisposition .accepted)

/-- `resolve(ip, t)`, the part inside the calling step (42_arp.md R214): a hit continues at once; a miss sends exactly one request
and either times out (t = 0) or suspends the command in phase RESOLVING. -/
def State.resolve (s : State) (cmd : Instr) (src : MemRange) (ip : Ip) (t : Nat) (k : Pending) : Except Fault State :=
  match s.arpLookup ip with
  | some m => s.continuePending k (some m)
  | none =>
    if s.phase.isResolving then .error .nestedResolve
    else do
      let (_, s) ← s.arpSendRequest src ip
      let n := ceilDiv t Config.resolveIntervalMs
      if n = 0 then s.continuePending k none
      else .ok { s with phase := .resolving cmd ip n k, busy := true }

/-- `ip_send_packet` of a top-level command (43_ip.md R234): `k` makes the rest of the command from the assembled packet. -/
def State.ipSendPacket (s : State) (cmd : Instr) (src : MemRange) (dip : Ip) (proto : Byte) (data : List Byte)
    (k : List Byte → Pending) : Except Fault State :=
  let pkt := ipPacket s.params.ipTtl s.ourIp dip proto data
  match s.arpLookup dip with
  | some m => s.continuePending (k pkt) (some m)
  | none => s.resolve cmd src dip Config.ipResolveTimeoutMs (k pkt)

/-- ARP_RESOLVE (42_arp.md R214). -/
def execArpResolve (s : State) : Host.Outcome State Fault Refusal :=
  outcome do
    let ip ← s.arg 0
    let t ← s.arg 1
    s.resolve .arpResolve MemRange.none ip t.toNat .arpResolve

end Sys2Proof.Machine
end

