-- ==== Sys2Proof/Machine/Icmp.lean ====
section
/-! DEFINITION. The ICMP echo request/reply parser and builder (44_icmp.md R250 to R254; layout 30_encoding.md R113) and its two
commands. -/

namespace Sys2Proof.Machine

/-- An ICMP echo message with code 0 and its checksum over the whole message (44_icmp.md R250, R251). -/
def icmpMessage (type : Byte) (id seq : Half) (p : List Byte) : List Byte :=
  let m := [type, 0] ++ bytesBe16 0 ++ bytesBe16 id ++ bytesBe16 seq ++ p
  putBe16 m 2 (internetChecksum m)

/-- The payload of an echo request: ECHO_DEFAULT_PATTERN if none is given (44_icmp.md R250, R252). -/
def State.echoPayload (s : State) (p : List Byte) : List Byte :=
  match p with
  | [] => s.params.echoDefault.toList
  | b :: rest => b :: rest

/-- What a received ICMP message asks for (44_icmp.md R251). -/
inductive IcmpAction where
  /-- Dropped with a disposition. -/
  | drop (d : Disposition)
  /-- An echo request: answer with this message. -/
  | reply (msg : List Byte) (id seq : Half)
  /-- An echo reply: report it. -/
  | report (id seq : Half)
deriving DecidableEq, Repr

/-- The checks of icmp_process_packet and the reply it builds: identical id, sequence and payload, code 0 (44_icmp.md R251). -/
def icmpAction (m : List Byte) : IcmpAction :=
  if m.length < Config.icmpHdrLen then .drop .short
  else if internetChecksum m ≠ 0 then .drop .badChecksum
  else if byteAt m 0 = Config.icmpEchoRequest then
    .reply (icmpMessage Config.icmpEchoReply (be16 m 4) (be16 m 6) (m.drop 8)) (be16 m 4) (be16 m 6)
  else if byteAt m 0 = Config.icmpEchoReply then .report (be16 m 4) (be16 m 6)
  else .drop .unknownType

/-- `icmp_process_packet` reached from ip_process_packet (44_icmp.md R251): the sender has just been learned, so the reply's lookup
hits and the reply is single-step (42_arp.md R215); a miss would be a resolve inside a dispatch. -/
def State.icmpDispatched (s : State) (src : MemRange) (m : List Byte) (sip : Ip) :
    Except Fault (Disposition × State) :=
  match icmpAction m with
  | .drop d => .ok (d, s)
  | .report id seq => .ok (.accepted, s.emitDiag (.echoReplyReceived sip id seq))
  | .reply r id seq =>
    match s.arpLookup sip with
    | none => .error .nestedResolve
    | some hop =>
      match s.sendResolved src (ipPacket s.params.ipTtl s.ourIp sip 1 r) (some hop) with
      | .ok (_, s) => .ok (.accepted, s.emitDiag (.echoRequestAnswered sip id seq))
      | .error f => .error f

/-- ICMP_PROCESS_PACKET (44_icmp.md R251): the reply of a top-level command may suspend in resolve. -/
def execIcmpProcessPacket (s : State) : Host.Outcome State Fault Refusal :=
  outcome do
    let src ← s.arg 0
    let n ← s.arg 1
    let sip ← s.arg 2
    let m ← s.loadSource (bufferOf src n)
    match icmpAction m with
    | .drop d => .ok (s.finishDisposition d)
    | .report id seq => .ok ((s.emitDiag (.echoReplyReceived sip id seq)).finishDisposition .accepted)
    | .reply r id seq =>
      s.ipSendPacket .icmpProcessPacket (bufferOf src n) sip 1 r fun pkt => .echoReply (bufferOf src n) pkt sip id seq

/-- ICMP_SEND_ECHO_REQUEST (44_icmp.md R250). -/
def execIcmpSendEchoRequest (s : State) : Host.Outcome State Fault Refusal :=
  outcome do
    let dip ← s.arg 0
    let id ← s.arg 1
    let seq ← s.arg 2
    let src ← s.arg 3
    let n ← s.arg 4
    let p ← s.loadSource (bufferOf src n)
    s.ipSendPacket .icmpSendEchoRequest (bufferOf src n) dip 1
      (icmpMessage Config.icmpEchoRequest (lowHalf id) (lowHalf seq) (s.echoPayload p)) fun pkt => .ipSend (bufferOf src n) pkt

end Sys2Proof.Machine
end

