-- ==== Sys2Proof/Machine/Ip.lean ====
section
/-! DEFINITION. The IPv4 packet parser and the commands of the IP family (43_ip.md R230 to R240). -/

namespace Sys2Proof.Machine

/-- `ip_process_packet(d, smac) -> disposition` (43_ip.md R235): checks in this order, then learn the sender with the frame's source
MAC, then dispatch by protocol. TCP and UDP are inert (R239). -/
def State.ipProcessPacket (s : State) (src : MemRange) (d : List Byte) (smac : Mac) :
    Except Fault (Disposition × State) :=
  let tl := (be16 d 2).toNat
  if d.length < Config.ipHdrLen then .ok (.short, s)
  else if (byteAt d 0).extractLsb' 4 4 ≠ 4 then .ok (.badFormat, s)
  else if tl < Config.ipHdrLen ∨ tl > d.length then .ok (.badFormat, s)
  else if internetChecksum (d.take Config.ipHdrLen) ≠ 0 then .ok (.badChecksum, s)
  else if be32 d 16 ≠ s.ourIp then .ok (.notForUs, s)
  else
    let sip := be32 d 12
    let s := s.learn sip smac
    let p := byteAt d 9
    if p = 1 then s.icmpDispatched src ((d.take tl).drop Config.ipHdrLen) sip
    else if p = 6 ∨ p = 17 then .ok (.stub, s)
    else .ok (.unknownType, s)

/-- IP_SET_ADDRESS (43_ip.md R230). -/
def execIpSetAddress (s : State) : Host.Outcome State Fault Refusal :=
  outcome do
    let ip ← s.arg 0
    .ok (({ s with ourIp := ip }).finish .ok)

/-- IP_CHECKSUM (43_ip.md R233). -/
def execIpChecksum (s : State) : Host.Outcome State Fault Refusal :=
  outcome do
    let src ← s.arg 0
    let n ← s.arg 1
    if n.toNat > 65535 then .ok (s.finish .tooLarge)
    else
      let b ← s.loadSource (bufferOf src n)
      .ok ((s.setRes 0 ((internetChecksum b).zeroExtend 32)).finish .ok)

/-- IP_SEND_PACKET (43_ip.md R234). -/
def execIpSendPacket (s : State) : Host.Outcome State Fault Refusal :=
  outcome do
    let dip ← s.arg 0
    let proto ← s.arg 1
    let src ← s.arg 2
    let n ← s.arg 3
    let data ← s.loadSource (bufferOf src n)
    s.ipSendPacket .ipSendPacket (bufferOf src n) dip (lowByte proto) data fun pkt => .ipSend (bufferOf src n) pkt

/-- IP_PROCESS_PACKET (43_ip.md R235). -/
def execIpProcessPacket (s : State) : Host.Outcome State Fault Refusal :=
  outcome do
    let src ← s.arg 0
    let n ← s.arg 1
    let hi ← s.arg 2
    let lo ← s.arg 3
    let d ← s.loadSource (bufferOf src n)
    let (r, s) ← s.ipProcessPacket (bufferOf src n) d (macOf hi lo)
    .ok (s.finishDisposition r)

end Sys2Proof.Machine
end

