-- ==== Sys2Proof/Machine/Poll.lean ====
section
/-! DEFINITION. Frame dispatch (41_ethernet.md R182), the bounded poll (R183), the drain of the interrupt handler (40_nic.md R150) and the
resolve iteration (42_arp.md R214), with the commands ETH_PROCESS_FRAME, ETH_POLL, ARP_POLL and NIC_IRQ. -/

namespace Sys2Proof.Machine

/-- `eth_process_frame(f) -> disposition` (41_ethernet.md R182) for a frame read from the range `src`. -/
def State.ethProcessFrame (s : State) (src : MemRange) (f : List Byte) : Except Fault (Disposition × State) :=
  if f.length < Config.ethHdrLen then .ok (.short, s)
  else if be16 f 12 = Config.etherTypeArp then s.arpProcessPacket src (f.drop Config.ethHdrLen)
  else if be16 f 12 = Config.etherTypeIpv4 then s.ipProcessPacket src (f.drop Config.ethHdrLen) (mac48 f 6)
  else .ok (.unknownType, s)

/-- One round of a poll or drain: receive a frame into the engine-internal buffer and dispatch it; whether a frame was
dispatched. What a dispatched reply stores is compared (20_memory.md R82) with the ring record it answers only, not with the host buffer of a
command that is suspended meanwhile (DESIGN CHOICE, notes/assumptions/41.md). -/
def State.receiveAndDispatch (s : State) : Except Fault (Bool × State) :=
  match s.ethReceiveFrame s.params.pollBufSize with
  | .error f => .error f
  | .ok ((c, f), t) =>
    if c = .ok then
      match t.ethProcessFrame (s.recordRange f.length) f with
      | .ok (_, t) => .ok (true, t)
      | .error f => .error f
    else .ok (false, t)

/-- Rounds until one dispatches nothing, at most the first argument: how many frames were dispatched. -/
def State.pollRounds : Nat → State → Except Fault (Nat × State)
  | 0, s => .ok (0, s)
  | n + 1, s =>
    match s.receiveAndDispatch with
    | .error f => .error f
    | .ok (false, t) => .ok (0, t)
    | .ok (true, t) =>
      match State.pollRounds n t with
      | .ok (k, t) => .ok (k + 1, t)
      | .error f => .error f

/-- `eth_poll() -> count` (41_ethernet.md R183). -/
def State.ethPoll (s : State) : Except Fault (Nat × State) :=
  State.pollRounds Config.pollMaxFrames s

/-- The drain of NIC_IRQ (40_nic.md R150): no frame bound, but an iteration more than RX_RING_LEN / 4 is a hang. -/
def State.drainRounds : Nat → State → Except Fault (Nat × State)
  | 0, _ => .error .drainHang
  | n + 1, s =>
    match s.receiveAndDispatch with
    | .error f => .error f
    | .ok (false, t) => .ok (0, t)
    | .ok (true, t) =>
      match State.drainRounds n t with
      | .ok (k, t) => .ok (k + 1, t)
      | .error f => .error f

/-- The whole drain: the iteration that makes `iters` exceed RX_RING_LEN / 4 faults. -/
def State.drain (s : State) : Except Fault (Nat × State) :=
  State.drainRounds (s.params.rxRingLen / 4 + 1) s

/-- One resolve iteration (42_arp.md R214): poll, count down, look up; a hit or the last iteration goes on with the suspended
command. -/
def State.resolveIteration (s : State) : Except Fault State :=
  match s.phase with
  | .idle => .ok s
  | .resolving cmd ip remaining k => do
    let (_, s) ← s.ethPoll
    match s.arpLookup ip with
    | some m => ({ s with phase := .idle }).continuePending k (some m)
    | none =>
      if remaining - 1 = 0 then ({ s with phase := .idle }).continuePending k none
      else .ok { s with phase := .resolving cmd ip (remaining - 1) k }

/-! ## Commands -/

/-- ETH_PROCESS_FRAME (41_ethernet.md R182). -/
def execEthProcessFrame (s : State) : Host.Outcome State Fault Refusal :=
  outcome do
    let src ← s.arg 0
    let n ← s.arg 1
    let f ← s.loadSource (bufferOf src n)
    let (r, s) ← s.ethProcessFrame (bufferOf src n) f
    .ok (s.finishDisposition r)

/-- The polling pass of ETH_POLL and ARP_POLL (41_ethernet.md R183, 42_arp.md R211). -/
def State.pollCommand (s : State) : Except Fault State :=
  if s.initialized = false then .ok ((s.setRes 0 0).finish .notInitialized)
  else do
    let (k, s) ← s.ethPoll
    .ok ((s.setRes 0 (BitVec.ofNat 32 k)).finish .ok)

/-- ETH_POLL (41_ethernet.md R183). -/
def execEthPoll (s : State) : Host.Outcome State Fault Refusal :=
  outcome s.pollCommand

/-- ARP_POLL: ETH_POLL under another name (42_arp.md R211). -/
def execArpPoll (s : State) : Host.Outcome State Fault Refusal :=
  outcome s.pollCommand

/-- IRQ_ISR <- isr; IRQ_DRAINED <- drained (40_nic.md R150). -/
def State.setIrq (s : State) (isr : Half) (drained : Nat) : State :=
  { s with irqIsr := isr, irqDrained := BitVec.ofNat 32 drained, irqWritten := true }

/-- NIC_IRQ (40_nic.md R150), preempting if STATUS.BUSY = 1 (R151): read and acknowledge ISR, drain on RX-OK, no action on
TX-OK. -/
def execNicIrq (s : State) : Host.Outcome State Fault Refusal :=
  outcome do
    if s.initialized = false then .ok ((s.setIrq 0 0).finishIrq .notInitialized)
    else
      let isr := s.dev.isrWord
      let t := s.writeIsr isr
      if isr.getLsbD 0 = false then .ok ((t.setIrq isr 0).finishIrq .ok)
      else
        let (k, t) ← t.drain
        .ok ((t.setIrq isr k).finishIrq .ok)

end Sys2Proof.Machine
end

