-- ==== Sys2Proof/Machine/Dispatch.lean ====
section
/-! DEFINITION. One arm per command, each one call of its meaning (30_encoding.md R101). -/

namespace Sys2Proof.Machine

def exec (i : Instr) (s : State) : Host.Outcome State Fault Refusal :=
  match i with
  | .nicInit => Sys2Proof.Machine.execNicInit s
  | .nicSend => Sys2Proof.Machine.execNicSend s
  | .nicReceive => Sys2Proof.Machine.execNicReceive s
  | .nicIrq => Sys2Proof.Machine.execNicIrq s
  | .ethSendFrame => Sys2Proof.Machine.execEthSendFrame s
  | .ethReceiveFrame => Sys2Proof.Machine.execEthReceiveFrame s
  | .ethProcessFrame => Sys2Proof.Machine.execEthProcessFrame s
  | .ethPoll => Sys2Proof.Machine.execEthPoll s
  | .arpLookup => Sys2Proof.Machine.execArpLookup s
  | .arpAddOrUpdate => Sys2Proof.Machine.execArpAddOrUpdate s
  | .arpSendRequest => Sys2Proof.Machine.execArpSendRequest s
  | .arpSendReply => Sys2Proof.Machine.execArpSendReply s
  | .arpProcessPacket => Sys2Proof.Machine.execArpProcessPacket s
  | .arpResolve => Sys2Proof.Machine.execArpResolve s
  | .arpPoll => Sys2Proof.Machine.execArpPoll s
  | .ipSetAddress => Sys2Proof.Machine.execIpSetAddress s
  | .ipSendPacket => Sys2Proof.Machine.execIpSendPacket s
  | .ipProcessPacket => Sys2Proof.Machine.execIpProcessPacket s
  | .ipChecksum => Sys2Proof.Machine.execIpChecksum s
  | .icmpSendEchoRequest => Sys2Proof.Machine.execIcmpSendEchoRequest s
  | .icmpProcessPacket => Sys2Proof.Machine.execIcmpProcessPacket s

end Sys2Proof.Machine
end

