-- ==== Sys2Proof/Machine/Agents.lean ====
section
/-! DEFINITION. The device agents: NIC_RX writes offered frames into the RX ring (40_nic.md R166, R167, R170) and NIC_TX transmits
handed-over slots (R168, R169). -/

namespace Sys2Proof.Machine

/-! ## NIC_RX -/

/-- `accept(f, e)` (40_nic.md R170). -/
def Device.accepts (d : Device) (f : List Byte) (bad : Bool) : Bool :=
  let runt := decide (f.length < Config.ethMinFrame)
  let dst := mac48 f 0
  if bad || runt then
    (!bad || d.rcr.getLsbD 5) && (!runt || d.rcr.getLsbD 4)
  else
    d.rcr.getLsbD 0 || (d.rcr.getLsbD 1 && decide (dst = d.idr)) ||
      (d.rcr.getLsbD 3 && decide (dst = Config.broadcastMac)) ||
      (d.rcr.getLsbD 2 && (byteAt f 0).getLsbD 0 && decide (dst ≠ Config.broadcastMac))

/-- NIC_RX writes to the ring: CR.RE = 1, bus mastering on, no soft reset in progress (40_nic.md R166). -/
def State.receiverOn (s : State) : Bool :=
  s.dev.re && s.busMaster && !s.dev.resetting

/-- The ring space of a frame's record, `S` (40_nic.md R166). -/
def recordSpace (len : Nat) : Nat :=
  alignUp (Config.rxHdrLen + len + 4) Config.rxPtrAlign

/-- The record does not fit: (WP - RP) mod RX_RING_LEN + S >= RX_RING_LEN (40_nic.md R166, R167), the device's own ring length. -/
def Device.ringFull (d : Device) (len : Nat) : Bool :=
  decide (d.ringLen ≤ (d.wp.toNat + d.ringLen - d.rp) % d.ringLen + recordSpace len)

/-- A DMA write by the device; a pending TX slot whose buffer it meets is clobbered (10_state.md R47). Where its range meets the engine
register window the bytes go to `State.mem` as anywhere else and nothing faults: 20_memory.md R74 faults engine accesses only and the
spec is silent on device DMA there (DESIGN CHOICE, notes/assumptions/33.md). -/
def State.dmaStore (s : State) (a : Nat) (b : List Byte) : State :=
  ({ s with mem := s.mem.writeBytes a b }).clobberMet ⟨physAddr a, b.length⟩

/-- A record stored byte by byte with ring offsets modulo RX_RING_LEN (40_nic.md R166, RCR.WRAP = 0). -/
def State.dmaStoreWrapped (s : State) (off : Nat) : List Byte → State
  | [] => s
  | b :: rest =>
    State.dmaStoreWrapped (s.dmaStore (s.dev.rbstart.toNat + off % s.dev.ringLen) [b]) (off + 1) rest

/-- The record of a frame: header, frame, CRC bytes (40_nic.md R166, 30_encoding.md R114). -/
def ringRecord (status : Half) (f crc : List Byte) : List Byte :=
  bytesLe16 status ++ bytesLe16 (BitVec.ofNat 16 (f.length + 4)) ++ f ++ crc

/-- The packet write of NIC_RX for an accepted frame that fits (40_nic.md R166): the status bits [15:1] and the CRC bytes are
draws. -/
def State.writeRecord (s : State) (f : List Byte) (bad : Bool) : State :=
  let ok := !bad && decide (Config.ethMinFrame ≤ f.length)
  let (st, s) := s.drawWord
  let (crc, s) := s.drawBytes 4
  let rec' := ringRecord ((lowHalf st &&& 0xFFFE) ||| (BitVec.ofBool ok).zeroExtend 16) f crc
  let wp := s.dev.wp.toNat
  let s := if s.dev.rcr.getLsbD 7 then s.dmaStore (s.dev.rbstart.toNat + wp) rec' else s.dmaStoreWrapped wp rec'
  { s with
    dev := ({ s.dev with
      wp := BitVec.ofNat 16 (alignUp (wp + Config.rxHdrLen + f.length + 4) Config.rxPtrAlign % s.dev.ringLen) }).setIsr
        (if ok then 0 else 1) }

/-- NIC_RX takes an offered frame: drop it, or overflow, or write it (40_nic.md R166, R167, R170). -/
def State.nicRx (s : State) (f : List Byte) (bad : Bool) : State :=
  if s.receiverOn = false then s
  else if s.dev.accepts f bad = false then s
  else if s.dev.ringFull f.length then { s with dev := s.dev.setIsr 4 }
  else s.writeRecord f bad

/-! ## NIC_TX -/

/-- The pending slot handed over first: slots are handed over in the order of tx_slot, so it is the first pending one from
tx_slot on. -/
def State.oldestPending (s : State) : Option (Fin 4) :=
  [s.txSlot, s.txSlot + 1, s.txSlot + 2, s.txSlot + 3].find? fun i => s.dev.pending[i]

/-- TX_ORDER lets slot `i` go next (40_nic.md R168). -/
def State.orderAllows (s : State) (i : Fin 4) : Bool :=
  match s.params.txOrder with
  | .any => true
  | .inOrder => decide (s.oldestPending = some i)

/-- NIC_TX may transmit slot `i` (40_nic.md R168). -/
def State.txEnabled (s : State) (i : Fin 4) : Bool :=
  s.dev.pending[i] && s.dev.te && s.busMaster && !s.dev.resetting && s.orderAllows i

/-- What a clobbered slot emits: zero, one or two frames of at most TX_BUF_SIZE bytes, all draws (40_nic.md R168, R169). -/
def State.emitClobbered (s : State) : State :=
  { s with
    wireOut := s.wireOut ++ ((Config.drawFrames s.draws).take 2).map fun f => f.take s.params.txBufSize
    draws := s.draws + 1 }

/-- What a successful transmission of slot `i` puts on the wire (40_nic.md R168). A read that meets the engine register window is a read of
`State.mem` like any other (DESIGN CHOICE, notes/assumptions/33.md). -/
def State.emitSlot (s : State) (i : Fin 4) : State :=
  if s.dev.clobbered[i] then s.emitClobbered
  else s.emitWire (s.mem.readBytes s.dev.tsad[i].toNat (s.dev.txSize i))

/-- tx_pending[i] <- 0; tx_clobbered[i] <- 0 (40_nic.md R168). -/
def Device.freeSlot (d : Device) (i : Fin 4) : Device :=
  { d with pending := d.pending.set i false, clobbered := d.clobbered.set i false }

/-- The transmission of slot `i` with its outcome (40_nic.md R168). -/
def State.nicTx (s : State) (i : Fin 4) (success : Bool) : State :=
  if success then
    let s := s.emitSlot i
    { s with dev := ((s.dev.setOwnTok i).setIsr 2).freeSlot i }
  else { s with dev := ((s.dev.setOwn i).setIsr 3).freeSlot i }

end Sys2Proof.Machine
end

