-- ==== Sys2Proof/Machine/HostPort.lean ====
section
/-! DEFINITION. What the HOST's accesses do: reads of the engine window (10_state.md R20 to R30) and of the device (R41), and writes of host
memory (20_memory.md R83). A write of CMD starts a command and stands in Command.lean. -/

namespace Sys2Proof.Machine

/-! ## Engine window -/

/-- The value a HOST read of a register returns: what it holds if it is specified, else a draw (10_state.md R24, R26, R29). -/
def State.readSpecified (s : State) (known : Bool) (v : Word) : Word × State :=
  if known then (v, s) else s.drawWord

/-- The register of the engine window at an aligned offset (10_state.md R20): its value, and the state after a draw it may
take. -/
def State.engineRegister (s : State) (off : Nat) : Word × State :=
  match off with
  | 0x00 => s.readSpecified s.cmdWritten s.cmd
  | 0x04 => (s.statusWord, s)
  | 0x08 => s.readSpecified s.args[0].written s.args[0].value
  | 0x0C => s.readSpecified s.args[1].written s.args[1].value
  | 0x10 => s.readSpecified s.args[2].written s.args[2].value
  | 0x14 => s.readSpecified s.args[3].written s.args[3].value
  | 0x18 => s.readSpecified s.args[4].written s.args[4].value
  | 0x20 => s.readSpecified s.res[0].written s.res[0].value
  | 0x24 => s.readSpecified s.res[1].written s.res[1].value
  | 0x28 => s.readSpecified s.res[2].written s.res[2].value
  | 0x2C => s.readSpecified s.res[3].written s.res[3].value
  | 0x30 => (s.ourIp, s)
  | 0x34 => let (v, s) := s.readSpecified s.macKnown (macHi s.mac); (v &&& 0x0000FFFF, s)
  | 0x38 => s.readSpecified s.macKnown (macLo s.mac)
  | 0x3C => (s.engstatWord, s)
  | 0x40 => (s.rxOff.zeroExtend 32, s)
  | 0x44 => let (v, s) := s.readSpecified s.irqWritten (s.irqIsr.zeroExtend 32); (v &&& 0x0000FFFF, s)
  | 0x48 => s.readSpecified s.irqWritten s.irqDrained
  | _ => (0, s)

/-- An aligned 32-bit access (10_state.md R30, 20_memory.md R79). Aligned is said of the offset, whatever ENGINE_BASE is: the registers are
given by offset (R20), and no rule says that ENGINE_BASE is a multiple of 4 (DESIGN CHOICE, notes/assumptions/36.md). -/
def alignedWord (off : Nat) (w : Width) : Bool :=
  decide (w = .w32) && decide (off % 4 = 0)

/-- A HOST read of the engine window (10_state.md R20, R30). -/
def State.engineRead (s : State) (off : Fin 0x50) (w : Width) : Except Fault State :=
  if alignedWord off.val w then
    let (v, s) := s.engineRegister off.val
    .ok { s with hostData := v }
  else .error .badEngineAccess

/-- The aligned offset of an ARG register (10_state.md R20, R23). -/
def isArgOffset (off : Nat) : Bool :=
  decide (0x08 ≤ off) && decide (off ≤ 0x18)

/-- An aligned HOST write of the engine window other than to CMD: ARG registers take it, the rest ignore it (10_state.md R20, R22 to
R30). -/
def State.engineWriteRegister (s : State) (off : Nat) (v : Word) : State :=
  match off with
  | 0x08 => s.setArg 0 v
  | 0x0C => s.setArg 1 v
  | 0x10 => s.setArg 2 v
  | 0x14 => s.setArg 3 v
  | 0x18 => s.setArg 4 v
  | _ => s

/-! ## Device window -/

/-- The width of the device register that begins at an offset (10_state.md R31 to R40, R53). -/
def deviceWidth (off : Nat) : Option Width :=
  if off ≤ 0x05 then some .w8
  else if 0x10 ≤ off ∧ off < 0x34 ∧ off % 4 = 0 then some .w32
  else if off = 0x37 then some .w8
  else if 0x38 ≤ off ∧ off < 0x40 ∧ off % 2 = 0 then some .w16
  else if off = 0x44 then some .w32
  else none

/-- The offset lies in some modelled register (10_state.md R31 to R40, R53). -/
def deviceModelled (off : Nat) : Bool :=
  decide (off ≤ 0x05) || (decide (0x10 ≤ off) && decide (off < 0x34)) || (decide (0x37 ≤ off) && decide (off < 0x40)) ||
    (decide (0x44 ≤ off) && decide (off < 0x48))

/-- The value of the device register that begins at an offset (10_state.md R31 to R40, R53). -/
def Device.register (d : Device) (off : Nat) : Word :=
  match off with
  | 0x00 => (d.idr.extractLsb' 40 8).zeroExtend 32
  | 0x01 => (d.idr.extractLsb' 32 8).zeroExtend 32
  | 0x02 => (d.idr.extractLsb' 24 8).zeroExtend 32
  | 0x03 => (d.idr.extractLsb' 16 8).zeroExtend 32
  | 0x04 => (d.idr.extractLsb' 8 8).zeroExtend 32
  | 0x05 => (d.idr.extractLsb' 0 8).zeroExtend 32
  | 0x10 => d.tsdWord 0
  | 0x14 => d.tsdWord 1
  | 0x18 => d.tsdWord 2
  | 0x1C => d.tsdWord 3
  | 0x20 => d.tsad[0]
  | 0x24 => d.tsad[1]
  | 0x28 => d.tsad[2]
  | 0x2C => d.tsad[3]
  | 0x30 => d.rbstart
  | 0x37 => d.crWord.zeroExtend 32
  | 0x38 => d.capr.zeroExtend 32
  | 0x3A => d.wp.zeroExtend 32
  | 0x3C => d.imr.zeroExtend 32
  | 0x3E => d.isrWord.zeroExtend 32
  | 0x44 => d.rcr
  | _ => 0

/-- A HOST read of the device (10_state.md R41): of a modelled register at its width. The only effect is that a read of CR counts
towards the end of a soft reset (70_reset_and_hazards.md R302). On a platform with no NIC (NIC_PCI_LOCATION = none), where the spec says
nothing of such a read, it returns the registers of `State.dev` all the same (DESIGN CHOICE, notes/assumptions/34.md). -/
def State.deviceRead (s : State) (off : Fin 256) (w : Width) : Except Fault State :=
  if deviceWidth off.val = some w then
    .ok { s with
      hostData := s.dev.register off.val
      dev := if off.val = 0x37 then s.dev.afterCrRead else s.dev }
  else if deviceModelled off.val then .error .badDeviceAccess
  else .error .hostDeviceAccess

/-! ## Host memory -/

/-- The HOST may not write the range: it meets the RX ring region or a TX buffer whose slot is not pending
(20_memory.md R83). -/
def State.dmaOwned (s : State) (r : MemRange) : Bool :=
  s.initialized &&
    (r.meets s.rxRegion || (List.finRange 4).any fun i => !s.dev.pending[i] && r.meets (s.txBuffer i))

/-- A HOST write of host memory (20_memory.md R74, R82, R83): into a pending slot's buffer it clobbers the slot (40_nic.md R169). -/
def State.hostMemWrite (s : State) (a : Word) (b : List Byte) : Except Fault State :=
  let r : MemRange := ⟨a.toNat, b.length⟩
  if b.length = 0 then .ok s
  else if s.params.addrSpace < r.base + r.len then .error .addrWrap
  else if r.meets s.window then .error .badEngineAccess
  else if s.dmaOwned r then .error .hostDmaWrite
  else .ok (({ s with mem := s.mem.writeBytes a.toNat b }).clobberMet r)

end Sys2Proof.Machine
end

