-- ==== Sys2Proof/Machine/Command.lean ====
section
/-! DEFINITION. The write of CMD, which fetches, decodes and starts a command (10_state.md R21, 30_encoding.md R102, R103), the turn of each agent
(00_scope.md R14, 20_memory.md R86) and the scheduling of turns (70_reset_and_hazards.md R332, R333). -/

namespace Sys2Proof.Machine

/-- CMD <- w. -/
def State.latchCmd (s : State) (w : Word) : State :=
  { s with cmd := w, cmdWritten := true }

/-- A HOST write of a word to CMD (10_state.md R21). While BUSY only a legal NIC_IRQ word may preempt (40_nic.md R151, 30_encoding.md
R103); otherwise the command's first step runs in the same step, and an illegal word finishes with ERR_ILLEGAL_CMD
(R102). -/
def writeCmd (w : Word) (s : State) : Host.Outcome State Fault Refusal :=
  match decode w with
  | .ok i => if s.busy = true ∧ i ≠ .nicIrq then .fault .cmdWhileBusy else exec i (s.latchCmd w)
  | .error _ => if s.busy = true then .fault .cmdWhileBusy else .next ((s.latchCmd w).finish .illegalCmd)

/-- A HOST write of the engine window (10_state.md R20, R30). While BUSY = 1 the HOST has no move that writes an ARG register
(70_reset_and_hazards.md R320; R23 and 20_memory.md R86, R89 speak of HOST writes without saying when; DESIGN CHOICE,
notes/assumptions/35.md): such a write is refused. -/
def engineWrite (off : Fin 0x50) (w : Width) (v : Word) (s : State) : Host.Outcome State Fault Refusal :=
  if alignedWord off.val w = false then .fault .badEngineAccess
  else if off.val = 0x00 then writeCmd v s
  else if s.busy = true ∧ isArgOffset off.val = true then .refused .hostBusyWrite
  else .next (s.engineWriteRegister off.val v)

/-- A HOST move (20_memory.md R86). WAIT as a plain move is one read of STATUS. -/
def hostMove (m : HostMove) (s : State) : Host.Outcome State Fault Refusal :=
  match m with
  | .engineRead off w => outcome (s.engineRead off w)
  | .engineWrite off w v => engineWrite off w v s
  | .deviceRead off w => outcome (s.deviceRead off w)
  | .deviceWrite _ _ _ => .fault .hostDeviceAccess
  | .memWrite a b => outcome (s.hostMemWrite a b)
  | .wait => .next { s with hostData := s.statusWord }

/-- The turn of an agent (20_memory.md R86). An agent without an enabled step lets the turn pass. -/
def runMove (m : Move) (s : State) : Host.Outcome State Fault Refusal :=
  match m with
  | .host h => hostMove h s
  | .wireRx f bad => if wellFormedOffer s.params f then .next (s.nicRx f bad) else .refused .envFrame
  | .nicTx i success => .next (if s.txEnabled i then s.nicTx i success else s)
  | .engine => outcome s.resolveIteration

/-- The turns the ENGINE and NIC_TX can still take by themselves; the outcome of a transmission is a draw. -/
def State.enabledTurns (s : State) : List Move :=
  (if s.phase.isResolving then [.engine] else []) ++
    ((List.finRange 4).filter s.txEnabled).map fun i => .nicTx i (Config.drawBool s.draws)

/-- A turn nobody is named for: one of the enabled agents, which one is a draw (70_reset_and_hazards.md R333); with none enabled the
state stays as it is (R332). -/
def freeTurn (s : State) : Host.Outcome State Fault Refusal :=
  match s.enabledTurns[Config.drawNat s.draws % s.enabledTurns.length]? with
  | none => .next s
  | some m => runMove m { s with draws := s.draws + 1 }

/-- The HOST spins in WAIT: BUSY is 1, and WAIT is its next move (30_encoding.md R109). -/
def State.spinning (s : State) : Bool :=
  match s.agenda with
  | .host .wait :: _ => s.busy
  | _ => false

/-- The next turn: that of the agenda's first move, or a free turn when the agenda is empty or the HOST spins in WAIT. -/
def nextTurn (s : State) : Host.Outcome State Fault Refusal :=
  if s.spinning then freeTurn { s with hostData := s.statusWord }
  else
    match s.agenda with
    | [] => freeTurn s
    | m :: rest => runMove m { s with agenda := rest }

/-- Put the HOST's write of a word to CMD next, with every ARG register written and no command running, so that the next step
starts that command (log entry 28). -/
def State.placeCommand (s : State) (w : Word) : State :=
  { s with
    agenda := .host (.engineWrite 0 .w32 w) :: s.agenda
    args := s.args.map fun l => { l with written := true }
    busy := false
    phase := .idle
    faults := []
    refusals := [] }

end Sys2Proof.Machine
end

