-- ==== Sys2Proof/Machine/Assembler.lean ====
section
/-! DEFINITION. The assembler's lines and pseudo-instructions as HOST actions and schedule directives (30_encoding.md R108, R109). -/

namespace Sys2Proof.Machine

/-- A line of an assembler program (30_encoding.md R108, R109). -/
inductive AsmLine where
  /-- `MNEMONIC op, op, ...` -/
  | command (c : CommandLine)
  /-- `NOWAIT MNEMONIC ops` -/
  | nowait (c : CommandLine)
  /-- `WAIT` -/
  | wait
  /-- `HOST_WRITE addr, bytes` -/
  | hostWrite (addr : Word) (bytes : List Byte)
  /-- `WIRE_RX bytes` -/
  | wireRx (bytes : List Byte)
  /-- `NIC_TX_STEP i` -/
  | nicTxStep (i : Fin 4)
deriving DecidableEq, Repr

/-- `CMD <- OPCODE`. -/
def cmdMove (i : Instr) : Move :=
  .host (.engineWrite 0 .w32 (encode i))

/-- `ARGk <- value` for the columns of a command from the `k`-th on, in increasing k. -/
def argMoves (k : Nat) : List Word → List Move
  | [] => []
  | v :: rest => .host (.engineWrite (Fin.ofNat 0x50 (0x08 + 4 * k)) .w32 v) :: argMoves (k + 1) rest

/-- The ARG writes and the CMD write of a command line; an ill-formed line has no expansion. -/
def lineMoves (c : CommandLine) : Option (List Move) :=
  if c.wellFormed then some (argMoves 0 c.operands ++ [cmdMove c.instr]) else none

/-- The moves a line expands to (30_encoding.md R109). The frame of a WIRE_RX line has no error mark: R109 does not name one, and 40_nic.md R166
leaves it to the WIRE (DESIGN CHOICE, notes/assumptions/38.md; a move of the agenda can carry either mark). -/
def AsmLine.expand : AsmLine → Option (List Move)
  | .command c => (lineMoves c).map fun ms => ms ++ [.host .wait]
  | .nowait c => lineMoves c
  | .wait => some [.host .wait]
  | .hostWrite a b => some [.host (.memWrite a b)]
  | .wireRx b => some [.wireRx b false]
  | .nicTxStep i => some [.nicTx i true]

/-- The moves of a program, none if a line is ill formed. -/
def assemble : List AsmLine → Option (List Move)
  | [] => some []
  | l :: rest =>
    match l.expand, assemble rest with
    | some ms, some more => some (ms ++ more)
    | _, _ => none

end Sys2Proof.Machine
end

