-- ==== Sys2Proof/Machine/Step.lean ====
section
/-! DEFINITION. One step of the machine (00_scope.md R14): a recorded fault or refusal stops every agent (60_exceptions.md R274,
93_implementation_defined.md), otherwise the next turn is taken. -/

namespace Sys2Proof.Machine

/-- One step. -/
def step (s : State) : Host.Outcome State Fault Refusal :=
  match s.faults, s.refusals with
  | f :: _, _ => .fault f
  | [], r :: _ => .refused r
  | [], [] => nextTurn s

/-- The state whose next step starts the command with the table bits `w`: the HOST's CMD write is the next move. -/
def State.withFetchWord (s : State) (nbits w : Nat) : State :=
  s.placeCommand (tableWord nbits w)

end Sys2Proof.Machine
end

