-- ==== Sys2Proof/Machine/Launch.lean ====
section
/-! DEFINITION. Runs: the launch premises and the launch that refuses a state breaking one (70_reset_and_hazards.md R311,
93_implementation_defined.md section 4), the marks a stopped run leaves (60_exceptions.md R274) and the end of a run (R332). -/

namespace Sys2Proof.Machine

/-! ## Premises of a launch (R311) -/

/-- NO_FAULT: FAULT empty, no refusal mark. -/
def State.noFault (s : State) : Bool := s.faults.isEmpty && s.refusals.isEmpty

/-- IDLE: STATUS.BUSY = 0 and phase = IDLE. -/
def State.isIdle (s : State) : Bool := !s.busy && !s.phase.isResolving

/-- No TX slot is pending. -/
def State.nothingPending (s : State) : Bool := (List.finRange 4).all fun i => !s.dev.pending[i]

/-- NOTHING_IN_FLIGHT: no pending slot, no soft reset in progress. -/
def State.nothingInFlight (s : State) : Bool := s.nothingPending && !s.dev.resetting

/-- CLEAN_LOGS: WIRE_OUT and DIAG empty. -/
def State.cleanLogs (s : State) : Bool := s.wireOut.isEmpty && s.diag.isEmpty

/-- The state with 0 in every register R300 leaves unspecified, and with the model's own fields as State.launch has them. -/
def State.forgetUnspecified (s : State) : State :=
  { s with
    cmd := 0
    args := s.args.map fun l => { l with value := 0 }
    res := s.res.map fun l => { l with value := 0 }
    irqIsr := 0
    irqDrained := 0
    ioBase := 0
    mac := 0
    rxBase := 0
    txAddr := Vector.replicate 4 0
    agenda := []
    draws := 0
    hostData := 0 }

/-- POWER_ON: the state of R300, for some launch arguments and whatever the unspecified registers hold. -/
def State.isPowerOn (s : State) : Bool :=
  decide (s.forgetUnspecified = State.launch s.params s.dev.idr s.pci s.mem)

/-- The cache as every run leaves it (42_arp.md R202, R206, 10_state.md R44, R45): IPs of live entries pairwise distinct, at most 16 entries,
every age 0, and the round-robin index 0 until the cache is full. -/
abbrev State.ArpWf (s : State) : Prop :=
  (s.arp.map ArpEntry.ip).Nodup ∧ s.arp.length ≤ Config.arpCapacity ∧ (∀ e ∈ s.arp, e.age = 0) ∧
    (s.arp.length < Config.arpCapacity → s.arpRr = 0)

/-- The device as NIC_INIT leaves it and every later step keeps it while `initialized` = 1 (40_nic.md R141, 30_encoding.md R116, 20_memory.md
R78, R82): programmed, running, its read pointer where the engine's is, the regions aligned and inside host memory, the TX buffers
TX_BUF_SIZE apart. -/
abbrev State.DeviceUp (s : State) : Prop :=
  s.dev.te = true ∧ s.dev.re = true ∧ s.dev.rcr = s.params.rcrInit ∧ s.dev.imr = 0x0005 ∧
    s.dev.resetting = false ∧ s.busMaster = true ∧
    s.dev.rbstart = s.rxBase ∧ s.dev.tsad = s.txAddr ∧ s.dev.rp = s.rxOff.toNat ∧ s.macKnown = true ∧
    s.rxBase.toNat % Config.rxRingAlign = 0 ∧
    s.rxBase.toNat + s.params.rxRingLen + s.params.rxRingSlack ≤ s.params.addrSpace ∧
    ∀ i : Fin 4, s.txAddr[i].toNat % Config.txBufAlign = 0 ∧ s.txAddr[i].toNat + s.params.txBufSize ≤ s.params.addrSpace ∧
      s.txAddr[i].toNat = s.txAddr[0].toNat + i.val * s.params.txBufSize

/-- What a NIC_INIT that finished OK leaves beside the device up: the adapter's MAC in `mac`, RES0 and RES1, the I/O base of the function
found, the ring and the slots at their start, ISR clear (40_nic.md R141, 70_reset_and_hazards.md R302); the cache, which it keeps (R303), is one a
run can leave; CMD holds the word NIC_INIT was started with (10_state.md R21), or IP_SET_ADDRESS's where our_ip has been set since, as in the
UP of 95_test_vectors.md (DEDUCED, notes/assumptions/39.md). -/
abbrev State.FreshlyUp (s : State) (h : NicPci) : Prop :=
  s.DeviceUp ∧ s.initialized = true ∧ s.code = .ok ∧ s.mac = s.dev.idr ∧
    s.res[0] = ⟨macHi s.mac, true⟩ ∧ s.res[1] = ⟨macLo s.mac, true⟩ ∧
    h.vendor = s.params.pciVendorId ∧ h.device = s.params.pciDeviceId ∧ h.bar0.getLsbD 0 = true ∧
    s.ioBase = h.bar0 &&& 0xFFFFFFFC ∧ s.txSlot = 0 ∧ s.rxOff = 0 ∧ s.dev.wp = 0 ∧ s.dev.capr = 0xFFF0 ∧ s.dev.isr = 0 ∧
    s.dev.clobbered = Vector.replicate 4 false ∧ s.ArpWf ∧
    s.cmdWritten = true ∧ (s.cmd = encode .nicInit ∨ s.cmd = encode .ipSetAddress)

/-- UP: the state after a NIC_INIT that finished OK, with every ARG register written. our_ip, memory and the cache's entries are whatever they
are (R303). -/
def State.isUp (s : State) : Bool :=
  match s.pci with
  | none => false
  | some h => decide (s.FreshlyUp h ∧ ∀ i : Fin 5, s.args[i].written = true)

/-- Every premise a launch state must meet. -/
def State.launchPremises (s : State) : Bool :=
  s.noFault && s.isIdle && s.nothingInFlight && s.cleanLogs && (s.isPowerOn || s.isUp)

/-- The launch of a run: a state that breaks a premise is refused. -/
def State.start (s : State) : Host.Outcome State Fault Refusal :=
  if s.launchPremises then .next s else .refused .launchPremise

/-! ## The course of a run -/

/-- The end of a run (R332): HOST program and WIRE input exhausted, idle, no pending slot, no fault. -/
def State.runEnded (s : State) : Bool :=
  s.agenda.isEmpty && s.isIdle && s.nothingPending && s.noFault

/-- FAULT gains a reason (60_exceptions.md R274). -/
def State.recordFault (s : State) (f : Fault) : State :=
  { s with faults := s.faults ++ [f] }

/-- The run is marked refused (93_implementation_defined.md). -/
def State.recordRefusal (s : State) (r : Refusal) : State :=
  { s with refusals := s.refusals ++ [r] }

/-- The state a step leaves behind: a raised fault is recorded in FAULT, a refusal in the refusal mark, and a state that has stopped stays
as it is. -/
def State.afterStep (s : State) : State :=
  match step s with
  | .next t => t
  | .fault f => if s.noFault then s.recordFault f else s
  | .refused r => if s.noFault then s.recordRefusal r else s

end Sys2Proof.Machine
end

