-- ==== Sys2Proof/Safety.lean ====
section
/-! DEFINITION. What claims are stated in terms of: the well-formedness of states and parameters, when the DMA regions can be accessed, and what
commands leave alone. The premises of a launch and the end of a run stand in Machine/Launch.lean. -/

namespace Sys2Proof.Machine

/-! ## Well-formed states -/

/-- The ring pointers are ring offsets and multiples of 4 (10_state.md R43, R47, 20_memory.md R78). -/
def State.RingWf (s : State) : Prop :=
  s.rxOff.toNat < s.params.rxRingLen ∧ s.rxOff.toNat % 4 = 0 ∧
    s.dev.wp.toNat < s.dev.ringLen ∧ s.dev.wp.toNat % 4 = 0

/-- BUSY = 1 exactly while a command is in phase RESOLVING (10_state.md R21, R46). -/
def State.BusyWf (s : State) : Prop :=
  s.busy = s.phase.isResolving

/-- `initialized` = 1 means the device is up; ring offsets in range; the parameters fit. -/
def State.UpWf (s : State) : Prop :=
  s.RingWf ∧ s.params.Wf ∧ (s.initialized = true → s.DeviceUp)

/-- A pending slot can be served, and only a pending slot is clobbered (93_implementation_defined.md section 5, 10_state.md R47). -/
def State.SlotsWf (s : State) : Prop :=
  s.UpWf ∧ ∀ i : Fin 4,
    (s.dev.pending[i] = true → s.dev.te = true ∧ s.busMaster = true ∧ s.dev.resetting = false) ∧
    (s.dev.clobbered[i] = true → s.dev.pending[i] = true)

/-- While the device is up under STICKY_WHILE_NONEMPTY, an unread packet in the ring keeps ROK set (10_state.md R32, 40_nic.md R145). -/
def State.RokWf (s : State) : Prop :=
  s.UpWf ∧ s.params.rokClear = .stickyWhileNonempty ∧
    (s.initialized = true → s.dev.ringEmpty = false → s.dev.rok = true)

/-! ## Conditions for commands to run without a model fault -/

/-- The first `k` ARG registers have been written (10_state.md R23). -/
def State.ArgsWritten (s : State) (k : Nat) : Prop :=
  ∀ i : Fin 5, i.val < k → s.args[i].written = true

/-- The engine may access a range: inside host memory and off the engine window (20_memory.md R74, R82). -/
def State.Accessible (s : State) (r : MemRange) : Prop :=
  r.base + r.len ≤ s.params.addrSpace ∧ r.meets s.window = false

/-- Every TX buffer and the RX ring region are accessible, as R310 of 70_reset_and_hazards.md asks of the HOST, and the parameters fit. -/
def State.DmaClear (s : State) : Prop :=
  s.params.Wf ∧ s.rxOff.toNat < s.params.rxRingLen ∧ s.Accessible s.rxRegion ∧ ∀ i : Fin 4, s.Accessible (s.txBuffer i)

/-! ## What commands leave alone

Each says that one state is the other but for the fields named, so that no field is forgotten. -/

/-- Memory `n` reads as `m` outside the ranges. -/
def MemSame (m n : Memory) (rs : List MemRange) : Prop :=
  ∀ a : Nat, (∀ r ∈ rs, a < r.base ∨ r.base + r.len ≤ a) → n.read a = m.read a

/-- Where the engine stores the frames it builds, each of at most 1500 bytes: the four TX buffers (20_memory.md R72, R83, 41_ethernet.md
R180). -/
def State.txFrames (s : State) : List MemRange :=
  [⟨s.txAddr[0].toNat, 1500⟩, ⟨s.txAddr[1].toNat, 1500⟩, ⟨s.txAddr[2].toNat, 1500⟩, ⟨s.txAddr[3].toNat, 1500⟩]

/-- `t` is `s` after frame `f` was handed over in the next TX slot (40_nic.md R148, R169) by a command whose source buffer is `src`:
nothing else changes but the count of draws, TSD.SIZE is the length's low 13 bits (R148), and the frame's bytes are the ones stored unless the buffers overlap
(20_memory.md R82). -/
def State.SendsFrame (s t : State) (src : MemRange) (f : List Byte) : Prop :=
  t = { s with
    txSlot := s.txSlot + 1
    dev := { s.dev with
      tsad := s.dev.tsad.set s.txSlot s.txAddr[s.txSlot]
      tsd := s.dev.tsd.set s.txSlot (BitVec.ofNat 32 (f.length % 8192))
      pending := s.dev.pending.set s.txSlot true
      clobbered := if s.dev.pending[s.txSlot] then s.dev.clobbered.set s.txSlot true else s.dev.clobbered }
    mem := t.mem
    draws := t.draws } ∧
  MemSame s.mem t.mem [⟨s.txAddr[s.txSlot].toNat, f.length⟩] ∧
  (src.meets ⟨s.txAddr[s.txSlot].toNat, f.length⟩ = false →
    t.mem.readBytes s.txAddr[s.txSlot].toNat f.length = f)

/-- `t` is `s` but for what receiving, dispatching and sending frames may change (60_exceptions.md R280): the cache, the ring read
pointer, ISR, the TX slots, memory in the TX buffers, DIAG and the count of draws. -/
def State.SameButTraffic (s t : State) : Prop :=
  t = { s with
    arp := t.arp
    arpRr := t.arpRr
    rxOff := t.rxOff
    txSlot := t.txSlot
    dev := { s.dev with
      isr := t.dev.isr
      capr := t.dev.capr
      tsad := t.dev.tsad
      tsd := t.dev.tsd
      pending := t.dev.pending
      clobbered := t.dev.clobbered }
    mem := t.mem
    diag := t.diag
    draws := t.draws } ∧
  t.mem.wf = true ∧ MemSame s.mem t.mem s.txFrames

/-! ## Records of the RX ring (30_encoding.md R114, 40_nic.md R149) -/

/-- The 13-bit length field of the record at the ring head. -/
def State.recordLen (s : State) : Nat :=
  (le16 (s.mem.readBytes s.ringHead 4) 2).toNat % 8192

/-- The record at the ring head is good: packet-OK is set and its length is at least 4. -/
def State.RecordGood (s : State) : Prop :=
  (le16 (s.mem.readBytes s.ringHead 4) 0).getLsbD 0 = true ∧ 4 ≤ s.recordLen

/-- The bytes a receive into `buflen` bytes takes from the record at the ring head. -/
def State.recordFrame (s : State) (buflen : Nat) : List Byte :=
  s.mem.readBytes (s.ringHead + 4) (min (s.recordLen - 4) buflen)

/-- `t` is `s` with the ring read pointer past the record at the ring head (40_nic.md R146). -/
def State.SkipsRecord (s t : State) : Prop :=
  t = { s with rxOff := t.rxOff, dev := { s.dev with capr := t.dev.capr } } ∧
    t.rxOff.toNat = alignUp (s.rxOff.toNat + 4 + s.recordLen) 4 % s.params.rxRingLen ∧
    t.dev.capr = t.rxOff - 16

/-- `t` is `s` with the record at the ring head taken: skipped, and ROK acknowledged by a write of 1 to ISR. -/
def State.TakesRecord (s t : State) : Prop :=
  ∃ u, s.SkipsRecord u ∧ t = { u with dev := u.dev.writeIsr s.params.rokClear 1 }

/-- `t` is `s` with `b`, read from the range `src`, stored at `dst`: other bytes of memory are unchanged, the stored bytes are `b` unless the
ranges overlap (20_memory.md R82), and a pending slot whose buffer is met is clobbered (10_state.md R47). -/
def State.Delivers (s t : State) (src : MemRange) (dst : Nat) (b : List Byte) : Prop :=
  t = { s with dev := { s.dev with clobbered := t.dev.clobbered }, mem := t.mem, draws := t.draws } ∧
    MemSame s.mem t.mem [⟨dst, b.length⟩] ∧
    (src.meets ⟨dst, b.length⟩ = false → t.mem.readBytes dst b.length = b) ∧
    ∀ i : Fin 4, t.dev.clobbered[i] =
      (s.dev.clobbered[i] || (s.dev.pending[i] && (s.txBuffer i).meets ⟨dst, b.length⟩))

/-! ## Frames the engine builds -/

/-- An Ethernet frame with its padding to 60 bytes (30_encoding.md R110, 41_ethernet.md R180). -/
def frameBytes (dst src : Mac) (type : Half) (p : List Byte) : List Byte :=
  macBytes dst ++ macBytes src ++ bytesBe16 type ++ p ++ zeros (46 - p.length)

/-- The 60 bytes of our ARP request for `ip` (42_arp.md R203). -/
def State.requestFrame (s : State) (ip : Ip) : List Byte :=
  [0xFF, 0xFF, 0xFF, 0xFF, 0xFF, 0xFF] ++ macBytes s.mac ++
    [0x08, 0x06, 0x00, 0x01, 0x08, 0x00, 0x06, 0x04, 0x00, 0x01] ++
    macBytes s.mac ++ bytesBe32 s.ourIp ++ zeros 6 ++ bytesBe32 ip ++ zeros 18

/-- The 60 bytes of an ARP reply to `tmac`, `tip` that offers `sip` (42_arp.md R204). -/
def State.replyFrame (s : State) (tmac : Mac) (tip sip : Ip) : List Byte :=
  macBytes tmac ++ macBytes s.mac ++
    [0x08, 0x06, 0x00, 0x01, 0x08, 0x00, 0x06, 0x04, 0x00, 0x02] ++
    macBytes s.mac ++ bytesBe32 sip ++ macBytes tmac ++ bytesBe32 tip ++ zeros 18

/-- A send that is tried and whose result is ignored: with the device initialised and the frame short enough the frame is handed
over, else nothing happens. -/
def State.TriesToSend (s t : State) (src : MemRange) (f : List Byte) : Prop :=
  if s.initialized = true ∧ f.length ≤ 1500 then s.SendsFrame t src f else t = s

/-- RES0, RES1, RES2 of a command that sends an IPv4 packet (43_ip.md R234). -/
def hopResults (r : Vector Latch 4) (m : Mac) (fallback : Bool) : Vector Latch 4 :=
  ((r.set 0 ⟨macHi m, true⟩).set 1 ⟨macLo m, true⟩).set 2 ⟨if fallback then 1 else 0, true⟩

/-- A frame of `len` bytes fits the next TX buffer where the engine may write it. -/
def State.SlotAccessible (s : State) (len : Nat) : Prop :=
  s.Accessible ⟨s.txAddr[s.txSlot].toNat, len⟩

/-- A frame of `len` bytes in the next TX buffer would meet the engine register window (20_memory.md R74). -/
def State.SlotOverWindow (s : State) (len : Nat) : Prop :=
  s.txAddr[s.txSlot].toNat + len ≤ s.params.addrSpace ∧
    MemRange.meets ⟨s.txAddr[s.txSlot].toNat, len⟩ s.window = true

/-- The latency of a reset is below the poll limit (40_nic.md R142). -/
def latencyBelow (l : Option Nat) (limit : Nat) : Prop :=
  ∃ n, l = some n ∧ n < limit

end Sys2Proof.Machine
end

