-- ==== Sys2Proof/Certificates/Slice0/Obligations.lean ====
section
/-! DEFINITION. The statements for the provers, from the numbered rules of spec/. Addresses, lengths and operands are those of the
ARG registers; `MemSame` is over the model's read of one byte. -/

open Sys2Proof Sys2Proof.Machine

/-! ## Encoding and the start of a command -/

/-- R100, R101, R102: words written out bit by bit from the opcode map, at least one of every family, and words that are
illegal. -/
def Obligations.DecodedSampleWords : Prop :=
  decode 0b00000000000000000000000000000001 = .ok .nicInit ∧
  decode 0b00000000000000000000000000000100 = .ok .nicIrq ∧
  decode 0b00000000000000000000000000010000 = .ok .ethSendFrame ∧
  decode 0b00000000000000000000000000010011 = .ok .ethPoll ∧
  decode 0b00000000000000000000000000100001 = .ok .arpAddOrUpdate ∧
  decode 0b00000000000000000000000000100101 = .ok .arpResolve ∧
  decode 0b00000000000000000000000000110001 = .ok .ipSendPacket ∧
  decode 0b00000000000000000000000000110011 = .ok .ipChecksum ∧
  decode 0b00000000000000000000000001000000 = .ok .icmpSendEchoRequest ∧
  decode 0b00000000000000000000000001000001 = .ok .icmpProcessPacket ∧
  decode 0b00000000000000000000000000000000 = .error (.unknownOpcode 0) ∧
  decode 0b00000000000000000000000001000010 = .error (.unknownOpcode 0x42) ∧
  decode 0b00000000000000000000000100000001 = .error .mbzNotZero

/-- R100, R101: decoding the bytes of an encoded command gives it back and leaves the rest, and the encoder's word is the only
one of the 2^32 words that decodes to the command. -/
def Obligations.DecodingInvertsEncoding : Prop :=
  (∀ (i : Instr) (rest : List Byte), decodeBytes (bytesOfWord (encode i) ++ rest) = .ok (i, rest)) ∧
  (∀ (w : Word) (i : Instr), decode w = .ok i ↔ w = encode i) ∧
  (∀ (w : Word) (rest : List Byte) (i : Instr), decodeBytes (bytesOfWord w ++ rest) = .ok (i, rest) ↔ w = encode i)

/-- R102: an illegal word, that is one with MBZ ≠ 0 or an OPCODE no command has, finishes with ERR_ILLEGAL_CMD and changes nothing
but STATUS (and CMD, which R21 latches); the OPCODE values R102 lists are no command's. -/
def Obligations.IllegalWordEndsWithErrIllegalCmd : Prop :=
  (∀ (w : Word) (s : State), s.busy = false →
    (w.extractLsb' 8 24 ≠ 0 ∨ ∀ i : Instr, w.extractLsb' 0 8 ≠ i.opcode) →
    writeCmd w s = .next { s with cmd := w, cmdWritten := true, code := .illegalCmd, busy := false }) ∧
  (∀ (op : Byte) (i : Instr),
    op.toNat = 0x00 ∨ (0x05 ≤ op.toNat ∧ op.toNat ≤ 0x0F) ∨ (0x14 ≤ op.toNat ∧ op.toNat ≤ 0x1F) ∨
      (0x27 ≤ op.toNat ∧ op.toNat ≤ 0x2F) ∨ (0x34 ≤ op.toNat ∧ op.toNat ≤ 0x3F) ∨ 0x42 ≤ op.toNat →
    op ≠ i.opcode)

/-- R103: while BUSY = 1 an illegal word is a CMD-while-busy violation, as is every legal word but NIC_IRQ's, which runs. -/
def Obligations.OnlyNicIrqPreempts : Prop :=
  ∀ s : State, s.busy = true →
    (∀ w : Word, (w.extractLsb' 8 24 ≠ 0 ∨ ∀ i : Instr, w.extractLsb' 0 8 ≠ i.opcode) → writeCmd w s = .fault .cmdWhileBusy) ∧
    (∀ i : Instr, i ≠ .nicIrq → writeCmd (encode i) s = .fault .cmdWhileBusy) ∧
    writeCmd (encode .nicIrq) s = exec .nicIrq { s with cmd := encode .nicIrq, cmdWritten := true }

/-- R21, R14: a step whose turn is the HOST's write of a legal word to CMD latches the word and is the first step of the command
it encodes, on the agenda's rest. -/
def Obligations.StepRunsTheDecodedCommand : Prop :=
  ∀ (s : State) (w : Word) (i : Instr) (rest : List Move), s.faults = [] → s.refusals = [] →
    s.agenda = .host (.engineWrite 0 .w32 w) :: rest → decode w = .ok i → (s.busy = false ∨ i = .nicIrq) →
    step s = exec i { s with agenda := rest, cmd := w, cmdWritten := true }

/-- R23: ARG0..ARG4 are unwritten at reset; the HOST writes and reads them; a command that reads an unwritten one faults before any
other effect; no command modifies them. That a HOST write while BUSY = 1 is refused is the model's reading of 70_reset_and_hazards.md R320
(notes/assumptions/35.md). -/
def Obligations.ArgRegisterRules : Prop :=
  (∀ k : Fin 5, State.reset.args[k].written = false) ∧
  (∀ (s : State) (k : Fin 5) (v : Word), s.busy = false →
    engineWrite (Fin.ofNat 0x50 (0x08 + 4 * k.val)) .w32 v s = .next { s with args := s.args.set k ⟨v, true⟩ }) ∧
  (∀ (s : State) (k : Fin 5) (v : Word), s.busy = true →
    engineWrite (Fin.ofNat 0x50 (0x08 + 4 * k.val)) .w32 v s = .refused .hostBusyWrite) ∧
  (∀ (s : State) (k : Fin 5), s.args[k].written = true →
    s.engineRead (Fin.ofNat 0x50 (0x08 + 4 * k.val)) .w32 = .ok { s with hostData := s.args[k].value }) ∧
  (∀ (i : Instr) (s : State) (k : Fin 5), k.val < i.argCount → s.args[k].written = false →
    exec i s = .fault .unwrittenArg) ∧
  (∀ (i : Instr) (s t : State), exec i s = .next t → t.args = s.args)

/-! ## The HOST's view -/

/-- R22, R25, R26, R28, R29, R24, R21: what a HOST read of STATUS, OUR_IP, MAC_HI, MAC_LO, RX_OFF, IRQ_ISR, IRQ_DRAINED, RES0..RES3 and CMD
(the word last written) returns, with no other effect; writes of these registers but CMD are ignored. -/
def Obligations.WindowRegisterReads : Prop :=
  (∀ s : State, s.cmdWritten = true → s.engineRead 0x00 .w32 = .ok { s with hostData := s.cmd }) ∧
  (∀ (s t : State) (w : Word), engineWrite 0x00 .w32 w s = .next t →
    t.engineRead 0x00 .w32 = .ok { t with hostData := w }) ∧
  (∀ s : State, ∃ v : Word, s.engineRead 0x04 .w32 = .ok { s with hostData := v } ∧
    v.extractLsb' 0 8 = s.code.number ∧ v.getLsbD 8 = s.busy ∧ v.extractLsb' 9 23 = 0) ∧
  (∀ s : State, s.engineRead 0x30 .w32 = .ok { s with hostData := s.ourIp }) ∧
  (∀ s : State, s.macKnown = true →
    (∃ v : Word, s.engineRead 0x34 .w32 = .ok { s with hostData := v } ∧
      v.extractLsb' 0 16 = s.mac.extractLsb' 32 16 ∧ v.extractLsb' 16 16 = 0) ∧
    s.engineRead 0x38 .w32 = .ok { s with hostData := s.mac.extractLsb' 0 32 }) ∧
  (∀ s : State, ∃ v : Word, s.engineRead 0x40 .w32 = .ok { s with hostData := v } ∧
    v.extractLsb' 0 16 = s.rxOff ∧ v.extractLsb' 16 16 = 0) ∧
  (∀ s : State, s.irqWritten = true →
    (∃ v : Word, s.engineRead 0x44 .w32 = .ok { s with hostData := v } ∧
      v.extractLsb' 0 16 = s.irqIsr ∧ v.extractLsb' 16 16 = 0) ∧
    s.engineRead 0x48 .w32 = .ok { s with hostData := s.irqDrained }) ∧
  (∀ (s : State) (i : Fin 4), s.res[i].written = true →
    s.engineRead (Fin.ofNat 0x50 (0x20 + 4 * i.val)) .w32 = .ok { s with hostData := s.res[i].value }) ∧
  (∀ (s : State) (off : Fin 0x50) (v : Word),
    off.val ∈ [0x04, 0x20, 0x24, 0x28, 0x2C, 0x30, 0x34, 0x38, 0x3C, 0x40, 0x44, 0x48] → engineWrite off .w32 v s = .next s)

/-- R27: the fields of ENGSTAT, its other bits, its reset value, and that writes do nothing. -/
def Obligations.EngstatFields : Prop :=
  (∀ s : State, s.arp.length ≤ 16 → ∃ v : Word, s.engineRead 0x3C .w32 = .ok { s with hostData := v } ∧
    v.getLsbD 0 = s.initialized ∧ (v.extractLsb' 4 2).toNat = s.txSlot.val ∧
    (v.extractLsb' 8 5).toNat = s.arp.length ∧ (v.extractLsb' 16 4).toNat = s.arpRr.val ∧
    v.getLsbD 24 = s.phase.isResolving ∧
    v.extractLsb' 1 3 = 0 ∧ v.extractLsb' 6 2 = 0 ∧ v.extractLsb' 13 3 = 0 ∧ v.extractLsb' 20 4 = 0 ∧
    v.extractLsb' 25 7 = 0) ∧
  State.reset.engineRead 0x3C .w32 = .ok { State.reset with hostData := 0 } ∧
  ∀ (s : State) (v : Word), engineWrite 0x3C .w32 v s = .next s

/-- R30, R79: the reserved and unlisted offsets of the engine window read 0 and ignore writes, and an access that is not an aligned 32-bit
one faults. That "aligned" is said of the offset, whatever ENGINE_BASE is, is the model's choice (notes/assumptions/36.md). -/
def Obligations.ReservedAndMisalignedEngineAccess : Prop :=
  (∀ (s : State) (off : Fin 0x50) (v : Word), off.val = 0x1C ∨ off.val = 0x4C →
    s.engineRead off .w32 = .ok { s with hostData := 0 } ∧ engineWrite off .w32 v s = .next s) ∧
  (∀ (s : State) (off : Fin 0x50) (w : Width) (v : Word), w ≠ .w32 ∨ off.val % 4 ≠ 0 →
    s.engineRead off w = .error .badEngineAccess ∧ engineWrite off w v s = .fault .badEngineAccess)

/-- R41, R31, R33, R34, R35, R36, R37, R38, R39, R40, R53, R302: a HOST read of a device register at its offset and width returns the register
and changes nothing, but that a read of CR while a soft reset is in progress shows RST = 1 and counts towards its end. Another width or a
start inside a register is BAD_DEVICE_ACCESS, an unmodelled offset and every HOST write HOST_DEVICE_ACCESS; which of the two reasons a
wrong access faults with is the model's choice (notes/assumptions/19.md), and so is that all of this holds on a platform with no NIC
(NIC_PCI_LOCATION = none) as well (notes/assumptions/34.md). -/
def Obligations.HostDeviceAccess : Prop :=
  (∀ (s : State) (off : Fin 256) (w : Width) (v : Word), hostMove (.deviceWrite off w v) s = .fault .hostDeviceAccess) ∧
  (∀ (s : State) (i : Fin 6), hostMove (.deviceRead (Fin.ofNat 256 i.val) .w8) s =
    .next { s with hostData := (s.dev.idr.extractLsb' (40 - 8 * i.val) 8).zeroExtend 32 }) ∧
  (∀ (s : State) (i : Fin 4), ∃ v : Word,
    hostMove (.deviceRead (Fin.ofNat 256 (0x10 + 4 * i.val)) .w32) s = .next { s with hostData := v } ∧
    v.getLsbD 14 = false ∧ ∀ k, k ≠ 14 → v.getLsbD k = s.dev.tsd[i].getLsbD k) ∧
  (∀ (s : State) (i : Fin 4),
    hostMove (.deviceRead (Fin.ofNat 256 (0x20 + 4 * i.val)) .w32) s = .next { s with hostData := s.dev.tsad[i] }) ∧
  (∀ s : State,
    hostMove (.deviceRead 0x30 .w32) s = .next { s with hostData := s.dev.rbstart } ∧
    hostMove (.deviceRead 0x38 .w16) s = .next { s with hostData := s.dev.capr.zeroExtend 32 } ∧
    hostMove (.deviceRead 0x3A .w16) s = .next { s with hostData := s.dev.wp.zeroExtend 32 } ∧
    hostMove (.deviceRead 0x3C .w16) s = .next { s with hostData := s.dev.imr.zeroExtend 32 } ∧
    hostMove (.deviceRead 0x44 .w32) s = .next { s with hostData := s.dev.rcr } ∧
    ∃ v : Word, hostMove (.deviceRead 0x3E .w16) s = .next { s with hostData := v } ∧
      (∀ k, k < 5 → v.getLsbD k = s.dev.isr.getLsbD k) ∧ ∀ k, 5 ≤ k → v.getLsbD k = false) ∧
  (∀ s : State, ∃ (v : Byte) (l : ResetLeft),
    hostMove (.deviceRead 0x37 .w8) s = .next { s with hostData := v.zeroExtend 32, dev := { s.dev with rstLeft := l } } ∧
    v.getLsbD 0 = decide (s.dev.rp = s.dev.wp.toNat) ∧ v.getLsbD 1 = false ∧ v.getLsbD 2 = s.dev.te ∧
    v.getLsbD 3 = s.dev.re ∧ v.extractLsb' 5 3 = 0 ∧
    (s.dev.rstLeft = .reads 0 → v.getLsbD 4 = false ∧ l = .reads 0) ∧
    (∀ n, s.dev.rstLeft = .reads (n + 1) → v.getLsbD 4 = true ∧ l = .reads n) ∧
    (s.dev.rstLeft = .forever → v.getLsbD 4 = true ∧ l = .forever)) ∧
  (∀ (s : State) (off : Fin 256) (w : Width),
    (off.val ≤ 0x05 ∧ w ≠ .w8) ∨
      (0x10 ≤ off.val ∧ off.val ≤ 0x33 ∧ (w ≠ .w32 ∨ off.val % 4 ≠ 0)) ∨
      (off.val = 0x37 ∧ w ≠ .w8) ∨
      (0x38 ≤ off.val ∧ off.val ≤ 0x3F ∧ (w ≠ .w16 ∨ off.val % 2 ≠ 0)) ∨
      (0x44 ≤ off.val ∧ off.val ≤ 0x47 ∧ (w ≠ .w32 ∨ off.val ≠ 0x44)) →
    hostMove (.deviceRead off w) s = .fault .badDeviceAccess) ∧
  (∀ (s : State) (off : Fin 256) (w : Width),
    (0x06 ≤ off.val ∧ off.val ≤ 0x0F) ∨ (0x34 ≤ off.val ∧ off.val ≤ 0x36) ∨ (0x40 ≤ off.val ∧ off.val ≤ 0x43) ∨
      0x48 ≤ off.val →
    hostMove (.deviceRead off w) s = .fault .hostDeviceAccess)

/-- R74, R82, R83, R169: a HOST write of host memory. A range past the address space or over the engine window faults; after NIC_INIT one that meets
the RX ring region, or a TX buffer whose slot is not pending, faults; any other lands, other bytes are unchanged, and a pending slot
whose buffer it meets is clobbered. R83 and R169 give the ownership and the clobbering. The model's own (notes/assumptions/20.md) are: the
reasons ADDR_WRAP and BAD_ENGINE_ACCESS for a HOST write, of which R82 and R74 do not speak; that the ownership holds only while
`initialized` = 1; which fault wins where several apply; that a write meeting both a pending and another buffer faults; and that a write of no
bytes does nothing. -/
def Obligations.HostMemoryWrites : Prop :=
  (∀ (s : State) (a : Word), hostMove (.memWrite a []) s = .next s) ∧
  ∀ (s : State) (a : Word) (b : List Byte), s.mem.wf = true → b ≠ [] →
    let r : MemRange := ⟨a.toNat, b.length⟩
    (r.base + r.len > s.params.addrSpace → hostMove (.memWrite a b) s = .fault .addrWrap) ∧
    (r.base + r.len ≤ s.params.addrSpace → r.meets s.window = true → hostMove (.memWrite a b) s = .fault .badEngineAccess) ∧
    (s.Accessible r → s.initialized = true →
      (r.meets s.rxRegion = true ∨ ∃ i : Fin 4, s.dev.pending[i] = false ∧ r.meets (s.txBuffer i) = true) →
      hostMove (.memWrite a b) s = .fault .hostDmaWrite) ∧
    (s.Accessible r →
      (s.initialized = true → r.meets s.rxRegion = false ∧
        ∀ i : Fin 4, s.dev.pending[i] = false → r.meets (s.txBuffer i) = false) →
      ∃ t, hostMove (.memWrite a b) s = .next t ∧
        t = { s with mem := t.mem, dev := { s.dev with clobbered := t.dev.clobbered } } ∧
        t.mem.readBytes a.toNat b.length = b ∧ MemSame s.mem t.mem [r] ∧
        ∀ i : Fin 4, t.dev.clobbered[i] =
          (s.dev.clobbered[i] || (s.dev.pending[i] && (s.txBuffer i).meets r)))

/-! ## Device registers -/

/-- R32: the effect of a write of 1 to ISR.ROK under each policy, with R31's write-1-to-clear of the other bits as its frame. -/
def Obligations.RokClearing : Prop :=
  ∀ (p : RokClearPolicy) (v : Half) (d : Device),
    (d.writeIsr p v = { d with isr := (d.writeIsr p v).isr }) ∧
    (p = .stickyWhileNonempty → d.rp = d.wp.toNat →
      (d.writeIsr p v).isr.getLsbD 0 = (d.isr.getLsbD 0 && !v.getLsbD 0)) ∧
    (p = .stickyWhileNonempty → d.rp ≠ d.wp.toNat → (d.writeIsr p v).isr.getLsbD 0 = d.isr.getLsbD 0) ∧
    (p = .unconditional → (d.writeIsr p v).isr.getLsbD 0 = (d.isr.getLsbD 0 && !v.getLsbD 0)) ∧
    (∀ k, 1 ≤ k → k ≤ 4 → (d.writeIsr p v).isr.getLsbD k = (d.isr.getLsbD k && !v.getLsbD k)) ∧
    (∀ k, 5 ≤ k → (d.writeIsr p v).isr.getLsbD k = d.isr.getLsbD k)

/-- R276: the IRQ line is 1 exactly if one of the five ISR bits is set and enabled in IMR. -/
def Obligations.IrqLineIsLevel : Prop :=
  ∀ s : State, s.irqLine = true ↔ ∃ k, k < 5 ∧ s.dev.isr.getLsbD k = true ∧ s.dev.imr.getLsbD k = true

/-- R35, R302, R33, R142: a write of TSD[i] takes SIZE, OWN and the stored bits, clears TOK, leaves the other slots alone, and hands the
slot over exactly if bit 13 is 0. A write of CR with bit 4 set makes a soft reset: the registers it clears, those it keeps, and that
CR.RST then reads 1 for RESET_LATENCY reads and 0 afterwards; any other write of CR takes TE and RE only. -/
def Obligations.TsdAndCrWrites : Prop :=
  (∀ (d : Device) (i : Fin 4) (v : Word),
    d.writeTsd i v = { d with tsd := (d.writeTsd i v).tsd, pending := (d.writeTsd i v).pending } ∧
    ((d.writeTsd i v).tsdWord i).extractLsb' 0 13 = v.extractLsb' 0 13 ∧
    ((d.writeTsd i v).tsdWord i).getLsbD 13 = v.getLsbD 13 ∧
    ((d.writeTsd i v).tsdWord i).getLsbD 14 = false ∧
    ((d.writeTsd i v).tsdWord i).getLsbD 15 = false ∧
    ((d.writeTsd i v).tsdWord i).extractLsb' 16 16 = v.extractLsb' 16 16 ∧
    (v.getLsbD 13 = false → (d.writeTsd i v).pending[i] = true) ∧
    (v.getLsbD 13 = true → (d.writeTsd i v).pending[i] = d.pending[i]) ∧
    ∀ j : Fin 4, j ≠ i → (d.writeTsd i v).tsd[j] = d.tsd[j] ∧ (d.writeTsd i v).pending[j] = d.pending[j]) ∧
  (∀ (s : State) (v : Byte), v.getLsbD 4 = true → ∃ t, s.writeCr v = t ∧
    t = { s with
      dev := { s.dev with
        isr := 0, imr := 0, te := false, re := false, wp := 0, capr := 0xFFF0
        pending := Vector.replicate 4 false, clobbered := Vector.replicate 4 false
        tsd := t.dev.tsd, rcr := t.dev.rcr, rstLeft := t.dev.rstLeft }
      draws := t.draws } ∧
    t.dev.rp = 0 ∧ t.dev.ringEmpty = true ∧
    (∀ n, Config.drawLatency (s.draws + 5) = some n → ∀ k,
      (Nat.iterate Device.afterCrRead k t.dev).resetting = decide (k < n)) ∧
    (Config.drawLatency (s.draws + 5) = none → ∀ k, (Nat.iterate Device.afterCrRead k t.dev).resetting = true)) ∧
  (∀ (s : State) (v : Byte), v.getLsbD 4 = false →
    s.writeCr v = { s with dev := { s.dev with te := v.getLsbD 2, re := v.getLsbD 3 } })

/-! ## NIC_INIT -/

/-- R141, R142, R144, R116, R311: NIC_INIT where the device is found with an I/O BAR. If the reset's latency is below the poll limit it brings
the device up, with RCR.RBLEN as RX_RING_LEN needs it, and reports the burned-in MAC (with CMD latched, every ARG register written and a cache
that a run can leave, that is the launch premise UP as notes/assumptions/39.md reads it); otherwise it ends in ERR_RESET_TIMEOUT with
`initialized` = 0 and the device reset. Nothing but what is named changes. -/
def Obligations.NicInitBringsUpOrTimesOut : Prop :=
  ∀ (s : State) (p : NicPci), s.ArgsWritten 2 → s.params.pciVendorId ≠ 0xFFFF → s.pci = some p →
    p.vendor = s.params.pciVendorId → p.device = s.params.pciDeviceId → p.bar0.getLsbD 0 = true →
    let rx := alignUp s.args[0].value.toNat 256
    let tx := alignUp s.args[1].value.toNat 16
    rx + 8192 * 2 ^ s.params.rblen.toNat + s.params.rxRingSlack ≤ s.params.addrSpace →
    tx + 4 * s.params.txBufSize ≤ s.params.addrSpace →
    ∃ t, exec .nicInit s = .next t ∧
      (latencyBelow (Config.drawLatency (s.draws + 5)) s.params.resetPollLimit →
        t = { s with
          code := .ok, busy := false
          res := (s.res.set 0 ⟨macHi s.dev.idr, true⟩).set 1 ⟨macLo s.dev.idr, true⟩
          initialized := true, ioBase := p.bar0 &&& 0xFFFFFFFC, mac := s.dev.idr, macKnown := true
          rxBase := t.rxBase, txAddr := t.txAddr, txSlot := 0, rxOff := 0
          dev := { s.dev with
            isr := 0, imr := 0x0005, te := true, re := true
            rcr := 0x0000008D ||| s.params.rblen.zeroExtend 32 <<< 11
            rbstart := t.rxBase, tsad := t.txAddr, capr := 0xFFF0, wp := 0
            pending := Vector.replicate 4 false, clobbered := Vector.replicate 4 false
            tsd := t.dev.tsd, rstLeft := .reads 0 }
          pci := some { p with command := p.command ||| 0x0004 }
          draws := t.draws } ∧
        t.rxBase.toNat = rx ∧ (∀ i : Fin 4, t.txAddr[i] = BitVec.ofNat 32 (tx + i.val * s.params.txBufSize)) ∧
        (s.params.Wf → s.ArgsWritten 5 → s.cmdWritten = true → s.cmd = encode .nicInit → s.ArpWf → t.isUp = true)) ∧
      (¬ latencyBelow (Config.drawLatency (s.draws + 5)) s.params.resetPollLimit →
        t = { s with
          code := .resetTimeout, busy := false, initialized := false, ioBase := p.bar0 &&& 0xFFFFFFFC
          dev := { s.dev with
            isr := 0, imr := 0, te := false, re := false, rcr := t.dev.rcr, capr := 0xFFF0, wp := 0
            pending := Vector.replicate 4 false, clobbered := Vector.replicate 4 false
            tsd := t.dev.tsd, rstLeft := t.dev.rstLeft }
          draws := t.draws } ∧
        ∀ n, Config.drawLatency (s.draws + 5) = some n → t.dev.rstLeft = .reads (n - s.params.resetPollLimit))

/-- R141, R272: NIC_INIT's other fatal-init results: no function matches the IDs, or BAR0 is no I/O BAR. The command ends, `initialized` is
0 and nothing else has been written. -/
def Obligations.NicInitFatalCodes : Prop :=
  ∀ s : State, s.ArgsWritten 2 → s.params.pciVendorId ≠ 0xFFFF →
    alignUp s.args[0].value.toNat 256 + s.params.rxRingLen + s.params.rxRingSlack ≤ s.params.addrSpace →
    alignUp s.args[1].value.toNat 16 + 4 * s.params.txBufSize ≤ s.params.addrSpace →
    ((∀ p, s.pci = some p → p.vendor ≠ s.params.pciVendorId ∨ p.device ≠ s.params.pciDeviceId) →
      exec .nicInit s = .next { s with code := .deviceNotFound, busy := false, initialized := false }) ∧
    (∀ p, s.pci = some p → p.vendor = s.params.pciVendorId → p.device = s.params.pciDeviceId → p.bar0.getLsbD 0 = false →
      exec .nicInit s = .next { s with code := .barNotIo, busy := false, initialized := false })

/-! ## Ranges (R82, R74, R140, R278) -/

/-- R82, R140, R141, R278: a command whose host-memory range ends past the address space faults with ADDR_WRAP, after the checks that come
before it. That NIC_INIT's ranges come before its other checks, where R278 lists ADDR_WRAP last, follows R141 and
90_conflicts.md C17 and is the model's reading (notes/assumptions/25.md). -/
def Obligations.WrappingRangesFault : Prop :=
  ∀ (i : Instr) (s : State), s.ArgsWritten i.argCount →
    (i = .nicInit → (alignUp s.args[0].value.toNat 256 + s.params.rxRingLen + s.params.rxRingSlack > s.params.addrSpace ∨
        alignUp s.args[1].value.toNat 16 + 4 * s.params.txBufSize > s.params.addrSpace) → exec i s = .fault .addrWrap) ∧
    (i = .nicSend → s.initialized = true → s.args[1].value.toNat ≤ s.params.txBufSize →
      s.args[0].value.toNat + s.args[1].value.toNat > s.params.addrSpace → exec i s = .fault .addrWrap) ∧
    (i = .nicReceive → s.initialized = true →
      s.args[0].value.toNat + s.args[1].value.toNat > s.params.addrSpace → exec i s = .fault .addrWrap) ∧
    (i = .ipChecksum → s.args[1].value.toNat ≤ 65535 →
      s.args[0].value.toNat + s.args[1].value.toNat > s.params.addrSpace → exec i s = .fault .addrWrap) ∧
    (i ∈ [.ethReceiveFrame, .ethProcessFrame, .arpProcessPacket, .ipProcessPacket, .icmpProcessPacket] →
      s.args[0].value.toNat + s.args[1].value.toNat > s.params.addrSpace → exec i s = .fault .addrWrap) ∧
    (i = .ipSendPacket → s.args[2].value.toNat + s.args[3].value.toNat > s.params.addrSpace → exec i s = .fault .addrWrap) ∧
    (i ∈ [.ethSendFrame, .icmpSendEchoRequest] →
      s.args[3].value.toNat + s.args[4].value.toNat > s.params.addrSpace → exec i s = .fault .addrWrap)

/-- R74, R72: every engine MemRead and MemWrite whose range meets the engine register window faults with BUFFER_OVER_WINDOW. So do: each
command whose source buffer meets it; each receive whose ring record or destination meets it; and each send, of a command's own frame, of a
resolve's request or of a reply, whose TX buffer meets it. That a range past the address space faults with ADDR_WRAP instead is the model's
order (notes/assumptions/22.md). That a source buffer in the DMA regions is read like any other is the model's choice
(notes/assumptions/40.md). -/
def Obligations.BuffersOverTheWindowFault : Prop :=
  (∀ (s : State) (r : MemRange) (b : List Byte), r.base + r.len ≤ s.params.addrSpace → r.meets s.window = true →
    s.engineLoad r = .error .bufferOverWindow ∧ (b.length = r.len → s.engineStore r.base b = .error .bufferOverWindow)) ∧
  (∀ (s : State) (src : MemRange) (dst : Mac) (type : Half) (p : List Byte), s.initialized = true → p.length ≤ 1486 →
    s.SlotOverWindow (max 60 (14 + p.length)) → s.ethSendFrame src dst type p = .error .bufferOverWindow) ∧
  (∀ (i : Instr) (s : State), s.ArgsWritten i.argCount →
    (i ∈ [.ethProcessFrame, .arpProcessPacket, .ipProcessPacket, .icmpProcessPacket, .nicSend, .ipChecksum] →
      (i = .nicSend → s.initialized = true ∧ s.args[1].value.toNat ≤ s.params.txBufSize) →
      (i = .ipChecksum → s.args[1].value.toNat ≤ 65535) →
      s.args[0].value.toNat + s.args[1].value.toNat ≤ s.params.addrSpace →
      (bufferOf s.args[0].value s.args[1].value).meets s.window = true → exec i s = .fault .bufferOverWindow) ∧
    (i = .ipSendPacket → s.args[2].value.toNat + s.args[3].value.toNat ≤ s.params.addrSpace →
      (bufferOf s.args[2].value s.args[3].value).meets s.window = true → exec i s = .fault .bufferOverWindow) ∧
    (i ∈ [.ethSendFrame, .icmpSendEchoRequest] → s.args[3].value.toNat + s.args[4].value.toNat ≤ s.params.addrSpace →
      (bufferOf s.args[3].value s.args[4].value).meets s.window = true → exec i s = .fault .bufferOverWindow)) ∧
  (∀ (i : Instr) (s : State), s.ArgsWritten i.argCount → s.initialized = true → s.dev.rok = true →
    (i ∈ [.nicReceive, .ethReceiveFrame] → s.args[0].value.toNat + s.args[1].value.toNat ≤ s.params.addrSpace) →
    (i = .nicIrq → s.params.rokClear = .stickyWhileNonempty ∧ s.dev.ringEmpty = false) →
    i ∈ [.nicReceive, .ethReceiveFrame, .ethPoll, .arpPoll, .nicIrq] →
    let n := if i ∈ [.nicReceive, .ethReceiveFrame] then s.args[1].value.toNat else s.params.pollBufSize
    let b := s.recordFrame n
    (s.ringHead + 4 ≤ s.params.addrSpace → MemRange.meets ⟨s.ringHead, 4⟩ s.window = true →
      exec i s = .fault .bufferOverWindow) ∧
    (s.Accessible ⟨s.ringHead, 4⟩ → s.RecordGood → s.ringHead + 4 + b.length ≤ s.params.addrSpace →
      MemRange.meets ⟨s.ringHead + 4, b.length⟩ s.window = true → exec i s = .fault .bufferOverWindow) ∧
    (i ∈ [.nicReceive, .ethReceiveFrame] →
      (i = .ethReceiveFrame → 14 ≤ b.length ∧
        (b.take 6 = macBytes s.mac ∨ b.take 6 = [0xFF, 0xFF, 0xFF, 0xFF, 0xFF, 0xFF])) →
      s.RecordGood → s.Accessible ⟨s.ringHead, 4 + b.length⟩ →
      MemRange.meets ⟨s.args[0].value.toNat, b.length⟩ s.window = true → exec i s = .fault .bufferOverWindow)) ∧
  (∀ s : State, s.initialized = true →
    (s.ArgsWritten 2 → s.Accessible (bufferOf s.args[0].value s.args[1].value) →
      s.args[1].value.toNat ≤ s.params.txBufSize → s.SlotOverWindow s.args[1].value.toNat →
      exec .nicSend s = .fault .bufferOverWindow) ∧
    (s.ArgsWritten 5 → s.Accessible (bufferOf s.args[3].value s.args[4].value) →
      s.args[4].value.toNat ≤ 1486 → s.SlotOverWindow (max 60 (14 + s.args[4].value.toNat)) →
      exec .ethSendFrame s = .fault .bufferOverWindow) ∧
    (s.ArgsWritten 4 → s.Accessible (bufferOf s.args[2].value s.args[3].value) → s.args[3].value.toNat ≤ 1466 →
      s.arpLookup s.args[0].value ≠ none → s.SlotOverWindow (max 60 (34 + s.args[3].value.toNat)) →
      exec .ipSendPacket s = .fault .bufferOverWindow) ∧
    (s.ArgsWritten 5 →
      let r := bufferOf s.args[3].value s.args[4].value
      let q := if r.len = 0 then s.params.echoDefault.toList else s.mem.readBytes r.base r.len
      s.Accessible r → r.len ≤ 1458 → s.arpLookup s.args[0].value ≠ none → s.SlotOverWindow (max 60 (42 + q.length)) →
      exec .icmpSendEchoRequest s = .fault .bufferOverWindow) ∧
    (s.SlotOverWindow 60 →
      (s.ArgsWritten 1 → exec .arpSendRequest s = .fault .bufferOverWindow) ∧
      (s.ArgsWritten 4 → exec .arpSendReply s = .fault .bufferOverWindow) ∧
      (s.phase = .idle → s.arpLookup s.args[0].value = none →
        (s.ArgsWritten 2 → exec .arpResolve s = .fault .bufferOverWindow) ∧
        (s.ArgsWritten 4 → s.Accessible (bufferOf s.args[2].value s.args[3].value) →
          exec .ipSendPacket s = .fault .bufferOverWindow) ∧
        (s.ArgsWritten 5 → s.Accessible (bufferOf s.args[3].value s.args[4].value) →
          exec .icmpSendEchoRequest s = .fault .bufferOverWindow)) ∧
      (s.ArgsWritten 4 →
        let r := bufferOf s.args[0].value s.args[1].value
        let d := s.mem.readBytes r.base r.len
        s.Accessible r → 28 ≤ r.len → d.take 6 = [0x00, 0x01, 0x08, 0x00, 0x06, 0x04] → be16 d 6 = 1 → be32 d 24 = s.ourIp →
        exec .arpProcessPacket s = .fault .bufferOverWindow)) ∧
    (s.ArgsWritten 3 →
      let r := bufferOf s.args[0].value s.args[1].value
      let e := s.mem.readBytes r.base r.len
      s.Accessible r → 8 ≤ r.len → r.len ≤ 1466 → internetChecksum e = 0 → byteAt e 0 = 8 →
      s.arpLookup s.args[2].value ≠ none → s.SlotOverWindow (max 60 (34 + r.len)) →
      exec .icmpProcessPacket s = .fault .bufferOverWindow) ∧
    (s.ArgsWritten 4 →
      let r := bufferOf s.args[0].value s.args[1].value
      let d := s.mem.readBytes r.base r.len
      let tl := (be16 d 2).toNat
      let e := (d.take tl).drop 20
      s.Accessible r → (byteAt d 0).extractLsb' 4 4 = 4 → 28 ≤ tl → tl ≤ r.len → tl ≤ 1486 →
      internetChecksum (d.take 20) = 0 → be32 d 16 = s.ourIp → byteAt d 9 = 1 →
      internetChecksum e = 0 → byteAt e 0 = 8 → s.SlotOverWindow (max 60 (14 + tl)) →
      exec .ipProcessPacket s = .fault .bufferOverWindow))

/-! ## NIC_SEND, NIC_RECEIVE, NIC_IRQ -/

/-- R143, R148, R140, R169: NIC_SEND refuses without the device and beyond TX_BUF_SIZE, changing STATUS only; otherwise it copies the frame
into the next TX slot's buffer and hands it over. That a source buffer in the DMA regions is read like any other is the model's choice
(notes/assumptions/40.md). -/
def Obligations.NicSendOutcomes : Prop :=
  ∀ s : State, s.ArgsWritten 2 → s.mem.wf = true →
    let r := bufferOf s.args[0].value s.args[1].value
    (s.initialized = false → exec .nicSend s = .next { s with code := .notInitialized, busy := false }) ∧
    (s.initialized = true → r.len > s.params.txBufSize → exec .nicSend s = .next { s with code := .tooLarge, busy := false }) ∧
    (s.initialized = true → r.len ≤ s.params.txBufSize → s.Accessible r → s.SlotAccessible r.len →
      ∃ u, exec .nicSend s = .next { u with code := .ok, busy := false } ∧
        s.SendsFrame u r (s.mem.readBytes r.base r.len))

/-- R145, R149, R146, R47: NIC_RECEIVE with RX-OK set and a good record at the ring head copies the frame (at most buflen bytes) to the host
buffer, gives its length in RES0, moves the ring pointer past the record and acknowledges ROK. That a receive buffer which meets the TX
buffer of a pending slot clobbers the slot (in State.Delivers) is the model's reading of R47 (notes/assumptions/15.md); that one which lies in
the RX ring region or a free slot's buffer, against the HOST's duty, is written like any other is its choice (notes/assumptions/37.md). -/
def Obligations.NicReceiveDelivers : Prop :=
  ∀ s : State, s.ArgsWritten 2 → s.mem.wf = true → s.initialized = true → s.dev.rok = true → s.RecordGood →
    s.Accessible (bufferOf s.args[0].value s.args[1].value) →
    let b := s.recordFrame s.args[1].value.toNat
    s.Accessible ⟨s.ringHead, 4 + b.length⟩ →
    ∃ u v, exec .nicReceive s =
        .next { v with res := s.res.set 0 ⟨BitVec.ofNat 32 b.length, true⟩, code := .ok, busy := false } ∧
      s.TakesRecord u ∧ u.Delivers v (s.recordRange b.length) s.args[0].value.toNat b

/-- R145, R149, R140, R104: NIC_RECEIVE without a frame. RES0 is 0 (30_encoding.md R104: "0 unless OK"); without the device nothing else but
STATUS changes (that RES0 is written there, which R145's pseudocode does not say, is notes/assumptions/18.md); with ROK = 0 the ring is not
read; a bad record is skipped, ROK staying set. -/
def Obligations.NicReceiveWithoutFrame : Prop :=
  ∀ s : State, s.ArgsWritten 2 →
    (s.initialized = false →
      exec .nicReceive s = .next { s with res := s.res.set 0 ⟨0, true⟩, code := .notInitialized, busy := false }) ∧
    (s.initialized = true → s.args[0].value.toNat + s.args[1].value.toNat ≤ s.params.addrSpace → s.dev.rok = false →
      exec .nicReceive s = .next { s with res := s.res.set 0 ⟨0, true⟩, code := .noData, busy := false }) ∧
    (s.initialized = true → s.args[0].value.toNat + s.args[1].value.toNat ≤ s.params.addrSpace → s.dev.rok = true →
      s.Accessible ⟨s.ringHead, 4⟩ → ¬ s.RecordGood →
      ∃ u, exec .nicReceive s = .next { u with res := s.res.set 0 ⟨0, true⟩, code := .noData, busy := false } ∧
        s.SkipsRecord u)

/-- R146, R38: rx_advance moves the ring read pointer past a record of length field `n`, 4-byte aligned and modulo RX_RING_LEN, and the
device's read pointer follows it where its RCR.RBLEN gives the same ring length; nothing else changes. -/
def Obligations.RxAdvanceMovesBothPointers : Prop :=
  ∀ (s : State) (n : Nat), ∃ t, s.rxAdvance n = t ∧
    t = { s with rxOff := t.rxOff, dev := { s.dev with capr := t.dev.capr } } ∧
    (∃ q, t.rxOff.toNat + q * (8192 * 2 ^ s.params.rblen.toNat) = 4 * ((s.rxOff.toNat + 4 + n + 3) / 4)) ∧
    t.rxOff.toNat < 8192 * 2 ^ s.params.rblen.toNat ∧
    t.rxOff.toNat % 4 = 0 ∧ t.dev.capr.toNat = (t.rxOff.toNat + 65536 - 16) % 65536 ∧
    (s.dev.rcr.extractLsb' 11 2 = s.params.rblen → t.dev.rp = t.rxOff.toNat)

/-- R150, R31: NIC_IRQ without the device, and with RX-OK not set: it acknowledges every bit it reads, reports ISR and a drain of 0, and
finishes unless it preempts; nothing else changes. -/
def Obligations.NicIrqWithoutRxOk : Prop :=
  ∀ s : State,
    (s.initialized = false →
      exec .nicIrq s = .next { s with
        irqIsr := 0, irqDrained := 0, irqWritten := true
        code := if s.busy then s.code else .notInitialized }) ∧
    (s.initialized = true → s.dev.rok = false →
      ∃ v : Half, exec .nicIrq s = .next { s with
        irqIsr := s.dev.isr &&& 0x001F, irqDrained := 0, irqWritten := true
        dev := { s.dev with isr := v }
        code := if s.busy then s.code else .ok } ∧
      (∀ k, k < 5 → v.getLsbD k = false) ∧ ∀ k, 5 ≤ k → v.getLsbD k = s.dev.isr.getLsbD k)

/-- R150, R274, R181, R182: NIC_IRQ with RX-OK set acknowledges ISR and drains: every round takes the record at the ring head; a frame the
filter passes is dispatched by eth_process_frame and counted, a frame it drops, a bad record and ROK = 0 end the drain; with RX_RING_LEN / 4
rounds used up the next is a hang. The command ends with the drain's count, having changed nothing but what receiving and dispatching frames
change, IRQ_ISR, IRQ_DRAINED and STATUS (which it leaves if it preempts), or faults with DRAIN_HANG. That a reply is compared with its ring
record only is the model's choice (notes/assumptions/41.md). -/
def Obligations.NicIrqDrainsOrHangs : Prop :=
  (∀ s : State, s.initialized = true → s.dev.rok = true →
    let t : State := { s with dev := s.dev.writeIsr s.params.rokClear (s.dev.isr &&& 0x001F) }
    (∀ n u, State.drainRounds (s.params.rxRingLen / 4 + 1) t = .ok (n, u) →
      exec .nicIrq s = .next { u with
        irqIsr := s.dev.isr &&& 0x001F, irqDrained := BitVec.ofNat 32 n, irqWritten := true
        code := if u.busy then u.code else .ok }) ∧
    (∀ f, State.drainRounds (s.params.rxRingLen / 4 + 1) t = .error f → exec .nicIrq s = .fault f)) ∧
  (∀ s : State, s.mem.wf = true → s.DmaClear → s.initialized = true → s.dev.rok = true →
    (∃ u n, n ≤ s.params.rxRingLen / 4 ∧ s.SameButTraffic u ∧ exec .nicIrq s = .next { u with
        irqIsr := s.dev.isr &&& 0x001F, irqDrained := BitVec.ofNat 32 n, irqWritten := true
        code := if s.busy then s.code else .ok }) ∨
    exec .nicIrq s = .fault .drainHang) ∧
  (∀ s : State, State.drainRounds 0 s = .error .drainHang) ∧
  (∀ (s : State) (n : Nat), s.initialized = true →
    (s.dev.rok = false → State.drainRounds (n + 1) s = .ok (0, s)) ∧
    (s.dev.rok = true → s.Accessible ⟨s.ringHead, 4⟩ → ¬ s.RecordGood →
      ∃ u, State.drainRounds (n + 1) s = .ok (0, u) ∧ s.SkipsRecord u) ∧
    (s.dev.rok = true → s.RecordGood →
      let b := s.recordFrame s.params.pollBufSize
      s.Accessible ⟨s.ringHead, 4 + b.length⟩ →
      (b.length < 14 ∨ (b.take 6 ≠ macBytes s.mac ∧ b.take 6 ≠ [0xFF, 0xFF, 0xFF, 0xFF, 0xFF, 0xFF]) →
        ∃ u, State.drainRounds (n + 1) s = .ok (0, u) ∧ s.TakesRecord u) ∧
      (s.mem.wf = true → s.DmaClear →
        14 ≤ b.length → (b.take 6 = macBytes s.mac ∨ b.take 6 = [0xFF, 0xFF, 0xFF, 0xFF, 0xFF, 0xFF]) →
        ∃ u d v, s.TakesRecord u ∧ u.ethProcessFrame (s.recordRange b.length) b = .ok (d, v) ∧
          (∀ k w, State.drainRounds n v = .ok (k, w) → State.drainRounds (n + 1) s = .ok (k + 1, w)) ∧
          ∀ f, State.drainRounds n v = .error f → State.drainRounds (n + 1) s = .error f)))

/-- R151: a CMD write of the NIC_IRQ word. With BUSY = 1 it preempts and changes neither STATUS, the phase nor RES0..RES3; with BUSY = 0 it
is an ordinary command that finishes. It changes only what any drain changes, IRQ_ISR and IRQ_DRAINED (and CMD, which R21
latches). -/
def Obligations.NicIrqPreemption : Prop :=
  ∀ s t : State, s.mem.wf = true → writeCmd (encode .nicIrq) s = .next t →
    (s.busy = true → t.code = s.code ∧ t.busy = true) ∧
    (s.busy = false → t.code = (if s.initialized then .ok else .notInitialized) ∧ t.busy = false) ∧
    t.phase = s.phase ∧ t.res = s.res ∧ t.irqWritten = true ∧
    s.SameButTraffic { t with
      cmd := s.cmd, cmdWritten := s.cmdWritten, code := s.code, busy := s.busy
      irqIsr := s.irqIsr, irqDrained := s.irqDrained, irqWritten := s.irqWritten }

/-! ## Ethernet -/

/-- R180, R110, R278: ETH_SEND_FRAME. Without the device, or with a payload beyond 1486 bytes, only STATUS changes; otherwise the frame of
header, payload and zero padding to 60 bytes is handed over. That a source buffer in the DMA regions is read like any other is the model's
choice (notes/assumptions/40.md). -/
def Obligations.EthSendFrameOutcomes : Prop :=
  ∀ s : State, s.ArgsWritten 5 → s.mem.wf = true →
    let r := bufferOf s.args[3].value s.args[4].value
    let f := frameBytes (s.args[0].value.extractLsb' 0 16 ++ s.args[1].value) s.mac (s.args[2].value.extractLsb' 0 16)
      (s.mem.readBytes r.base r.len)
    s.Accessible r →
    (s.initialized = false → exec .ethSendFrame s = .next { s with code := .notInitialized, busy := false }) ∧
    (s.initialized = true → r.len > 1486 → exec .ethSendFrame s = .next { s with code := .tooLarge, busy := false }) ∧
    (s.initialized = true → r.len ≤ 1486 → s.SlotAccessible (max 60 (14 + r.len)) →
      f.length = max 60 (14 + r.len) ∧
      ∃ u, exec .ethSendFrame s = .next { u with code := .ok, busy := false } ∧ s.SendsFrame u r f)

/-- R181, R149, R104, R47: ETH_RECEIVE_FRAME with a good record at the ring head delivers the frame if it is long enough and addressed to the
adapter or to broadcast, and otherwise takes it from the ring and answers NO_DATA. Without the device, with ROK = 0 and on a bad record (which
is skipped) it answers ERR_NOT_INITIALIZED or NO_DATA. RES0 is the length delivered, or 0. That a receive buffer which meets the TX buffer
of a pending slot clobbers the slot (in State.Delivers) is the model's reading of R47 (notes/assumptions/15.md); that one which lies in the RX
ring region or a free slot's buffer is written like any other is its choice (notes/assumptions/37.md). -/
def Obligations.EthReceiveFrameFilters : Prop :=
  ∀ s : State, s.ArgsWritten 2 →
    (s.args[0].value.toNat + s.args[1].value.toNat ≤ s.params.addrSpace →
      (s.initialized = false →
        exec .ethReceiveFrame s = .next { s with res := s.res.set 0 ⟨0, true⟩, code := .notInitialized, busy := false }) ∧
      (s.initialized = true → s.dev.rok = false →
        exec .ethReceiveFrame s = .next { s with res := s.res.set 0 ⟨0, true⟩, code := .noData, busy := false }) ∧
      (s.initialized = true → s.dev.rok = true → s.Accessible ⟨s.ringHead, 4⟩ → ¬ s.RecordGood →
        ∃ u, exec .ethReceiveFrame s = .next { u with res := s.res.set 0 ⟨0, true⟩, code := .noData, busy := false } ∧
          s.SkipsRecord u)) ∧
    (s.mem.wf = true → s.initialized = true → s.dev.rok = true → s.RecordGood →
      s.Accessible (bufferOf s.args[0].value s.args[1].value) →
      let b := s.recordFrame s.args[1].value.toNat
      s.Accessible ⟨s.ringHead, 4 + b.length⟩ →
      (14 ≤ b.length → (b.take 6 = macBytes s.mac ∨ b.take 6 = [0xFF, 0xFF, 0xFF, 0xFF, 0xFF, 0xFF]) →
        ∃ u v, exec .ethReceiveFrame s =
            .next { v with res := s.res.set 0 ⟨BitVec.ofNat 32 b.length, true⟩, code := .ok, busy := false } ∧
          s.TakesRecord u ∧ u.Delivers v (s.recordRange b.length) s.args[0].value.toNat b) ∧
      (b.length < 14 ∨ (b.take 6 ≠ macBytes s.mac ∧ b.take 6 ≠ [0xFF, 0xFF, 0xFF, 0xFF, 0xFF, 0xFF]) →
        ∃ u, exec .ethReceiveFrame s =
            .next { u with res := s.res.set 0 ⟨0, true⟩, code := .noData, busy := false } ∧ s.TakesRecord u))

/-- R182, R271: ETH_PROCESS_FRAME, with or without the device. A frame shorter than a header or of another EtherType is dropped and nothing
else happens; the payload of an ARP or IPv4 frame goes to arp_process_packet or ip_process_packet (with the frame's source MAC), whose
disposition is RES0. That a source buffer in the DMA regions is read like any other is the model's choice (notes/assumptions/40.md). -/
def Obligations.EthProcessFrameOutcomes : Prop :=
  ∀ s : State, s.ArgsWritten 2 →
    let r := bufferOf s.args[0].value s.args[1].value
    let f := s.mem.readBytes r.base r.len
    s.Accessible r →
    (r.len < 14 → exec .ethProcessFrame s = .next { s with res := s.res.set 0 ⟨1, true⟩, code := .ok, busy := false }) ∧
    (14 ≤ r.len → ((f.drop 12).take 2 ≠ [0x08, 0x06] ∧ (f.drop 12).take 2 ≠ [0x08, 0x00]) →
      exec .ethProcessFrame s = .next { s with res := s.res.set 0 ⟨5, true⟩, code := .ok, busy := false }) ∧
    (s.mem.wf = true → s.DmaClear → 14 ≤ r.len → (f.drop 12).take 2 = [0x08, 0x06] →
      ∃ d u, s.arpProcessPacket r (f.drop 14) = .ok (d, u) ∧ s.SameButTraffic u ∧
        exec .ethProcessFrame s = .next { u with res := s.res.set 0 ⟨d.number, true⟩, code := .ok, busy := false }) ∧
    (s.mem.wf = true → s.DmaClear → 14 ≤ r.len → (f.drop 12).take 2 = [0x08, 0x00] →
      ∃ d u, s.ipProcessPacket r (f.drop 14) (mac48 f 6) = .ok (d, u) ∧ s.SameButTraffic u ∧
        exec .ethProcessFrame s = .next { u with res := s.res.set 0 ⟨d.number, true⟩, code := .ok, busy := false })

/-- R272, R271, R182, R205, R235: no bytes, however malformed, stop ETH_PROCESS_FRAME, ARP_PROCESS_PACKET or IP_PROCESS_PACKET: each ends
with OK and a disposition, having changed nothing but what traffic changes. That a source buffer in the DMA regions is read like any other
is the model's choice (notes/assumptions/40.md). -/
def Obligations.MalformedInputNeverStops : Prop :=
  ∀ (i : Instr) (s : State), i ∈ [.ethProcessFrame, .arpProcessPacket, .ipProcessPacket] →
    s.ArgsWritten i.argCount → s.mem.wf = true → s.DmaClear →
    s.Accessible (bufferOf s.args[0].value s.args[1].value) →
    ∃ u n, n ≤ 6 ∧ s.SameButTraffic u ∧
      exec i s = .next { u with res := s.res.set 0 ⟨BitVec.ofNat 32 n, true⟩, code := .ok, busy := false }

/-- R183, R181, R182, R322: ETH_POLL and ARP_POLL. Without the device RES0 = 0 and ERR_NOT_INITIALIZED; with it the pass ends with OK, at
most 10 frames dispatched, having changed nothing but what traffic changes. The pass is at most 10 rounds: each takes the record at the ring
head; a frame the filter passes is dispatched by eth_process_frame and counted and the pass goes on; a frame it drops, a bad record and ROK
= 0 end the pass. RES0 is the count. That a reply is compared with its ring record only is the model's choice (notes/assumptions/41.md). -/
def Obligations.PollsAreBounded : Prop :=
  (∀ (i : Instr) (s : State), i ∈ [.ethPoll, .arpPoll] →
    (s.initialized = false →
      exec i s = .next { s with res := s.res.set 0 ⟨0, true⟩, code := .notInitialized, busy := false }) ∧
    (s.initialized = true → s.mem.wf = true → s.DmaClear →
      ∃ u n, n ≤ 10 ∧ s.SameButTraffic u ∧ State.pollRounds 10 s = .ok (n, u) ∧
        exec i s = .next { u with res := s.res.set 0 ⟨BitVec.ofNat 32 n, true⟩, code := .ok, busy := false })) ∧
  (∀ s : State, State.pollRounds 0 s = .ok (0, s)) ∧
  (∀ (s : State) (n : Nat), s.initialized = true →
    (s.dev.rok = false → State.pollRounds (n + 1) s = .ok (0, s)) ∧
    (s.dev.rok = true → s.Accessible ⟨s.ringHead, 4⟩ → ¬ s.RecordGood →
      ∃ u, State.pollRounds (n + 1) s = .ok (0, u) ∧ s.SkipsRecord u) ∧
    (s.dev.rok = true → s.RecordGood →
      let b := s.recordFrame s.params.pollBufSize
      s.Accessible ⟨s.ringHead, 4 + b.length⟩ →
      (b.length < 14 ∨ (b.take 6 ≠ macBytes s.mac ∧ b.take 6 ≠ [0xFF, 0xFF, 0xFF, 0xFF, 0xFF, 0xFF]) →
        ∃ u, State.pollRounds (n + 1) s = .ok (0, u) ∧ s.TakesRecord u) ∧
      (s.mem.wf = true → s.DmaClear →
        14 ≤ b.length → (b.take 6 = macBytes s.mac ∨ b.take 6 = [0xFF, 0xFF, 0xFF, 0xFF, 0xFF, 0xFF]) →
        ∃ u d v k w, s.TakesRecord u ∧ u.ethProcessFrame (s.recordRange b.length) b = .ok (d, v) ∧
          State.pollRounds n v = .ok (k, w) ∧ State.pollRounds (n + 1) s = .ok (k + 1, w))))

/-- R211: ARP_POLL is ETH_POLL under another name: it has the same opcode operands and runs exactly the same, with the same results and
RES0. -/
def Obligations.ArpPollIsEthPoll : Prop :=
  decode 0x26 = .ok .arpPoll ∧ ∀ s : State, exec .arpPoll s = exec .ethPoll s

/-! ## ARP -/

/-- R201, R23: ARP_LOOKUP gives the MAC of the first live entry with the address, or MISS with RES0 and RES1 unchanged; the cache is not
changed, nor anything else; with ARG0 unwritten it faults. -/
def Obligations.ArpLookupFirstMatch : Prop :=
  ∀ s : State,
    (s.args[0].written = false → exec .arpLookup s = .fault .unwrittenArg) ∧
    (s.ArgsWritten 1 → ∀ k, ∀ h : k < s.arp.length, s.arp[k].ip = s.args[0].value →
      (∀ j, ∀ hj : j < k, (s.arp[j]'(Nat.lt_trans hj h)).ip ≠ s.args[0].value) →
      exec .arpLookup s = .next { s with
        res := (s.res.set 0 ⟨(s.arp[k].mac.extractLsb' 32 16).zeroExtend 32, true⟩).set 1
          ⟨s.arp[k].mac.extractLsb' 0 32, true⟩
        code := .ok, busy := false }) ∧
    (s.ArgsWritten 1 → (∀ e ∈ s.arp, e.ip ≠ s.args[0].value) →
      exec .arpLookup s = .next { s with code := .miss, busy := false })

/-- R202: ARP_ADD_OR_UPDATE updates the first entry with the address in place; else appends under capacity; else overwrites the entry at
the round-robin index and advances it modulo 16. RES0 is the index written, the code is OK, and nothing else changes; with an operand
unwritten it faults. -/
def Obligations.ArpAddOrUpdateThreeCases : Prop :=
  (∀ s : State, ¬ s.ArgsWritten 3 → exec .arpAddOrUpdate s = .fault .unwrittenArg) ∧
  ∀ s : State, s.ArgsWritten 3 →
    let ip := s.args[0].value
    let m : Mac := s.args[1].value.extractLsb' 0 16 ++ s.args[2].value
    (∀ k, ∀ h : k < s.arp.length, s.arp[k].ip = ip → (∀ j, ∀ hj : j < k, (s.arp[j]'(Nat.lt_trans hj h)).ip ≠ ip) →
      exec .arpAddOrUpdate s = .next { s with
        arp := s.arp.set k ⟨ip, m, 0⟩, res := s.res.set 0 ⟨BitVec.ofNat 32 k, true⟩, code := .ok, busy := false }) ∧
    ((∀ e ∈ s.arp, e.ip ≠ ip) → s.arp.length < 16 →
      exec .arpAddOrUpdate s = .next { s with
        arp := s.arp ++ [⟨ip, m, 0⟩], res := s.res.set 0 ⟨BitVec.ofNat 32 s.arp.length, true⟩
        code := .ok, busy := false }) ∧
    ((∀ e ∈ s.arp, e.ip ≠ ip) → 16 ≤ s.arp.length →
      ∃ rr : Fin 16, rr.val = (s.arpRr.val + 1) % 16 ∧
        exec .arpAddOrUpdate s = .next { s with
          arp := s.arp.set s.arpRr.val ⟨ip, m, 0⟩, arpRr := rr, res := s.res.set 0 ⟨BitVec.ofNat 32 s.arpRr.val, true⟩
          code := .ok, busy := false })

/-- R202, R201, R206: after ARP_ADD_OR_UPDATE a lookup of the address finds its MAC, and a lookup of any other address finds what it found
before, unless a full cache evicted that address's entry. -/
def Obligations.LookupAfterLearning : Prop :=
  ∀ s t : State, exec .arpAddOrUpdate s = .next t →
    t.arpLookup s.args[0].value = some (s.args[1].value.extractLsb' 0 16 ++ s.args[2].value) ∧
    ∀ q : Ip, q ≠ s.args[0].value →
      (s.arpLookup s.args[0].value = none → 16 ≤ s.arp.length →
        ∀ e, s.arp[s.arpRr.val]? = some e → e.ip ≠ q) →
      t.arpLookup q = s.arpLookup q

/-- R203, R204, R111: ARP_SEND_REQUEST broadcasts the 60-byte request for ARG0 and ARP_SEND_REPLY sends the 60-byte reply to its target, each
with our MAC as sender; without the device only STATUS changes. -/
def Obligations.ArpSendsCarryTheirPackets : Prop :=
  ∀ s : State, s.mem.wf = true →
    (s.ArgsWritten 1 →
      (s.initialized = false → exec .arpSendRequest s = .next { s with code := .notInitialized, busy := false }) ∧
      (s.initialized = true → s.SlotAccessible 60 →
        ∃ u, exec .arpSendRequest s = .next { u with code := .ok, busy := false } ∧
          s.SendsFrame u MemRange.none (s.requestFrame s.args[0].value))) ∧
    (s.ArgsWritten 4 →
      (s.initialized = false → exec .arpSendReply s = .next { s with code := .notInitialized, busy := false }) ∧
      (s.initialized = true → s.SlotAccessible 60 →
        ∃ u, exec .arpSendReply s = .next { u with code := .ok, busy := false } ∧
          s.SendsFrame u MemRange.none
            (s.replyFrame (s.args[0].value.extractLsb' 0 16 ++ s.args[1].value) s.args[2].value s.args[3].value)))

/-- R205, R111, R271: ARP_PROCESS_PACKET drops a packet under 28 bytes as SHORT and one of other types or lengths as BAD_FORMAT; otherwise
it learns the sender, and a request for our_ip is answered (or the answer tried) with the reply frame. That a source buffer in the DMA
regions is read like any other is the model's choice (notes/assumptions/40.md). -/
def Obligations.ArpProcessPacketLearns : Prop :=
  ∀ s : State, s.ArgsWritten 4 → s.mem.wf = true →
    let r := bufferOf s.args[0].value s.args[1].value
    let d := s.mem.readBytes r.base r.len
    s.Accessible r →
    (r.len < 28 → exec .arpProcessPacket s = .next { s with res := s.res.set 0 ⟨1, true⟩, code := .ok, busy := false }) ∧
    (28 ≤ r.len → d.take 6 ≠ [0x00, 0x01, 0x08, 0x00, 0x06, 0x04] →
      exec .arpProcessPacket s = .next { s with res := s.res.set 0 ⟨2, true⟩, code := .ok, busy := false }) ∧
    (28 ≤ r.len → d.take 6 = [0x00, 0x01, 0x08, 0x00, 0x06, 0x04] →
      let sha := mac48 d 8
      let spa := be32 d 14
      ((be16 d 6 ≠ 1 ∨ be32 d 24 ≠ s.ourIp) →
        exec .arpProcessPacket s =
          .next { s.learn spa sha with res := s.res.set 0 ⟨0, true⟩, code := .ok, busy := false }) ∧
      (be16 d 6 = 1 → be32 d 24 = s.ourIp → (s.initialized = true → s.SlotAccessible 60) →
        ∃ u, exec .arpProcessPacket s = .next { u with res := s.res.set 0 ⟨0, true⟩, code := .ok, busy := false } ∧
          (s.learn spa sha).TriesToSend u r (s.replyFrame sha spa s.ourIp)))

/-! ## Resolution -/

/-- R214: the first step of ARP_RESOLVE. A hit answers in the same step and sends nothing; a miss sends exactly one request and, with
timeout 0, ends in ERR_TIMEOUT, else suspends in RESOLVING with ceil(timeout / 10) iterations to go and BUSY = 1. -/
def Obligations.ArpResolveFirstPart : Prop :=
  ∀ s : State, s.ArgsWritten 2 → s.mem.wf = true →
    let ip := s.args[0].value
    let ms := s.args[1].value.toNat
    (∀ m, s.arpLookup ip = some m →
      exec .arpResolve s = .next { s with
        res := (s.res.set 0 ⟨macHi m, true⟩).set 1 ⟨macLo m, true⟩, code := .ok, busy := false }) ∧
    (s.arpLookup ip = none → s.phase = .idle → (s.initialized = true → s.SlotAccessible 60) →
      ∃ u, s.TriesToSend u MemRange.none (s.requestFrame ip) ∧
        (ms = 0 → exec .arpResolve s = .next { u with code := .timeout, busy := false }) ∧
        (0 < ms → exec .arpResolve s =
          .next { u with phase := .resolving .arpResolve ip ((ms + 9) / 10) .arpResolve, busy := true }))

/-- R214: an iteration of any suspended command polls, then looks its address up: a hit goes on with the command and the MAC, the last
iteration without one goes on with none, in phase IDLE; any other counts down. For a suspended ARP_RESOLVE going on is to finish with the
MAC, or in ERR_TIMEOUT (the other commands' ends are SuspendedSendEnds). That a reply is compared with its ring record only is the model's
choice (notes/assumptions/41.md). -/
def Obligations.ArpResolveIteration : Prop :=
  ∀ (s : State) (cmd : Instr) (ip : Ip) (n : Nat) (p : Pending), s.mem.wf = true → s.DmaClear → 0 < n →
    s.phase = .resolving cmd ip n p →
    ∃ u k, k ≤ 10 ∧ s.ethPoll = .ok (k, u) ∧ s.SameButTraffic u ∧
      (∀ m, u.arpLookup ip = some m → ∃ t, ({ u with phase := .idle } : State).continuePending p (some m) = .ok t ∧
        runMove .engine s = .next t ∧
        (p = .arpResolve → t = { u with
          phase := .idle, res := (s.res.set 0 ⟨macHi m, true⟩).set 1 ⟨macLo m, true⟩, code := .ok, busy := false })) ∧
      (u.arpLookup ip = none → n = 1 → ∃ t, ({ u with phase := .idle } : State).continuePending p none = .ok t ∧
        runMove .engine s = .next t ∧ (p = .arpResolve → t = { u with phase := .idle, code := .timeout, busy := false })) ∧
      (u.arpLookup ip = none → 1 < n →
        runMove .engine s = .next { u with phase := .resolving cmd ip (n - 1) p })

/-- R214, R326, R333: every iteration of a suspended command either ends it (phase IDLE, BUSY = 0) or leaves it suspended with one iteration
fewer, BUSY, STATUS.CODE and RES0..RES3 as they were; so a resolve ends after its iterations. -/
def Obligations.EveryIterationCountsDown : Prop :=
  ∀ (s t : State) (cmd : Instr) (ip : Ip) (n : Nat) (k : Pending), s.mem.wf = true →
    s.phase = .resolving cmd ip n k → runMove .engine s = .next t →
    (t.phase = .idle ∧ t.busy = false) ∨
      (1 < n ∧ t.phase = .resolving cmd ip (n - 1) k ∧ t.busy = s.busy ∧ t.code = s.code ∧ t.res = s.res)

/-! ## IPv4 -/

/-- R230: IP_SET_ADDRESS stores ARG0, whatever it is, as our_ip, which is 0 at reset and what OUR_IP reads; nothing else but STATUS changes;
with ARG0 unwritten it faults. -/
def Obligations.IpSetAddressStores : Prop :=
  State.reset.ourIp = 0 ∧
  (∀ s : State, s.engineRead 0x30 .w32 = .ok { s with hostData := s.ourIp }) ∧
  (∀ s : State, s.args[0].written = false → exec .ipSetAddress s = .fault .unwrittenArg) ∧
  ∀ s : State, s.ArgsWritten 1 →
    exec .ipSetAddress s = .next { s with ourIp := s.args[0].value, code := .ok, busy := false }

/-- R233: IP_CHECKSUM refuses more than 65535 bytes; otherwise RES0 holds, in its low half, the complement of the end-around-carry sum of
the buffer's words: a 16-bit number congruent to the sum modulo 65535 that is 0 only if the sum is. That a source buffer in the DMA regions
is read like any other is the model's choice (notes/assumptions/40.md). -/
def Obligations.IpChecksumResult : Prop :=
  ∀ s : State, s.ArgsWritten 2 →
    let r := bufferOf s.args[0].value s.args[1].value
    (r.len > 65535 → exec .ipChecksum s = .next { s with code := .tooLarge, busy := false }) ∧
    (r.len ≤ 65535 → s.Accessible r →
      ∃ c : Half, exec .ipChecksum s =
          .next { s with res := s.res.set 0 ⟨c.zeroExtend 32, true⟩, code := .ok, busy := false } ∧
        (65535 - c.toNat) % 65535 = sumWords (s.mem.readBytes r.base r.len) % 65535 ∧
        (c.toNat = 65535 ↔ sumWords (s.mem.readBytes r.base r.len) = 0))

/-- R236: embedding the checksum of a sequence, of even or odd length, in a zero field at an even offset gives a sequence whose checksum
is 0. -/
def Obligations.ChecksumRoundTrip : Prop :=
  ∀ (b : List Byte) (o : Nat), o % 2 = 0 → o + 2 ≤ b.length → byteAt b o = 0 → byteAt b (o + 1) = 0 →
    internetChecksum (putBe16 b o (internetChecksum b)) = 0

/-- R234, R112, R250, R251, R113, R236: what the block builds verifies. An IPv4 packet is a 20-byte header of version 4 and IHL 5 with the
total length, zero tos, id and fragment fields, the TTL, the protocol, both addresses and a checksum that verifies, then the data. An echo
message is its type, code 0, a checksum that verifies, the identifier, the sequence and the payload. -/
def Obligations.BuiltPacketsVerify : Prop :=
  (∀ (ttl : Byte) (our dip : Ip) (proto : Byte) (data : List Byte),
    let p := ipPacket ttl our dip proto data
    p.length = 20 + data.length ∧ p.drop 20 = data ∧
    p.take 2 = [0x45, 0x00] ∧ (be16 p 2).toNat = (20 + data.length) % 65536 ∧
    (p.drop 4).take 6 = [0x00, 0x00, 0x00, 0x00, ttl, proto] ∧ be32 p 12 = our ∧ be32 p 16 = dip ∧
    internetChecksum (p.take 20) = 0) ∧
  (∀ (type : Byte) (id seq : Half) (q : List Byte),
    let m := icmpMessage type id seq q
    m.length = 8 + q.length ∧ byteAt m 0 = type ∧ byteAt m 1 = 0 ∧ be16 m 4 = id ∧ be16 m 6 = seq ∧ m.drop 8 = q ∧
    internetChecksum m = 0)

/-- R234, R180: IP_SEND_PACKET to a host in the cache: the frame to its MAC is handed over in the same step; without the device, or with
more than 1466 bytes, nothing is sent; RES0, RES1, RES2 name the next hop in every case. That a source buffer in the DMA regions is read
like any other is the model's choice (notes/assumptions/40.md). -/
def Obligations.IpSendPacketToKnownHost : Prop :=
  ∀ (s : State) (m : Mac), s.ArgsWritten 4 → s.mem.wf = true →
    let r := bufferOf s.args[2].value s.args[3].value
    let p := ipPacket s.params.ipTtl s.ourIp s.args[0].value (s.args[1].value.extractLsb' 0 8) (s.mem.readBytes r.base r.len)
    s.Accessible r → s.arpLookup s.args[0].value = some m →
    (s.initialized = false →
      exec .ipSendPacket s = .next { s with res := hopResults s.res m false, code := .notInitialized, busy := false }) ∧
    (s.initialized = true → r.len > 1466 →
      exec .ipSendPacket s = .next { s with res := hopResults s.res m false, code := .tooLarge, busy := false }) ∧
    (s.initialized = true → r.len ≤ 1466 → s.SlotAccessible (max 60 (34 + r.len)) →
      ∃ u, exec .ipSendPacket s = .next { u with res := hopResults s.res m false, code := .ok, busy := false } ∧
        s.SendsFrame u r (frameBytes m s.mac 0x0800 p))

/-- R234, R214, R250, R252: IP_SEND_PACKET and ICMP_SEND_ECHO_REQUEST to a host not in the cache: one ARP request is sent (if the device is
up) and the command is suspended for 200 iterations with the assembled packet, that of an echo request carrying the given identifier,
sequence and payload (ECHO_DEFAULT_PATTERN if none is given). That a source buffer in the DMA regions is read like any other is the model's
choice (notes/assumptions/40.md). -/
def Obligations.SendsToUnknownHostResolve : Prop :=
  ∀ s : State, s.mem.wf = true → s.phase = .idle → s.arpLookup s.args[0].value = none →
    (s.initialized = true → s.SlotAccessible 60) →
    (s.ArgsWritten 4 →
      let r := bufferOf s.args[2].value s.args[3].value
      let p := ipPacket s.params.ipTtl s.ourIp s.args[0].value (s.args[1].value.extractLsb' 0 8) (s.mem.readBytes r.base r.len)
      s.Accessible r →
      ∃ u, s.TriesToSend u r (s.requestFrame s.args[0].value) ∧
        exec .ipSendPacket s =
          .next { u with phase := .resolving .ipSendPacket s.args[0].value 200 (.ipSend r p), busy := true }) ∧
    (s.ArgsWritten 5 →
      let r := bufferOf s.args[3].value s.args[4].value
      let q := if r.len = 0 then s.params.echoDefault.toList else s.mem.readBytes r.base r.len
      let p := ipPacket s.params.ipTtl s.ourIp s.args[0].value 1
        (icmpMessage 8 (s.args[1].value.extractLsb' 0 16) (s.args[2].value.extractLsb' 0 16) q)
      s.Accessible r →
      ∃ u, s.TriesToSend u r (s.requestFrame s.args[0].value) ∧
        exec .icmpSendEchoRequest s =
          .next { u with phase := .resolving .icmpSendEchoRequest s.args[0].value 200 (.ipSend r p), busy := true })

/-- R234, R270, R214, R251: how a suspended command that sends a packet ends. With a MAC the packet goes to it; without one it goes to the
broadcast MAC, or under ARP_FAIL_POLICY = ERROR nothing is sent. IP_SEND_PACKET and ICMP_SEND_ECHO_REQUEST report the MAC used in RES0 and
RES1 and the fallback in RES2, with the code of the send: ERR_NOT_INITIALIZED, ERR_TOO_LARGE (nothing is sent) or OK, or ERR_UNRESOLVED with
RES0 = RES1 = RES2 = 0. ICMP_PROCESS_PACKET reports the request it answered, or tried to, and ends with OK and RES0 = ACCEPTED. -/
def Obligations.SuspendedSendEnds : Prop :=
  ∀ (s : State) (r : MemRange) (p : List Byte), s.mem.wf = true →
    (s.initialized = true → p.length ≤ 1486 → s.SlotAccessible (max 60 (14 + p.length))) →
    (∀ (hop : Option Mac) (m : Mac) (fb : Bool),
      ((hop = some m ∧ fb = false) ∨
        (hop = none ∧ s.params.arpFail = .broadcastFallback ∧ m = 0xFFFFFFFFFFFF ∧ fb = true)) →
      (s.initialized = false → s.continuePending (.ipSend r p) hop =
        .ok { s with res := hopResults s.res m fb, code := .notInitialized, busy := false }) ∧
      (s.initialized = true → 1486 < p.length → s.continuePending (.ipSend r p) hop =
        .ok { s with res := hopResults s.res m fb, code := .tooLarge, busy := false }) ∧
      (s.initialized = true → p.length ≤ 1486 → ∃ u, s.continuePending (.ipSend r p) hop =
          .ok { u with res := hopResults s.res m fb, code := .ok, busy := false } ∧
        s.SendsFrame u r (frameBytes m s.mac 0x0800 p)) ∧
      (∀ sip id seq, ∃ u, s.continuePending (.echoReply r p sip id seq) hop = .ok { u with
            diag := s.diag ++ [.echoRequestAnswered sip id seq]
            res := s.res.set 0 ⟨0, true⟩, code := .ok, busy := false } ∧
        s.TriesToSend u r (frameBytes m s.mac 0x0800 p))) ∧
    (s.params.arpFail = .error →
      s.continuePending (.ipSend r p) none =
        .ok { s with res := hopResults s.res 0 false, code := .unresolved, busy := false } ∧
      ∀ sip id seq, s.continuePending (.echoReply r p sip id seq) none = .ok { s with
        diag := s.diag ++ [.echoRequestAnswered sip id seq], res := s.res.set 0 ⟨0, true⟩, code := .ok, busy := false })

/-- R235, R239, R271: the verdicts of IP_PROCESS_PACKET in the order of its checks: SHORT, BAD_FORMAT, BAD_CHECKSUM and NOT_FOR_US teach
nothing; then the sender is learned with the frame's source MAC, TCP and UDP are STUB and any protocol but ICMP is UNKNOWN_TYPE. That a
source buffer in the DMA regions is read like any other is the model's choice (notes/assumptions/40.md). -/
def Obligations.IpProcessPacketVerdicts : Prop :=
  ∀ s : State, s.ArgsWritten 4 →
    let r := bufferOf s.args[0].value s.args[1].value
    let d := s.mem.readBytes r.base r.len
    let tl := (be16 d 2).toNat
    let smac : Mac := s.args[2].value.extractLsb' 0 16 ++ s.args[3].value
    let wellFormed := 20 ≤ r.len ∧ (byteAt d 0).extractLsb' 4 4 = 4 ∧ 20 ≤ tl ∧ tl ≤ r.len
    s.Accessible r →
    (r.len < 20 → exec .ipProcessPacket s = .next { s with res := s.res.set 0 ⟨1, true⟩, code := .ok, busy := false }) ∧
    (20 ≤ r.len → ¬ wellFormed →
      exec .ipProcessPacket s = .next { s with res := s.res.set 0 ⟨2, true⟩, code := .ok, busy := false }) ∧
    (wellFormed → internetChecksum (d.take 20) ≠ 0 →
      exec .ipProcessPacket s = .next { s with res := s.res.set 0 ⟨3, true⟩, code := .ok, busy := false }) ∧
    (wellFormed → internetChecksum (d.take 20) = 0 → be32 d 16 ≠ s.ourIp →
      exec .ipProcessPacket s = .next { s with res := s.res.set 0 ⟨4, true⟩, code := .ok, busy := false }) ∧
    (wellFormed → internetChecksum (d.take 20) = 0 → be32 d 16 = s.ourIp → byteAt d 9 ≠ 1 →
      exec .ipProcessPacket s = .next { s.learn (be32 d 12) smac with
        res := s.res.set 0 ⟨if byteAt d 9 = 6 ∨ byteAt d 9 = 17 then 6 else 5, true⟩, code := .ok, busy := false })

/-- R215, R235, R251, R253, R271: IP_PROCESS_PACKET of a good packet for our_ip with protocol 1, with or without the device. The sender is
learned with the frame's source MAC; then a message under 8 bytes is SHORT, one whose checksum does not verify BAD_CHECKSUM, one of a type
other than 0 and 8 UNKNOWN_TYPE, and an echo reply is reported. An echo request is reported, and answered in the same step, to the MAC just
learned, with the same identifier, sequence and payload; nothing is resolved; without the device, or with a payload above 1458 bytes (a
packet above 1486), nothing is sent. That a source buffer in the DMA regions is read like any other is the model's choice
(notes/assumptions/40.md). -/
def Obligations.DispatchedEchoIsAnsweredAtOnce : Prop :=
  ∀ s : State, s.ArgsWritten 4 → s.mem.wf = true →
    let r := bufferOf s.args[0].value s.args[1].value
    let d := s.mem.readBytes r.base r.len
    let tl := (be16 d 2).toNat
    let sip := be32 d 12
    let smac : Mac := s.args[2].value.extractLsb' 0 16 ++ s.args[3].value
    let e := (d.take tl).drop 20
    let t := s.learn sip smac
    s.Accessible r → 20 ≤ r.len → (byteAt d 0).extractLsb' 4 4 = 4 → 20 ≤ tl → tl ≤ r.len →
    internetChecksum (d.take 20) = 0 → be32 d 16 = s.ourIp → byteAt d 9 = 1 →
    (tl < 28 → exec .ipProcessPacket s = .next { t with res := s.res.set 0 ⟨1, true⟩, code := .ok, busy := false }) ∧
    (28 ≤ tl → internetChecksum e ≠ 0 →
      exec .ipProcessPacket s = .next { t with res := s.res.set 0 ⟨3, true⟩, code := .ok, busy := false }) ∧
    (28 ≤ tl → internetChecksum e = 0 → byteAt e 0 ≠ 8 → byteAt e 0 ≠ 0 →
      exec .ipProcessPacket s = .next { t with res := s.res.set 0 ⟨5, true⟩, code := .ok, busy := false }) ∧
    (28 ≤ tl → internetChecksum e = 0 → byteAt e 0 = 0 →
      exec .ipProcessPacket s = .next { t with
        diag := s.diag ++ [.echoReplyReceived sip (be16 e 4) (be16 e 6)]
        res := s.res.set 0 ⟨0, true⟩, code := .ok, busy := false }) ∧
    (28 ≤ tl → internetChecksum e = 0 → byteAt e 0 = 8 →
      (s.initialized = false ∨ 1486 < tl →
        exec .ipProcessPacket s = .next { t with
          diag := s.diag ++ [.echoRequestAnswered sip (be16 e 4) (be16 e 6)]
          res := s.res.set 0 ⟨0, true⟩, code := .ok, busy := false }) ∧
      (s.initialized = true → tl ≤ 1486 → s.SlotAccessible (max 60 (14 + tl)) →
        ∃ u, exec .ipProcessPacket s = .next { u with
            diag := s.diag ++ [.echoRequestAnswered sip (be16 e 4) (be16 e 6)]
            res := s.res.set 0 ⟨0, true⟩, code := .ok, busy := false } ∧
          t.SendsFrame u r (frameBytes smac s.mac 0x0800
            (ipPacket s.params.ipTtl s.ourIp sip 1 (icmpMessage 0 (be16 e 4) (be16 e 6) (e.drop 8))))))

/-! ## ICMP -/

/-- R250, R252, R234: ICMP_SEND_ECHO_REQUEST to a host in the cache hands over an echo request with the given identifier, sequence and
payload (ECHO_DEFAULT_PATTERN if none is given); without the device, or with more than 1458 bytes, nothing is sent. That a source buffer in
the DMA regions is read like any other is the model's choice (notes/assumptions/40.md). -/
def Obligations.IcmpSendEchoRequestToKnownHost : Prop :=
  ∀ (s : State) (m : Mac), s.ArgsWritten 5 → s.mem.wf = true →
    let r := bufferOf s.args[3].value s.args[4].value
    let q := if r.len = 0 then s.params.echoDefault.toList else s.mem.readBytes r.base r.len
    let p := ipPacket s.params.ipTtl s.ourIp s.args[0].value 1
      (icmpMessage 8 (s.args[1].value.extractLsb' 0 16) (s.args[2].value.extractLsb' 0 16) q)
    s.Accessible r → s.arpLookup s.args[0].value = some m →
    (s.initialized = false →
      exec .icmpSendEchoRequest s =
        .next { s with res := hopResults s.res m false, code := .notInitialized, busy := false }) ∧
    (s.initialized = true → r.len > 1458 →
      exec .icmpSendEchoRequest s = .next { s with res := hopResults s.res m false, code := .tooLarge, busy := false }) ∧
    (s.initialized = true → r.len ≤ 1458 → s.SlotAccessible (max 60 (42 + q.length)) →
      ∃ u, exec .icmpSendEchoRequest s = .next { u with res := hopResults s.res m false, code := .ok, busy := false } ∧
        s.SendsFrame u r (frameBytes m s.mac 0x0800 p))

/-- R251, R254, R271, R234, R214: ICMP_PROCESS_PACKET. A short message, a bad checksum and a type other than 0 and 8 are dropped; an echo
reply is reported; an echo request is answered (or the answer tried) and reported at once if its sender is in the cache; else one ARP
request is sent and the command is suspended for 200 iterations with the reply, whose end is stated in SuspendedSendEnds. That a source
buffer in the DMA regions is read like any other is the model's choice (notes/assumptions/40.md). -/
def Obligations.IcmpProcessPacketOutcomes : Prop :=
  ∀ s : State, s.ArgsWritten 3 → s.mem.wf = true →
    let r := bufferOf s.args[0].value s.args[1].value
    let e := s.mem.readBytes r.base r.len
    let sip := s.args[2].value
    let p := ipPacket s.params.ipTtl s.ourIp sip 1 (icmpMessage 0 (be16 e 4) (be16 e 6) (e.drop 8))
    s.Accessible r →
    (r.len < 8 → exec .icmpProcessPacket s = .next { s with res := s.res.set 0 ⟨1, true⟩, code := .ok, busy := false }) ∧
    (8 ≤ r.len → internetChecksum e ≠ 0 →
      exec .icmpProcessPacket s = .next { s with res := s.res.set 0 ⟨3, true⟩, code := .ok, busy := false }) ∧
    (8 ≤ r.len → internetChecksum e = 0 → byteAt e 0 ≠ 8 → byteAt e 0 ≠ 0 →
      exec .icmpProcessPacket s = .next { s with res := s.res.set 0 ⟨5, true⟩, code := .ok, busy := false }) ∧
    (8 ≤ r.len → internetChecksum e = 0 → byteAt e 0 = 0 →
      exec .icmpProcessPacket s = .next { s with
        diag := s.diag ++ [.echoReplyReceived sip (be16 e 4) (be16 e 6)]
        res := s.res.set 0 ⟨0, true⟩, code := .ok, busy := false }) ∧
    (8 ≤ r.len → internetChecksum e = 0 → byteAt e 0 = 8 →
      (∀ m, s.arpLookup sip = some m → (s.initialized = true → r.len ≤ 1466 → s.SlotAccessible (max 60 (34 + r.len))) →
        ∃ u, exec .icmpProcessPacket s = .next { u with
            diag := s.diag ++ [.echoRequestAnswered sip (be16 e 4) (be16 e 6)]
            res := s.res.set 0 ⟨0, true⟩, code := .ok, busy := false } ∧
          s.TriesToSend u r (frameBytes m s.mac 0x0800 p)) ∧
      (s.arpLookup sip = none → s.phase = .idle → (s.initialized = true → s.SlotAccessible 60) →
        ∃ u, s.TriesToSend u r (s.requestFrame sip) ∧
          exec .icmpProcessPacket s = .next { u with
            phase := .resolving .icmpProcessPacket sip 200 (.echoReply r p sip (be16 e 4) (be16 e 6)), busy := true }))

/-! ## The device agents -/

/-- R166, R167, R170, R34, R47: NIC_RX. An offer of fewer than 14 or more than MAX_RX_FRAME bytes is refused; with the receiver off, bus
mastering off or a reset in progress, or a frame the filter rejects, nothing changes; a frame that does not fit the ring, 8192 << RBLEN bytes
long, sets RXOVW only; any other is stored as a record at WP (whole with RCR.WRAP = 1, byte by byte modulo the ring length with
RCR.WRAP = 0), WP moves past it and ROK or RER is set. A pending slot whose TX buffer a record meets is clobbered, which is the model's
reading of R47 (notes/assumptions/15.md); that a record is stored in host memory also where its range meets the engine register window is the
model's choice (notes/assumptions/33.md). Under the RCR of NIC_INIT the filter accepts exactly the unmarked frames of 60 bytes or more. -/
def Obligations.NicRxRecordsFrames : Prop :=
  ∀ (s : State) (f : List Byte) (bad : Bool),
    (f.length < 14 ∨ s.params.maxRxFrame < f.length → runMove (.wireRx f bad) s = .refused .envFrame) ∧
    (s.dev.rcr = 0x0000008D ||| s.params.rblen.zeroExtend 32 <<< 11 →
      (s.dev.accepts f bad = true ↔ bad = false ∧ 60 ≤ f.length)) ∧
    (14 ≤ f.length → f.length ≤ s.params.maxRxFrame →
      (s.dev.re = false ∨ s.busMaster = false ∨ s.dev.resetting = true ∨ s.dev.accepts f bad = false →
        runMove (.wireRx f bad) s = .next s) ∧
      (s.dev.re = true → s.busMaster = true → s.dev.resetting = false → s.dev.accepts f bad = true →
        let len := 8192 * 2 ^ (s.dev.rcr.extractLsb' 11 2).toNat
        let space := (f.length + 8 + 3) / 4 * 4
        let used := (s.dev.wp.toNat + len - s.dev.rp) % len
        let good := bad = false ∧ 60 ≤ f.length
        (len ≤ used + space →
          runMove (.wireRx f bad) s = .next { s with dev := { s.dev with isr := s.dev.isr ||| 0x0010 } }) ∧
        (used + space < len → s.mem.wf = true →
          ∃ t, runMove (.wireRx f bad) s = .next t ∧
            t = { s with
              mem := t.mem, draws := t.draws
              dev := { s.dev with wp := t.dev.wp, isr := t.dev.isr, clobbered := t.dev.clobbered } } ∧
            t.dev.wp.toNat = (s.dev.wp.toNat + f.length + 8 + 3) / 4 * 4 % len ∧
            (good → t.dev.isr = s.dev.isr ||| 0x0001) ∧ (¬ good → t.dev.isr = s.dev.isr ||| 0x0002) ∧
            ∃ record : List Byte, record.length = f.length + 8 ∧ (((le16 record 0).getLsbD 0 = true) ↔ good) ∧
              (le16 record 2).toNat = (f.length + 4) % 65536 ∧ (record.drop 4).take f.length = f ∧
              (s.dev.rcr.getLsbD 7 = true →
                let a := s.dev.rbstart.toNat + s.dev.wp.toNat
                a + (f.length + 8) ≤ 2 ^ 32 →
                t.mem.readBytes a (f.length + 8) = record ∧ MemSame s.mem t.mem [⟨a, f.length + 8⟩] ∧
                ∀ i : Fin 4, t.dev.clobbered[i] =
                  (s.dev.clobbered[i] || (s.dev.pending[i] && (s.txBuffer i).meets ⟨a, f.length + 8⟩))) ∧
              (s.dev.rcr.getLsbD 7 = false → s.dev.rbstart.toNat + len ≤ 2 ^ 32 →
                let a := fun k : Nat => s.dev.rbstart.toNat + (s.dev.wp.toNat + k) % len
                (∀ k, k < f.length + 8 → record[k]? = some (t.mem.read (a k))) ∧
                (∀ x, (∀ k, k < f.length + 8 → x ≠ a k) → t.mem.read x = s.mem.read x) ∧
                ∀ i : Fin 4, t.dev.clobbered[i] = true ↔
                  (s.dev.clobbered[i] = true ∨
                    s.dev.pending[i] = true ∧ ∃ k, k < f.length + 8 ∧ (s.txBuffer i).meets ⟨a k, 1⟩ = true)))))

/-- R168, R169: NIC_TX takes no step for a slot that is not pending, or with the transmitter or bus mastering off or a reset in progress; nor,
under TX_ORDER = IN_ORDER, for a slot that comes after another pending one in the order of the slots from tx_slot on (that this is the order
of handover is notes/assumptions/26.md). A successful transmission of an unclobbered slot puts the SIZE bytes at TSAD on the wire; a clobbered
one puts at most two frames of at most TX_BUF_SIZE bytes; a failed one nothing. It sets OWN and TOK and ISR.TOK, or OWN and ISR.TER, and
frees the slot; nothing else changes. Which bytes a slot that meets the engine register window puts out, and that addresses past 2^32 wrap, is
the model's choice (notes/assumptions/33.md, notes/assumptions/16.md). -/
def Obligations.NicTxTransmits : Prop :=
  ∀ (s : State) (i : Fin 4),
    (∀ ok, s.dev.pending[i] = false ∨ s.dev.te = false ∨ s.busMaster = false ∨ s.dev.resetting = true ∨
        (s.params.txOrder = .inOrder ∧ ∃ j : Fin 4, s.dev.pending[j] = true ∧ (j - s.txSlot).val < (i - s.txSlot).val) →
      runMove (.nicTx i ok) s = .next s) ∧
    (s.dev.pending[i] = true → s.dev.te = true → s.busMaster = true → s.dev.resetting = false →
      (s.params.txOrder = .any ∨ s.params.txOrder = .inOrder ∧
        ∀ j : Fin 4, s.dev.pending[j] = true → (i - s.txSlot).val ≤ (j - s.txSlot).val) →
      (∃ t, runMove (.nicTx i true) s = .next t ∧
        t = { s with
          wireOut := t.wireOut, draws := t.draws
          dev := { s.dev with
            tsd := s.dev.tsd.set i (s.dev.tsd[i] ||| 0x0000A000), isr := s.dev.isr ||| 0x0004
            pending := s.dev.pending.set i false, clobbered := s.dev.clobbered.set i false } } ∧
        (s.dev.clobbered[i] = false →
          t.wireOut = s.wireOut ++
            [s.mem.readBytes s.dev.tsad[i].toNat (s.dev.tsd[i].extractLsb' 0 13).toNat]) ∧
        (s.dev.clobbered[i] = true → ∃ fs : List (List Byte), t.wireOut = s.wireOut ++ fs ∧ fs.length ≤ 2 ∧
          ∀ f ∈ fs, f.length ≤ s.params.txBufSize)) ∧
      runMove (.nicTx i false) s = .next { s with
        dev := { s.dev with
          tsd := s.dev.tsd.set i (s.dev.tsd[i] ||| 0x00002000), isr := s.dev.isr ||| 0x0008
          pending := s.dev.pending.set i false, clobbered := s.dev.clobbered.set i false } })

/-! ## Reset and invariants -/

/-- R300, R301, R7, R71: the values power-on reset gives, of the engine, the device and the logs, for every argument a launch takes (parameters,
MAC, PCI header, memory); State.reset is the launch with the values R7 gives. -/
def Obligations.ResetState : Prop :=
  (∀ (p : Params) (mac : Mac) (pci : Option NicPci) (mem : Memory),
    let s := State.launch p mac pci mem
    s.code = .ok ∧ s.busy = false ∧ s.statusWord = 0 ∧ s.cmdWritten = false ∧
    (∀ k : Fin 5, s.args[k].written = false) ∧ (∀ k : Fin 4, s.res[k].written = false) ∧ s.irqWritten = false ∧
    s.initialized = false ∧ s.macKnown = false ∧ s.txSlot = 0 ∧ s.rxOff = 0 ∧ s.ourIp = p.ourIpReset ∧ s.arp = [] ∧
    s.arpRr = 0 ∧ s.phase = .idle ∧ s.dev.isr = 0 ∧ s.dev.imr = 0 ∧ s.irqLine = false ∧ s.dev.crWord = 0x01 ∧
    s.dev.rcr = 0 ∧
    (∀ i : Fin 4, s.dev.tsd[i] = 0x2000 ∧ s.dev.tsad[i] = 0 ∧ s.dev.pending[i] = false ∧ s.dev.clobbered[i] = false) ∧
    s.dev.rbstart = 0 ∧ s.dev.capr = 0xFFF0 ∧ s.dev.wp = 0 ∧ s.dev.idr = mac ∧ s.dev.resetting = false ∧
    s.busMaster = false ∧ (∀ h, s.pci = some h → ∃ h', pci = some h' ∧ h = { h' with command := h.command }) ∧
    s.mem = mem ∧ s.params = p ∧ s.wireOut = [] ∧ s.diag = [] ∧ s.faults = [] ∧ s.refusals = []) ∧
  (∃ (mac : Mac) (pci : Option NicPci), State.reset = State.launch Config.params mac pci []) ∧
  let p := Config.params
  p.pciVendorId = 0x10EC ∧ p.pciDeviceId = 0x8139 ∧ p.resetPollLimit = 100000 ∧ p.rxRingLen = 8192 ∧
    p.rxRingSlack = 16 + 1536 ∧ p.txBufSize = 1536 ∧ p.pollBufSize = 1536 ∧ p.maxRxFrame = 1514 ∧ p.ipTtl = 64 ∧
    p.echoDefault.toList = (List.range 32).map (BitVec.ofNat 8) ∧ p.ourIpReset = 0 ∧ p.arpFail = .broadcastFallback ∧
    p.rokClear = .stickyWhileNonempty ∧ p.txOrder = .any ∧ p.addrSpace = 2 ^ 32

/-- The invariants below hold in the power-on state of every launch whose memory is canonical and whose parameters fit (R7's do), under
STICKY_WHILE_NONEMPTY for the last of them; such a state is a launch state (R311). A state with a fault or a refusal mark, with BUSY = 1, with a
pending slot or with a log not empty is refused at launch, and so is one with `initialized` = 1 in which no CMD word has been written, some TX
buffer is not its multiple of TX_BUF_SIZE above the first, or the cache is none a run can leave (what UP asks of CMD and the cache is the
model's reading, notes/assumptions/39.md). -/
def Obligations.ResetMeetsTheInvariants : Prop :=
  (∀ (p : Params) (mac : Mac) (pci : Option NicPci) (mem : Memory), mem.wf = true → p.Wf →
    let s := State.launch p mac pci mem
    s.mem.wf = true ∧ s.ArpWf ∧ s.SlotsWf ∧ (p.rokClear = .stickyWhileNonempty → s.RokWf) ∧ s.BusyWf ∧ s.start = .next s) ∧
  (State.reset.mem.wf = true ∧ State.reset.ArpWf ∧ State.reset.SlotsWf ∧ State.reset.RokWf ∧ State.reset.BusyWf) ∧
  ∀ s : State, s.faults ≠ [] ∨ s.refusals ≠ [] ∨ s.busy = true ∨ s.phase ≠ .idle ∨
      (∃ i : Fin 4, s.dev.pending[i] = true) ∨ s.dev.resetting = true ∨ s.wireOut ≠ [] ∨ s.diag ≠ [] ∨
      (s.initialized = true ∧ (s.cmdWritten = false ∨ ¬ s.ArpWf ∨
        ∃ i : Fin 4, s.txAddr[i].toNat ≠ s.txAddr[0].toNat + i.val * s.params.txBufSize)) →
    s.start = .refused .launchPremise

/-- R71, R72, R83: every step keeps memory canonical: addresses strictly rising below 2^32, no byte listed that an unlisted address reads
as. -/
def Obligations.StepKeepsMemoryCanonical : Prop :=
  ∀ s t : State, s.mem.wf = true → step s = .next t → t.mem.wf = true

/-- R206, R44, R45: every step keeps the cache invariants: the IPs of live entries pairwise distinct, at most 16 entries, every age 0,
arp_rr 0 until the cache is full; arp_count never decreases. -/
def Obligations.StepKeepsTheArpCache : Prop :=
  ∀ s t : State, s.ArpWf → step s = .next t → t.ArpWf ∧ s.arp.length ≤ t.arp.length

/-- R43, R47, R78, R141, R168: every step keeps the device up while `initialized` = 1: the ring pointers in range and 4-byte aligned, the
device's read pointer where the engine's is, the regions aligned and the TX buffers TX_BUF_SIZE apart, the transmitter, receiver and bus
mastering on; every pending slot can be served, and only pending slots are clobbered. -/
def Obligations.StepKeepsTheDeviceServing : Prop :=
  ∀ s t : State, s.SlotsWf → step s = .next t → t.SlotsWf

/-- R32, R145, R324: under STICKY_WHILE_NONEMPTY every step keeps ROK set while the ring of an initialised device holds an unread
packet. -/
def Obligations.StepKeepsRokWhileUnread : Prop :=
  ∀ s t : State, s.RokWf → step s = .next t → t.RokWf

/-- R21, R46: every step keeps BUSY = 1 exactly in phase RESOLVING. -/
def Obligations.StepKeepsBusyWithPhase : Prop :=
  ∀ s t : State, s.mem.wf = true → s.BusyWf → step s = .next t → t.BusyWf

/-- R25, R26, R23, R48, R7, R274, R311: who writes what. our_ip changes only in the step of an IP_SET_ADDRESS word, the adapter MAC only in that
of a NIC_INIT word, ARG registers only in a HOST write with BUSY = 0 (that none lands with BUSY = 1 is notes/assumptions/35.md); WIRE_OUT and
DIAG only grow, and FAULT, the refusal mark and the launch parameters stay. A step that raises a fault or a refusal leaves the state as it
was but for the reason, which FAULT or the refusal mark gains; after that no agent takes a further step. That such a step's outcome is the
reason, and that a stopped state answers it again, is the model's form (notes/assumptions/21.md). -/
def Obligations.WhoWritesWhat : Prop :=
  (∀ s t : State, step s = .next t →
    (t.ourIp ≠ s.ourIp → ∃ w rest, s.agenda = .host (.engineWrite 0 .w32 w) :: rest ∧ decode w = .ok .ipSetAddress) ∧
    (t.mac ≠ s.mac ∨ t.macKnown ≠ s.macKnown →
      ∃ w rest, s.agenda = .host (.engineWrite 0 .w32 w) :: rest ∧ decode w = .ok .nicInit) ∧
    (t.args ≠ s.args → s.busy = false ∧ ∃ off v rest, s.agenda = .host (.engineWrite off .w32 v) :: rest) ∧
    s.wireOut <+: t.wireOut ∧ s.diag <+: t.diag ∧ t.faults = s.faults ∧ t.refusals = s.refusals ∧ t.params = s.params) ∧
  (∀ s : State, s.faults = [] → s.refusals = [] →
    (∀ t, step s = .next t → s.afterStep = t) ∧
    (∀ f, step s = .fault f → ∀ n, Nat.iterate State.afterStep (n + 1) s = { s with faults := [f] }) ∧
    ∀ r, step s = .refused r → ∀ n, Nat.iterate State.afterStep (n + 1) s = { s with refusals := [r] }) ∧
  (∀ (s : State) (f : Fault), f ∈ s.faults →
    (∃ g ∈ s.faults, step s = .fault g) ∧ ∀ n, Nat.iterate State.afterStep n s = s) ∧
  ∀ (s : State) (r : Refusal), s.faults = [] → r ∈ s.refusals →
    (∃ q ∈ s.refusals, step s = .refused q) ∧ ∀ n, Nat.iterate State.afterStep n s = s
end

