-- ==== Sys2Proof/Laws/Memory.lean ====
section
/-! SUPPORT. Laws of host memory: reading after writing, the canonical form kept by every operation, and byte sequences. -/

namespace Sys2Proof.Machine

/-! ## One byte -/

theorem Memory.wfFrom_mono {lo lo' : Nat} {m : Memory} (h : lo' ≤ lo) (hw : Memory.wfFrom lo m = true) :
    Memory.wfFrom lo' m = true := by
  cases m with
  | nil => rfl
  | cons c rest =>
    obtain ⟨k, v⟩ := c
    simp only [Memory.wfFrom, Bool.and_eq_true, decide_eq_true_eq] at hw ⊢
    exact ⟨⟨by omega, hw.1.2⟩, hw.2⟩

/-- Below the least address of a canonical memory every byte is the unlisted one. -/
theorem Memory.read_below {lo : Nat} {m : Memory} (hw : Memory.wfFrom lo m = true) {a : Nat} (ha : a < lo) :
    m.read a = Memory.unlisted a := by
  induction m generalizing lo with
  | nil => rfl
  | cons c rest ih =>
    obtain ⟨k, v⟩ := c
    simp only [Memory.wfFrom, Bool.and_eq_true, decide_eq_true_eq] at hw
    rw [Memory.read, if_neg (by omega)]
    exact ih hw.2 (by omega)

theorem Memory.read_write {lo : Nat} {m : Memory} (hw : Memory.wfFrom lo m = true) (a b : Nat) (v : Byte) :
    (m.write a v).read b = if b = a then v else m.read b := by
  induction m generalizing lo with
  | nil =>
    by_cases h : v = Memory.unlisted a <;> simp only [Memory.write, h, if_true, if_false, Memory.read] <;> grind
  | cons c rest ih =>
    obtain ⟨k, w⟩ := c
    have hb := hw
    simp only [Memory.wfFrom, Bool.and_eq_true, decide_eq_true_eq] at hw
    have hrest : a ≤ k → Memory.read rest a = Memory.unlisted a := fun h => Memory.read_below hw.2 (by omega)
    have ih := ih hw.2
    simp only [Memory.write]
    split
    · split
      · by_cases h : b = a
        · subst h; grind [Memory.read]
        · rw [if_neg h]
      · grind [Memory.read]
    · split
      · split <;> grind [Memory.read]
      · grind [Memory.read]

theorem Memory.write_wfFrom {lo : Nat} {m : Memory} (hw : Memory.wfFrom lo m = true) {a : Nat} (ha : lo ≤ a) (v : Byte) :
    Memory.wfFrom lo (m.write a v) = true := by
  induction m generalizing lo with
  | nil =>
    simp only [Memory.write]
    split
    · rfl
    · simp [Memory.wfFrom, *]
  | cons c rest ih =>
    obtain ⟨k, w⟩ := c
    simp only [Memory.wfFrom, Bool.and_eq_true, decide_eq_true_eq] at hw
    simp only [Memory.write]
    split
    · split
      · simp [Memory.wfFrom, hw]
      · simp only [Memory.wfFrom, Bool.and_eq_true, decide_eq_true_eq]
        exact ⟨⟨ha, by assumption⟩, ⟨by omega, hw.1.2⟩, hw.2⟩
    · split
      · split
        · exact Memory.wfFrom_mono (by omega) hw.2
        · subst_vars
          simp only [Memory.wfFrom, Bool.and_eq_true, decide_eq_true_eq]
          exact ⟨⟨hw.1.1, by assumption⟩, hw.2⟩
      · simp only [Memory.wfFrom, Bool.and_eq_true, decide_eq_true_eq]
        exact ⟨hw.1, ih hw.2 (by omega)⟩

theorem Memory.write_mem {m : Memory} {a : Nat} {v : Byte} {c : Host.Cell} (h : c ∈ m.write a v) : c ∈ m ∨ c.1 = a := by
  induction m with
  | nil =>
    simp only [Memory.write] at h
    split at h
    · simp at h
    · simp only [List.mem_singleton] at h; simp [h]
  | cons d rest ih =>
    obtain ⟨k, w⟩ := d
    simp only [Memory.write] at h
    grind

theorem Memory.physAddr_lt (a : Nat) : physAddr a < Config.addrSpace :=
  Nat.mod_lt _ (by decide)

/-- Writing a byte at a physical address keeps the canonical form. -/
theorem Memory.write_wf {m : Memory} (hw : m.wf = true) (a : Nat) (v : Byte) : (m.write (physAddr a) v).wf = true := by
  simp only [Memory.wf, Bool.and_eq_true, List.all_eq_true, decide_eq_true_eq] at hw ⊢
  refine ⟨Memory.write_wfFrom hw.1 (Nat.zero_le _) v, fun c hc => ?_⟩
  rcases Memory.write_mem hc with h | h
  · exact hw.2 c h
  · exact h ▸ Memory.physAddr_lt a

theorem Memory.wf_from {m : Memory} (hw : m.wf = true) : Memory.wfFrom 0 m = true := by
  simp only [Memory.wf, Bool.and_eq_true] at hw; exact hw.1

/-- A byte reads back as written, and every other byte reads as before. -/
theorem Memory.read_write_wf {m : Memory} (hw : m.wf = true) (a b : Nat) (v : Byte) :
    (m.write a v).read b = if b = a then v else m.read b :=
  Memory.read_write (Memory.wf_from hw) a b v

/-! ## Byte sequences -/

/-- Writing a byte sequence keeps the canonical form. -/
theorem Memory.writeBytes_wf {m : Memory} (hw : m.wf = true) (a : Nat) (b : List Byte) : (m.writeBytes a b).wf = true := by
  induction b generalizing m a with
  | nil => exact hw
  | cons x rest ih => exact ih (Memory.write_wf hw a x) (a + 1)

/-- Every byte after a write of a sequence that stays inside the address space. -/
theorem Memory.read_writeBytes {m : Memory} (hw : m.wf = true) {a : Nat} {b : List Byte}
    (hr : a + b.length ≤ Config.addrSpace) (x : Nat) :
    (m.writeBytes a b).read x = if a ≤ x ∧ x < a + b.length then b.getD (x - a) 0 else m.read x := by
  induction b generalizing m a with
  | nil => simp [Memory.writeBytes]
  | cons y rest ih =>
    simp only [List.length_cons] at hr ⊢
    have hp : physAddr a = a := Nat.mod_eq_of_lt (by omega)
    rw [Memory.writeBytes, ih (Memory.write_wf hw a y) (by omega), hp, Memory.read_write_wf hw]
    by_cases h1 : x = a
    · subst h1; simp
    · by_cases h2 : a + 1 ≤ x ∧ x < a + 1 + rest.length
      · rw [if_pos h2, if_pos (by omega)]
        have : x - a = (x - (a + 1)) + 1 := by omega
        rw [this, List.getD_cons_succ]
      · rw [if_neg h2, if_neg h1, if_neg (by omega)]

/-- Outside the written bytes memory reads as before. -/
theorem Memory.read_writeBytes_of_outside {m : Memory} (hw : m.wf = true) {a : Nat} {b : List Byte}
    (hr : a + b.length ≤ Config.addrSpace) {x : Nat} (hx : x < a ∨ a + b.length ≤ x) :
    (m.writeBytes a b).read x = m.read x := by
  rw [Memory.read_writeBytes hw hr, if_neg (by omega)]

@[simp] theorem Memory.length_readBytes (m : Memory) (a n : Nat) : (m.readBytes a n).length = n := by
  induction n generalizing a with
  | zero => rfl
  | succ n ih => simp [Memory.readBytes, ih]

theorem Memory.getElem_readBytes (m : Memory) (a n k : Nat) (h : k < n) :
    (m.readBytes a n)[k]'(by simpa using h) = m.read (physAddr (a + k)) := by
  induction n generalizing a k with
  | zero => omega
  | succ n ih =>
    cases k with
    | zero => simp [Memory.readBytes]
    | succ k =>
      simp only [Memory.readBytes, List.getElem_cons_succ]
      rw [ih (a + 1) k (by omega)]
      congr 2; omega

/-- A sequence reads back as written. -/
theorem Memory.readBytes_writeBytes {m : Memory} (hw : m.wf = true) {a : Nat} {b : List Byte}
    (hr : a + b.length ≤ Config.addrSpace) : (m.writeBytes a b).readBytes a b.length = b := by
  apply List.ext_getElem (by simp)
  intro k hk hk'
  rw [Memory.getElem_readBytes _ _ _ _ (by simpa using hk),
    show physAddr (a + k) = a + k from Nat.mod_eq_of_lt (by omega), Memory.read_writeBytes hw hr, if_pos (by omega)]
  simp [List.getD_eq_getElem?_getD, List.getElem?_eq_getElem hk']

/-- Two memories that read alike on a range give the same sequence there. -/
theorem Memory.readBytes_congr {m m' : Memory} {a n : Nat} (h : ∀ k < n, m.read (physAddr (a + k)) = m'.read (physAddr (a + k))) :
    m.readBytes a n = m'.readBytes a n := by
  apply List.ext_getElem (by simp)
  intro k hk hk'
  rw [Memory.getElem_readBytes _ _ _ _ (by simpa using hk), Memory.getElem_readBytes _ _ _ _ (by simpa using hk)]
  exact h k (by simpa using hk)

/-- `Memory.wf` of the reset memory. -/
theorem Memory.wf_nil : Memory.wf [] = true := rfl

end Sys2Proof.Machine
end

