-- ==== Sys2Proof/Laws/State.lean ====
section
/-! SUPPORT. One lemma per field for each named update of the state and of the device, so that no proof unfolds a record
update. -/

namespace Sys2Proof.Machine

/-! ### State.latchCmd -/

@[simp] theorem State.latchCmd_cmd (s : State) (w : Word) : (s.latchCmd w).cmd = w := rfl
@[simp] theorem State.latchCmd_cmdWritten (s : State) (w : Word) : (s.latchCmd w).cmdWritten = true := rfl
@[simp] theorem State.latchCmd_code (s : State) (w : Word) : (s.latchCmd w).code = s.code := rfl
@[simp] theorem State.latchCmd_busy (s : State) (w : Word) : (s.latchCmd w).busy = s.busy := rfl
@[simp] theorem State.latchCmd_args (s : State) (w : Word) : (s.latchCmd w).args = s.args := rfl
@[simp] theorem State.latchCmd_res (s : State) (w : Word) : (s.latchCmd w).res = s.res := rfl
@[simp] theorem State.latchCmd_irqIsr (s : State) (w : Word) : (s.latchCmd w).irqIsr = s.irqIsr := rfl
@[simp] theorem State.latchCmd_irqDrained (s : State) (w : Word) : (s.latchCmd w).irqDrained = s.irqDrained := rfl
@[simp] theorem State.latchCmd_irqWritten (s : State) (w : Word) : (s.latchCmd w).irqWritten = s.irqWritten := rfl
@[simp] theorem State.latchCmd_initialized (s : State) (w : Word) : (s.latchCmd w).initialized = s.initialized := rfl
@[simp] theorem State.latchCmd_ioBase (s : State) (w : Word) : (s.latchCmd w).ioBase = s.ioBase := rfl
@[simp] theorem State.latchCmd_mac (s : State) (w : Word) : (s.latchCmd w).mac = s.mac := rfl
@[simp] theorem State.latchCmd_macKnown (s : State) (w : Word) : (s.latchCmd w).macKnown = s.macKnown := rfl
@[simp] theorem State.latchCmd_rxBase (s : State) (w : Word) : (s.latchCmd w).rxBase = s.rxBase := rfl
@[simp] theorem State.latchCmd_txAddr (s : State) (w : Word) : (s.latchCmd w).txAddr = s.txAddr := rfl
@[simp] theorem State.latchCmd_txSlot (s : State) (w : Word) : (s.latchCmd w).txSlot = s.txSlot := rfl
@[simp] theorem State.latchCmd_rxOff (s : State) (w : Word) : (s.latchCmd w).rxOff = s.rxOff := rfl
@[simp] theorem State.latchCmd_ourIp (s : State) (w : Word) : (s.latchCmd w).ourIp = s.ourIp := rfl
@[simp] theorem State.latchCmd_arp (s : State) (w : Word) : (s.latchCmd w).arp = s.arp := rfl
@[simp] theorem State.latchCmd_arpRr (s : State) (w : Word) : (s.latchCmd w).arpRr = s.arpRr := rfl
@[simp] theorem State.latchCmd_phase (s : State) (w : Word) : (s.latchCmd w).phase = s.phase := rfl
@[simp] theorem State.latchCmd_dev (s : State) (w : Word) : (s.latchCmd w).dev = s.dev := rfl
@[simp] theorem State.latchCmd_pci (s : State) (w : Word) : (s.latchCmd w).pci = s.pci := rfl
@[simp] theorem State.latchCmd_mem (s : State) (w : Word) : (s.latchCmd w).mem = s.mem := rfl
@[simp] theorem State.latchCmd_wireOut (s : State) (w : Word) : (s.latchCmd w).wireOut = s.wireOut := rfl
@[simp] theorem State.latchCmd_diag (s : State) (w : Word) : (s.latchCmd w).diag = s.diag := rfl
@[simp] theorem State.latchCmd_faults (s : State) (w : Word) : (s.latchCmd w).faults = s.faults := rfl
@[simp] theorem State.latchCmd_refusals (s : State) (w : Word) : (s.latchCmd w).refusals = s.refusals := rfl
@[simp] theorem State.latchCmd_params (s : State) (w : Word) : (s.latchCmd w).params = s.params := rfl
@[simp] theorem State.latchCmd_agenda (s : State) (w : Word) : (s.latchCmd w).agenda = s.agenda := rfl
@[simp] theorem State.latchCmd_draws (s : State) (w : Word) : (s.latchCmd w).draws = s.draws := rfl
@[simp] theorem State.latchCmd_hostData (s : State) (w : Word) : (s.latchCmd w).hostData = s.hostData := rfl

/-! ### State.setRes -/

@[simp] theorem State.setRes_cmd (s : State) (i : Fin 4) (v : Word) : (s.setRes i v).cmd = s.cmd := rfl
@[simp] theorem State.setRes_cmdWritten (s : State) (i : Fin 4) (v : Word) :
    (s.setRes i v).cmdWritten = s.cmdWritten := rfl
@[simp] theorem State.setRes_code (s : State) (i : Fin 4) (v : Word) : (s.setRes i v).code = s.code := rfl
@[simp] theorem State.setRes_busy (s : State) (i : Fin 4) (v : Word) : (s.setRes i v).busy = s.busy := rfl
@[simp] theorem State.setRes_args (s : State) (i : Fin 4) (v : Word) : (s.setRes i v).args = s.args := rfl
@[simp] theorem State.setRes_res (s : State) (i : Fin 4) (v : Word) :
    (s.setRes i v).res = s.res.set i ⟨v, true⟩ := rfl
@[simp] theorem State.setRes_irqIsr (s : State) (i : Fin 4) (v : Word) : (s.setRes i v).irqIsr = s.irqIsr := rfl
@[simp] theorem State.setRes_irqDrained (s : State) (i : Fin 4) (v : Word) :
    (s.setRes i v).irqDrained = s.irqDrained := rfl
@[simp] theorem State.setRes_irqWritten (s : State) (i : Fin 4) (v : Word) :
    (s.setRes i v).irqWritten = s.irqWritten := rfl
@[simp] theorem State.setRes_initialized (s : State) (i : Fin 4) (v : Word) :
    (s.setRes i v).initialized = s.initialized := rfl
@[simp] theorem State.setRes_ioBase (s : State) (i : Fin 4) (v : Word) : (s.setRes i v).ioBase = s.ioBase := rfl
@[simp] theorem State.setRes_mac (s : State) (i : Fin 4) (v : Word) : (s.setRes i v).mac = s.mac := rfl
@[simp] theorem State.setRes_macKnown (s : State) (i : Fin 4) (v : Word) : (s.setRes i v).macKnown = s.macKnown := rfl
@[simp] theorem State.setRes_rxBase (s : State) (i : Fin 4) (v : Word) : (s.setRes i v).rxBase = s.rxBase := rfl
@[simp] theorem State.setRes_txAddr (s : State) (i : Fin 4) (v : Word) : (s.setRes i v).txAddr = s.txAddr := rfl
@[simp] theorem State.setRes_txSlot (s : State) (i : Fin 4) (v : Word) : (s.setRes i v).txSlot = s.txSlot := rfl
@[simp] theorem State.setRes_rxOff (s : State) (i : Fin 4) (v : Word) : (s.setRes i v).rxOff = s.rxOff := rfl
@[simp] theorem State.setRes_ourIp (s : State) (i : Fin 4) (v : Word) : (s.setRes i v).ourIp = s.ourIp := rfl
@[simp] theorem State.setRes_arp (s : State) (i : Fin 4) (v : Word) : (s.setRes i v).arp = s.arp := rfl
@[simp] theorem State.setRes_arpRr (s : State) (i : Fin 4) (v : Word) : (s.setRes i v).arpRr = s.arpRr := rfl
@[simp] theorem State.setRes_phase (s : State) (i : Fin 4) (v : Word) : (s.setRes i v).phase = s.phase := rfl
@[simp] theorem State.setRes_dev (s : State) (i : Fin 4) (v : Word) : (s.setRes i v).dev = s.dev := rfl
@[simp] theorem State.setRes_pci (s : State) (i : Fin 4) (v : Word) : (s.setRes i v).pci = s.pci := rfl
@[simp] theorem State.setRes_mem (s : State) (i : Fin 4) (v : Word) : (s.setRes i v).mem = s.mem := rfl
@[simp] theorem State.setRes_wireOut (s : State) (i : Fin 4) (v : Word) : (s.setRes i v).wireOut = s.wireOut := rfl
@[simp] theorem State.setRes_diag (s : State) (i : Fin 4) (v : Word) : (s.setRes i v).diag = s.diag := rfl
@[simp] theorem State.setRes_faults (s : State) (i : Fin 4) (v : Word) : (s.setRes i v).faults = s.faults := rfl
@[simp] theorem State.setRes_refusals (s : State) (i : Fin 4) (v : Word) : (s.setRes i v).refusals = s.refusals := rfl
@[simp] theorem State.setRes_params (s : State) (i : Fin 4) (v : Word) : (s.setRes i v).params = s.params := rfl
@[simp] theorem State.setRes_agenda (s : State) (i : Fin 4) (v : Word) : (s.setRes i v).agenda = s.agenda := rfl
@[simp] theorem State.setRes_draws (s : State) (i : Fin 4) (v : Word) : (s.setRes i v).draws = s.draws := rfl
@[simp] theorem State.setRes_hostData (s : State) (i : Fin 4) (v : Word) : (s.setRes i v).hostData = s.hostData := rfl

/-! ### State.setArg -/

@[simp] theorem State.setArg_cmd (s : State) (i : Fin 5) (v : Word) : (s.setArg i v).cmd = s.cmd := rfl
@[simp] theorem State.setArg_cmdWritten (s : State) (i : Fin 5) (v : Word) :
    (s.setArg i v).cmdWritten = s.cmdWritten := rfl
@[simp] theorem State.setArg_code (s : State) (i : Fin 5) (v : Word) : (s.setArg i v).code = s.code := rfl
@[simp] theorem State.setArg_busy (s : State) (i : Fin 5) (v : Word) : (s.setArg i v).busy = s.busy := rfl
@[simp] theorem State.setArg_args (s : State) (i : Fin 5) (v : Word) :
    (s.setArg i v).args = s.args.set i ⟨v, true⟩ := rfl
@[simp] theorem State.setArg_res (s : State) (i : Fin 5) (v : Word) : (s.setArg i v).res = s.res := rfl
@[simp] theorem State.setArg_irqIsr (s : State) (i : Fin 5) (v : Word) : (s.setArg i v).irqIsr = s.irqIsr := rfl
@[simp] theorem State.setArg_irqDrained (s : State) (i : Fin 5) (v : Word) :
    (s.setArg i v).irqDrained = s.irqDrained := rfl
@[simp] theorem State.setArg_irqWritten (s : State) (i : Fin 5) (v : Word) :
    (s.setArg i v).irqWritten = s.irqWritten := rfl
@[simp] theorem State.setArg_initialized (s : State) (i : Fin 5) (v : Word) :
    (s.setArg i v).initialized = s.initialized := rfl
@[simp] theorem State.setArg_ioBase (s : State) (i : Fin 5) (v : Word) : (s.setArg i v).ioBase = s.ioBase := rfl
@[simp] theorem State.setArg_mac (s : State) (i : Fin 5) (v : Word) : (s.setArg i v).mac = s.mac := rfl
@[simp] theorem State.setArg_macKnown (s : State) (i : Fin 5) (v : Word) : (s.setArg i v).macKnown = s.macKnown := rfl
@[simp] theorem State.setArg_rxBase (s : State) (i : Fin 5) (v : Word) : (s.setArg i v).rxBase = s.rxBase := rfl
@[simp] theorem State.setArg_txAddr (s : State) (i : Fin 5) (v : Word) : (s.setArg i v).txAddr = s.txAddr := rfl
@[simp] theorem State.setArg_txSlot (s : State) (i : Fin 5) (v : Word) : (s.setArg i v).txSlot = s.txSlot := rfl
@[simp] theorem State.setArg_rxOff (s : State) (i : Fin 5) (v : Word) : (s.setArg i v).rxOff = s.rxOff := rfl
@[simp] theorem State.setArg_ourIp (s : State) (i : Fin 5) (v : Word) : (s.setArg i v).ourIp = s.ourIp := rfl
@[simp] theorem State.setArg_arp (s : State) (i : Fin 5) (v : Word) : (s.setArg i v).arp = s.arp := rfl
@[simp] theorem State.setArg_arpRr (s : State) (i : Fin 5) (v : Word) : (s.setArg i v).arpRr = s.arpRr := rfl
@[simp] theorem State.setArg_phase (s : State) (i : Fin 5) (v : Word) : (s.setArg i v).phase = s.phase := rfl
@[simp] theorem State.setArg_dev (s : State) (i : Fin 5) (v : Word) : (s.setArg i v).dev = s.dev := rfl
@[simp] theorem State.setArg_pci (s : State) (i : Fin 5) (v : Word) : (s.setArg i v).pci = s.pci := rfl
@[simp] theorem State.setArg_mem (s : State) (i : Fin 5) (v : Word) : (s.setArg i v).mem = s.mem := rfl
@[simp] theorem State.setArg_wireOut (s : State) (i : Fin 5) (v : Word) : (s.setArg i v).wireOut = s.wireOut := rfl
@[simp] theorem State.setArg_diag (s : State) (i : Fin 5) (v : Word) : (s.setArg i v).diag = s.diag := rfl
@[simp] theorem State.setArg_faults (s : State) (i : Fin 5) (v : Word) : (s.setArg i v).faults = s.faults := rfl
@[simp] theorem State.setArg_refusals (s : State) (i : Fin 5) (v : Word) : (s.setArg i v).refusals = s.refusals := rfl
@[simp] theorem State.setArg_params (s : State) (i : Fin 5) (v : Word) : (s.setArg i v).params = s.params := rfl
@[simp] theorem State.setArg_agenda (s : State) (i : Fin 5) (v : Word) : (s.setArg i v).agenda = s.agenda := rfl
@[simp] theorem State.setArg_draws (s : State) (i : Fin 5) (v : Word) : (s.setArg i v).draws = s.draws := rfl
@[simp] theorem State.setArg_hostData (s : State) (i : Fin 5) (v : Word) : (s.setArg i v).hostData = s.hostData := rfl

/-! ### State.finish -/

@[simp] theorem State.finish_cmd (s : State) (c : Code) : (s.finish c).cmd = s.cmd := rfl
@[simp] theorem State.finish_cmdWritten (s : State) (c : Code) : (s.finish c).cmdWritten = s.cmdWritten := rfl
@[simp] theorem State.finish_code (s : State) (c : Code) : (s.finish c).code = c := rfl
@[simp] theorem State.finish_busy (s : State) (c : Code) : (s.finish c).busy = false := rfl
@[simp] theorem State.finish_args (s : State) (c : Code) : (s.finish c).args = s.args := rfl
@[simp] theorem State.finish_res (s : State) (c : Code) : (s.finish c).res = s.res := rfl
@[simp] theorem State.finish_irqIsr (s : State) (c : Code) : (s.finish c).irqIsr = s.irqIsr := rfl
@[simp] theorem State.finish_irqDrained (s : State) (c : Code) : (s.finish c).irqDrained = s.irqDrained := rfl
@[simp] theorem State.finish_irqWritten (s : State) (c : Code) : (s.finish c).irqWritten = s.irqWritten := rfl
@[simp] theorem State.finish_initialized (s : State) (c : Code) : (s.finish c).initialized = s.initialized := rfl
@[simp] theorem State.finish_ioBase (s : State) (c : Code) : (s.finish c).ioBase = s.ioBase := rfl
@[simp] theorem State.finish_mac (s : State) (c : Code) : (s.finish c).mac = s.mac := rfl
@[simp] theorem State.finish_macKnown (s : State) (c : Code) : (s.finish c).macKnown = s.macKnown := rfl
@[simp] theorem State.finish_rxBase (s : State) (c : Code) : (s.finish c).rxBase = s.rxBase := rfl
@[simp] theorem State.finish_txAddr (s : State) (c : Code) : (s.finish c).txAddr = s.txAddr := rfl
@[simp] theorem State.finish_txSlot (s : State) (c : Code) : (s.finish c).txSlot = s.txSlot := rfl
@[simp] theorem State.finish_rxOff (s : State) (c : Code) : (s.finish c).rxOff = s.rxOff := rfl
@[simp] theorem State.finish_ourIp (s : State) (c : Code) : (s.finish c).ourIp = s.ourIp := rfl
@[simp] theorem State.finish_arp (s : State) (c : Code) : (s.finish c).arp = s.arp := rfl
@[simp] theorem State.finish_arpRr (s : State) (c : Code) : (s.finish c).arpRr = s.arpRr := rfl
@[simp] theorem State.finish_phase (s : State) (c : Code) : (s.finish c).phase = s.phase := rfl
@[simp] theorem State.finish_dev (s : State) (c : Code) : (s.finish c).dev = s.dev := rfl
@[simp] theorem State.finish_pci (s : State) (c : Code) : (s.finish c).pci = s.pci := rfl
@[simp] theorem State.finish_mem (s : State) (c : Code) : (s.finish c).mem = s.mem := rfl
@[simp] theorem State.finish_wireOut (s : State) (c : Code) : (s.finish c).wireOut = s.wireOut := rfl
@[simp] theorem State.finish_diag (s : State) (c : Code) : (s.finish c).diag = s.diag := rfl
@[simp] theorem State.finish_faults (s : State) (c : Code) : (s.finish c).faults = s.faults := rfl
@[simp] theorem State.finish_refusals (s : State) (c : Code) : (s.finish c).refusals = s.refusals := rfl
@[simp] theorem State.finish_params (s : State) (c : Code) : (s.finish c).params = s.params := rfl
@[simp] theorem State.finish_agenda (s : State) (c : Code) : (s.finish c).agenda = s.agenda := rfl
@[simp] theorem State.finish_draws (s : State) (c : Code) : (s.finish c).draws = s.draws := rfl
@[simp] theorem State.finish_hostData (s : State) (c : Code) : (s.finish c).hostData = s.hostData := rfl

/-! ### State.emitDiag -/

@[simp] theorem State.emitDiag_cmd (s : State) (e : DiagEvent) : (s.emitDiag e).cmd = s.cmd := rfl
@[simp] theorem State.emitDiag_cmdWritten (s : State) (e : DiagEvent) :
    (s.emitDiag e).cmdWritten = s.cmdWritten := rfl
@[simp] theorem State.emitDiag_code (s : State) (e : DiagEvent) : (s.emitDiag e).code = s.code := rfl
@[simp] theorem State.emitDiag_busy (s : State) (e : DiagEvent) : (s.emitDiag e).busy = s.busy := rfl
@[simp] theorem State.emitDiag_args (s : State) (e : DiagEvent) : (s.emitDiag e).args = s.args := rfl
@[simp] theorem State.emitDiag_res (s : State) (e : DiagEvent) : (s.emitDiag e).res = s.res := rfl
@[simp] theorem State.emitDiag_irqIsr (s : State) (e : DiagEvent) : (s.emitDiag e).irqIsr = s.irqIsr := rfl
@[simp] theorem State.emitDiag_irqDrained (s : State) (e : DiagEvent) :
    (s.emitDiag e).irqDrained = s.irqDrained := rfl
@[simp] theorem State.emitDiag_irqWritten (s : State) (e : DiagEvent) :
    (s.emitDiag e).irqWritten = s.irqWritten := rfl
@[simp] theorem State.emitDiag_initialized (s : State) (e : DiagEvent) :
    (s.emitDiag e).initialized = s.initialized := rfl
@[simp] theorem State.emitDiag_ioBase (s : State) (e : DiagEvent) : (s.emitDiag e).ioBase = s.ioBase := rfl
@[simp] theorem State.emitDiag_mac (s : State) (e : DiagEvent) : (s.emitDiag e).mac = s.mac := rfl
@[simp] theorem State.emitDiag_macKnown (s : State) (e : DiagEvent) : (s.emitDiag e).macKnown = s.macKnown := rfl
@[simp] theorem State.emitDiag_rxBase (s : State) (e : DiagEvent) : (s.emitDiag e).rxBase = s.rxBase := rfl
@[simp] theorem State.emitDiag_txAddr (s : State) (e : DiagEvent) : (s.emitDiag e).txAddr = s.txAddr := rfl
@[simp] theorem State.emitDiag_txSlot (s : State) (e : DiagEvent) : (s.emitDiag e).txSlot = s.txSlot := rfl
@[simp] theorem State.emitDiag_rxOff (s : State) (e : DiagEvent) : (s.emitDiag e).rxOff = s.rxOff := rfl
@[simp] theorem State.emitDiag_ourIp (s : State) (e : DiagEvent) : (s.emitDiag e).ourIp = s.ourIp := rfl
@[simp] theorem State.emitDiag_arp (s : State) (e : DiagEvent) : (s.emitDiag e).arp = s.arp := rfl
@[simp] theorem State.emitDiag_arpRr (s : State) (e : DiagEvent) : (s.emitDiag e).arpRr = s.arpRr := rfl
@[simp] theorem State.emitDiag_phase (s : State) (e : DiagEvent) : (s.emitDiag e).phase = s.phase := rfl
@[simp] theorem State.emitDiag_dev (s : State) (e : DiagEvent) : (s.emitDiag e).dev = s.dev := rfl
@[simp] theorem State.emitDiag_pci (s : State) (e : DiagEvent) : (s.emitDiag e).pci = s.pci := rfl
@[simp] theorem State.emitDiag_mem (s : State) (e : DiagEvent) : (s.emitDiag e).mem = s.mem := rfl
@[simp] theorem State.emitDiag_wireOut (s : State) (e : DiagEvent) : (s.emitDiag e).wireOut = s.wireOut := rfl
@[simp] theorem State.emitDiag_diag (s : State) (e : DiagEvent) : (s.emitDiag e).diag = s.diag ++ [e] := rfl
@[simp] theorem State.emitDiag_faults (s : State) (e : DiagEvent) : (s.emitDiag e).faults = s.faults := rfl
@[simp] theorem State.emitDiag_refusals (s : State) (e : DiagEvent) : (s.emitDiag e).refusals = s.refusals := rfl
@[simp] theorem State.emitDiag_params (s : State) (e : DiagEvent) : (s.emitDiag e).params = s.params := rfl
@[simp] theorem State.emitDiag_agenda (s : State) (e : DiagEvent) : (s.emitDiag e).agenda = s.agenda := rfl
@[simp] theorem State.emitDiag_draws (s : State) (e : DiagEvent) : (s.emitDiag e).draws = s.draws := rfl
@[simp] theorem State.emitDiag_hostData (s : State) (e : DiagEvent) : (s.emitDiag e).hostData = s.hostData := rfl

/-! ### State.emitWire -/

@[simp] theorem State.emitWire_cmd (s : State) (f : List Byte) : (s.emitWire f).cmd = s.cmd := rfl
@[simp] theorem State.emitWire_cmdWritten (s : State) (f : List Byte) :
    (s.emitWire f).cmdWritten = s.cmdWritten := rfl
@[simp] theorem State.emitWire_code (s : State) (f : List Byte) : (s.emitWire f).code = s.code := rfl
@[simp] theorem State.emitWire_busy (s : State) (f : List Byte) : (s.emitWire f).busy = s.busy := rfl
@[simp] theorem State.emitWire_args (s : State) (f : List Byte) : (s.emitWire f).args = s.args := rfl
@[simp] theorem State.emitWire_res (s : State) (f : List Byte) : (s.emitWire f).res = s.res := rfl
@[simp] theorem State.emitWire_irqIsr (s : State) (f : List Byte) : (s.emitWire f).irqIsr = s.irqIsr := rfl
@[simp] theorem State.emitWire_irqDrained (s : State) (f : List Byte) :
    (s.emitWire f).irqDrained = s.irqDrained := rfl
@[simp] theorem State.emitWire_irqWritten (s : State) (f : List Byte) :
    (s.emitWire f).irqWritten = s.irqWritten := rfl
@[simp] theorem State.emitWire_initialized (s : State) (f : List Byte) :
    (s.emitWire f).initialized = s.initialized := rfl
@[simp] theorem State.emitWire_ioBase (s : State) (f : List Byte) : (s.emitWire f).ioBase = s.ioBase := rfl
@[simp] theorem State.emitWire_mac (s : State) (f : List Byte) : (s.emitWire f).mac = s.mac := rfl
@[simp] theorem State.emitWire_macKnown (s : State) (f : List Byte) : (s.emitWire f).macKnown = s.macKnown := rfl
@[simp] theorem State.emitWire_rxBase (s : State) (f : List Byte) : (s.emitWire f).rxBase = s.rxBase := rfl
@[simp] theorem State.emitWire_txAddr (s : State) (f : List Byte) : (s.emitWire f).txAddr = s.txAddr := rfl
@[simp] theorem State.emitWire_txSlot (s : State) (f : List Byte) : (s.emitWire f).txSlot = s.txSlot := rfl
@[simp] theorem State.emitWire_rxOff (s : State) (f : List Byte) : (s.emitWire f).rxOff = s.rxOff := rfl
@[simp] theorem State.emitWire_ourIp (s : State) (f : List Byte) : (s.emitWire f).ourIp = s.ourIp := rfl
@[simp] theorem State.emitWire_arp (s : State) (f : List Byte) : (s.emitWire f).arp = s.arp := rfl
@[simp] theorem State.emitWire_arpRr (s : State) (f : List Byte) : (s.emitWire f).arpRr = s.arpRr := rfl
@[simp] theorem State.emitWire_phase (s : State) (f : List Byte) : (s.emitWire f).phase = s.phase := rfl
@[simp] theorem State.emitWire_dev (s : State) (f : List Byte) : (s.emitWire f).dev = s.dev := rfl
@[simp] theorem State.emitWire_pci (s : State) (f : List Byte) : (s.emitWire f).pci = s.pci := rfl
@[simp] theorem State.emitWire_mem (s : State) (f : List Byte) : (s.emitWire f).mem = s.mem := rfl
@[simp] theorem State.emitWire_wireOut (s : State) (f : List Byte) : (s.emitWire f).wireOut = s.wireOut ++ [f] := rfl
@[simp] theorem State.emitWire_diag (s : State) (f : List Byte) : (s.emitWire f).diag = s.diag := rfl
@[simp] theorem State.emitWire_faults (s : State) (f : List Byte) : (s.emitWire f).faults = s.faults := rfl
@[simp] theorem State.emitWire_refusals (s : State) (f : List Byte) : (s.emitWire f).refusals = s.refusals := rfl
@[simp] theorem State.emitWire_params (s : State) (f : List Byte) : (s.emitWire f).params = s.params := rfl
@[simp] theorem State.emitWire_agenda (s : State) (f : List Byte) : (s.emitWire f).agenda = s.agenda := rfl
@[simp] theorem State.emitWire_draws (s : State) (f : List Byte) : (s.emitWire f).draws = s.draws := rfl
@[simp] theorem State.emitWire_hostData (s : State) (f : List Byte) : (s.emitWire f).hostData = s.hostData := rfl

/-! ### State.setIrq -/

@[simp] theorem State.setIrq_cmd (s : State) (isr : Half) (n : Nat) : (s.setIrq isr n).cmd = s.cmd := rfl
@[simp] theorem State.setIrq_cmdWritten (s : State) (isr : Half) (n : Nat) :
    (s.setIrq isr n).cmdWritten = s.cmdWritten := rfl
@[simp] theorem State.setIrq_code (s : State) (isr : Half) (n : Nat) : (s.setIrq isr n).code = s.code := rfl
@[simp] theorem State.setIrq_busy (s : State) (isr : Half) (n : Nat) : (s.setIrq isr n).busy = s.busy := rfl
@[simp] theorem State.setIrq_args (s : State) (isr : Half) (n : Nat) : (s.setIrq isr n).args = s.args := rfl
@[simp] theorem State.setIrq_res (s : State) (isr : Half) (n : Nat) : (s.setIrq isr n).res = s.res := rfl
@[simp] theorem State.setIrq_irqIsr (s : State) (isr : Half) (n : Nat) : (s.setIrq isr n).irqIsr = isr := rfl
@[simp] theorem State.setIrq_irqDrained (s : State) (isr : Half) (n : Nat) :
    (s.setIrq isr n).irqDrained = BitVec.ofNat 32 n := rfl
@[simp] theorem State.setIrq_irqWritten (s : State) (isr : Half) (n : Nat) : (s.setIrq isr n).irqWritten = true := rfl
@[simp] theorem State.setIrq_initialized (s : State) (isr : Half) (n : Nat) :
    (s.setIrq isr n).initialized = s.initialized := rfl
@[simp] theorem State.setIrq_ioBase (s : State) (isr : Half) (n : Nat) : (s.setIrq isr n).ioBase = s.ioBase := rfl
@[simp] theorem State.setIrq_mac (s : State) (isr : Half) (n : Nat) : (s.setIrq isr n).mac = s.mac := rfl
@[simp] theorem State.setIrq_macKnown (s : State) (isr : Half) (n : Nat) :
    (s.setIrq isr n).macKnown = s.macKnown := rfl
@[simp] theorem State.setIrq_rxBase (s : State) (isr : Half) (n : Nat) : (s.setIrq isr n).rxBase = s.rxBase := rfl
@[simp] theorem State.setIrq_txAddr (s : State) (isr : Half) (n : Nat) : (s.setIrq isr n).txAddr = s.txAddr := rfl
@[simp] theorem State.setIrq_txSlot (s : State) (isr : Half) (n : Nat) : (s.setIrq isr n).txSlot = s.txSlot := rfl
@[simp] theorem State.setIrq_rxOff (s : State) (isr : Half) (n : Nat) : (s.setIrq isr n).rxOff = s.rxOff := rfl
@[simp] theorem State.setIrq_ourIp (s : State) (isr : Half) (n : Nat) : (s.setIrq isr n).ourIp = s.ourIp := rfl
@[simp] theorem State.setIrq_arp (s : State) (isr : Half) (n : Nat) : (s.setIrq isr n).arp = s.arp := rfl
@[simp] theorem State.setIrq_arpRr (s : State) (isr : Half) (n : Nat) : (s.setIrq isr n).arpRr = s.arpRr := rfl
@[simp] theorem State.setIrq_phase (s : State) (isr : Half) (n : Nat) : (s.setIrq isr n).phase = s.phase := rfl
@[simp] theorem State.setIrq_dev (s : State) (isr : Half) (n : Nat) : (s.setIrq isr n).dev = s.dev := rfl
@[simp] theorem State.setIrq_pci (s : State) (isr : Half) (n : Nat) : (s.setIrq isr n).pci = s.pci := rfl
@[simp] theorem State.setIrq_mem (s : State) (isr : Half) (n : Nat) : (s.setIrq isr n).mem = s.mem := rfl
@[simp] theorem State.setIrq_wireOut (s : State) (isr : Half) (n : Nat) : (s.setIrq isr n).wireOut = s.wireOut := rfl
@[simp] theorem State.setIrq_diag (s : State) (isr : Half) (n : Nat) : (s.setIrq isr n).diag = s.diag := rfl
@[simp] theorem State.setIrq_faults (s : State) (isr : Half) (n : Nat) : (s.setIrq isr n).faults = s.faults := rfl
@[simp] theorem State.setIrq_refusals (s : State) (isr : Half) (n : Nat) :
    (s.setIrq isr n).refusals = s.refusals := rfl
@[simp] theorem State.setIrq_params (s : State) (isr : Half) (n : Nat) : (s.setIrq isr n).params = s.params := rfl
@[simp] theorem State.setIrq_agenda (s : State) (isr : Half) (n : Nat) : (s.setIrq isr n).agenda = s.agenda := rfl
@[simp] theorem State.setIrq_draws (s : State) (isr : Half) (n : Nat) : (s.setIrq isr n).draws = s.draws := rfl
@[simp] theorem State.setIrq_hostData (s : State) (isr : Half) (n : Nat) :
    (s.setIrq isr n).hostData = s.hostData := rfl

/-! ### State.writeIsr -/

@[simp] theorem State.writeIsr_cmd (s : State) (v : Half) : (s.writeIsr v).cmd = s.cmd := rfl
@[simp] theorem State.writeIsr_cmdWritten (s : State) (v : Half) : (s.writeIsr v).cmdWritten = s.cmdWritten := rfl
@[simp] theorem State.writeIsr_code (s : State) (v : Half) : (s.writeIsr v).code = s.code := rfl
@[simp] theorem State.writeIsr_busy (s : State) (v : Half) : (s.writeIsr v).busy = s.busy := rfl
@[simp] theorem State.writeIsr_args (s : State) (v : Half) : (s.writeIsr v).args = s.args := rfl
@[simp] theorem State.writeIsr_res (s : State) (v : Half) : (s.writeIsr v).res = s.res := rfl
@[simp] theorem State.writeIsr_irqIsr (s : State) (v : Half) : (s.writeIsr v).irqIsr = s.irqIsr := rfl
@[simp] theorem State.writeIsr_irqDrained (s : State) (v : Half) : (s.writeIsr v).irqDrained = s.irqDrained := rfl
@[simp] theorem State.writeIsr_irqWritten (s : State) (v : Half) : (s.writeIsr v).irqWritten = s.irqWritten := rfl
@[simp] theorem State.writeIsr_initialized (s : State) (v : Half) : (s.writeIsr v).initialized = s.initialized := rfl
@[simp] theorem State.writeIsr_ioBase (s : State) (v : Half) : (s.writeIsr v).ioBase = s.ioBase := rfl
@[simp] theorem State.writeIsr_mac (s : State) (v : Half) : (s.writeIsr v).mac = s.mac := rfl
@[simp] theorem State.writeIsr_macKnown (s : State) (v : Half) : (s.writeIsr v).macKnown = s.macKnown := rfl
@[simp] theorem State.writeIsr_rxBase (s : State) (v : Half) : (s.writeIsr v).rxBase = s.rxBase := rfl
@[simp] theorem State.writeIsr_txAddr (s : State) (v : Half) : (s.writeIsr v).txAddr = s.txAddr := rfl
@[simp] theorem State.writeIsr_txSlot (s : State) (v : Half) : (s.writeIsr v).txSlot = s.txSlot := rfl
@[simp] theorem State.writeIsr_rxOff (s : State) (v : Half) : (s.writeIsr v).rxOff = s.rxOff := rfl
@[simp] theorem State.writeIsr_ourIp (s : State) (v : Half) : (s.writeIsr v).ourIp = s.ourIp := rfl
@[simp] theorem State.writeIsr_arp (s : State) (v : Half) : (s.writeIsr v).arp = s.arp := rfl
@[simp] theorem State.writeIsr_arpRr (s : State) (v : Half) : (s.writeIsr v).arpRr = s.arpRr := rfl
@[simp] theorem State.writeIsr_phase (s : State) (v : Half) : (s.writeIsr v).phase = s.phase := rfl
@[simp] theorem State.writeIsr_dev (s : State) (v : Half) :
    (s.writeIsr v).dev = s.dev.writeIsr s.params.rokClear v := rfl
@[simp] theorem State.writeIsr_pci (s : State) (v : Half) : (s.writeIsr v).pci = s.pci := rfl
@[simp] theorem State.writeIsr_mem (s : State) (v : Half) : (s.writeIsr v).mem = s.mem := rfl
@[simp] theorem State.writeIsr_wireOut (s : State) (v : Half) : (s.writeIsr v).wireOut = s.wireOut := rfl
@[simp] theorem State.writeIsr_diag (s : State) (v : Half) : (s.writeIsr v).diag = s.diag := rfl
@[simp] theorem State.writeIsr_faults (s : State) (v : Half) : (s.writeIsr v).faults = s.faults := rfl
@[simp] theorem State.writeIsr_refusals (s : State) (v : Half) : (s.writeIsr v).refusals = s.refusals := rfl
@[simp] theorem State.writeIsr_params (s : State) (v : Half) : (s.writeIsr v).params = s.params := rfl
@[simp] theorem State.writeIsr_agenda (s : State) (v : Half) : (s.writeIsr v).agenda = s.agenda := rfl
@[simp] theorem State.writeIsr_draws (s : State) (v : Half) : (s.writeIsr v).draws = s.draws := rfl
@[simp] theorem State.writeIsr_hostData (s : State) (v : Half) : (s.writeIsr v).hostData = s.hostData := rfl

/-! ### State.rxAdvance -/

@[simp] theorem State.rxAdvance_cmd (s : State) (n : Nat) : (s.rxAdvance n).cmd = s.cmd := rfl
@[simp] theorem State.rxAdvance_cmdWritten (s : State) (n : Nat) : (s.rxAdvance n).cmdWritten = s.cmdWritten := rfl
@[simp] theorem State.rxAdvance_code (s : State) (n : Nat) : (s.rxAdvance n).code = s.code := rfl
@[simp] theorem State.rxAdvance_busy (s : State) (n : Nat) : (s.rxAdvance n).busy = s.busy := rfl
@[simp] theorem State.rxAdvance_args (s : State) (n : Nat) : (s.rxAdvance n).args = s.args := rfl
@[simp] theorem State.rxAdvance_res (s : State) (n : Nat) : (s.rxAdvance n).res = s.res := rfl
@[simp] theorem State.rxAdvance_irqIsr (s : State) (n : Nat) : (s.rxAdvance n).irqIsr = s.irqIsr := rfl
@[simp] theorem State.rxAdvance_irqDrained (s : State) (n : Nat) : (s.rxAdvance n).irqDrained = s.irqDrained := rfl
@[simp] theorem State.rxAdvance_irqWritten (s : State) (n : Nat) : (s.rxAdvance n).irqWritten = s.irqWritten := rfl
@[simp] theorem State.rxAdvance_initialized (s : State) (n : Nat) : (s.rxAdvance n).initialized = s.initialized := rfl
@[simp] theorem State.rxAdvance_ioBase (s : State) (n : Nat) : (s.rxAdvance n).ioBase = s.ioBase := rfl
@[simp] theorem State.rxAdvance_mac (s : State) (n : Nat) : (s.rxAdvance n).mac = s.mac := rfl
@[simp] theorem State.rxAdvance_macKnown (s : State) (n : Nat) : (s.rxAdvance n).macKnown = s.macKnown := rfl
@[simp] theorem State.rxAdvance_rxBase (s : State) (n : Nat) : (s.rxAdvance n).rxBase = s.rxBase := rfl
@[simp] theorem State.rxAdvance_txAddr (s : State) (n : Nat) : (s.rxAdvance n).txAddr = s.txAddr := rfl
@[simp] theorem State.rxAdvance_txSlot (s : State) (n : Nat) : (s.rxAdvance n).txSlot = s.txSlot := rfl
@[simp] theorem State.rxAdvance_rxOff (s : State) (n : Nat) :
    (s.rxAdvance n).rxOff = BitVec.ofNat 16 (alignUp (s.rxOff.toNat + Config.rxHdrLen + n) Config.rxPtrAlign % s.params.rxRingLen) := rfl
@[simp] theorem State.rxAdvance_ourIp (s : State) (n : Nat) : (s.rxAdvance n).ourIp = s.ourIp := rfl
@[simp] theorem State.rxAdvance_arp (s : State) (n : Nat) : (s.rxAdvance n).arp = s.arp := rfl
@[simp] theorem State.rxAdvance_arpRr (s : State) (n : Nat) : (s.rxAdvance n).arpRr = s.arpRr := rfl
@[simp] theorem State.rxAdvance_phase (s : State) (n : Nat) : (s.rxAdvance n).phase = s.phase := rfl
@[simp] theorem State.rxAdvance_dev (s : State) (n : Nat) :
    (s.rxAdvance n).dev = { s.dev with capr := (s.rxAdvance n).rxOff - 16 } := rfl
@[simp] theorem State.rxAdvance_pci (s : State) (n : Nat) : (s.rxAdvance n).pci = s.pci := rfl
@[simp] theorem State.rxAdvance_mem (s : State) (n : Nat) : (s.rxAdvance n).mem = s.mem := rfl
@[simp] theorem State.rxAdvance_wireOut (s : State) (n : Nat) : (s.rxAdvance n).wireOut = s.wireOut := rfl
@[simp] theorem State.rxAdvance_diag (s : State) (n : Nat) : (s.rxAdvance n).diag = s.diag := rfl
@[simp] theorem State.rxAdvance_faults (s : State) (n : Nat) : (s.rxAdvance n).faults = s.faults := rfl
@[simp] theorem State.rxAdvance_refusals (s : State) (n : Nat) : (s.rxAdvance n).refusals = s.refusals := rfl
@[simp] theorem State.rxAdvance_params (s : State) (n : Nat) : (s.rxAdvance n).params = s.params := rfl
@[simp] theorem State.rxAdvance_agenda (s : State) (n : Nat) : (s.rxAdvance n).agenda = s.agenda := rfl
@[simp] theorem State.rxAdvance_draws (s : State) (n : Nat) : (s.rxAdvance n).draws = s.draws := rfl
@[simp] theorem State.rxAdvance_hostData (s : State) (n : Nat) : (s.rxAdvance n).hostData = s.hostData := rfl

/-! ### State.clobberMet -/

@[simp] theorem State.clobberMet_cmd (s : State) (r : MemRange) : (s.clobberMet r).cmd = s.cmd := rfl
@[simp] theorem State.clobberMet_cmdWritten (s : State) (r : MemRange) :
    (s.clobberMet r).cmdWritten = s.cmdWritten := rfl
@[simp] theorem State.clobberMet_code (s : State) (r : MemRange) : (s.clobberMet r).code = s.code := rfl
@[simp] theorem State.clobberMet_busy (s : State) (r : MemRange) : (s.clobberMet r).busy = s.busy := rfl
@[simp] theorem State.clobberMet_args (s : State) (r : MemRange) : (s.clobberMet r).args = s.args := rfl
@[simp] theorem State.clobberMet_res (s : State) (r : MemRange) : (s.clobberMet r).res = s.res := rfl
@[simp] theorem State.clobberMet_irqIsr (s : State) (r : MemRange) : (s.clobberMet r).irqIsr = s.irqIsr := rfl
@[simp] theorem State.clobberMet_irqDrained (s : State) (r : MemRange) :
    (s.clobberMet r).irqDrained = s.irqDrained := rfl
@[simp] theorem State.clobberMet_irqWritten (s : State) (r : MemRange) :
    (s.clobberMet r).irqWritten = s.irqWritten := rfl
@[simp] theorem State.clobberMet_initialized (s : State) (r : MemRange) :
    (s.clobberMet r).initialized = s.initialized := rfl
@[simp] theorem State.clobberMet_ioBase (s : State) (r : MemRange) : (s.clobberMet r).ioBase = s.ioBase := rfl
@[simp] theorem State.clobberMet_mac (s : State) (r : MemRange) : (s.clobberMet r).mac = s.mac := rfl
@[simp] theorem State.clobberMet_macKnown (s : State) (r : MemRange) : (s.clobberMet r).macKnown = s.macKnown := rfl
@[simp] theorem State.clobberMet_rxBase (s : State) (r : MemRange) : (s.clobberMet r).rxBase = s.rxBase := rfl
@[simp] theorem State.clobberMet_txAddr (s : State) (r : MemRange) : (s.clobberMet r).txAddr = s.txAddr := rfl
@[simp] theorem State.clobberMet_txSlot (s : State) (r : MemRange) : (s.clobberMet r).txSlot = s.txSlot := rfl
@[simp] theorem State.clobberMet_rxOff (s : State) (r : MemRange) : (s.clobberMet r).rxOff = s.rxOff := rfl
@[simp] theorem State.clobberMet_ourIp (s : State) (r : MemRange) : (s.clobberMet r).ourIp = s.ourIp := rfl
@[simp] theorem State.clobberMet_arp (s : State) (r : MemRange) : (s.clobberMet r).arp = s.arp := rfl
@[simp] theorem State.clobberMet_arpRr (s : State) (r : MemRange) : (s.clobberMet r).arpRr = s.arpRr := rfl
@[simp] theorem State.clobberMet_phase (s : State) (r : MemRange) : (s.clobberMet r).phase = s.phase := rfl
@[simp] theorem State.clobberMet_dev (s : State) (r : MemRange) :
    (s.clobberMet r).dev = { s.dev with clobbered := (s.clobberMet r).dev.clobbered } := rfl
@[simp] theorem State.clobberMet_pci (s : State) (r : MemRange) : (s.clobberMet r).pci = s.pci := rfl
@[simp] theorem State.clobberMet_mem (s : State) (r : MemRange) : (s.clobberMet r).mem = s.mem := rfl
@[simp] theorem State.clobberMet_wireOut (s : State) (r : MemRange) : (s.clobberMet r).wireOut = s.wireOut := rfl
@[simp] theorem State.clobberMet_diag (s : State) (r : MemRange) : (s.clobberMet r).diag = s.diag := rfl
@[simp] theorem State.clobberMet_faults (s : State) (r : MemRange) : (s.clobberMet r).faults = s.faults := rfl
@[simp] theorem State.clobberMet_refusals (s : State) (r : MemRange) : (s.clobberMet r).refusals = s.refusals := rfl
@[simp] theorem State.clobberMet_params (s : State) (r : MemRange) : (s.clobberMet r).params = s.params := rfl
@[simp] theorem State.clobberMet_agenda (s : State) (r : MemRange) : (s.clobberMet r).agenda = s.agenda := rfl
@[simp] theorem State.clobberMet_draws (s : State) (r : MemRange) : (s.clobberMet r).draws = s.draws := rfl
@[simp] theorem State.clobberMet_hostData (s : State) (r : MemRange) : (s.clobberMet r).hostData = s.hostData := rfl

/-! ### State.handOver -/

@[simp] theorem State.handOver_cmd (s : State) (i : Fin 4) (n : Nat) : (s.handOver i n).cmd = s.cmd := rfl
@[simp] theorem State.handOver_cmdWritten (s : State) (i : Fin 4) (n : Nat) :
    (s.handOver i n).cmdWritten = s.cmdWritten := rfl
@[simp] theorem State.handOver_code (s : State) (i : Fin 4) (n : Nat) : (s.handOver i n).code = s.code := rfl
@[simp] theorem State.handOver_busy (s : State) (i : Fin 4) (n : Nat) : (s.handOver i n).busy = s.busy := rfl
@[simp] theorem State.handOver_args (s : State) (i : Fin 4) (n : Nat) : (s.handOver i n).args = s.args := rfl
@[simp] theorem State.handOver_res (s : State) (i : Fin 4) (n : Nat) : (s.handOver i n).res = s.res := rfl
@[simp] theorem State.handOver_irqIsr (s : State) (i : Fin 4) (n : Nat) : (s.handOver i n).irqIsr = s.irqIsr := rfl
@[simp] theorem State.handOver_irqDrained (s : State) (i : Fin 4) (n : Nat) :
    (s.handOver i n).irqDrained = s.irqDrained := rfl
@[simp] theorem State.handOver_irqWritten (s : State) (i : Fin 4) (n : Nat) :
    (s.handOver i n).irqWritten = s.irqWritten := rfl
@[simp] theorem State.handOver_initialized (s : State) (i : Fin 4) (n : Nat) :
    (s.handOver i n).initialized = s.initialized := rfl
@[simp] theorem State.handOver_ioBase (s : State) (i : Fin 4) (n : Nat) : (s.handOver i n).ioBase = s.ioBase := rfl
@[simp] theorem State.handOver_mac (s : State) (i : Fin 4) (n : Nat) : (s.handOver i n).mac = s.mac := rfl
@[simp] theorem State.handOver_macKnown (s : State) (i : Fin 4) (n : Nat) :
    (s.handOver i n).macKnown = s.macKnown := rfl
@[simp] theorem State.handOver_rxBase (s : State) (i : Fin 4) (n : Nat) : (s.handOver i n).rxBase = s.rxBase := rfl
@[simp] theorem State.handOver_txAddr (s : State) (i : Fin 4) (n : Nat) : (s.handOver i n).txAddr = s.txAddr := rfl
@[simp] theorem State.handOver_txSlot (s : State) (i : Fin 4) (n : Nat) : (s.handOver i n).txSlot = i + 1 := rfl
@[simp] theorem State.handOver_rxOff (s : State) (i : Fin 4) (n : Nat) : (s.handOver i n).rxOff = s.rxOff := rfl
@[simp] theorem State.handOver_ourIp (s : State) (i : Fin 4) (n : Nat) : (s.handOver i n).ourIp = s.ourIp := rfl
@[simp] theorem State.handOver_arp (s : State) (i : Fin 4) (n : Nat) : (s.handOver i n).arp = s.arp := rfl
@[simp] theorem State.handOver_arpRr (s : State) (i : Fin 4) (n : Nat) : (s.handOver i n).arpRr = s.arpRr := rfl
@[simp] theorem State.handOver_phase (s : State) (i : Fin 4) (n : Nat) : (s.handOver i n).phase = s.phase := rfl
@[simp] theorem State.handOver_dev (s : State) (i : Fin 4) (n : Nat) :
    (s.handOver i n).dev = ({ s.dev with tsad := s.dev.tsad.set i s.txAddr[i] }).writeTsd i (BitVec.ofNat 32 (n % 8192)) := rfl
@[simp] theorem State.handOver_pci (s : State) (i : Fin 4) (n : Nat) : (s.handOver i n).pci = s.pci := rfl
@[simp] theorem State.handOver_mem (s : State) (i : Fin 4) (n : Nat) : (s.handOver i n).mem = s.mem := rfl
@[simp] theorem State.handOver_wireOut (s : State) (i : Fin 4) (n : Nat) : (s.handOver i n).wireOut = s.wireOut := rfl
@[simp] theorem State.handOver_diag (s : State) (i : Fin 4) (n : Nat) : (s.handOver i n).diag = s.diag := rfl
@[simp] theorem State.handOver_faults (s : State) (i : Fin 4) (n : Nat) : (s.handOver i n).faults = s.faults := rfl
@[simp] theorem State.handOver_refusals (s : State) (i : Fin 4) (n : Nat) :
    (s.handOver i n).refusals = s.refusals := rfl
@[simp] theorem State.handOver_params (s : State) (i : Fin 4) (n : Nat) : (s.handOver i n).params = s.params := rfl
@[simp] theorem State.handOver_agenda (s : State) (i : Fin 4) (n : Nat) : (s.handOver i n).agenda = s.agenda := rfl
@[simp] theorem State.handOver_draws (s : State) (i : Fin 4) (n : Nat) : (s.handOver i n).draws = s.draws := rfl
@[simp] theorem State.handOver_hostData (s : State) (i : Fin 4) (n : Nat) :
    (s.handOver i n).hostData = s.hostData := rfl

/-! ### Device.setIsr -/

@[simp] theorem Device.setIsr_isr (d : Device) (k : Nat) : (d.setIsr k).isr = d.isr ||| (1 : Half) <<< k := rfl
@[simp] theorem Device.setIsr_imr (d : Device) (k : Nat) : (d.setIsr k).imr = d.imr := rfl
@[simp] theorem Device.setIsr_te (d : Device) (k : Nat) : (d.setIsr k).te = d.te := rfl
@[simp] theorem Device.setIsr_re (d : Device) (k : Nat) : (d.setIsr k).re = d.re := rfl
@[simp] theorem Device.setIsr_rcr (d : Device) (k : Nat) : (d.setIsr k).rcr = d.rcr := rfl
@[simp] theorem Device.setIsr_tsd (d : Device) (k : Nat) : (d.setIsr k).tsd = d.tsd := rfl
@[simp] theorem Device.setIsr_tsad (d : Device) (k : Nat) : (d.setIsr k).tsad = d.tsad := rfl
@[simp] theorem Device.setIsr_rbstart (d : Device) (k : Nat) : (d.setIsr k).rbstart = d.rbstart := rfl
@[simp] theorem Device.setIsr_capr (d : Device) (k : Nat) : (d.setIsr k).capr = d.capr := rfl
@[simp] theorem Device.setIsr_wp (d : Device) (k : Nat) : (d.setIsr k).wp = d.wp := rfl
@[simp] theorem Device.setIsr_idr (d : Device) (k : Nat) : (d.setIsr k).idr = d.idr := rfl
@[simp] theorem Device.setIsr_pending (d : Device) (k : Nat) : (d.setIsr k).pending = d.pending := rfl
@[simp] theorem Device.setIsr_clobbered (d : Device) (k : Nat) : (d.setIsr k).clobbered = d.clobbered := rfl
@[simp] theorem Device.setIsr_rstLeft (d : Device) (k : Nat) : (d.setIsr k).rstLeft = d.rstLeft := rfl

/-! ### Device.writeTsd -/

@[simp] theorem Device.writeTsd_isr (d : Device) (i : Fin 4) (v : Word) : (d.writeTsd i v).isr = d.isr := rfl
@[simp] theorem Device.writeTsd_imr (d : Device) (i : Fin 4) (v : Word) : (d.writeTsd i v).imr = d.imr := rfl
@[simp] theorem Device.writeTsd_te (d : Device) (i : Fin 4) (v : Word) : (d.writeTsd i v).te = d.te := rfl
@[simp] theorem Device.writeTsd_re (d : Device) (i : Fin 4) (v : Word) : (d.writeTsd i v).re = d.re := rfl
@[simp] theorem Device.writeTsd_rcr (d : Device) (i : Fin 4) (v : Word) : (d.writeTsd i v).rcr = d.rcr := rfl
@[simp] theorem Device.writeTsd_tsd (d : Device) (i : Fin 4) (v : Word) :
    (d.writeTsd i v).tsd = d.tsd.set i (v &&& 0xFFFF3FFF) := rfl
@[simp] theorem Device.writeTsd_tsad (d : Device) (i : Fin 4) (v : Word) : (d.writeTsd i v).tsad = d.tsad := rfl
@[simp] theorem Device.writeTsd_rbstart (d : Device) (i : Fin 4) (v : Word) :
    (d.writeTsd i v).rbstart = d.rbstart := rfl
@[simp] theorem Device.writeTsd_capr (d : Device) (i : Fin 4) (v : Word) : (d.writeTsd i v).capr = d.capr := rfl
@[simp] theorem Device.writeTsd_wp (d : Device) (i : Fin 4) (v : Word) : (d.writeTsd i v).wp = d.wp := rfl
@[simp] theorem Device.writeTsd_idr (d : Device) (i : Fin 4) (v : Word) : (d.writeTsd i v).idr = d.idr := rfl
@[simp] theorem Device.writeTsd_pending (d : Device) (i : Fin 4) (v : Word) :
    (d.writeTsd i v).pending = if v.getLsbD 13 then d.pending else d.pending.set i true := rfl
@[simp] theorem Device.writeTsd_clobbered (d : Device) (i : Fin 4) (v : Word) :
    (d.writeTsd i v).clobbered = d.clobbered := rfl
@[simp] theorem Device.writeTsd_rstLeft (d : Device) (i : Fin 4) (v : Word) :
    (d.writeTsd i v).rstLeft = d.rstLeft := rfl

/-! ### Device.setOwn -/

@[simp] theorem Device.setOwn_isr (d : Device) (i : Fin 4) : (d.setOwn i).isr = d.isr := rfl
@[simp] theorem Device.setOwn_imr (d : Device) (i : Fin 4) : (d.setOwn i).imr = d.imr := rfl
@[simp] theorem Device.setOwn_te (d : Device) (i : Fin 4) : (d.setOwn i).te = d.te := rfl
@[simp] theorem Device.setOwn_re (d : Device) (i : Fin 4) : (d.setOwn i).re = d.re := rfl
@[simp] theorem Device.setOwn_rcr (d : Device) (i : Fin 4) : (d.setOwn i).rcr = d.rcr := rfl
@[simp] theorem Device.setOwn_tsd (d : Device) (i : Fin 4) :
    (d.setOwn i).tsd = d.tsd.set i (d.tsd[i] ||| 0x2000) := rfl
@[simp] theorem Device.setOwn_tsad (d : Device) (i : Fin 4) : (d.setOwn i).tsad = d.tsad := rfl
@[simp] theorem Device.setOwn_rbstart (d : Device) (i : Fin 4) : (d.setOwn i).rbstart = d.rbstart := rfl
@[simp] theorem Device.setOwn_capr (d : Device) (i : Fin 4) : (d.setOwn i).capr = d.capr := rfl
@[simp] theorem Device.setOwn_wp (d : Device) (i : Fin 4) : (d.setOwn i).wp = d.wp := rfl
@[simp] theorem Device.setOwn_idr (d : Device) (i : Fin 4) : (d.setOwn i).idr = d.idr := rfl
@[simp] theorem Device.setOwn_pending (d : Device) (i : Fin 4) : (d.setOwn i).pending = d.pending := rfl
@[simp] theorem Device.setOwn_clobbered (d : Device) (i : Fin 4) : (d.setOwn i).clobbered = d.clobbered := rfl
@[simp] theorem Device.setOwn_rstLeft (d : Device) (i : Fin 4) : (d.setOwn i).rstLeft = d.rstLeft := rfl

/-! ### Device.setOwnTok -/

@[simp] theorem Device.setOwnTok_isr (d : Device) (i : Fin 4) : (d.setOwnTok i).isr = d.isr := rfl
@[simp] theorem Device.setOwnTok_imr (d : Device) (i : Fin 4) : (d.setOwnTok i).imr = d.imr := rfl
@[simp] theorem Device.setOwnTok_te (d : Device) (i : Fin 4) : (d.setOwnTok i).te = d.te := rfl
@[simp] theorem Device.setOwnTok_re (d : Device) (i : Fin 4) : (d.setOwnTok i).re = d.re := rfl
@[simp] theorem Device.setOwnTok_rcr (d : Device) (i : Fin 4) : (d.setOwnTok i).rcr = d.rcr := rfl
@[simp] theorem Device.setOwnTok_tsd (d : Device) (i : Fin 4) :
    (d.setOwnTok i).tsd = d.tsd.set i (d.tsd[i] ||| 0xA000) := rfl
@[simp] theorem Device.setOwnTok_tsad (d : Device) (i : Fin 4) : (d.setOwnTok i).tsad = d.tsad := rfl
@[simp] theorem Device.setOwnTok_rbstart (d : Device) (i : Fin 4) : (d.setOwnTok i).rbstart = d.rbstart := rfl
@[simp] theorem Device.setOwnTok_capr (d : Device) (i : Fin 4) : (d.setOwnTok i).capr = d.capr := rfl
@[simp] theorem Device.setOwnTok_wp (d : Device) (i : Fin 4) : (d.setOwnTok i).wp = d.wp := rfl
@[simp] theorem Device.setOwnTok_idr (d : Device) (i : Fin 4) : (d.setOwnTok i).idr = d.idr := rfl
@[simp] theorem Device.setOwnTok_pending (d : Device) (i : Fin 4) : (d.setOwnTok i).pending = d.pending := rfl
@[simp] theorem Device.setOwnTok_clobbered (d : Device) (i : Fin 4) : (d.setOwnTok i).clobbered = d.clobbered := rfl
@[simp] theorem Device.setOwnTok_rstLeft (d : Device) (i : Fin 4) : (d.setOwnTok i).rstLeft = d.rstLeft := rfl

/-! ### Device.freeSlot -/

@[simp] theorem Device.freeSlot_isr (d : Device) (i : Fin 4) : (d.freeSlot i).isr = d.isr := rfl
@[simp] theorem Device.freeSlot_imr (d : Device) (i : Fin 4) : (d.freeSlot i).imr = d.imr := rfl
@[simp] theorem Device.freeSlot_te (d : Device) (i : Fin 4) : (d.freeSlot i).te = d.te := rfl
@[simp] theorem Device.freeSlot_re (d : Device) (i : Fin 4) : (d.freeSlot i).re = d.re := rfl
@[simp] theorem Device.freeSlot_rcr (d : Device) (i : Fin 4) : (d.freeSlot i).rcr = d.rcr := rfl
@[simp] theorem Device.freeSlot_tsd (d : Device) (i : Fin 4) : (d.freeSlot i).tsd = d.tsd := rfl
@[simp] theorem Device.freeSlot_tsad (d : Device) (i : Fin 4) : (d.freeSlot i).tsad = d.tsad := rfl
@[simp] theorem Device.freeSlot_rbstart (d : Device) (i : Fin 4) : (d.freeSlot i).rbstart = d.rbstart := rfl
@[simp] theorem Device.freeSlot_capr (d : Device) (i : Fin 4) : (d.freeSlot i).capr = d.capr := rfl
@[simp] theorem Device.freeSlot_wp (d : Device) (i : Fin 4) : (d.freeSlot i).wp = d.wp := rfl
@[simp] theorem Device.freeSlot_idr (d : Device) (i : Fin 4) : (d.freeSlot i).idr = d.idr := rfl
@[simp] theorem Device.freeSlot_pending (d : Device) (i : Fin 4) :
    (d.freeSlot i).pending = d.pending.set i false := rfl
@[simp] theorem Device.freeSlot_clobbered (d : Device) (i : Fin 4) :
    (d.freeSlot i).clobbered = d.clobbered.set i false := rfl
@[simp] theorem Device.freeSlot_rstLeft (d : Device) (i : Fin 4) : (d.freeSlot i).rstLeft = d.rstLeft := rfl

/-! ### Device.softReset -/

@[simp] theorem Device.softReset_isr (d : Device) (t : Vector Word 4) (r : Word) (l : Option Nat) :
    (d.softReset t r l).isr = 0 := rfl
@[simp] theorem Device.softReset_imr (d : Device) (t : Vector Word 4) (r : Word) (l : Option Nat) :
    (d.softReset t r l).imr = 0 := rfl
@[simp] theorem Device.softReset_te (d : Device) (t : Vector Word 4) (r : Word) (l : Option Nat) :
    (d.softReset t r l).te = false := rfl
@[simp] theorem Device.softReset_re (d : Device) (t : Vector Word 4) (r : Word) (l : Option Nat) :
    (d.softReset t r l).re = false := rfl
@[simp] theorem Device.softReset_rcr (d : Device) (t : Vector Word 4) (r : Word) (l : Option Nat) :
    (d.softReset t r l).rcr = r := rfl
@[simp] theorem Device.softReset_tsd (d : Device) (t : Vector Word 4) (r : Word) (l : Option Nat) :
    (d.softReset t r l).tsd = t := rfl
@[simp] theorem Device.softReset_tsad (d : Device) (t : Vector Word 4) (r : Word) (l : Option Nat) :
    (d.softReset t r l).tsad = d.tsad := rfl
@[simp] theorem Device.softReset_rbstart (d : Device) (t : Vector Word 4) (r : Word) (l : Option Nat) :
    (d.softReset t r l).rbstart = d.rbstart := rfl
@[simp] theorem Device.softReset_capr (d : Device) (t : Vector Word 4) (r : Word) (l : Option Nat) :
    (d.softReset t r l).capr = 0xFFF0 := rfl
@[simp] theorem Device.softReset_wp (d : Device) (t : Vector Word 4) (r : Word) (l : Option Nat) :
    (d.softReset t r l).wp = 0 := rfl
@[simp] theorem Device.softReset_idr (d : Device) (t : Vector Word 4) (r : Word) (l : Option Nat) :
    (d.softReset t r l).idr = d.idr := rfl
@[simp] theorem Device.softReset_pending (d : Device) (t : Vector Word 4) (r : Word) (l : Option Nat) :
    (d.softReset t r l).pending = Vector.replicate 4 false := rfl
@[simp] theorem Device.softReset_clobbered (d : Device) (t : Vector Word 4) (r : Word) (l : Option Nat) :
    (d.softReset t r l).clobbered = Vector.replicate 4 false := rfl
@[simp] theorem Device.softReset_rstLeft (d : Device) (t : Vector Word 4) (r : Word) (l : Option Nat) :
    (d.softReset t r l).rstLeft = ResetLeft.ofLatency l := rfl

/-! ### Device.writeIsr -/

@[simp] theorem Device.writeIsr_imr (d : Device) (p : RokClearPolicy) (v : Half) :
    (d.writeIsr p v).imr = d.imr := rfl
@[simp] theorem Device.writeIsr_te (d : Device) (p : RokClearPolicy) (v : Half) :
    (d.writeIsr p v).te = d.te := rfl
@[simp] theorem Device.writeIsr_re (d : Device) (p : RokClearPolicy) (v : Half) :
    (d.writeIsr p v).re = d.re := rfl
@[simp] theorem Device.writeIsr_rcr (d : Device) (p : RokClearPolicy) (v : Half) :
    (d.writeIsr p v).rcr = d.rcr := rfl
@[simp] theorem Device.writeIsr_tsd (d : Device) (p : RokClearPolicy) (v : Half) :
    (d.writeIsr p v).tsd = d.tsd := rfl
@[simp] theorem Device.writeIsr_tsad (d : Device) (p : RokClearPolicy) (v : Half) :
    (d.writeIsr p v).tsad = d.tsad := rfl
@[simp] theorem Device.writeIsr_rbstart (d : Device) (p : RokClearPolicy) (v : Half) :
    (d.writeIsr p v).rbstart = d.rbstart := rfl
@[simp] theorem Device.writeIsr_capr (d : Device) (p : RokClearPolicy) (v : Half) :
    (d.writeIsr p v).capr = d.capr := rfl
@[simp] theorem Device.writeIsr_wp (d : Device) (p : RokClearPolicy) (v : Half) :
    (d.writeIsr p v).wp = d.wp := rfl
@[simp] theorem Device.writeIsr_idr (d : Device) (p : RokClearPolicy) (v : Half) :
    (d.writeIsr p v).idr = d.idr := rfl
@[simp] theorem Device.writeIsr_pending (d : Device) (p : RokClearPolicy) (v : Half) :
    (d.writeIsr p v).pending = d.pending := rfl
@[simp] theorem Device.writeIsr_clobbered (d : Device) (p : RokClearPolicy) (v : Half) :
    (d.writeIsr p v).clobbered = d.clobbered := rfl
@[simp] theorem Device.writeIsr_rstLeft (d : Device) (p : RokClearPolicy) (v : Half) :
    (d.writeIsr p v).rstLeft = d.rstLeft := rfl

/-! ### Device.afterCrRead -/

@[simp] theorem Device.afterCrRead_isr (d : Device) : d.afterCrRead.isr = d.isr := by
  unfold Device.afterCrRead; split <;> rfl
@[simp] theorem Device.afterCrRead_imr (d : Device) : d.afterCrRead.imr = d.imr := by
  unfold Device.afterCrRead; split <;> rfl
@[simp] theorem Device.afterCrRead_te (d : Device) : d.afterCrRead.te = d.te := by
  unfold Device.afterCrRead; split <;> rfl
@[simp] theorem Device.afterCrRead_re (d : Device) : d.afterCrRead.re = d.re := by
  unfold Device.afterCrRead; split <;> rfl
@[simp] theorem Device.afterCrRead_rcr (d : Device) : d.afterCrRead.rcr = d.rcr := by
  unfold Device.afterCrRead; split <;> rfl
@[simp] theorem Device.afterCrRead_tsd (d : Device) : d.afterCrRead.tsd = d.tsd := by
  unfold Device.afterCrRead; split <;> rfl
@[simp] theorem Device.afterCrRead_tsad (d : Device) : d.afterCrRead.tsad = d.tsad := by
  unfold Device.afterCrRead; split <;> rfl
@[simp] theorem Device.afterCrRead_rbstart (d : Device) : d.afterCrRead.rbstart = d.rbstart := by
  unfold Device.afterCrRead; split <;> rfl
@[simp] theorem Device.afterCrRead_capr (d : Device) : d.afterCrRead.capr = d.capr := by
  unfold Device.afterCrRead; split <;> rfl
@[simp] theorem Device.afterCrRead_wp (d : Device) : d.afterCrRead.wp = d.wp := by
  unfold Device.afterCrRead; split <;> rfl
@[simp] theorem Device.afterCrRead_idr (d : Device) : d.afterCrRead.idr = d.idr := by
  unfold Device.afterCrRead; split <;> rfl
@[simp] theorem Device.afterCrRead_pending (d : Device) : d.afterCrRead.pending = d.pending := by
  unfold Device.afterCrRead; split <;> rfl
@[simp] theorem Device.afterCrRead_clobbered (d : Device) : d.afterCrRead.clobbered = d.clobbered := by
  unfold Device.afterCrRead; split <;> rfl

end Sys2Proof.Machine
end

