-- ==== Sys2Proof/Laws/Access.lean ====
section
/-! SUPPORT. One lemma for each shared operation on operands and host memory: everything it can do when it answers. -/

namespace Sys2Proof.Machine

/-! ## Outcomes -/

theorem except_bind_ok {ε α β : Type} {x : Except ε α} {f : α → Except ε β} {b : β} :
    (x >>= f) = .ok b ↔ ∃ a, x = .ok a ∧ f a = .ok b := by
  cases x <;> simp [bind, Except.bind]

theorem outcome_next {r : Except Fault State} {t : State} : outcome r = .next t ↔ r = .ok t := by
  cases r <;> simp [outcome]

theorem outcome_fault {r : Except Fault State} {f : Fault} : outcome r = .fault f ↔ r = .error f := by
  cases r <;> simp [outcome]

theorem outcome_refused (r : Except Fault State) (x : Refusal) : outcome r ≠ .refused x := by
  cases r <;> simp [outcome]

/-! ## Operands -/

/-- Reading an ARG register answers exactly where it was written. -/
theorem State.arg_ok {s : State} {i : Fin 5} {v : Word} :
    s.arg i = .ok v ↔ s.args[i].written = true ∧ v = s.args[i].value := by
  unfold State.arg
  split
  · rename_i h; exact ⟨fun e => ⟨h, (Except.ok.inj e).symm⟩, fun e => e.2 ▸ rfl⟩
  · rename_i h; exact ⟨fun e => by simp at e, fun e => absurd e.1 h⟩

theorem State.arg_written {s : State} {i : Fin 5} (h : s.args[i].written = true) : s.arg i = .ok s.args[i].value := by
  rw [State.arg, if_pos h]

theorem State.arg_unwritten {s : State} {i : Fin 5} (h : s.args[i].written = false) : s.arg i = .error .unwrittenArg := by
  rw [State.arg, if_neg (by rw [h]; decide)]

/-- With the first `n` ARG registers written, reading one of them gives its value. -/
theorem State.ArgsWritten.arg {s : State} {n : Nat} (h : s.ArgsWritten n) (i : Fin 5) (hi : i.val < n) :
    s.arg i = .ok s.args[i].value :=
  State.arg_written (h i hi)

/-- A command that reads ARG `i` first faults if it is unwritten, whatever follows, and otherwise goes on with its value. -/
theorem State.arg_bind_unwritten {α : Type} {s : State} {i : Fin 5} {f : Word → Except Fault α}
    (h : s.args[i].written = true → f s.args[i].value = .error .unwrittenArg) : (s.arg i >>= f) = .error .unwrittenArg := by
  cases hw : s.args[i].written with
  | false => rw [State.arg_unwritten hw]; rfl
  | true => rw [State.arg_written hw]; exact h hw

/-- The end of NIC_IRQ leaves BUSY alone, and STATUS.CODE too if it preempts. -/
theorem State.finishIrq_eq (s : State) (c : Code) :
    s.finishIrq c = { s with code := if s.busy then s.code else c } := by
  cases h : s.busy <;> simp only [State.finishIrq, State.preempting, h, State.finish] <;> simp
  rw [← h]

/-! ## Accesses -/

/-- Host memory lies inside what an address register can name. -/
theorem Params.addrSpace_le (p : Params) : p.addrSpace ≤ Config.addrSpace :=
  Nat.pow_le_pow_right (by decide) (Nat.le_of_lt_succ p.addrWidth.isLt)

theorem State.checkRange_ok {s : State} {r : MemRange} {u : Unit} :
    s.checkRange r = .ok u ↔ r.base + r.len ≤ s.params.addrSpace := by
  simp only [State.checkRange]; split <;> simp_all

theorem State.checkRange_pos {s : State} {r : MemRange} (h : r.base + r.len ≤ s.params.addrSpace) : s.checkRange r = .ok () :=
  if_pos h

theorem State.checkRange_neg {s : State} {r : MemRange} (h : s.params.addrSpace < r.base + r.len) :
    s.checkRange r = .error .addrWrap :=
  if_neg (by omega)

/-- An accessible range ends inside what an address register can name, so that no address of it wraps. -/
theorem State.Accessible.le {s : State} {r : MemRange} (h : s.Accessible r) : r.base + r.len ≤ Config.addrSpace :=
  Nat.le_trans h.1 (Params.addrSpace_le _)

/-- An access passes exactly on an empty range or an accessible one. -/
theorem State.checkAccess_ok {s : State} {r : MemRange} {u : Unit} :
    s.checkAccess r = .ok u ↔ r.len = 0 ∨ s.Accessible r := by
  simp only [State.checkAccess, State.Accessible]
  split
  · simp_all
  · split
    · simp_all
    · split <;> simp_all

theorem State.checkAccess_pos {s : State} {r : MemRange} (h : s.Accessible r) : s.checkAccess r = .ok () :=
  State.checkAccess_ok.2 (.inr h)

/-- An access inside host memory that meets the engine window faults. -/
theorem State.checkAccess_window {s : State} {r : MemRange} (h : r.base + r.len ≤ s.params.addrSpace)
    (hw : r.meets s.window = true) : s.checkAccess r = .error .bufferOverWindow := by
  have hl : r.len ≠ 0 := fun e => by simp [MemRange.meets, e] at hw
  rw [State.checkAccess, if_neg hl, if_neg (Nat.not_lt.2 h), if_pos hw]

theorem State.engineLoad_window {s : State} {r : MemRange} (h : r.base + r.len ≤ s.params.addrSpace)
    (hw : r.meets s.window = true) : s.engineLoad r = .error .bufferOverWindow := by
  rw [State.engineLoad, State.checkAccess_window h hw]

theorem State.engineStore_window {s : State} {a : Nat} {b : List Byte} (h : a + b.length ≤ s.params.addrSpace)
    (hw : MemRange.meets ⟨a, b.length⟩ s.window = true) : s.engineStore a b = .error .bufferOverWindow := by
  rw [State.engineStore, State.checkAccess_window h hw]

theorem State.engineLoad_ok {s : State} {r : MemRange} {b : List Byte} :
    s.engineLoad r = .ok b ↔ (r.len = 0 ∨ s.Accessible r) ∧ b = s.mem.readBytes r.base r.len := by
  rw [← State.checkAccess_ok (u := ()), State.engineLoad]
  cases s.checkAccess r <;> simp [eq_comm]

theorem State.engineLoad_pos {s : State} {r : MemRange} (h : s.Accessible r) :
    s.engineLoad r = .ok (s.mem.readBytes r.base r.len) :=
  State.engineLoad_ok.2 ⟨.inr h, rfl⟩

theorem State.engineStore_ok {s t : State} {a : Nat} {b : List Byte} :
    s.engineStore a b = .ok t ↔
      (b.length = 0 ∨ s.Accessible ⟨a, b.length⟩) ∧ t = { s with mem := s.mem.writeBytes a b } := by
  rw [← State.checkAccess_ok (u := ()) (r := ⟨a, b.length⟩), State.engineStore]
  cases s.checkAccess ⟨a, b.length⟩ <;> simp [eq_comm]

theorem State.engineStore_pos {s : State} {a : Nat} {b : List Byte} (h : s.Accessible ⟨a, b.length⟩) :
    s.engineStore a b = .ok { s with mem := s.mem.writeBytes a b } :=
  State.engineStore_ok.2 ⟨.inr h, rfl⟩

theorem State.loadSource_ok {s : State} {r : MemRange} {b : List Byte} :
    s.loadSource r = .ok b ↔
      r.base + r.len ≤ s.params.addrSpace ∧ (r.len = 0 ∨ s.Accessible r) ∧ b = s.mem.readBytes r.base r.len := by
  rw [State.loadSource]
  split
  · rename_i h; rw [State.engineLoad_ok]; simp [State.checkRange_ok.1 h]
  · rename_i h
    have : ¬ r.base + r.len ≤ s.params.addrSpace := fun hle => by rw [State.checkRange_pos hle] at h; simp at h
    simp [this]

theorem State.loadSource_pos {s : State} {r : MemRange} (h : s.Accessible r) :
    s.loadSource r = .ok (s.mem.readBytes r.base r.len) :=
  State.loadSource_ok.2 ⟨h.1, .inr h, rfl⟩

/-- A source buffer past the address space wraps. -/
theorem State.loadSource_wrap {s : State} {r : MemRange} (h : s.params.addrSpace < r.base + r.len) :
    s.loadSource r = .error .addrWrap := by
  rw [State.loadSource, State.checkRange_neg h]

/-- A source buffer over the engine window faults. -/
theorem State.loadSource_window {s : State} {r : MemRange} (h : r.base + r.len ≤ s.params.addrSpace)
    (hw : r.meets s.window = true) : s.loadSource r = .error .bufferOverWindow := by
  rw [State.loadSource, State.checkRange_pos h]
  exact State.engineLoad_window h hw

/-- A sub-range of an accessible range is accessible. -/
theorem State.Accessible.sub {s : State} {r q : MemRange} (h : s.Accessible r) (hb : r.base ≤ q.base)
    (he : q.base + q.len ≤ r.base + r.len) : s.Accessible q := by
  refine ⟨by have := h.1; omega, ?_⟩
  have h2 := h.2
  simp only [MemRange.meets, Bool.and_eq_false_iff, decide_eq_false_iff_not] at h2 ⊢
  omega

/-! ## Stored bytes -/

theorem State.stored_length (s : State) (src dst : MemRange) (d : List Byte) :
    (s.stored src dst d).1.length = d.length := by
  simp only [State.stored]; split <;> simp [State.drawBytes]

theorem State.stored_state (s : State) (src dst : MemRange) (d : List Byte) :
    (s.stored src dst d).2 = { s with draws := s.draws + if src.meets dst then d.length else 0 } := by
  simp only [State.stored]; split <;> simp [State.drawBytes]

theorem State.stored_disjoint {s : State} {src dst : MemRange} (h : src.meets dst = false) (d : List Byte) :
    s.stored src dst d = (d, s) := by
  simp [State.stored, h]

theorem MemRange.none_meets (r : MemRange) : MemRange.none.meets r = false := by
  simp [MemRange.meets, MemRange.none]

/-- The write of a received frame: the stored bytes go to memory and pending slots they meet are marked. -/
theorem State.deliver_ok {s t : State} {src : MemRange} {dst : Nat} {b : List Byte} :
    s.deliver src dst b = .ok t ↔
      (b.length = 0 ∨ s.Accessible ⟨dst, b.length⟩) ∧
        t = ({ (s.stored src ⟨dst, b.length⟩ b).2 with
          mem := s.mem.writeBytes dst (s.stored src ⟨dst, b.length⟩ b).1 }).clobberMet ⟨dst, b.length⟩ := by
  have hl := State.stored_length s src ⟨dst, b.length⟩ b
  have hs := State.stored_state s src ⟨dst, b.length⟩ b
  have ha : ∀ r, (s.stored src ⟨dst, b.length⟩ b).2.Accessible r = s.Accessible r := fun r => by rw [hs]; rfl
  have hm : (s.stored src ⟨dst, b.length⟩ b).2.mem = s.mem := by rw [hs]
  simp only [State.deliver]
  split
  · rename_i u h
    rw [State.engineStore_ok] at h
    simp only [hl, ha] at h
    simp only [Except.ok.injEq, hl]
    rw [h.2, hm]
    exact ⟨fun e => ⟨h.1, e.symm⟩, fun e => e.2.symm⟩
  · rename_i f h
    refine ⟨fun e => by simp at e, fun ⟨hc, _⟩ => ?_⟩
    have := (State.engineStore_ok (s := (s.stored src ⟨dst, b.length⟩ b).2) (a := dst)
      (b := (s.stored src ⟨dst, b.length⟩ b).1)).2 ⟨by rw [hl, ha]; exact hc, rfl⟩
    rw [this] at h; simp at h

/-- A received frame whose destination meets the engine window faults. -/
theorem State.deliver_window {s : State} {src : MemRange} {dst : Nat} {b : List Byte} (h : dst + b.length ≤ s.params.addrSpace)
    (hw : MemRange.meets ⟨dst, b.length⟩ s.window = true) : s.deliver src dst b = .error .bufferOverWindow := by
  have hs := State.stored_state s src ⟨dst, b.length⟩ b
  simp only [State.deliver]
  rw [State.engineStore_window (by rw [State.stored_length, hs]; exact h) (by rw [State.stored_length, hs]; exact hw)]

end Sys2Proof.Machine
end

