-- ==== Sys2Proof/Laws/Arp.lean ====
section
/-! SUPPORT. The ARP cache: what an insertion changes, what a lookup finds afterwards, and the invariants of 42_arp.md R206. -/

namespace Sys2Proof.Machine

/-! ## Lists -/

theorem list_find_set_of_not {α : Type} {p : α → Bool} {a : α} (ha : p a = false) :
    ∀ {l : List α} {i : Nat}, (∀ x, l[i]? = some x → p x = false) → (l.set i a).find? p = l.find? p
  | [], _, _ => rfl
  | x :: l, 0, h => by simp [ha, h x rfl]
  | x :: l, i + 1, h => by
    simp only [List.set_cons_succ, List.find?_cons]
    rw [list_find_set_of_not ha (l := l) (i := i) (fun y hy => h y (by simpa using hy))]

theorem list_find_set_first {α : Type} {p : α → Bool} {a : α} (ha : p a = true) :
    ∀ {l : List α} {i : Nat}, i < l.length → (∀ j x, j < i → l[j]? = some x → p x = false) → (l.set i a).find? p = some a
  | [], _, h, _ => by simp at h
  | x :: l, 0, _, _ => by simp [ha]
  | x :: l, i + 1, h, hn => by
    simp only [List.set_cons_succ, List.find?_cons, hn 0 x (by omega) rfl]
    exact list_find_set_first ha (by simpa using h) fun j y hj hy => hn (j + 1) y (by omega) (by simpa using hy)

theorem list_nodup_map_set {α β : Type} (f : α → β) {l : List α} {i : Nat} {a : α} (hl : (l.map f).Nodup)
    (ha : ∀ j x, l[j]? = some x → f x = f a → j = i) : ((l.set i a).map f).Nodup := by
  rw [List.nodup_iff_injective_get] at hl ⊢
  intro x y hxy
  have inj : ∀ (j k : Nat) (hj : j < l.length) (hk : k < l.length), f l[j] = f l[k] → j = k := fun j k hj hk e => by
    have := @hl ⟨j, by simpa using hj⟩ ⟨k, by simpa using hk⟩ (by simpa using e)
    simpa using this
  obtain ⟨x, hx⟩ := x
  obtain ⟨y, hy⟩ := y
  simp only [List.length_map, List.length_set] at hx hy
  simp only [List.get_eq_getElem, List.getElem_map, List.getElem_set] at hxy
  simp only [Fin.mk.injEq]
  split at hxy <;> split at hxy
  · omega
  · rename_i h1 h2
    exact absurd (ha y l[y] (List.getElem?_eq_getElem hy) hxy.symm).symm h2
  · rename_i h1 h2
    exact absurd (ha x l[x] (List.getElem?_eq_getElem hx) hxy).symm h1
  · exact inj x y hx hy hxy

/-! ## Insertion -/

/-- An insertion changes the cache and the round-robin index only. -/
theorem State.arpAddOrUpdate_state (s : State) (ip : Ip) (m : Mac) :
    (s.arpAddOrUpdate ip m).2 =
      { s with arp := (s.arpAddOrUpdate ip m).2.arp, arpRr := (s.arpAddOrUpdate ip m).2.arpRr } := by
  simp only [State.arpAddOrUpdate]; split
  · rfl
  · split <;> rfl

theorem State.learn_eq (s : State) (ip : Ip) (m : Mac) :
    s.learn ip m = { s with arp := (s.learn ip m).arp, arpRr := (s.learn ip m).arpRr } :=
  s.arpAddOrUpdate_state ip m

/-- A hit updates the entry at its index in place. -/
theorem State.arpAddOrUpdate_hit {s : State} {ip : Ip} {m : Mac} {i : Nat}
    (h : s.arp.findIdx? (fun e => decide (e.ip = ip)) = some i) :
    s.arpAddOrUpdate ip m = (i, { s with arp := s.arp.set i ⟨ip, m, 0⟩ }) := by
  simp only [State.arpAddOrUpdate, h]

/-- A new address under capacity is appended. -/
theorem State.arpAddOrUpdate_append {s : State} {ip : Ip} {m : Mac} (h : ∀ e ∈ s.arp, e.ip ≠ ip)
    (hc : s.arp.length < Config.arpCapacity) :
    s.arpAddOrUpdate ip m = (s.arp.length, { s with arp := s.arp ++ [⟨ip, m, 0⟩] }) := by
  have : s.arp.findIdx? (fun e => decide (e.ip = ip)) = none := by
    rw [List.findIdx?_eq_none_iff]; simpa using h
  simp only [State.arpAddOrUpdate, this, if_pos hc]

/-- A new address in a full cache replaces the entry at the round-robin index, which moves on. -/
theorem State.arpAddOrUpdate_evict {s : State} {ip : Ip} {m : Mac} (h : ∀ e ∈ s.arp, e.ip ≠ ip)
    (hc : Config.arpCapacity ≤ s.arp.length) :
    s.arpAddOrUpdate ip m =
      (s.arpRr.val, { s with arp := s.arp.set s.arpRr.val ⟨ip, m, 0⟩, arpRr := s.arpRr + 1 }) := by
  have : s.arp.findIdx? (fun e => decide (e.ip = ip)) = none := by
    rw [List.findIdx?_eq_none_iff]; simpa using h
  simp only [State.arpAddOrUpdate, this, if_neg (Nat.not_lt.2 hc)]

/-- What an insertion does to the cache, in its three cases. -/
theorem State.learn_cases (s : State) (ip : Ip) (m : Mac) :
    (∃ i, ∃ h : i < s.arp.length, s.arp[i].ip = ip ∧ (∀ j, ∀ hj : j < i, (s.arp[j]'(by omega)).ip ≠ ip) ∧
        s.arpAddOrUpdate ip m = (i, { s with arp := s.arp.set i ⟨ip, m, 0⟩ })) ∨
      ((∀ e ∈ s.arp, e.ip ≠ ip) ∧ s.arp.length < Config.arpCapacity ∧
        s.arpAddOrUpdate ip m = (s.arp.length, { s with arp := s.arp ++ [⟨ip, m, 0⟩] })) ∨
      ((∀ e ∈ s.arp, e.ip ≠ ip) ∧ Config.arpCapacity ≤ s.arp.length ∧
        s.arpAddOrUpdate ip m =
          (s.arpRr.val, { s with arp := s.arp.set s.arpRr.val ⟨ip, m, 0⟩, arpRr := s.arpRr + 1 })) := by
  cases h : s.arp.findIdx? (fun e => decide (e.ip = ip)) with
  | some i =>
    refine .inl ⟨i, ?_⟩
    obtain ⟨hi, hp, hn⟩ := List.findIdx?_eq_some_iff_getElem.1 h
    exact ⟨hi, by simpa using hp, fun j hj => by simpa using hn j hj, State.arpAddOrUpdate_hit h⟩
  | none =>
    have hn : ∀ e ∈ s.arp, e.ip ≠ ip := by
      rw [List.findIdx?_eq_none_iff] at h; simpa using h
    by_cases hc : s.arp.length < Config.arpCapacity
    · exact .inr (.inl ⟨hn, hc, State.arpAddOrUpdate_append hn hc⟩)
    · exact .inr (.inr ⟨hn, by omega, State.arpAddOrUpdate_evict hn (by omega)⟩)

/-! ## Lookup -/

theorem State.arpLookup_none {s : State} {ip : Ip} : s.arpLookup ip = none ↔ ∀ e ∈ s.arp, e.ip ≠ ip := by
  simp [State.arpLookup]

/-- A lookup answers the first live entry with the address. -/
theorem State.arpLookup_some {s : State} {ip : Ip} {m : Mac} :
    s.arpLookup ip = some m ↔ ∃ i, ∃ h : i < s.arp.length, s.arp[i].ip = ip ∧ s.arp[i].mac = m ∧
      ∀ j, ∀ hj : j < i, (s.arp[j]'(by omega)).ip ≠ ip := by
  simp only [State.arpLookup, Option.map_eq_some_iff, List.find?_eq_some_iff_getElem]
  constructor
  · rintro ⟨e, ⟨he, i, hi, rfl, hj⟩, rfl⟩
    exact ⟨i, hi, by simpa using he, rfl, fun j hji => by simpa using hj j hji⟩
  · rintro ⟨i, hi, hip, hm, hj⟩
    exact ⟨s.arp[i], ⟨by simpa using hip, i, hi, rfl, fun j hji => by simpa using hj j hji⟩, hm⟩

/-- An address just learned is found with its MAC. -/
theorem State.arpLookup_learn_self (s : State) (ip : Ip) (m : Mac) : (s.learn ip m).arpLookup ip = some m := by
  have key : ∀ l : List ArpEntry, l.find? (fun e => decide (e.ip = ip)) = some ⟨ip, m, 0⟩ →
      (l.find? fun e => decide (e.ip = ip)).map ArpEntry.mac = some m := fun l h => by rw [h]; rfl
  rcases s.learn_cases ip m with ⟨i, hi, hip, hj, e⟩ | ⟨hn, hc, e⟩ | ⟨hn, hc, e⟩ <;>
    simp only [State.learn, State.arpLookup, e] <;> apply key
  · refine list_find_set_first (by simp) hi fun j x hji hx => ?_
    rw [List.getElem?_eq_getElem (by omega)] at hx
    simpa [← Option.some.inj hx] using hj j hji
  · rw [List.find?_append, List.find?_eq_none.2 (by simpa using hn)]; simp
  · refine list_find_set_first (by simp) ?_ fun j x hji hx => ?_
    · have := s.arpRr.isLt; simp only [Config.arpCapacity] at hc; omega
    · simpa using hn x (List.mem_of_getElem? hx)

/-- Learning one address leaves the lookup of every other as it was, but for the address of an evicted entry. -/
theorem State.arpLookup_learn_other (s : State) (ip : Ip) (m : Mac) {q : Ip} (hq : q ≠ ip)
    (he : (∀ e ∈ s.arp, e.ip ≠ ip) → Config.arpCapacity ≤ s.arp.length → ∀ e, s.arp[s.arpRr.val]? = some e → e.ip ≠ q) :
    (s.learn ip m).arpLookup q = s.arpLookup q := by
  rcases s.learn_cases ip m with ⟨i, hi, hip, hj, e⟩ | ⟨hn, hc, e⟩ | ⟨hn, hc, e⟩ <;>
    simp only [State.learn, State.arpLookup, e]
  · rw [list_find_set_of_not (by simpa using Ne.symm hq)]
    intro x hx
    rw [List.getElem?_eq_getElem hi] at hx
    simpa [← Option.some.inj hx, hip] using Ne.symm hq
  · simp [List.find?_append, Ne.symm hq]
  · rw [list_find_set_of_not (by simpa using Ne.symm hq)]
    intro x hx
    simpa using he hn hc x hx

/-! ## Invariants (42_arp.md R206) -/

/-- Learning keeps the cache invariants. -/
theorem State.ArpWf.learn {s : State} (h : s.ArpWf) (ip : Ip) (m : Mac) : (s.learn ip m).ArpWf := by
  obtain ⟨hnd, hlen, hage, hrr⟩ := h
  have hset : ∀ i, ∀ e ∈ s.arp.set i ⟨ip, m, 0⟩, e.age = 0 := fun i e he => by
    rcases List.mem_or_eq_of_mem_set he with h | rfl
    · exact hage e h
    · rfl
  rcases s.learn_cases ip m with ⟨i, hi, hip, hj, e⟩ | ⟨hn, hc, e⟩ | ⟨hn, hc, e⟩ <;>
    simp only [State.ArpWf, State.learn, e]
  · refine ⟨list_nodup_map_set _ hnd fun j x hx hxe => ?_, by simpa using hlen, hset i, by simpa using hrr⟩
    obtain ⟨hjl, rfl⟩ := List.getElem?_eq_some_iff.1 hx
    have := List.nodup_iff_injective_get.1 hnd
    have := @this ⟨j, by simpa using hjl⟩ ⟨i, by simpa using hi⟩ (by simpa [hip] using hxe)
    simpa using this
  · refine ⟨?_, by simp; omega, fun x hx => ?_, fun _ => hrr hc⟩
    · rw [List.map_append, List.nodup_append]
      refine ⟨hnd, by simp, fun a ha b hb => ?_⟩
      obtain ⟨x, hx, rfl⟩ := List.mem_map.1 ha
      simp only [List.map_cons, List.map_nil, List.mem_singleton] at hb
      exact hb ▸ hn x hx
    · rcases List.mem_append.1 hx with h | h
      · exact hage x h
      · simp only [List.mem_singleton] at h; rw [h]
  · refine ⟨list_nodup_map_set _ hnd fun j x hx hxe => absurd hxe (hn x (List.mem_of_getElem? hx)),
      by simpa using hlen, hset _, fun h => ?_⟩
    rw [List.length_set] at h; omega

/-- Learning never makes the cache shorter. -/
theorem State.length_learn (s : State) (ip : Ip) (m : Mac) : s.arp.length ≤ (s.learn ip m).arp.length := by
  rcases s.learn_cases ip m with ⟨i, hi, hip, hj, e⟩ | ⟨hn, hc, e⟩ | ⟨hn, hc, e⟩ <;> simp [State.learn, e]

end Sys2Proof.Machine
end

