-- ==== Sys2Proof/Laws/Bits.lean ====
section
/-! SUPPORT. Halves of a concatenation, and the multi-byte fields of 00_scope.md R9 as byte lists. -/

namespace Sys2Proof.Machine

theorem append_hi {n m : Nat} (u : BitVec n) (v : BitVec m) : (u ++ v).extractLsb' m n = u := by
  apply BitVec.eq_of_getLsbD_eq; intro i hi; simp only [BitVec.getLsbD_extractLsb', BitVec.getLsbD_append]; simp [hi]

theorem append_lo {n m : Nat} (u : BitVec n) (v : BitVec m) : (u ++ v).extractLsb' 0 m = v := by
  apply BitVec.eq_of_getLsbD_eq; intro i hi; simp only [BitVec.getLsbD_extractLsb', BitVec.getLsbD_append]; simp [hi]

theorem append_split {n m : Nat} (w : BitVec (n + m)) : w.extractLsb' m n ++ w.extractLsb' 0 m = w := by
  apply BitVec.eq_of_getLsbD_eq; intro i hi
  simp only [BitVec.getLsbD_append, BitVec.getLsbD_extractLsb']
  by_cases h : i < m
  · simp [h]
  · simp [h]; rw [show m + (i - m) = i by omega]; simp; intro; omega

/-- A 16-bit field is two given bytes. -/
theorem be16_eq (b : List Byte) (o : Nat) (x y : Byte) : be16 b o = x ++ y ↔ byteAt b o = x ∧ byteAt b (o + 1) = y := by
  constructor
  · intro h
    have h1 := congrArg (BitVec.extractLsb' 8 8) h
    have h2 := congrArg (BitVec.extractLsb' 0 8) h
    simp only [be16] at h1 h2
    rw [append_hi (n := 8) (m := 8), append_hi (n := 8) (m := 8)] at h1; rw [append_lo (n := 8) (m := 8), append_lo (n := 8) (m := 8)] at h2
    exact ⟨h1, h2⟩
  · rintro ⟨rfl, rfl⟩; rfl

/-- A 48-bit field is a MAC exactly if its six bytes are the MAC's. -/
theorem mac48_eq_iff (b : List Byte) (m : Mac) (h : 6 ≤ b.length) : mac48 b 0 = m ↔ b.take 6 = macBytes m := by
  match b, h with
  | b0 :: b1 :: b2 :: b3 :: b4 :: b5 :: rest, _ =>
    show (b0 ++ b1) ++ ((b2 ++ b3) ++ (b4 ++ b5)) = m ↔ [b0, b1, b2, b3, b4, b5] = macBytes m
    constructor
    · rintro rfl
      simp only [macBytes, bytesBe16, bytesBe32]
      rw [append_hi (n := 16) (m := 32), append_lo (n := 16) (m := 32), append_hi (n := 16) (m := 16), append_lo (n := 16) (m := 16), append_hi, append_lo, append_hi, append_lo, append_hi, append_lo]; rfl
    · intro e
      simp only [macBytes, bytesBe16, bytesBe32, List.cons_append, List.nil_append, List.cons.injEq, and_true] at e
      obtain ⟨rfl, rfl, rfl, rfl, rfl, rfl⟩ := e
      rw [append_split (n := 8) (m := 8), append_split (n := 8) (m := 8), append_split (n := 8) (m := 8), append_split (n := 16) (m := 16)]
      exact append_split (n := 16) (m := 32) m

end Sys2Proof.Machine
end

