-- ==== Sys2Proof/Laws/Checksum.lean ====
section
/-! SUPPORT. The Internet checksum (43_ip.md R233): what folding keeps, what embedding a half adds, and the lengths of built packets. -/

namespace Sys2Proof.Machine

/-- Folding ends at most at 0xFFFF, keeps the sum modulo 65535, and reaches 0 only from 0. -/
theorem foldCarries_spec {n s : Nat} (h : s ≤ n + 0xFFFF) :
    foldCarries n s ≤ 0xFFFF ∧ foldCarries n s % 65535 = s % 65535 ∧ (foldCarries n s = 0 ↔ s = 0) := by
  induction n generalizing s with
  | zero => exact ⟨by simpa [foldCarries] using h, rfl, Iff.rfl⟩
  | succ n ih =>
    simp only [foldCarries]
    split
    · obtain ⟨h1, h2, h3⟩ := ih (s := s % 65536 + s / 65536) (by omega)
      exact ⟨h1, by omega, by omega⟩
    · omega

/-- The checksum is the complement of the folded sum. -/
theorem internetChecksum_toNat (b : List Byte) :
    (internetChecksum b).toNat = 65535 - foldCarries (sumWords b) (sumWords b) := by
  obtain ⟨h1, -⟩ := foldCarries_spec (n := sumWords b) (s := sumWords b) (by omega)
  rw [internetChecksum, BitVec.toNat_not, BitVec.toNat_ofNat]
  generalize foldCarries (sumWords b) (sumWords b) = x at h1; omega

/-- A sequence of even length contributes its own sum. -/
theorem sumWords_append {a b : List Byte} (h : a.length % 2 = 0) : sumWords (a ++ b) = sumWords a + sumWords b := by
  induction a using sumWords.induct with
  | case1 => simp [sumWords]
  | case2 b => simp at h
  | case3 x y rest ih => 
    simp only [List.length_cons] at h
    simp only [List.cons_append, sumWords, ih (by omega)]; omega

theorem sumWords_bytesBe16 (v : Half) : sumWords (bytesBe16 v) = v.toNat := by
  simp [bytesBe16, sumWords]
  omega

/-- Embedding a half in a zero field at an even offset adds the half to the sum. -/
theorem sumWords_putBe16 (b : List Byte) (o : Nat) (ho : o % 2 = 0) (hl : o + 2 ≤ b.length) (h0 : byteAt b o = 0) (h1 : byteAt b (o + 1) = 0) (v : Half) :
    sumWords (putBe16 b o v) = sumWords b + v.toNat := by
  have hs : b = b.take o ++ ([0, 0] ++ b.drop (o + 2)) := by
    apply List.ext_getElem
    · simp; omega
    · intro i hi hi'
      by_cases c1 : i < o
      · rw [List.getElem_append_left (by simp; omega)]; simp
      · rw [List.getElem_append_right (by simp; omega)]
        have hlen : (b.take o).length = o := by simp; omega
        simp only [hlen]
        by_cases c2 : i = o
        · subst c2; simp; rw [byteAt, List.getD_eq_getElem?_getD, List.getElem?_eq_getElem hi] at h0; simpa using h0
        · by_cases c3 : i = o + 1
          · subst c3; simp; rw [byteAt, List.getD_eq_getElem?_getD, List.getElem?_eq_getElem hi] at h1; simpa using h1
          · rw [List.getElem_append_right (by simp; omega)]
            simp; congr 1; omega
  have e1 : sumWords b = sumWords (b.take o) + sumWords (b.drop (o + 2)) := by
    conv_lhs => rw [hs, sumWords_append (by simp; omega), sumWords_append (by simp)]
    simp [sumWords]
  rw [putBe16, List.append_assoc, sumWords_append (by simp; omega), sumWords_append (by simp [bytesBe16]), sumWords_bytesBe16, e1]; omega

theorem putBe16_length (b : List Byte) (o v) (h : o + 2 ≤ b.length) : (putBe16 b o v).length = b.length := by
  simp [putBe16, bytesBe16]; omega

theorem ipPacket_length (ttl : Byte) (our dip : Ip) (proto : Byte) (data : List Byte) :
    (ipPacket ttl our dip proto data).length = 20 + data.length := by
  simp only [ipPacket, List.length_append]
  rfl

theorem icmpMessage_length (type : Byte) (id seq : Half) (q : List Byte) :
    (icmpMessage type id seq q).length = 8 + q.length := by
  rw [icmpMessage, putBe16_length] <;> simp [bytesBe16]
  omega

end Sys2Proof.Machine
end

