-- ==== Sys2Proof/Laws/Effects.lean ====
section
/-! SUPPORT. What a step can do, said once: every next state is reached by a chain of the elementary updates of `Effect`, and in a turn by
latches of CMD among them (`TurnEffect`), so an invariant of the machine is proved by one case for each of them. -/

namespace Sys2Proof.Machine

/-- An elementary update with the condition under which a step that runs `cmd` (none: no command starts) makes it. -/
inductive Effect (cmd : Option Instr) : State → State → Prop
  /-- The engine's own registers, the phase and the model's bookkeeping. -/
  | book (s t : State) (h : t = { s with
      code := t.code, busy := t.busy, res := t.res
      irqIsr := t.irqIsr, irqDrained := t.irqDrained, irqWritten := t.irqWritten, phase := t.phase
      agenda := t.agenda, draws := t.draws, hostData := t.hostData }) : Effect cmd s t
  /-- The logs grow. -/
  | log (s : State) (w : List (List Byte)) (d : List DiagEvent) :
      Effect cmd s { s with wireOut := s.wireOut ++ w, diag := s.diag ++ d }
  /-- The local address, in IP_SET_ADDRESS only. -/
  | setIp (s : State) (ip : Ip) (hc : cmd = some .ipSetAddress) : Effect cmd s { s with ourIp := ip }
  /-- A write of host memory. -/
  | store (s : State) (a : Nat) (b : List Byte) : Effect cmd s { s with mem := s.mem.writeBytes a b }
  /-- An insertion into the ARP cache. -/
  | learn (s : State) (ip : Ip) (m : Mac) : Effect cmd s (s.learn ip m)
  /-- Pending slots are marked as clobbered. -/
  | mark (s : State) (cl : Vector Bool 4)
      (h : ∀ i : Fin 4, cl[i] = true → s.dev.clobbered[i] = true ∨ s.dev.pending[i] = true) :
      Effect cmd s { s with dev := { s.dev with clobbered := cl } }
  /-- A handover of the next TX slot. -/
  | handOver (s : State) (i : Fin 4) (n : Nat) (hi : i = s.txSlot) (h : s.initialized = true) : Effect cmd s (s.handOver i n)
  /-- The ring read pointer moves past a record. -/
  | rxAdvance (s : State) (n : Nat) (h : s.initialized = true) (hr : s.dev.rok = true) : Effect cmd s (s.rxAdvance n)
  /-- A write of ISR. -/
  | writeIsr (s : State) (v : Half) : Effect cmd s (s.writeIsr v)
  /-- NIC_INIT with regions that end inside the address space. -/
  | nicInit (s : State) (rxr txr : Word) (hc : cmd = some .nicInit)
      (hr : alignUp rxr.toNat Config.rxRingAlign + s.params.rxRingLen + s.params.rxRingSlack ≤ s.params.addrSpace)
      (ht : alignUp txr.toNat Config.txBufAlign + Config.txSlots * s.params.txBufSize ≤ s.params.addrSpace) :
      Effect cmd s (s.nicInit rxr txr)
  /-- A read of CR. -/
  | crRead (s : State) : Effect cmd s { s with dev := s.dev.afterCrRead }
  /-- NIC_RX overflow. -/
  | overflow (s : State) : Effect cmd s { s with dev := s.dev.setIsr 4 }
  /-- NIC_RX moves WP past the record of an accepted frame. -/
  | record (s : State) (f : List Byte) (bad : Bool) (ho : s.receiverOn = true) (ha : s.dev.accepts f bad = true)
      (hf : s.dev.ringFull f.length = false) :
      Effect cmd s { s with dev := ({ s.dev with
        wp := BitVec.ofNat 16 (alignUp (s.dev.wp.toNat + Config.rxHdrLen + f.length + 4) Config.rxPtrAlign %
          s.dev.ringLen) }).setIsr (if !bad && decide (Config.ethMinFrame ≤ f.length) then 0 else 1) }
  /-- NIC_TX ends a slot in success. -/
  | sent (s : State) (i : Fin 4) (h : s.txEnabled i = true) :
      Effect cmd s { s with dev := ((s.dev.setOwnTok i).setIsr 2).freeSlot i }
  /-- NIC_TX ends a slot in failure. -/
  | failed (s : State) (i : Fin 4) (h : s.txEnabled i = true) :
      Effect cmd s { s with dev := ((s.dev.setOwn i).setIsr 3).freeSlot i }

/-- A chain of elementary updates. -/
abbrev Effects (cmd : Option Instr) : State → State → Prop := Relation.ReflTransGen (Effect cmd)

variable {cmd : Option Instr}

theorem Effects.one {s t : State} (h : Effect cmd s t) : Effects cmd s t := .single h

/-- A property every elementary update keeps is kept by a chain of them. -/
theorem Effects.keeps {P : State → Prop} (hP : ∀ s t, Effect cmd s t → P s → P t) {s t : State} (h : Effects cmd s t) (hs : P s) :
    P t := by
  induction h with
  | refl => exact hs
  | tail _ e ih => exact hP _ _ e ih

/-- An elementary update of a turn: one that a command can make, or the latch of a word written to CMD. -/
inductive TurnEffect (cmd : Option Instr) : State → State → Prop
  | effect {s t : State} (h : Effect cmd s t) : TurnEffect cmd s t
  | latch (s : State) (w : Word) : TurnEffect cmd s (s.latchCmd w)

/-- A chain of elementary updates of a turn. -/
abbrev TurnEffects (cmd : Option Instr) : State → State → Prop := Relation.ReflTransGen (TurnEffect cmd)

theorem Effects.turn {s t : State} (h : Effects cmd s t) : TurnEffects cmd s t := by
  induction h with
  | refl => exact .refl
  | tail _ e ih => exact ih.tail (.effect e)

theorem TurnEffects.one {s t : State} (h : Effect cmd s t) : TurnEffects cmd s t := .single (.effect h)

/-- A property every elementary update and the latch of CMD keep is kept by a chain of them. -/
theorem TurnEffects.keeps {P : State → Prop} (hP : ∀ s t, Effect cmd s t → P s → P t) (hL : ∀ s w, P s → P (s.latchCmd w))
    {s t : State} (h : TurnEffects cmd s t) (hs : P s) : P t := by
  induction h with
  | refl => exact hs
  | tail _ e ih =>
    cases e with
    | effect e => exact hP _ _ e ih
    | latch w => exact hL _ w ih

/-! ## Operations as chains -/

theorem State.emitDiag_effects (s : State) (e : DiagEvent) : Effects cmd s (s.emitDiag e) := by
  have := Effect.log (cmd := cmd) s [] [e]
  simp only [List.append_nil] at this
  exact .one this

theorem State.clobberMet_effects (s : State) (r : MemRange) : Effects cmd s (s.clobberMet r) := by
  refine .one (.mark s _ fun i hi => ?_)
  simp only [Fin.getElem_fin, Vector.getElem_ofFn, Bool.or_eq_true, Bool.and_eq_true] at hi
  exact hi.imp id And.left

theorem State.clobberIfPending_effects (s : State) (i : Fin 4) : Effects cmd s (s.clobberIfPending i) := by
  simp only [State.clobberIfPending]
  split
  · rename_i hp
    refine .one (.mark s _ fun j hj => ?_)
    by_cases h : j = i
    · exact .inr (h ▸ hp)
    · left
      simpa [Vector.getElem_set, Fin.val_inj, Ne.symm h] using hj
  · exact .refl

theorem State.stored_effects (s : State) (src dst : MemRange) (d : List Byte) : Effects cmd s (s.stored src dst d).2 := by
  rw [State.stored_state]; exact .one (.book _ _ rfl)

theorem State.engineStore_effects {s t : State} {a : Nat} {b : List Byte} (h : s.engineStore a b = .ok t) : Effects cmd s t := by
  rw [(State.engineStore_ok.1 h).2]; exact .one (.store _ _ _)

theorem State.deliver_effects {s t : State} {src : MemRange} {dst : Nat} {b : List Byte} (h : s.deliver src dst b = .ok t) :
    Effects cmd s t := by
  rw [(State.deliver_ok.1 h).2]
  refine .trans ?_ (State.clobberMet_effects _ _)
  refine (State.stored_effects s src ⟨dst, b.length⟩ b).tail ?_
  have := Effect.store (cmd := cmd) (s.stored src ⟨dst, b.length⟩ b).2 dst (s.stored src ⟨dst, b.length⟩ b).1
  simpa only [State.stored_state] using this

/-- `nic_send`: the slot's image is stored and the slot is handed over. -/
theorem State.nicSend_ok {s t : State} {src : MemRange} {d : List Byte} (h : s.nicSend src d = .ok t) :
    ∃ img u, (s.clobberIfPending s.txSlot).stored src ⟨s.txAddr[s.txSlot].toNat, d.length⟩ d = (img, u) ∧
      (d.length = 0 ∨ s.Accessible ⟨s.txAddr[s.txSlot].toNat, d.length⟩) ∧
      t = ({ u with mem := s.mem.writeBytes s.txAddr[s.txSlot].toNat img }).handOver s.txSlot d.length := by
  simp only [State.nicSend] at h
  generalize hg : (s.clobberIfPending s.txSlot).stored src ⟨s.txAddr[s.txSlot].toNat, d.length⟩ d = p at h
  obtain ⟨img, u⟩ := p
  have hl : img.length = d.length := by
    have := State.stored_length (s.clobberIfPending s.txSlot) src ⟨s.txAddr[s.txSlot].toNat, d.length⟩ d
    rw [hg] at this; exact this
  have hu : u = { s.clobberIfPending s.txSlot with draws := u.draws } := by
    have := State.stored_state (s.clobberIfPending s.txSlot) src ⟨s.txAddr[s.txSlot].toNat, d.length⟩ d
    rw [hg] at this; rw [show u = _ from this]
  have hm : u.mem = s.mem ∧ u.params = s.params := by
    rw [hu]; simp only [State.clobberIfPending]; split <;> exact ⟨rfl, rfl⟩
  refine ⟨img, u, rfl, ?_⟩
  dsimp only at h
  split at h
  · rename_i v hv
    obtain ⟨hc, rfl⟩ := State.engineStore_ok.1 hv
    rw [hl] at hc
    refine ⟨?_, ?_⟩
    · simpa only [State.Accessible, State.window, hm.2] using hc
    · rw [← hm.1]; exact (Except.ok.inj h).symm
  · simp at h

theorem State.clobberIfPending_eq (s : State) (i : Fin 4) :
    s.clobberIfPending i = { s with dev := { s.dev with clobbered := (s.clobberIfPending i).dev.clobbered } } := by
  simp only [State.clobberIfPending]; split <;> rfl

theorem State.nicSend_effects {s t : State} {src : MemRange} {d : List Byte} (hi : s.initialized = true)
    (h : s.nicSend src d = .ok t) : Effects cmd s t := by
  obtain ⟨img, u, hu, -, rfl⟩ := State.nicSend_ok h
  have e1 := State.clobberIfPending_effects (cmd := cmd) s s.txSlot
  have e2 := State.stored_effects (cmd := cmd) (s.clobberIfPending s.txSlot) src ⟨s.txAddr[s.txSlot].toNat, d.length⟩ d
  have hs := State.stored_state (s.clobberIfPending s.txSlot) src ⟨s.txAddr[s.txSlot].toNat, d.length⟩ d
  have hc := State.clobberIfPending_eq s s.txSlot
  rw [hu] at e2 hs
  have hq : u.initialized = true ∧ u.txSlot = s.txSlot ∧ u.mem = s.mem := by
    rw [show u = _ from hs, hc]; exact ⟨hi, rfl, rfl⟩
  have e3 := Effect.store (cmd := cmd) u s.txAddr[s.txSlot].toNat img
  rw [hq.2.2] at e3
  exact ((e1.trans e2).tail e3).tail (.handOver _ _ _ hq.2.1.symm hq.1)

theorem State.ethSendFrame_effects {s t : State} {src : MemRange} {d : Mac} {ty : Half} {p : List Byte} {c : Code}
    (h : s.ethSendFrame src d ty p = .ok (c, t)) : Effects cmd s t := by
  simp only [State.ethSendFrame] at h
  split at h
  · cases h; exact .refl
  · rename_i hi
    split at h
    · cases h; exact .refl
    · split at h
      · rename_i u hu
        cases h
        exact State.nicSend_effects (by simpa using hi) hu
      · cases h

theorem State.arpSendRequest_effects {s t : State} {src : MemRange} {ip : Ip} {c : Code}
    (h : s.arpSendRequest src ip = .ok (c, t)) : Effects cmd s t :=
  State.ethSendFrame_effects h

theorem State.arpSendReply_effects {s t : State} {src : MemRange} {m : Mac} {a b : Ip} {c : Code}
    (h : s.arpSendReply src m a b = .ok (c, t)) : Effects cmd s t :=
  State.ethSendFrame_effects h

/-- Everything `nic_receive` can answer (40_nic.md R149). -/
theorem State.nicReceive_ok {s t : State} {n : Nat} {c : Code} {b : List Byte} (h : s.nicReceive n = .ok ((c, b), t)) :
    (s.initialized = false ∧ c = .notInitialized ∧ b = [] ∧ t = s) ∨
      (s.initialized = true ∧ s.dev.rok = false ∧ c = .noData ∧ b = [] ∧ t = s) ∨
      (s.initialized = true ∧ s.dev.rok = true ∧ s.Accessible ⟨s.ringHead, Config.rxHdrLen⟩ ∧
        ∃ hdr len, hdr = s.mem.readBytes s.ringHead Config.rxHdrLen ∧ len = (le16 hdr 2).toNat % 8192 ∧
          (((le16 hdr 0).getLsbD 0 = false ∨ len < 4) ∧ c = .noData ∧ b = [] ∧ t = s.rxAdvance len ∨
            ((le16 hdr 0).getLsbD 0 = true ∧ 4 ≤ len) ∧ c = .ok ∧
              (min (len - 4) n = 0 ∨ s.Accessible ⟨s.ringHead + Config.rxHdrLen, min (len - 4) n⟩) ∧
              b = s.mem.readBytes (s.ringHead + Config.rxHdrLen) (min (len - 4) n) ∧
              t = (s.rxAdvance len).writeIsr 0x0001)) := by
  simp only [State.nicReceive] at h
  split at h
  · rename_i hi; cases h; exact .inl ⟨hi, rfl, rfl, rfl⟩
  · rename_i hi
    replace hi : s.initialized = true := by simpa using hi
    split at h
    · rename_i hr; cases h; exact .inr (.inl ⟨hi, hr, rfl, rfl, rfl⟩)
    · rename_i hr
      replace hr : s.dev.rok = true := by simpa using hr
      rw [except_bind_ok] at h
      obtain ⟨hdr, hh, h⟩ := h
      obtain ⟨ha, rfl⟩ := State.engineLoad_ok.1 hh
      refine .inr (.inr ⟨hi, hr, ha.resolve_left (Nat.succ_ne_zero 3), _, _, rfl, rfl, ?_⟩)
      split at h
      · rename_i hb; cases h; exact .inl ⟨hb, rfl, rfl, rfl⟩
      · rename_i hb
        rw [except_bind_ok] at h
        obtain ⟨bytes, hl, h⟩ := h
        obtain ⟨hacc, rfl⟩ := State.engineLoad_ok.1 hl
        cases h
        refine .inr ⟨?_, rfl, hacc, rfl, rfl⟩
        rw [not_or] at hb
        exact ⟨by simpa using hb.1, by simpa using hb.2⟩

theorem State.nicReceive_effects {s t : State} {n : Nat} {r : Code × List Byte} (h : s.nicReceive n = .ok (r, t)) :
    Effects cmd s t := by
  obtain ⟨c, b⟩ := r
  rcases State.nicReceive_ok h with ⟨-, -, -, rfl⟩ | ⟨-, -, -, -, rfl⟩ | ⟨hi, hr, -, hdr, len, -, -, h | h⟩
  · exact .refl
  · exact .refl
  · rw [h.2.2.2]; exact .one (.rxAdvance s len hi hr)
  · rw [h.2.2.2.2]; exact (Effects.one (.rxAdvance s len hi hr)).tail (.writeIsr _ _)

/-- `eth_receive_frame` is `nic_receive` with the destination filter on top (41_ethernet.md R181). -/
theorem State.ethReceiveFrame_ok {s t : State} {n : Nat} {c : Code} {b : List Byte}
    (h : s.ethReceiveFrame n = .ok ((c, b), t)) :
    ∃ c' b', s.nicReceive n = .ok ((c', b'), t) ∧
      (c' = .ok ∧ t.acceptsFrame b' = true ∧ c = .ok ∧ b = b' ∨
        c' = .ok ∧ t.acceptsFrame b' = false ∧ c = .noData ∧ b = [] ∨ c' ≠ .ok ∧ c = c' ∧ b = []) := by
  simp only [State.ethReceiveFrame] at h
  split at h
  · cases h
  · rename_i c' b' u hu
    split at h
    · rename_i hc
      split at h
      · rename_i ha; cases h; exact ⟨_, _, hu, .inl ⟨hc, ha, rfl, rfl⟩⟩
      · rename_i ha; cases h; exact ⟨_, _, hu, .inr (.inl ⟨hc, by simpa using ha, rfl, rfl⟩)⟩
    · rename_i hc; cases h; exact ⟨_, _, hu, .inr (.inr ⟨hc, rfl, rfl⟩)⟩

theorem State.ethReceiveFrame_effects {s t : State} {n : Nat} {r : Code × List Byte}
    (h : s.ethReceiveFrame n = .ok (r, t)) : Effects cmd s t := by
  obtain ⟨c', b', hn, -⟩ := State.ethReceiveFrame_ok (c := r.1) (b := r.2) h
  exact State.nicReceive_effects hn

theorem State.finishReceive_effects {s before t : State} {dst : Word} {r : Code × List Byte}
    (h : s.finishReceive before dst r = .ok t) : Effects cmd s t := by
  simp only [State.finishReceive] at h
  split at h
  · rw [except_bind_ok] at h
    obtain ⟨u, hu, h⟩ := h
    cases h
    exact (State.deliver_effects hu).tail (.book _ _ rfl)
  · cases h; exact .one (.book _ _ rfl)

theorem State.arpProcessPacket_effects {s t : State} {src : MemRange} {d : List Byte} {r : Disposition}
    (h : s.arpProcessPacket src d = .ok (r, t)) : Effects cmd s t := by
  simp only [State.arpProcessPacket] at h
  split at h
  · cases h; exact .refl
  · split at h
    · cases h; exact .refl
    · split at h
      · split at h
        · rename_i u hu
          cases h
          exact (Effects.one (.learn _ _ _)).trans (State.arpSendReply_effects hu)
        · cases h
      · cases h; exact .one (.learn _ _ _)

theorem State.sendResolved_effects {s t : State} {src : MemRange} {pkt : List Byte} {hop : Option Mac}
    {r : Code × Mac × Bool} (h : s.sendResolved src pkt hop = .ok (r, t)) : Effects cmd s t := by
  simp only [State.sendResolved] at h
  split at h
  · split at h
    · rename_i hu; cases h; exact State.ethSendFrame_effects hu
    · cases h
  · split at h
    · cases h; exact .refl
    · split at h
      · rename_i hu; cases h; exact State.ethSendFrame_effects hu
      · cases h

theorem State.icmpDispatched_effects {s t : State} {src : MemRange} {m : List Byte} {sip : Ip} {r : Disposition}
    (h : s.icmpDispatched src m sip = .ok (r, t)) : Effects cmd s t := by
  simp only [State.icmpDispatched] at h
  split at h
  · cases h; exact .refl
  · cases h; exact State.emitDiag_effects _ _
  · split at h
    · cases h
    · split at h
      · rename_i hu; cases h; exact (State.sendResolved_effects hu).trans (State.emitDiag_effects _ _)
      · cases h

theorem State.ipProcessPacket_effects {s t : State} {src : MemRange} {d : List Byte} {m : Mac} {r : Disposition}
    (h : s.ipProcessPacket src d m = .ok (r, t)) : Effects cmd s t := by
  simp only [State.ipProcessPacket] at h
  repeat' split at h
  all_goals first
    | exact (Effects.one (.learn _ _ _)).trans (State.icmpDispatched_effects h)
    | (cases h; first | exact .refl | exact .one (.learn _ _ _))

theorem State.ethProcessFrame_effects {s t : State} {src : MemRange} {f : List Byte} {r : Disposition}
    (h : s.ethProcessFrame src f = .ok (r, t)) : Effects cmd s t := by
  simp only [State.ethProcessFrame] at h
  repeat' split at h
  · cases h; exact .refl
  · exact State.arpProcessPacket_effects h
  · exact State.ipProcessPacket_effects h
  · cases h; exact .refl

theorem State.receiveAndDispatch_effects {s t : State} {b : Bool} (h : s.receiveAndDispatch = .ok (b, t)) : Effects cmd s t := by
  simp only [State.receiveAndDispatch] at h
  split at h
  · cases h
  · rename_i u hu
    split at h
    · split at h
      · rename_i hv
        cases h
        exact (State.ethReceiveFrame_effects hu).trans (State.ethProcessFrame_effects hv)
      · cases h
    · cases h; exact State.ethReceiveFrame_effects hu

theorem State.pollRounds_effects {n k : Nat} {s t : State} (h : State.pollRounds n s = .ok (k, t)) : Effects cmd s t := by
  induction n generalizing s k with
  | zero => cases h; exact .refl
  | succ n ih =>
    simp only [State.pollRounds] at h
    split at h
    · cases h
    · rename_i u hu; cases h; exact State.receiveAndDispatch_effects hu
    · rename_i u hu
      split at h
      · rename_i hv; cases h; exact (State.receiveAndDispatch_effects hu).trans (ih hv)
      · cases h

theorem State.drainRounds_effects {n k : Nat} {s t : State} (h : State.drainRounds n s = .ok (k, t)) : Effects cmd s t := by
  induction n generalizing s k with
  | zero => cases h
  | succ n ih =>
    simp only [State.drainRounds] at h
    split at h
    · cases h
    · rename_i u hu; cases h; exact State.receiveAndDispatch_effects hu
    · rename_i u hu
      split at h
      · rename_i hv; cases h; exact (State.receiveAndDispatch_effects hu).trans (ih hv)
      · cases h

theorem State.continuePending_effects {s t : State} {k : Pending} {hop : Option Mac}
    (h : s.continuePending k hop = .ok t) : Effects cmd s t := by
  simp only [State.continuePending] at h
  split at h
  · split at h <;> (cases h; exact .one (.book _ _ rfl))
  · rw [except_bind_ok] at h
    obtain ⟨⟨⟨c, m, fb⟩, u⟩, hu, h⟩ := h
    cases h
    exact (State.sendResolved_effects hu).tail (.book _ _ rfl)
  · rw [except_bind_ok] at h
    obtain ⟨⟨r, u⟩, hu, h⟩ := h
    cases h
    exact ((State.sendResolved_effects hu).trans (State.emitDiag_effects _ _)).tail (.book _ _ rfl)

theorem State.resolve_effects {s t : State} {i : Instr} {src : MemRange} {ip : Ip} {n : Nat} {k : Pending}
    (h : s.resolve i src ip n k = .ok t) : Effects cmd s t := by
  simp only [State.resolve] at h
  split at h
  · exact State.continuePending_effects h
  · split at h
    · cases h
    · rw [except_bind_ok] at h
      obtain ⟨⟨c, u⟩, hu, h⟩ := h
      dsimp only at h
      split at h
      · exact (State.arpSendRequest_effects hu).trans (State.continuePending_effects h)
      · cases h; exact (State.arpSendRequest_effects hu).tail (.book _ _ rfl)

theorem State.ipSendPacket_effects {s t : State} {i : Instr} {src : MemRange} {ip : Ip} {pr : Byte} {d : List Byte}
    {k : List Byte → Pending} (h : s.ipSendPacket i src ip pr d k = .ok t) : Effects cmd s t := by
  simp only [State.ipSendPacket] at h
  split at h
  · exact State.continuePending_effects h
  · exact State.resolve_effects h

theorem State.resolveIteration_effects {s t : State} (h : s.resolveIteration = .ok t) : Effects cmd s t := by
  simp only [State.resolveIteration] at h
  split at h
  · cases h; exact .refl
  · rw [except_bind_ok] at h
    obtain ⟨⟨n, u⟩, hu, h⟩ := h
    refine (State.pollRounds_effects hu).trans ?_
    dsimp only at h
    split at h
    · exact (Effects.one (.book u { u with phase := .idle } rfl)).trans (State.continuePending_effects h)
    · split at h
      · exact (Effects.one (.book u { u with phase := .idle } rfl)).trans (State.continuePending_effects h)
      · cases h; exact Effects.one (.book _ _ rfl)

theorem State.pollCommand_effects {s t : State} (h : s.pollCommand = .ok t) : Effects cmd s t := by
  simp only [State.pollCommand] at h
  split at h
  · cases h; exact .one (.book _ _ rfl)
  · rw [except_bind_ok] at h
    obtain ⟨⟨n, u⟩, hu, h⟩ := h
    cases h
    exact (State.pollRounds_effects hu).tail (.book _ _ rfl)

/-! ## Commands as chains -/

theorem except_ok_bind {ε α β : Type} (a : α) (f : α → Except ε β) : ((.ok a : Except ε α) >>= f) = f a := rfl

theorem execNicInit_effects {s t : State} (h : execNicInit s = .next t) : Effects (some .nicInit) s t := by
  simp only [execNicInit, outcome_next, except_bind_ok] at h
  obtain ⟨rxr, -, txr, -, h⟩ := h
  split at h
  · cases h
  · rename_i hr; cases h
    rw [not_or, Nat.not_lt, Nat.not_lt] at hr
    exact .one (.nicInit s rxr txr rfl hr.1 hr.2)

theorem execNicSend_effects {s t : State} (h : execNicSend s = .next t) : Effects cmd s t := by
  simp only [execNicSend, outcome_next, except_bind_ok] at h
  obtain ⟨src, -, n, -, h⟩ := h
  split at h
  · cases h; exact .one (.book _ _ rfl)
  · rename_i hi
    split at h
    · cases h; exact .one (.book _ _ rfl)
    · simp only [except_bind_ok] at h
      obtain ⟨d, -, u, hu, h⟩ := h
      cases h
      exact (State.nicSend_effects (by simpa using hi) hu).tail (.book _ _ rfl)

theorem execNicReceive_effects {s t : State} (h : execNicReceive s = .next t) : Effects cmd s t := by
  simp only [execNicReceive, outcome_next, except_bind_ok] at h
  obtain ⟨dst, -, n, -, h⟩ := h
  split at h
  · cases h; exact .one (.book s _ rfl)
  · simp only [except_bind_ok] at h
    obtain ⟨-, -, ⟨r, u⟩, hu, h⟩ := h
    exact (State.nicReceive_effects hu).trans (State.finishReceive_effects h)

theorem State.finishIrq_effects (s : State) (c : Code) : Effects cmd s (s.finishIrq c) := by
  simp only [State.finishIrq]; split
  · exact .refl
  · exact .one (.book _ _ rfl)

theorem execNicIrq_effects {s t : State} (h : execNicIrq s = .next t) : Effects cmd s t := by
  simp only [execNicIrq, outcome_next] at h
  split at h
  · cases h; exact (Effects.one (.book s (s.setIrq 0 0) rfl)).trans (State.finishIrq_effects _ _)
  · split at h
    · cases h
      exact ((Effects.one (.writeIsr s _)).tail (.book _ (State.setIrq _ _ 0) rfl)).trans (State.finishIrq_effects _ _)
    · simp only [except_bind_ok] at h
      obtain ⟨⟨n, u⟩, hu, h⟩ := h
      cases h
      exact (((Effects.one (.writeIsr s _)).trans (State.drainRounds_effects hu)).tail
        (.book _ (State.setIrq _ _ n) rfl)).trans (State.finishIrq_effects _ _)

theorem execEthSendFrame_effects {s t : State} (h : execEthSendFrame s = .next t) : Effects cmd s t := by
  simp only [execEthSendFrame, outcome_next, except_bind_ok] at h
  obtain ⟨_, -, _, -, _, -, _, -, _, -, _, -, ⟨c, u⟩, hu, h⟩ := h
  cases h
  exact (State.ethSendFrame_effects hu).tail (.book _ _ rfl)

theorem execEthReceiveFrame_effects {s t : State} (h : execEthReceiveFrame s = .next t) : Effects cmd s t := by
  simp only [execEthReceiveFrame, outcome_next, except_bind_ok] at h
  obtain ⟨_, -, _, -, -, -, ⟨r, u⟩, hu, h⟩ := h
  exact (State.ethReceiveFrame_effects hu).trans (State.finishReceive_effects h)

theorem execEthProcessFrame_effects {s t : State} (h : execEthProcessFrame s = .next t) : Effects cmd s t := by
  simp only [execEthProcessFrame, outcome_next, except_bind_ok] at h
  obtain ⟨_, -, _, -, _, -, ⟨r, u⟩, hu, h⟩ := h
  cases h
  exact (State.ethProcessFrame_effects hu).tail (.book _ _ rfl)

theorem execArpLookup_effects {s t : State} (h : execArpLookup s = .next t) : Effects cmd s t := by
  simp only [execArpLookup, outcome_next, except_bind_ok] at h
  obtain ⟨_, -, h⟩ := h
  split at h <;> (cases h; exact .one (.book _ _ rfl))

theorem execArpAddOrUpdate_effects {s t : State} (h : execArpAddOrUpdate s = .next t) : Effects cmd s t := by
  simp only [execArpAddOrUpdate, outcome_next, except_bind_ok] at h
  obtain ⟨_, -, _, -, _, -, h⟩ := h
  cases h
  exact (Effects.one (.learn s _ _)).tail (.book _ _ rfl)

theorem execArpSendRequest_effects {s t : State} (h : execArpSendRequest s = .next t) : Effects cmd s t := by
  simp only [execArpSendRequest, outcome_next, except_bind_ok] at h
  obtain ⟨_, -, ⟨c, u⟩, hu, h⟩ := h
  cases h
  exact (State.arpSendRequest_effects hu).tail (.book _ _ rfl)

theorem execArpSendReply_effects {s t : State} (h : execArpSendReply s = .next t) : Effects cmd s t := by
  simp only [execArpSendReply, outcome_next, except_bind_ok] at h
  obtain ⟨_, -, _, -, _, -, _, -, ⟨c, u⟩, hu, h⟩ := h
  cases h
  exact (State.arpSendReply_effects hu).tail (.book _ _ rfl)

theorem execArpProcessPacket_effects {s t : State} (h : execArpProcessPacket s = .next t) : Effects cmd s t := by
  simp only [execArpProcessPacket, outcome_next, except_bind_ok] at h
  obtain ⟨_, -, _, -, _, -, _, -, _, -, ⟨r, u⟩, hu, h⟩ := h
  cases h
  exact (State.arpProcessPacket_effects hu).tail (.book _ _ rfl)

theorem execArpResolve_effects {s t : State} (h : execArpResolve s = .next t) : Effects cmd s t := by
  simp only [execArpResolve, outcome_next, except_bind_ok] at h
  obtain ⟨_, -, _, -, h⟩ := h
  exact State.resolve_effects h

theorem execIpSetAddress_effects {s t : State} (h : execIpSetAddress s = .next t) :
    Effects (some .ipSetAddress) s t := by
  simp only [execIpSetAddress, outcome_next, except_bind_ok] at h
  obtain ⟨ip, -, h⟩ := h
  cases h; exact (Effects.one (.setIp s ip rfl)).tail (.book _ _ rfl)

theorem execIpSendPacket_effects {s t : State} (h : execIpSendPacket s = .next t) : Effects cmd s t := by
  simp only [execIpSendPacket, outcome_next, except_bind_ok] at h
  obtain ⟨_, -, _, -, _, -, _, -, _, -, h⟩ := h
  exact State.ipSendPacket_effects h

theorem execIpProcessPacket_effects {s t : State} (h : execIpProcessPacket s = .next t) : Effects cmd s t := by
  simp only [execIpProcessPacket, outcome_next, except_bind_ok] at h
  obtain ⟨_, -, _, -, _, -, _, -, _, -, ⟨r, u⟩, hu, h⟩ := h
  cases h
  exact (State.ipProcessPacket_effects hu).tail (.book _ _ rfl)

theorem execIpChecksum_effects {s t : State} (h : execIpChecksum s = .next t) : Effects cmd s t := by
  simp only [execIpChecksum, outcome_next, except_bind_ok] at h
  obtain ⟨_, -, _, -, h⟩ := h
  split at h
  · cases h; exact .one (.book _ _ rfl)
  · simp only [except_bind_ok] at h
    obtain ⟨_, -, h⟩ := h
    cases h; exact .one (.book _ _ rfl)

theorem execIcmpSendEchoRequest_effects {s t : State} (h : execIcmpSendEchoRequest s = .next t) : Effects cmd s t := by
  simp only [execIcmpSendEchoRequest, outcome_next, except_bind_ok] at h
  obtain ⟨_, -, _, -, _, -, _, -, _, -, _, -, h⟩ := h
  exact State.ipSendPacket_effects h

theorem execIcmpProcessPacket_effects {s t : State} (h : execIcmpProcessPacket s = .next t) : Effects cmd s t := by
  simp only [execIcmpProcessPacket, outcome_next, except_bind_ok] at h
  obtain ⟨_, -, _, -, _, -, _, -, h⟩ := h
  split at h
  · cases h; exact .one (.book _ _ rfl)
  · cases h; exact (State.emitDiag_effects _ _).tail (.book _ _ rfl)
  · exact State.ipSendPacket_effects h

/-- Every command makes only elementary updates. -/
theorem exec_effects {i : Instr} {s t : State} (h : exec i s = .next t) : Effects (some i) s t := by
  cases i
  · exact execNicInit_effects h
  · exact execNicSend_effects h
  · exact execNicReceive_effects h
  · exact execNicIrq_effects h
  · exact execEthSendFrame_effects h
  · exact execEthReceiveFrame_effects h
  · exact execEthProcessFrame_effects h
  · exact State.pollCommand_effects (outcome_next.1 h)
  · exact execArpLookup_effects h
  · exact execArpAddOrUpdate_effects h
  · exact execArpSendRequest_effects h
  · exact execArpSendReply_effects h
  · exact execArpProcessPacket_effects h
  · exact execArpResolve_effects h
  · exact State.pollCommand_effects (outcome_next.1 h)
  · exact execIpSetAddress_effects h
  · exact execIpSendPacket_effects h
  · exact execIpProcessPacket_effects h
  · exact execIpChecksum_effects h
  · exact execIcmpSendEchoRequest_effects h
  · exact execIcmpProcessPacket_effects h

/-! ## Agents as chains -/

theorem State.dmaStore_effects (s : State) (a : Nat) (b : List Byte) : Effects cmd s (s.dmaStore a b) :=
  (Effects.one (.store s a b)).trans (State.clobberMet_effects _ _)

/-- What a DMA write changes: memory and the marks. -/
theorem State.dmaStoreWrapped_eq (s : State) (off : Nat) (b : List Byte) :
    Effects cmd s (s.dmaStoreWrapped off b) ∧ ∃ m cl, s.dmaStoreWrapped off b =
      { s with mem := m, dev := { s.dev with clobbered := cl } } := by
  induction b generalizing s off with
  | nil => exact ⟨.refl, s.mem, s.dev.clobbered, rfl⟩
  | cons x rest ih =>
    obtain ⟨he, m, cl, h⟩ := ih (s.dmaStore (s.dev.rbstart.toNat + off % s.dev.ringLen) [x]) (off + 1)
    refine ⟨(State.dmaStore_effects s _ _).trans he, m, cl, ?_⟩
    rw [State.dmaStoreWrapped, h]; rfl

theorem State.writeRecord_effects {s : State} {f : List Byte} {bad : Bool} (ho : s.receiverOn = true)
    (ha : s.dev.accepts f bad = true) (hf : s.dev.ringFull f.length = false) : Effects cmd s (s.writeRecord f bad) := by
  have e0 : Effects cmd s { s with draws := s.draws + 1 + 4 } := .one (.book _ _ rfl)
  cases hw : s.dev.rcr.getLsbD 7 <;>
    simp only [State.writeRecord, State.drawWord, State.drawBytes, hw, Bool.false_eq_true, if_true, if_false]
  rotate_left
  · exact (e0.trans (State.dmaStore_effects _ _ _)).tail (.record _ f bad ho ha hf)
  · obtain ⟨he, m, cl, h⟩ := State.dmaStoreWrapped_eq { s with draws := s.draws + 1 + 4 } s.dev.wp.toNat
      (ringRecord ((lowHalf (Config.drawWord s.draws) &&& 0xFFFE) |||
        (BitVec.ofBool (!bad && decide (Config.ethMinFrame ≤ f.length))).zeroExtend 16) f
        ((List.range 4).map fun k => Config.drawByte (s.draws + 1 + k)))
    refine (e0.trans he).tail ?_
    rw [h]
    exact .record _ f bad ho ha hf

theorem State.nicRx_effects (s : State) (f : List Byte) (bad : Bool) : Effects cmd s (s.nicRx f bad) := by
  simp only [State.nicRx]
  split
  · exact .refl
  · rename_i ho
    split
    · exact .refl
    · rename_i ha
      split
      · exact .one (.overflow s)
      · rename_i hf
        exact State.writeRecord_effects (by simpa using ho) (by simpa using ha) (by simpa using hf)

theorem State.emitSlot_effects (s : State) (i : Fin 4) : Effects cmd s (s.emitSlot i) := by
  simp only [State.emitSlot]
  split
  · have := Effect.log (cmd := cmd) s (((Config.drawFrames s.draws).take 2).map fun f => f.take s.params.txBufSize) []
    simp only [List.append_nil] at this
    exact (Effects.one this).tail (.book _ s.emitClobbered rfl)
  · have := Effect.log (cmd := cmd) s [s.mem.readBytes s.dev.tsad[i].toNat (s.dev.txSize i)] []
    simp only [List.append_nil] at this
    exact .one this

/-- What a transmission puts out changes no more than the wire log and the count of draws. -/
theorem State.emitSlot_eq (s : State) (i : Fin 4) :
    s.emitSlot i = { s with wireOut := (s.emitSlot i).wireOut, draws := (s.emitSlot i).draws } := by
  simp only [State.emitSlot]; split <;> rfl

theorem State.nicTx_effects {s : State} {i : Fin 4} {ok : Bool} (h : s.txEnabled i = true) : Effects cmd s (s.nicTx i ok) := by
  simp only [State.nicTx]
  split
  · have h' : (s.emitSlot i).txEnabled i = true := by rw [State.emitSlot_eq]; exact h
    exact (State.emitSlot_effects s i).tail (.sent _ i h')
  · exact .one (.failed s i h)

/-! ## The HOST and the step -/

theorem State.engineRegister_eq (s : State) (off : Nat) :
    (s.engineRegister off).2 = { s with draws := (s.engineRegister off).2.draws } := by
  simp only [State.engineRegister, State.readSpecified, State.drawWord]
  split <;> first | rfl | (split <;> rfl)

/-- An aligned 32-bit read of the engine window latches the register's value. -/
theorem State.engineRead_aligned (s : State) {off : Fin 0x50} (h : off.val % 4 = 0) :
    s.engineRead off .w32 = .ok { (s.engineRegister off.val).2 with hostData := (s.engineRegister off.val).1 } := by
  simp only [State.engineRead, alignedWord, h]; rfl

/-- A specified register reads as it is. -/
theorem State.readSpecified_known (s : State) {k : Bool} (h : k = true) (v : Word) : s.readSpecified k v = (v, s) := by
  simp only [State.readSpecified, h, if_true]

theorem writeCmd_effects {s t : State} {w : Word} (h : writeCmd w s = .next t) : TurnEffects (decode w).toOption s t := by
  simp only [writeCmd] at h
  split at h <;> rename_i hd <;> split at h
  · cases h
  · rw [hd]; exact .head (.latch s w) (exec_effects h).turn
  · cases h
  · rw [hd]; cases h; exact .head (.latch s w) (TurnEffects.one (.book _ _ rfl))

/-- A HOST write of the engine window to CMD, to an ARG register (with BUSY = 0), or elsewhere. -/
theorem engineWrite_next {off : Fin 0x50} {w : Width} {v : Word} {s t : State} (h : engineWrite off w v s = .next t) :
    w = .w32 ∧ (off.val = 0 ∧ writeCmd v s = .next t ∨ off.val ≠ 0 ∧ (t = s ∨ ∃ k, t = s.setArg k v ∧ s.busy = false)) := by
  simp only [engineWrite] at h
  split at h
  · cases h
  · rename_i ha
    simp only [alignedWord, Bool.and_eq_false_iff, decide_eq_false_iff_not, not_or, not_not] at ha
    split at h
    · rename_i h0; exact ⟨ha.1, .inl ⟨h0, h⟩⟩
    · rename_i h0
      refine ⟨ha.1, .inr ⟨h0, ?_⟩⟩
      split at h
      · cases h
      · rename_i hb
        cases h
        simp only [State.engineWriteRegister]
        split <;> first | exact .inr ⟨_, rfl, by simpa [isArgOffset, *] using hb⟩ | exact .inl rfl

/-- The command a HOST move starts. -/
def HostMove.command : HostMove → Option Instr
  | .engineWrite off .w32 w => if off.val = 0 then (decode w).toOption else none
  | _ => none

/-- The command a turn starts. -/
def Move.command : Move → Option Instr
  | .host m => m.command
  | _ => none

/-- Everything a HOST move can do: elementary updates, among them the latch of CMD, or a write of an ARG register. -/
theorem hostMove_effects {s t : State} {m : HostMove} (h : hostMove m s = .next t) :
    TurnEffects m.command s t ∨ ∃ off v k, m = .engineWrite off .w32 v ∧ t = s.setArg k v ∧ s.busy = false := by
  cases m with
  | engineRead off w =>
    simp only [hostMove, outcome_next, State.engineRead] at h
    split at h
    · cases h
      rw [State.engineRegister_eq]; exact .inl (TurnEffects.one (.book _ _ rfl))
    · cases h
  | engineWrite off w v =>
    obtain ⟨rfl, ⟨h0, h⟩ | ⟨h0, rfl | ⟨k, rfl, hb⟩⟩⟩ := engineWrite_next h
    · left
      simp only [HostMove.command, h0, if_true]
      exact writeCmd_effects h
    · exact .inl .refl
    · exact .inr ⟨off, v, k, rfl, rfl, hb⟩
  | deviceRead off w =>
    left
    simp only [hostMove, outcome_next, State.deviceRead] at h
    split at h
    · cases h
      split
      · exact (TurnEffects.one (.book s { s with hostData := s.dev.register off.val } rfl)).tail (.effect (.crRead _))
      · exact TurnEffects.one (.book _ _ rfl)
    · split at h <;> cases h
  | deviceWrite off w v => cases h
  | memWrite a b =>
    left
    simp only [hostMove, outcome_next, State.hostMemWrite] at h
    repeat' split at h
    · cases h; exact .refl
    · cases h
    · cases h
    · cases h
    · cases h; exact (TurnEffects.one (.store s _ _)).trans (Effects.turn (State.clobberMet_effects _ _))
  | wait => cases h; exact .inl (TurnEffects.one (.book _ _ rfl))

/-- Everything a turn can do. -/
theorem runMove_effects {s t : State} {m : Move} (h : runMove m s = .next t) :
    TurnEffects m.command s t ∨ ∃ off v k, m = .host (.engineWrite off .w32 v) ∧ t = s.setArg k v ∧ s.busy = false := by
  cases m with
  | host m =>
    rcases hostMove_effects h with h | ⟨off, v, k, rfl, e⟩
    · exact .inl h
    · exact .inr ⟨off, v, k, rfl, e⟩
  | wireRx f bad =>
    simp only [runMove] at h
    split at h
    · cases h; exact .inl (State.nicRx_effects s f bad).turn
    · cases h
  | nicTx i ok =>
    simp only [runMove] at h
    cases h
    split
    · rename_i he; exact .inl (State.nicTx_effects he).turn
    · exact .inl .refl
  | engine => exact .inl (State.resolveIteration_effects (outcome_next.1 h)).turn

/-- A free turn is an agent's: no command starts in it. -/
theorem freeTurn_effects {s t : State} (h : freeTurn s = .next t) : TurnEffects none s t := by
  simp only [freeTurn] at h
  split at h
  · cases h; exact .refl
  · rename_i m hm
    have hmem := List.mem_of_getElem? hm
    have hc : m.command = none ∧ ∀ off v, m ≠ .host (.engineWrite off .w32 v) := by
      simp only [State.enabledTurns, List.mem_append, List.mem_map] at hmem
      rcases hmem with hmem | ⟨i, -, rfl⟩
      · split at hmem
        · rw [List.mem_singleton] at hmem; subst hmem; exact ⟨rfl, by simp⟩
        · simp at hmem
      · exact ⟨rfl, by simp⟩
    rcases runMove_effects h with h | ⟨off, v, k, e, -⟩
    · rw [hc.1] at h; exact (TurnEffects.one (.book s _ rfl)).trans h
    · exact absurd e (hc.2 off v)

/-- EVERYTHING A STEP CAN DO: a chain of elementary updates and latches of CMD, those of a command only if the HOST's write of its word is the next move; or
a HOST write of an ARG register with BUSY = 0. -/
theorem step_effects {s t : State} (h : step s = .next t) :
    (∃ cmd, TurnEffects cmd s t ∧ ∀ i, cmd = some i →
        ∃ w rest, s.agenda = .host (.engineWrite 0 .w32 w) :: rest ∧ decode w = .ok i) ∨
      ∃ off v k rest, s.agenda = .host (.engineWrite off .w32 v) :: rest ∧
        t = ({ s with agenda := rest } : State).setArg k v ∧ s.busy = false := by
  simp only [step, nextTurn] at h
  split at h
  · cases h
  · cases h
  · split at h
    · exact .inl ⟨none, (TurnEffects.one (.book s _ rfl)).trans (freeTurn_effects h), by simp⟩
    · split at h
      · exact .inl ⟨none, freeTurn_effects h, by simp⟩
      · rename_i m rest ha
        rcases runMove_effects h with h | ⟨off, v, k, rfl, e⟩
        · refine .inl ⟨m.command, (TurnEffects.one (.book s _ rfl)).trans h, fun i hi => ?_⟩
          rcases m with m | m | m | m <;> try (cases hi)
          rcases m with m | ⟨off, w, v⟩ | m | m | m | m <;> try (cases hi)
          cases w <;> try (cases hi)
          simp only [Move.command, HostMove.command] at hi
          split at hi
          · rename_i h0
            refine ⟨v, rest, ?_, ?_⟩
            · rw [ha, Fin.ext (a := off) (b := 0) h0]
            · cases hd : decode v with
              | error e => rw [hd] at hi; cases hi
              | ok j => rw [hd] at hi; cases hi; rfl
          · cases hi
        · exact .inr ⟨off, v, k, rest, ha, e⟩

/-- A property that every elementary update, the latch of CMD and every write of an ARG register keep is kept by a step. -/
theorem step_keeps {P : State → Prop} (hP : ∀ cmd s t, Effect cmd s t → P s → P t)
    (hL : ∀ s w, P s → P (s.latchCmd w))
    (hA : ∀ s k v rest, P s → P (({ s with agenda := rest } : State).setArg k v)) {s t : State} (hs : P s)
    (h : step s = .next t) : P t := by
  rcases step_effects h with ⟨cmd, h, -⟩ | ⟨off, v, k, rest, -, rfl, -⟩
  · exact h.keeps (hP cmd) hL hs
  · exact hA _ _ _ _ hs

end Sys2Proof.Machine
end

