-- ==== Sys2Proof/Laws/Nic.lean ====
section
/-! SUPPORT. The NIC operations: PCI discovery, the reset poll, the cases of NIC_INIT, and the bits of ISR and TSD. -/

namespace Sys2Proof.Machine

/-! ## The ring length (10_state.md R34, 30_encoding.md R116) -/

/-- A ring is 8, 16, 32 or 64 KiB long. -/
theorem ringLenOf_cases (k : BitVec 2) :
    ringLenOf k = 8192 ∨ ringLenOf k = 16384 ∨ ringLenOf k = 32768 ∨ ringLenOf k = 65536 := by
  revert k; decide

/-- The fields of the RCR that NIC_INIT programs: RBLEN, and the filter and wrap bits. -/
theorem Params.rcrInit_fields (p : Params) :
    p.rcrInit.extractLsb' 11 2 = p.rblen ∧ p.rcrInit.getLsbD 0 = true ∧ p.rcrInit.getLsbD 1 = false ∧
      p.rcrInit.getLsbD 2 = true ∧ p.rcrInit.getLsbD 3 = true ∧ p.rcrInit.getLsbD 4 = false ∧
      p.rcrInit.getLsbD 5 = false ∧ p.rcrInit.getLsbD 7 = true := by
  simp only [Params.rcrInit]; generalize p.rblen = k; revert k; decide

/-- A device so programmed uses the engine's ring length. -/
theorem Device.ringLen_init {d : Device} {p : Params} (h : d.rcr = p.rcrInit) : d.ringLen = p.rxRingLen := by
  rw [Device.ringLen, h, (Params.rcrInit_fields p).1, Params.rxRingLen]

@[simp] theorem Device.afterCrRead_ringLen (d : Device) : d.afterCrRead.ringLen = d.ringLen := by
  simp [Device.ringLen]

/-! ## PCI discovery -/

theorem PciLoc.ofIndex_surj (p : PciLoc) : ∃ k, k < 65536 ∧ PciLoc.ofIndex k = p := by
  obtain ⟨b, d, f⟩ := p
  refine ⟨b.toNat * 256 + d.toNat * 8 + f.toNat, ?_, ?_⟩
  · omega
  · simp only [PciLoc.ofIndex, PciLoc.mk.injEq]
    refine ⟨?_, ?_, ?_⟩ <;> apply BitVec.eq_of_toNat_eq <;> simp only [BitVec.toNat_ofNat] <;> omega

/-- The scan answers a triple whose IDs match, or says that none of them does. -/
theorem State.pciScan_spec (s : State) (n k : Nat) :
    (∃ j, s.pciScan n k = some (PciLoc.ofIndex j) ∧
        (s.pciRead (PciLoc.ofIndex j) 0x00).extractLsb' 0 16 = s.params.pciVendorId ∧
        (s.pciRead (PciLoc.ofIndex j) 0x00).extractLsb' 16 16 = s.params.pciDeviceId) ∨
      (s.pciScan n k = none ∧ ∀ j, k ≤ j → j < k + n →
        ¬ ((s.pciRead (PciLoc.ofIndex j) 0x00).extractLsb' 0 16 = s.params.pciVendorId ∧
          (s.pciRead (PciLoc.ofIndex j) 0x00).extractLsb' 16 16 = s.params.pciDeviceId)) := by
  induction n generalizing k with
  | zero => exact .inr ⟨rfl, fun j h1 h2 => by omega⟩
  | succ n ih =>
    simp only [State.pciScan]
    split
    · rename_i h; exact .inl ⟨k, rfl, h⟩
    · rename_i h
      rcases ih (k + 1) with h' | ⟨h1, h2⟩
      · exact .inl h'
      · refine .inr ⟨h1, fun j hj hj' => ?_⟩
        by_cases e : j = k
        · exact e ▸ h
        · exact h2 j (by omega) (by omega)

theorem PciLoc.read_id {s : State} {loc : PciLoc} (hv : s.params.pciVendorId ≠ 0xFFFF)
    (h : (s.pciRead loc 0x00).extractLsb' 0 16 = s.params.pciVendorId) :
    ∃ p, s.pci = some p ∧ p.loc = loc ∧ s.pciRead loc 0x00 = p.device ++ p.vendor := by
  have hne : (0xFFFFFFFF : Word).extractLsb' 0 16 = (0xFFFF : Half) := by decide
  unfold State.pciRead at h ⊢
  cases hp : s.pci with
  | none => simp only [hp] at h; exact absurd (h.symm.trans hne) hv
  | some p =>
    simp only [hp] at h ⊢
    by_cases hl : p.loc = loc
    · exact ⟨p, rfl, hl, by simp [hl]⟩
    · rw [if_neg hl] at h; exact absurd (h.symm.trans hne) hv

theorem State.id_halves (d v : Half) : (d ++ v).extractLsb' 0 16 = v ∧ (d ++ v).extractLsb' 16 16 = d := by
  constructor <;> apply BitVec.eq_of_toNat_eq <;>
    simp only [BitVec.extractLsb'_toNat, BitVec.toNat_append, Nat.shiftLeft_eq, Nat.shiftRight_eq_div_pow] <;>
    rw [Nat.mul_comm, ← Nat.two_pow_add_eq_or_of_lt v.isLt] <;> omega

/-- The scan finds the NIC where its IDs are the configured ones, and nothing else (40_nic.md R141 step 1). -/
theorem State.pciFind_spec {s : State} (hv : s.params.pciVendorId ≠ 0xFFFF) :
    (∃ p, s.pci = some p ∧ p.vendor = s.params.pciVendorId ∧ p.device = s.params.pciDeviceId ∧
        s.pciFind = some p.loc) ∨
      (s.pciFind = none ∧ ∀ p, s.pci = some p →
        ¬ (p.vendor = s.params.pciVendorId ∧ p.device = s.params.pciDeviceId)) := by
  rcases s.pciScan_spec 65536 0 with ⟨j, h1, h2, h3⟩ | ⟨h1, h2⟩
  · obtain ⟨p, hp, hl, hr⟩ := PciLoc.read_id hv h2
    rw [hr, (State.id_halves _ _).1] at h2
    rw [hr, (State.id_halves _ _).2] at h3
    exact .inl ⟨p, hp, h2, h3, by rw [hl]; exact h1⟩
  · refine .inr ⟨h1, fun p hp hid => ?_⟩
    obtain ⟨k, hk, he⟩ := PciLoc.ofIndex_surj p.loc
    refine h2 k (by omega) (by omega) ?_
    have : s.pciRead (PciLoc.ofIndex k) 0x00 = p.device ++ p.vendor := by simp [State.pciRead, hp, he]
    rw [this, (State.id_halves _ _).1, (State.id_halves _ _).2]
    exact hid

/-! ## The reset poll (40_nic.md R142) -/

/-- A reset of latency `k` ends within `n` reads exactly if `k < n`, and uses the reads up. -/
theorem Device.pollReset_reads {n k : Nat} {d : Device} (h : d.rstLeft = .reads k) :
    Device.pollReset n d = (decide (k < n), { d with rstLeft := .reads (k - n) }) := by
  induction n generalizing k d with
  | zero => simp only [Device.pollReset, Nat.not_lt_zero, decide_false, Nat.sub_zero]; rw [← h]
  | succ n ih =>
    cases k with
    | zero =>
      have hr : d.resetting = false := by simp only [Device.resetting, h]
      have ha : d.afterCrRead = d := by simp only [Device.afterCrRead, h]
      have hd : ({ d with rstLeft := .reads (0 - (n + 1)) } : Device) = d := by rw [Nat.zero_sub, ← h]
      simp only [Device.pollReset, hr, ha, hd]; simp
    | succ k =>
      have hr : d.resetting = true := by simp only [Device.resetting, h]
      have ha : d.afterCrRead = { d with rstLeft := .reads k } := by simp only [Device.afterCrRead, h]
      simp only [Device.pollReset, hr, if_true]
      rw [ih (k := k) (by rw [ha]), ha]
      simp

theorem Device.pollReset_forever {n : Nat} {d : Device} (h : d.rstLeft = .forever) : Device.pollReset n d = (false, d) := by
  induction n with
  | zero => rfl
  | succ n ih =>
    have hr : d.resetting = true := by simp only [Device.resetting, h]
    have ha : d.afterCrRead = d := by simp only [Device.afterCrRead, h]
    simp only [Device.pollReset, hr, if_true, ha, ih]

/-- Whether a reset of a drawn latency ends within `n` reads. -/
def latencyEnds (l : Option Nat) (n : Nat) : Bool :=
  match l with
  | some k => decide (k < n)
  | none => false

/-- The poll changes rst_left only, and ends within the limit exactly if the latency is below it. -/
theorem Device.pollReset_ofLatency {n : Nat} {d : Device} {l : Option Nat} (h : d.rstLeft = ResetLeft.ofLatency l) :
    (Device.pollReset n d).1 = latencyEnds l n ∧
      (Device.pollReset n d).2 = { d with rstLeft := (Device.pollReset n d).2.rstLeft } ∧
      (latencyEnds l n = true → (Device.pollReset n d).2.rstLeft = .reads 0) := by
  cases l with
  | none =>
    rw [Device.pollReset_forever h]
    exact ⟨rfl, rfl, fun e => by simp [latencyEnds] at e⟩
  | some k =>
    rw [Device.pollReset_reads h]
    refine ⟨rfl, rfl, fun e => ?_⟩
    simp only [latencyEnds, decide_eq_true_eq] at e
    simp only [ResetLeft.reads.injEq]; omega

/-! ## NIC_INIT -/

/-- The device while NIC_INIT polls: soft reset with its draws. -/
def State.resetDevice (s : State) : Device :=
  s.dev.softReset (Vector.ofFn fun i : Fin 4 => Config.drawWord (s.draws + i.val)) (Config.drawWord (s.draws + 4))
    (Config.drawLatency (s.draws + 5))

/-- The state in which a NIC_INIT that found the device at `p` starts to poll. -/
def State.polling (s : State) (p : NicPci) : State :=
  { s with
    initialized := false
    ioBase := p.bar0 &&& 0xFFFFFFFC
    dev := (Device.pollReset s.params.resetPollLimit s.resetDevice).2
    draws := s.draws + 6 }

/-- The state after a NIC_INIT that succeeded, before `finish`. -/
def State.initialised (s : State) (p : NicPci) (rxr txr : Word) : State :=
  let rxBase : Word := BitVec.ofNat 32 (alignUp rxr.toNat Config.rxRingAlign)
  let txAddr : Vector Word 4 :=
    Vector.ofFn fun i : Fin 4 => BitVec.ofNat 32 (alignUp txr.toNat Config.txBufAlign + i.val * s.params.txBufSize)
  { s.polling p with
    initialized := true
    mac := (s.polling p).dev.idr
    macKnown := true
    rxBase := rxBase
    txAddr := txAddr
    txSlot := 0
    rxOff := 0
    pci := some { p with command := p.command ||| 0x0004 }
    dev := { (s.polling p).dev with
      te := true, re := true, rcr := s.params.rcrInit, imr := 0x0005, rbstart := rxBase, tsad := txAddr } }

/-- The device after the poll: everything but rst_left as the soft reset left it. -/
theorem State.polling_dev (s : State) (p : NicPci) :
    (s.polling p).dev = { s.resetDevice with rstLeft := (s.polling p).dev.rstLeft } :=
  (Device.pollReset_ofLatency (n := s.params.resetPollLimit) (d := s.resetDevice) rfl).2.1

theorem State.initialised_mac (s : State) (p : NicPci) (rxr txr : Word) : (s.initialised p rxr txr).mac = s.dev.idr := by
  simp only [State.initialised]; rw [State.polling_dev]; rfl

/-- Everything NIC_INIT can do after its range rule (40_nic.md R141, R142). -/
theorem State.nicInit_cases {s : State} (hv : s.params.pciVendorId ≠ 0xFFFF) (rxr txr : Word) :
    ((∀ p, s.pci = some p → ¬ (p.vendor = s.params.pciVendorId ∧ p.device = s.params.pciDeviceId)) ∧
        s.nicInit rxr txr = ({ s with initialized := false }).finish .deviceNotFound) ∨
      ∃ p, s.pci = some p ∧ p.vendor = s.params.pciVendorId ∧ p.device = s.params.pciDeviceId ∧
        (p.bar0.getLsbD 0 = false ∧ s.nicInit rxr txr = ({ s with initialized := false }).finish .barNotIo ∨
          p.bar0.getLsbD 0 = true ∧
            latencyEnds (Config.drawLatency (s.draws + 5)) s.params.resetPollLimit = false ∧
            s.nicInit rxr txr = (s.polling p).finish .resetTimeout ∨
          p.bar0.getLsbD 0 = true ∧
            latencyEnds (Config.drawLatency (s.draws + 5)) s.params.resetPollLimit = true ∧
            s.nicInit rxr txr = ((s.initialised p rxr txr).setResMac (s.initialised p rxr txr).mac).finish .ok) := by
  have hfind : ({ s with initialized := false } : State).pciFind = s.pciFind := by
    have : ∀ n k, ({ s with initialized := false } : State).pciScan n k = s.pciScan n k := by
      intro n
      induction n with
      | zero => intro k; rfl
      | succ n ih => intro k; simp only [State.pciScan]; rw [ih]; rfl
    exact this _ _
  rcases State.pciFind_spec hv with ⟨p, hp, h1, h2, h3⟩ | ⟨h1, h2⟩
  · refine .inr ⟨p, hp, h1, h2, ?_⟩
    have hbar : s.pciRead p.loc 0x10 = p.bar0 := by simp [State.pciRead, hp]
    have hbar' : ({ s with initialized := false } : State).pciRead p.loc 0x10 = p.bar0 := hbar
    have hpoll := Device.pollReset_ofLatency (n := s.params.resetPollLimit) (d := s.resetDevice) rfl
    have hw : ({ s with initialized := false, ioBase := p.bar0 &&& 0xFFFFFFFC } : State).writeCr 0x10 =
        { s with initialized := false, ioBase := p.bar0 &&& 0xFFFFFFFC, dev := s.resetDevice, draws := s.draws + 6 } := rfl
    cases hb : p.bar0.getLsbD 0 with
    | false =>
      refine .inl ⟨rfl, ?_⟩
      simp only [State.nicInit, hfind, h3, hbar', hb, if_true]
    | true =>
      refine .inr ?_
      simp only [State.nicInit, hfind, h3, hbar', hb, Bool.true_eq_false, if_false, hw]
      cases hl : latencyEnds (Config.drawLatency (s.draws + 5)) s.params.resetPollLimit with
      | false =>
        refine .inl ⟨trivial, rfl, ?_⟩
        rw [hl] at hpoll
        rw [if_pos hpoll.1]; rfl
      | true =>
        refine .inr ⟨trivial, rfl, ?_⟩
        rw [hl] at hpoll
        rw [if_neg (by rw [hpoll.1]; decide)]
        have hc : ((p.command.zeroExtend 32 &&& 0x0000FFFF) ||| 0x00000004 : Word).extractLsb' 0 16 = p.command ||| 0x0004 := by
          apply BitVec.eq_of_getLsbD_eq
          intro i hi
          interval_cases i <;> simp
        have hcmd' : ∀ u : State, u.pci = some p → u.pciRead p.loc 0x04 = p.command.zeroExtend 32 := fun u hu => by
          simp [State.pciRead, hu]
        change ((((s.polling p).pciWriteCommand p.loc (((s.polling p).pciRead p.loc 0x04 &&& 0x0000FFFF) ||| 0x00000004)).bringUp
          rxr txr).setResMac _).finish _ = _
        rw [hcmd' (s.polling p) hp]
        have hp' : (s.polling p).pci = some p := hp
        simp only [State.pciWriteCommand, State.bringUp, hp', Option.map_some, if_true, hc]
        have hcr : (0x0C : Byte).getLsbD 4 = false ∧ (0x0C : Byte).getLsbD 2 = true ∧ (0x0C : Byte).getLsbD 3 = true := by
          decide
        simp only [State.writeCr, hcr.1, hcr.2.1, hcr.2.2, Bool.false_eq_true, if_false]
        rfl
  · exact .inl ⟨h2, by simp only [State.nicInit, hfind, h1]⟩

end Sys2Proof.Machine
end

