-- ==== Sys2Proof/Laws/Invariants.lean ====
section
/-! SUPPORT. The invariants of Safety.lean under each elementary update, so that a proof over a step needs only `step_effects`. -/

namespace Sys2Proof.Machine

variable {cmd : Option Instr}

/-! ## Arithmetic of alignment -/

theorem alignUp_mod (x : Nat) {a : Nat} : alignUp x a % a = 0 := Nat.mul_mod_left _ _

theorem le_alignUp (x : Nat) {a : Nat} (h : 0 < a) : x ≤ alignUp x a := by
  have h1 := Nat.div_add_mod (x + a - 1) a
  have h2 := Nat.mod_lt (x + a - 1) h
  rw [Nat.mul_comm] at h1
  simp only [alignUp]; omega

/-- A ring offset after an advance: inside the ring and a multiple of 4. -/
theorem ringOffset_wf (x : Nat) (k : BitVec 2) :
    (BitVec.ofNat 16 (alignUp x Config.rxPtrAlign % ringLenOf k)).toNat = alignUp x Config.rxPtrAlign % ringLenOf k ∧
      alignUp x Config.rxPtrAlign % ringLenOf k < ringLenOf k ∧
      alignUp x Config.rxPtrAlign % ringLenOf k % 4 = 0 := by
  have h2 : alignUp x Config.rxPtrAlign % 4 = 0 := alignUp_mod x (a := 4)
  rcases ringLenOf_cases k with h | h | h | h <;> rw [h] <;>
    exact ⟨by rw [BitVec.toNat_ofNat]; omega, by omega, by omega⟩

theorem ringLenOf_pos (k : BitVec 2) : 0 < ringLenOf k := by
  rcases ringLenOf_cases k with h | h | h | h <;> omega

/-! ## What NIC_INIT leaves alone -/

/-- Everything NIC_INIT can write. -/
theorem State.nicInit_eq (s : State) (rxr txr : Word) :
    s.nicInit rxr txr = { s with
      code := (s.nicInit rxr txr).code, busy := false, res := (s.nicInit rxr txr).res
      initialized := (s.nicInit rxr txr).initialized, ioBase := (s.nicInit rxr txr).ioBase
      mac := (s.nicInit rxr txr).mac, macKnown := (s.nicInit rxr txr).macKnown
      rxBase := (s.nicInit rxr txr).rxBase, txAddr := (s.nicInit rxr txr).txAddr
      txSlot := (s.nicInit rxr txr).txSlot, rxOff := (s.nicInit rxr txr).rxOff
      dev := (s.nicInit rxr txr).dev, pci := (s.nicInit rxr txr).pci, draws := (s.nicInit rxr txr).draws } := by
  simp only [State.nicInit]
  split
  · rfl
  · split
    · rfl
    · have h4 : (0x10 : Byte).getLsbD 4 = true ∧ (0x0C : Byte).getLsbD 4 = false := by decide
      simp only [State.writeCr, State.bringUp, h4.1, h4.2, Bool.false_eq_true, if_true, if_false]
      generalize Device.pollReset _ _ = r
      split <;> rfl

theorem State.nicInit_keeps (s : State) (rxr txr : Word) :
    (s.nicInit rxr txr).mem = s.mem ∧ (s.nicInit rxr txr).arp = s.arp ∧ (s.nicInit rxr txr).arpRr = s.arpRr ∧
      (s.nicInit rxr txr).ourIp = s.ourIp ∧ (s.nicInit rxr txr).params = s.params ∧
      (s.nicInit rxr txr).wireOut = s.wireOut ∧ (s.nicInit rxr txr).diag = s.diag ∧
      (s.nicInit rxr txr).faults = s.faults ∧ (s.nicInit rxr txr).phase = s.phase ∧
      (s.nicInit rxr txr).args = s.args ∧ (s.nicInit rxr txr).busy = false ∧
      (s.nicInit rxr txr).refusals = s.refusals ∧ (s.nicInit rxr txr).cmd = s.cmd ∧
      (s.nicInit rxr txr).cmdWritten = s.cmdWritten := by
  have h := s.nicInit_eq rxr txr
  generalize s.nicInit rxr txr = t at h
  rw [h]
  exact ⟨rfl, rfl, rfl, rfl, rfl, rfl, rfl, rfl, rfl, rfl, rfl, rfl, rfl, rfl⟩

/-! ## Memory and cache -/

theorem Effect.mem_wf {s t : State} (e : Effect cmd s t) (h : s.mem.wf = true) : t.mem.wf = true := by
  cases e with
  | book _ h' => rw [h']; exact h
  | store a b => exact Memory.writeBytes_wf h a b
  | learn ip m => rw [State.learn_eq]; exact h
  | nicInit rxr txr _ _ _ => rw [(s.nicInit_keeps rxr txr).1]; exact h
  | _ => exact h

theorem Effect.arpWf {s t : State} (e : Effect cmd s t) (h : s.ArpWf) : t.ArpWf := by
  cases e with
  | book _ h' => rw [h']; exact h
  | learn ip m => exact h.learn ip m
  | nicInit rxr txr _ _ _ => simp only [State.ArpWf, (s.nicInit_keeps rxr txr).2.1, (s.nicInit_keeps rxr txr).2.2.1]; exact h
  | _ => exact h

theorem Effect.params_eq {s t : State} (e : Effect cmd s t) : t.params = s.params := by
  cases e with
  | book _ h' => rw [h']
  | learn ip m => rw [State.learn_eq]
  | nicInit rxr txr _ _ _ => exact (s.nicInit_keeps rxr txr).2.2.2.2.1
  | _ => rfl

theorem Effect.args_eq {s t : State} (e : Effect cmd s t) : t.args = s.args := by
  cases e with
  | book _ h' => rw [h']
  | learn ip m => rw [State.learn_eq]
  | nicInit rxr txr _ _ _ => exact (s.nicInit_keeps rxr txr).2.2.2.2.2.2.2.2.2.1
  | _ => rfl

/-- No command writes CMD: only the HOST's write latches a word. -/
theorem Effect.cmd_eq {s t : State} (e : Effect cmd s t) : t.cmd = s.cmd ∧ t.cmdWritten = s.cmdWritten := by
  cases e with
  | book _ h' => rw [h']; exact ⟨rfl, rfl⟩
  | learn ip m => rw [State.learn_eq]; exact ⟨rfl, rfl⟩
  | nicInit rxr txr _ _ _ => exact (s.nicInit_keeps rxr txr).2.2.2.2.2.2.2.2.2.2.2.2
  | _ => exact ⟨rfl, rfl⟩

theorem Effect.faults_eq {s t : State} (e : Effect cmd s t) : t.faults = s.faults ∧ t.refusals = s.refusals := by
  cases e with
  | book _ h' => rw [h']; exact ⟨rfl, rfl⟩
  | learn ip m => rw [State.learn_eq]; exact ⟨rfl, rfl⟩
  | nicInit rxr txr _ _ _ =>
    exact ⟨(s.nicInit_keeps rxr txr).2.2.2.2.2.2.2.1, (s.nicInit_keeps rxr txr).2.2.2.2.2.2.2.2.2.2.2.1⟩
  | _ => exact ⟨rfl, rfl⟩

/-- The logs only grow. -/
theorem Effect.logs_prefix {s t : State} (e : Effect cmd s t) : s.wireOut <+: t.wireOut ∧ s.diag <+: t.diag := by
  cases e with
  | book _ h' => rw [h']; exact ⟨List.prefix_refl _, List.prefix_refl _⟩
  | log w d => exact ⟨List.prefix_append _ _, List.prefix_append _ _⟩
  | learn ip m => rw [State.learn_eq]; exact ⟨List.prefix_refl _, List.prefix_refl _⟩
  | nicInit rxr txr _ _ _ =>
    rw [(s.nicInit_keeps rxr txr).2.2.2.2.2.1, (s.nicInit_keeps rxr txr).2.2.2.2.2.2.1]
    exact ⟨List.prefix_refl _, List.prefix_refl _⟩
  | _ => exact ⟨List.prefix_refl _, List.prefix_refl _⟩

theorem Effect.ourIp_eq {s t : State} (e : Effect cmd s t) (hc : cmd ≠ some .ipSetAddress) : t.ourIp = s.ourIp := by
  cases e with
  | book _ h' => rw [h']
  | setIp ip h => exact absurd h hc
  | learn ip m => rw [State.learn_eq]
  | nicInit rxr txr _ _ _ => exact (s.nicInit_keeps rxr txr).2.2.2.1
  | _ => rfl

theorem Effect.mac_eq {s t : State} (e : Effect cmd s t) (hc : cmd ≠ some .nicInit) :
    t.mac = s.mac ∧ t.macKnown = s.macKnown := by
  cases e with
  | book _ h' => rw [h']; exact ⟨rfl, rfl⟩
  | learn ip m => rw [State.learn_eq]; exact ⟨rfl, rfl⟩
  | nicInit rxr txr h => exact absurd h hc
  | _ => exact ⟨rfl, rfl⟩

theorem Effect.arp_length {s t : State} (e : Effect cmd s t) : s.arp.length ≤ t.arp.length := by
  cases e with
  | book _ h' => rw [h']
  | learn ip m => exact s.length_learn ip m
  | nicInit rxr txr _ _ _ => rw [(s.nicInit_keeps rxr txr).2.1]
  | _ => exact Nat.le_refl _

/-! ## The device -/

theorem State.resetDevice_rp (s : State) (p : NicPci) :
    (s.polling p).dev.rp = 0 ∧ (s.polling p).dev.wp = 0 ∧ (∀ i : Fin 4, (s.polling p).dev.pending[i] = false) ∧
      (∀ i : Fin 4, (s.polling p).dev.clobbered[i] = false) := by
  rw [State.polling_dev]
  refine ⟨?_, rfl, fun i => ?_, fun i => ?_⟩
  · show ((0xFFF0 : Half).toNat + 16) % 65536 % ringLenOf _ = 0
    exact Nat.zero_mod _
  all_goals simp [State.resetDevice]

/-- The device right after a successful NIC_INIT is up. -/
theorem State.initialised_up {s : State} {p : NicPci} {rxr txr : Word}
    (hl : latencyEnds (Config.drawLatency (s.draws + 5)) s.params.resetPollLimit = true)
    (hp : s.params.Wf)
    (hr : alignUp rxr.toNat Config.rxRingAlign + s.params.rxRingLen + s.params.rxRingSlack ≤ s.params.addrSpace)
    (ht : alignUp txr.toNat Config.txBufAlign + Config.txSlots * s.params.txBufSize ≤ s.params.addrSpace) :
    (s.initialised p rxr txr).DeviceUp := by
  have hA := Params.addrSpace_le s.params
  have hL := ringLenOf_pos s.params.rblen
  have hrl := (Device.pollReset_ofLatency (n := s.params.resetPollLimit) (d := s.resetDevice) rfl).2.2 hl
  have hrx : (BitVec.ofNat 32 (alignUp rxr.toNat Config.rxRingAlign)).toNat = alignUp rxr.toNat Config.rxRingAlign := by
    rw [BitVec.toNat_ofNat]; simp only [Params.rxRingLen, Config.addrSpace] at hr hA; omega
  have hm := alignUp_mod txr.toNat (a := Config.txBufAlign)
  have hrst : (s.initialised p rxr txr).dev.resetting = false := by
    have : (s.initialised p rxr txr).dev.rstLeft = .reads 0 := hrl
    simp only [Device.resetting, this]
  have hbm : (s.initialised p rxr txr).busMaster = true := by
    simp [State.busMaster, State.initialised]
  refine ⟨rfl, rfl, rfl, rfl, hrst, hbm, rfl, rfl, ?_, rfl, ?_, ?_, fun i => ?_⟩
  · have : (s.initialised p rxr txr).dev.capr = 0xFFF0 := by simp only [State.initialised]; rw [State.polling_dev]; rfl
    rw [Device.rp, this]; exact Nat.zero_mod _
  · simp only [State.initialised, hrx]; exact alignUp_mod _
  · simp only [State.initialised, hrx]; exact hr
  · simp only [State.initialised, Fin.getElem_fin, Vector.getElem_ofFn, BitVec.toNat_ofNat]
    have hb := hp.2.1
    have h1 : i.val * s.params.txBufSize + s.params.txBufSize ≤ 4 * s.params.txBufSize := by
      rw [← Nat.succ_mul]; exact Nat.mul_le_mul_right _ i.isLt
    have h2 : 0 < s.params.txBufSize := Nat.lt_of_lt_of_le (by decide) hp.2.2.1
    simp only [Config.txSlots, Config.addrSpace, Config.txBufAlign] at hm ht hA hb ⊢
    rw [Nat.mod_eq_of_lt (show alignUp txr.toNat 16 + i.val * s.params.txBufSize < 2 ^ 32 by omega),
      Nat.mod_eq_of_lt (show alignUp txr.toNat 16 + 0 * s.params.txBufSize < 2 ^ 32 by omega)]
    exact ⟨by rw [Nat.add_mod, hm, Nat.mul_mod, hb]; simp, by simp only [State.polling]; omega, by simp [State.polling]⟩

theorem Device.rp_capr (off : Nat) (d : Device) (h : off < d.ringLen) :
    ({ d with capr := BitVec.ofNat 16 off - 16 } : Device).rp = off := by
  have h16 : (16 : Half).toNat = 16 := rfl
  have hl : ({ d with capr := BitVec.ofNat 16 off - 16 } : Device).ringLen = d.ringLen := rfl
  rw [Device.rp, hl]
  rw [Device.ringLen] at *
  simp only [BitVec.toNat_sub, BitVec.toNat_ofNat, h16] at *
  rcases ringLenOf_cases (d.rcr.extractLsb' 11 2) with e | e | e | e <;> rw [e] at h ⊢ <;> omega

/-- The device stays up while `initialized` stays 1. -/
theorem Effect.upWf {s t : State} (e : Effect cmd s t) (h : s.UpWf) : t.UpWf := by
  obtain ⟨⟨h1, h2, h3, h4⟩, hid, hup⟩ := h
  cases e with
  | book _ h' => rw [h']; exact ⟨⟨h1, h2, h3, h4⟩, hid, hup⟩
  | log w d => exact ⟨⟨h1, h2, h3, h4⟩, hid, hup⟩
  | setIp ip hc => exact ⟨⟨h1, h2, h3, h4⟩, hid, hup⟩
  | store a b => exact ⟨⟨h1, h2, h3, h4⟩, hid, hup⟩
  | learn ip m => rw [State.learn_eq]; exact ⟨⟨h1, h2, h3, h4⟩, hid, hup⟩
  | mark cl hc => exact ⟨⟨h1, h2, h3, h4⟩, hid, hup⟩
  | writeIsr v => exact ⟨⟨h1, h2, h3, h4⟩, hid, hup⟩
  | overflow => exact ⟨⟨h1, h2, h3, h4⟩, hid, hup⟩
  | sent i hi => exact ⟨⟨h1, h2, h3, h4⟩, hid, hup⟩
  | failed i hi => exact ⟨⟨h1, h2, h3, h4⟩, hid, hup⟩
  | handOver i n hi hin =>
    refine ⟨⟨h1, h2, h3, h4⟩, hid, fun hi' => ?_⟩
    obtain ⟨a1, a2, a3, a4, a5, a6, a7, a8, a9, a10, a11, a12, a13⟩ := hup hin
    refine ⟨a1, a2, a3, a4, a5, a6, a7, ?_, a9, a10, a11, a12, a13⟩
    have : (s.handOver i n).dev.tsad = s.dev.tsad.set i s.txAddr[i] := rfl
    rw [this, a8]
    simp [State.handOver]
  | rxAdvance n hin hr =>
    have hw := ringOffset_wf (s.rxOff.toNat + Config.rxHdrLen + n) s.params.rblen
    refine ⟨⟨?_, ?_, h3, h4⟩, hid, fun hi' => ?_⟩
    · simp only [State.rxAdvance, Params.rxRingLen, hw.1]; exact hw.2.1
    · simp only [State.rxAdvance, Params.rxRingLen, hw.1]; exact hw.2.2
    · obtain ⟨a1, a2, a3, a4, a5, a6, a7, a8, a9, a10, a11, a12, a13⟩ := hup hin
      refine ⟨a1, a2, a3, a4, a5, a6, a7, a8, ?_, a10, a11, a12, a13⟩
      simp only [State.rxAdvance, Params.rxRingLen, hw.1]
      exact Device.rp_capr _ _ (by rw [Device.ringLen_init a3]; exact hw.2.1)
  | nicInit rxr txr hc hr ht =>
    rcases State.nicInit_cases hid.1 rxr txr with ⟨-, e⟩ | ⟨p, -, -, -, ⟨-, e⟩ | ⟨-, -, e⟩ | ⟨-, hl, e⟩⟩ <;> rw [e]
    · exact ⟨⟨h1, h2, h3, h4⟩, hid, fun h => by cases h⟩
    · exact ⟨⟨h1, h2, h3, h4⟩, hid, fun h => by cases h⟩
    · refine ⟨⟨h1, h2, ?_, ?_⟩, hid, fun h => by cases h⟩ <;>
        simp only [State.finish, (s.resetDevice_rp p).2.1]
      · exact ringLenOf_pos _
      · rfl
    · refine ⟨⟨ringLenOf_pos _, rfl, ?_, ?_⟩, hid, fun _ => State.initialised_up hl hid hr ht⟩ <;>
        simp only [State.finish, State.setResMac, State.setRes, State.initialised, (s.resetDevice_rp p).2.1]
      · exact ringLenOf_pos _
      · rfl
  | crRead =>
    refine ⟨⟨h1, h2, by simpa using h3, by simpa using h4⟩, hid, fun hi' => ?_⟩
    have hu := hup hi'
    have : s.dev.afterCrRead = s.dev := by
      have hr := hu.2.2.2.2.1
      unfold Device.resetting at hr
      unfold Device.afterCrRead
      split at hr <;> simp_all
    simpa only [this] using hu
  | record f bad ho ha hf =>
    have hw := ringOffset_wf (s.dev.wp.toNat + Config.rxHdrLen + f.length + 4) (s.dev.rcr.extractLsb' 11 2)
    refine ⟨⟨h1, h2, ?_, ?_⟩, hid, hup⟩
    · simp only [Device.setIsr, Device.ringLen, hw.1]; exact hw.2.1
    · simp only [Device.setIsr, Device.ringLen, hw.1]; exact hw.2.2

/-- Pending slots stay servable, and only they are clobbered. -/
theorem Effect.slotsWf {s t : State} (e : Effect cmd s t) (h : s.SlotsWf) : t.SlotsWf := by
  refine ⟨e.upWf h.1, ?_⟩
  obtain ⟨⟨-, hid, hup⟩, hs⟩ := h
  cases e with
  | book _ h' => rw [h']; exact hs
  | log w d => exact hs
  | setIp ip hc => exact hs
  | store a b => exact hs
  | learn ip m => rw [State.learn_eq]; exact hs
  | mark cl hc => exact fun i => ⟨(hs i).1, fun hci => (hc i hci).elim (hs i).2 id⟩
  | writeIsr v => exact hs
  | overflow => exact hs
  | handOver i n hi hin =>
    obtain ⟨a1, -, -, -, a5, a6, -⟩ := hup hin
    intro j
    refine ⟨fun _ => ⟨a1, a6, a5⟩, fun hj => ?_⟩
    have hp := (hs j).2 hj
    simp only [State.handOver, Device.writeTsd]
    split
    · exact hp
    · simp only [Fin.getElem_fin, Vector.getElem_set]; split
      · rfl
      · exact hp
  | rxAdvance n hin hr => exact hs
  | nicInit rxr txr hc hr ht =>
    rcases State.nicInit_cases hid.1 rxr txr with ⟨-, e⟩ | ⟨p, -, -, -, ⟨-, e⟩ | ⟨-, -, e⟩ | ⟨-, hl, e⟩⟩ <;> rw [e]
    · exact hs
    · exact hs
    · intro i
      have h1 := (s.resetDevice_rp p).2.2.1 i
      have h2 := (s.resetDevice_rp p).2.2.2 i
      exact ⟨fun h => absurd (h.symm.trans h1) (by decide), fun h => absurd (h.symm.trans h2) (by decide)⟩
    · intro i
      have h1 := (s.resetDevice_rp p).2.2.1 i
      have h2 := (s.resetDevice_rp p).2.2.2 i
      exact ⟨fun h => absurd (h.symm.trans h1) (by decide), fun h => absurd (h.symm.trans h2) (by decide)⟩
  | crRead =>
    intro i
    simp only [Device.afterCrRead_te, Device.afterCrRead_pending, Device.afterCrRead_clobbered]
    refine ⟨fun hp => ?_, (hs i).2⟩
    obtain ⟨b1, b2, b3⟩ := (hs i).1 hp
    refine ⟨b1, b2, ?_⟩
    have : s.dev.afterCrRead = s.dev := by
      unfold Device.resetting at b3
      unfold Device.afterCrRead
      split at b3 <;> simp_all
    rw [this]; exact b3
  | record f bad ho ha hf => exact hs
  | sent i hi =>
    intro j
    simp only [Device.freeSlot, Device.setIsr, Device.setOwnTok, Fin.getElem_fin, Vector.getElem_set]
    split
    · simp
    · exact hs j
  | failed i hi =>
    intro j
    simp only [Device.freeSlot, Device.setIsr, Device.setOwn, Fin.getElem_fin, Vector.getElem_set]
    split
    · simp
    · exact hs j

theorem Device.rok_or (d : Device) (k : Nat) (h : d.rok = true) : (d.setIsr k).rok = true := by
  simp only [Device.rok, Device.setIsr, BitVec.getLsbD_or] at *; simp [h]

theorem Device.rok_setIsr_zero (d : Device) : (d.setIsr 0).rok = true := by
  simp [Device.rok, Device.setIsr]

theorem Device.writeIsr_rok_sticky {d : Device} {v : Half} (h : d.rok = true) (he : d.ringEmpty = false) :
    (d.writeIsr .stickyWhileNonempty v).rok = true := by
  simp only [Device.rok, Device.writeIsr, he] at *
  simp [h]

/-- While the device is up, an unread packet keeps ROK set. -/
theorem Effect.rokWf {s t : State} (e : Effect cmd s t) (h : s.RokWf) : t.RokWf := by
  refine ⟨e.upWf h.1, e.params_eq ▸ h.2.1, ?_⟩
  obtain ⟨⟨-, hid, hup⟩, hpol, hs⟩ := h
  cases e with
  | book _ h' => rw [h']; exact hs
  | log w d => exact hs
  | setIp ip hc => exact hs
  | store a b => exact hs
  | learn ip m => rw [State.learn_eq]; exact hs
  | mark cl hc => exact hs
  | writeIsr v =>
    intro hi he
    simp only [State.writeIsr, hpol]
    exact Device.writeIsr_rok_sticky (hs hi he) he
  | overflow => exact fun hi he => Device.rok_or _ _ (hs hi he)
  | handOver i n hi hin => exact hs
  | rxAdvance n hin hr => exact fun _ _ => hr
  | nicInit rxr txr hc hr ht =>
    rcases State.nicInit_cases hid.1 rxr txr with ⟨-, e⟩ | ⟨p, -, -, -, ⟨-, e⟩ | ⟨-, -, e⟩ | ⟨-, hl, e⟩⟩ <;> rw [e]
    · exact fun h => by cases h
    · exact fun h => by cases h
    · exact fun h => by cases h
    · intro _ he
      have h1 : (s.initialised p rxr txr).dev.ringEmpty = true := by
        have hu := (State.initialised_up (p := p) hl hid hr ht).2.2.2.2.2.2.2.2.1
        have hw : (s.initialised p rxr txr).dev.wp = 0 := (s.resetDevice_rp p).2.1
        rw [Device.ringEmpty, hu, hw]; rfl
      exact absurd (h1.symm.trans he) (by decide)
  | crRead =>
    intro hi he
    have h1 : s.dev.afterCrRead.ringEmpty = s.dev.ringEmpty := by simp [Device.ringEmpty, Device.rp]
    have h2 : s.dev.afterCrRead.rok = s.dev.rok := by simp [Device.rok]
    simp only [h2]
    exact hs hi (h1 ▸ he)
  | record f bad ho ha hf =>
    intro hi _
    have hrcr := (hup hi).2.2.1
    have hok : (!bad && decide (Config.ethMinFrame ≤ f.length)) = true := by
      simp only [Device.accepts, hrcr] at ha
      revert ha
      obtain ⟨-, -, -, -, -, e4, e5, -⟩ := Params.rcrInit_fields s.params
      rw [e5, e4]
      by_cases hl : f.length < Config.ethMinFrame
      · cases bad <;> simp [hl]
      · cases bad <;> simp [hl, Nat.not_lt.1 hl]
    rw [hok]
    exact Device.rok_setIsr_zero _
  | sent i hi =>
    intro hin he
    exact Device.rok_or _ 2 (hs hin he)
  | failed i hi =>
    intro hin he
    exact Device.rok_or _ 3 (hs hin he)

end Sys2Proof.Machine
end

