-- ==== Sys2Proof/Laws/Traffic.lean ====
section
/-! SUPPORT. What sending, receiving and dispatching frames leave alone, and that they never stop while the DMA regions are
accessible. -/

namespace Sys2Proof.Machine

/-! ## Memory outside ranges -/

theorem MemSame.refl (m : Memory) (rs : List MemRange) : MemSame m m rs := fun _ _ => rfl

theorem MemSame.trans {m n o : Memory} {rs : List MemRange} (h : MemSame m n rs) (h' : MemSame n o rs) : MemSame m o rs :=
  fun a ha => (h' a ha).trans (h a ha)

/-- Staying inside one range of a list is staying inside the list. -/
theorem MemSame.mono {m n : Memory} {r q : MemRange} {rs : List MemRange} (h : MemSame m n [r]) (hq : q ∈ rs)
    (hb : q.base ≤ r.base) (he : r.base + r.len ≤ q.base + q.len) : MemSame m n rs :=
  fun a ha => h a fun x hx => by
    rw [List.mem_singleton] at hx
    have := ha q hq
    subst hx; omega

theorem MemSame.writeBytes {m : Memory} (hw : m.wf = true) {a : Nat} {b : List Byte}
    (hr : a + b.length ≤ Config.addrSpace) : MemSame m (m.writeBytes a b) [⟨a, b.length⟩] :=
  fun _ hx => Memory.read_writeBytes_of_outside hw hr (hx _ (List.mem_singleton.2 rfl))

theorem State.txFrame_mem (s : State) (i : Fin 4) : (⟨s.txAddr[i].toNat, 1500⟩ : MemRange) ∈ s.txFrames := by
  simp only [State.txFrames]
  fin_cases i <;> simp

/-! ## SameButTraffic is a preorder -/

theorem State.SameButTraffic.refl {s : State} (h : s.mem.wf = true) : s.SameButTraffic s :=
  ⟨rfl, h, MemSame.refl _ _⟩

theorem State.SameButTraffic.txFrames_eq {s t : State} (h : s.SameButTraffic t) : t.txFrames = s.txFrames := by
  rw [h.1]; rfl

theorem State.SameButTraffic.trans {s t u : State} (h : s.SameButTraffic t) (h' : t.SameButTraffic u) :
    s.SameButTraffic u := by
  refine ⟨?_, h'.2.1, h.2.2.trans (h.txFrames_eq ▸ h'.2.2)⟩
  have h1 := h.1
  have h2 := h'.1
  generalize t.mem = a1, t.arp = a2, t.arpRr = a3, t.rxOff = a4, t.txSlot = a5, t.dev.isr = a6, t.dev.capr = a7,
    t.dev.tsad = a8, t.dev.tsd = a9, t.dev.pending = a10, t.dev.clobbered = a11, t.diag = a12, t.draws = a13 at h1
  subst h1
  exact h2

/-! ## Sending -/

/-- A send that answers handed the frame over. -/
theorem State.nicSend_sends {s t : State} {src : MemRange} {d : List Byte} (hw : s.mem.wf = true)
    (h : s.nicSend src d = .ok t) : s.SendsFrame t src d ∧ t.mem.wf = true := by
  obtain ⟨img, u, hu, hacc, rfl⟩ := State.nicSend_ok h
  have hlen := State.stored_length (s.clobberIfPending s.txSlot) src ⟨s.txAddr[s.txSlot].toNat, d.length⟩ d
  have hs := State.stored_state (s.clobberIfPending s.txSlot) src ⟨s.txAddr[s.txSlot].toNat, d.length⟩ d
  rw [hu] at hlen hs
  replace hlen : img.length = d.length := hlen
  have hr : s.txAddr[s.txSlot].toNat + img.length ≤ Config.addrSpace := by
    rw [hlen]
    rcases hacc with h0 | h0
    · rw [h0]; simp only [Config.addrSpace]; have := s.txAddr[s.txSlot].isLt; omega
    · exact h0.le
  have hd : BitVec.ofNat 32 (d.length % 8192) &&& 0xFFFF3FFF = BitVec.ofNat 32 (d.length % 8192) ∧
      (BitVec.ofNat 32 (d.length % 8192)).getLsbD 13 = false := by
    have hl : d.length % 8192 < 8192 := Nat.mod_lt _ (by decide)
    generalize d.length % 8192 = n at hl
    constructor
    · apply BitVec.eq_of_toNat_eq
      have e1 : (BitVec.ofNat 32 n).toNat = n := by rw [BitVec.toNat_ofNat]; omega
      rw [BitVec.toNat_and, e1]
      have : n &&& (0xFFFF3FFF : Word).toNat = n &&& 0x1FFF := by
        have e2 : n = n &&& 0x1FFF := by
          have := Nat.and_two_pow_sub_one_eq_mod n 13
          norm_num at this; rw [this]; omega
        conv_lhs => rw [e2]
        rw [Nat.and_assoc]; rfl
      rw [this]
      have := Nat.and_two_pow_sub_one_eq_mod n 13
      norm_num at this; rw [this]; omega
    · rw [BitVec.getLsbD_ofNat]
      simp only [Nat.testBit_eq_decide_div_mod_eq]
      simp; omega
  refine ⟨⟨?_, ?_, ?_⟩, ?_⟩
  · rw [show u = _ from hs]
    simp only [State.handOver, Device.writeTsd, hd.1, hd.2, State.clobberIfPending, Bool.false_eq_true, if_false]
    split <;> rfl
  · have := MemSame.writeBytes hw hr
    rw [hlen] at this; exact this
  · intro hdis
    rw [State.stored_disjoint hdis] at hu
    cases hu
    exact Memory.readBytes_writeBytes hw hr
  · exact Memory.writeBytes_wf hw _ _

theorem State.nicSend_total {s : State} {src : MemRange} {d : List Byte}
    (h : s.Accessible ⟨s.txAddr[s.txSlot].toNat, d.length⟩) : ∃ t, s.nicSend src d = .ok t := by
  have hlen := State.stored_length (s.clobberIfPending s.txSlot) src ⟨s.txAddr[s.txSlot].toNat, d.length⟩ d
  have hs := State.stored_state (s.clobberIfPending s.txSlot) src ⟨s.txAddr[s.txSlot].toNat, d.length⟩ d
  simp only [State.nicSend]
  generalize (s.clobberIfPending s.txSlot).stored src ⟨s.txAddr[s.txSlot].toNat, d.length⟩ d = p at hlen hs
  obtain ⟨img, u⟩ := p
  have ha : u.Accessible ⟨s.txAddr[s.txSlot].toNat, img.length⟩ := by
    rw [show img.length = d.length from hlen]
    have hp : u.params = s.params := by
      rw [show u = _ from hs, State.clobberIfPending_eq]
    simpa only [State.Accessible, State.window, hp] using h
  exact ⟨_, by dsimp only; rw [State.engineStore_pos ha]⟩

/-- A frame whose TX buffer meets the engine window is not handed over: the send faults. -/
theorem State.nicSend_window {s : State} {src : MemRange} {d : List Byte} (h : s.SlotOverWindow d.length) :
    s.nicSend src d = .error .bufferOverWindow := by
  have hlen := State.stored_length (s.clobberIfPending s.txSlot) src ⟨s.txAddr[s.txSlot].toNat, d.length⟩ d
  have hs := State.stored_state (s.clobberIfPending s.txSlot) src ⟨s.txAddr[s.txSlot].toNat, d.length⟩ d
  simp only [State.nicSend]
  generalize (s.clobberIfPending s.txSlot).stored src ⟨s.txAddr[s.txSlot].toNat, d.length⟩ d = p at hlen hs
  obtain ⟨img, u⟩ := p
  have hp : u.params = s.params := by rw [show u = _ from hs, State.clobberIfPending_eq]
  have hl : img.length = d.length := hlen
  dsimp only
  rw [State.engineStore_window (by rw [hl, hp]; exact h.1)
    (by rw [hl]; simp only [State.window, hp]; exact h.2)]

/-- Handing a frame over is traffic. -/
theorem State.SendsFrame.traffic {s t : State} {src : MemRange} {f : List Byte} (h : s.SendsFrame t src f)
    (hw : t.mem.wf = true) (hl : f.length ≤ 1500) : s.SameButTraffic t := by
  refine ⟨?_, hw, h.2.1.mono (s.txFrame_mem s.txSlot) (Nat.le_refl _) ?_⟩
  · have h1 := h.1
    generalize t.mem = a1, t.draws = a2 at h1
    subst h1; rfl
  · simp only; omega

theorem padFrame_length (f : List Byte) : (padFrame f).length = max Config.ethMinFrame f.length := by
  simp only [padFrame, zeros, List.length_append, List.length_replicate]; omega

theorem buildFrame_length (d m : Mac) (t : Half) (p : List Byte) :
    (buildFrame d m t p).length = max Config.ethMinFrame (Config.ethHdrLen + p.length) := by
  rw [buildFrame, padFrame_length]
  simp [macBytes, bytesBe16, bytesBe32, Config.ethHdrLen]
  omega

/-- `eth_send_frame` in its three cases (41_ethernet.md R180). -/
theorem State.ethSendFrame_cases {s t : State} {src : MemRange} {d : Mac} {ty : Half} {p : List Byte} {c : Code}
    (hw : s.mem.wf = true) (h : s.ethSendFrame src d ty p = .ok (c, t)) :
    (s.initialized = false ∧ c = .notInitialized ∧ t = s) ∨
      (s.initialized = true ∧ Config.ethMaxPayloadTx < p.length ∧ c = .tooLarge ∧ t = s) ∨
      (s.initialized = true ∧ p.length ≤ Config.ethMaxPayloadTx ∧ c = .ok ∧
        s.SendsFrame t src (buildFrame d s.mac ty p) ∧ s.SameButTraffic t) := by
  simp only [State.ethSendFrame] at h
  split at h
  · rename_i hi; cases h; exact .inl ⟨hi, rfl, rfl⟩
  · rename_i hi
    replace hi : s.initialized = true := by simpa using hi
    split at h
    · rename_i hp; cases h; exact .inr (.inl ⟨hi, hp, rfl, rfl⟩)
    · rename_i hp
      have hl : (buildFrame d s.mac ty p).length ≤ 1500 := by
        rw [buildFrame_length]
        simp only [Config.ethMinFrame, Config.ethHdrLen, Config.ethMaxPayloadTx] at *; omega
      split at h
      · rename_i u hu
        cases h
        have := State.nicSend_sends hw hu
        exact .inr (.inr ⟨hi, Nat.not_lt.1 hp, rfl, this.1, this.1.traffic this.2 hl⟩)
      · cases h

theorem State.ethSendFrame_traffic {s t : State} {src : MemRange} {d : Mac} {ty : Half} {p : List Byte} {c : Code}
    (hw : s.mem.wf = true) (h : s.ethSendFrame src d ty p = .ok (c, t)) : s.SameButTraffic t := by
  rcases State.ethSendFrame_cases hw h with ⟨-, -, rfl⟩ | ⟨-, -, -, rfl⟩ | ⟨-, -, -, -, h⟩
  · exact .refl hw
  · exact .refl hw
  · exact h

theorem State.ethSendFrame_total {s : State} (hw : s.params.Wf) (h : s.Accessible (s.txBuffer s.txSlot)) (src : MemRange) (d : Mac) (ty : Half)
    (p : List Byte) : ∃ r, s.ethSendFrame src d ty p = .ok r := by
  simp only [State.ethSendFrame]
  split
  · exact ⟨_, rfl⟩
  · split
    · exact ⟨_, rfl⟩
    · rename_i hp
      have hl : (buildFrame d s.mac ty p).length ≤ 1500 := by
        rw [buildFrame_length]
        simp only [Config.ethMinFrame, Config.ethHdrLen, Config.ethMaxPayloadTx] at *; omega
      obtain ⟨t, ht⟩ := State.nicSend_total (s := s) (src := src) (d := buildFrame d s.mac ty p)
        (h.sub (Nat.le_refl _) (by have := hw.2.2.1; simp only [State.txBuffer]; omega))
      rw [ht]; exact ⟨_, rfl⟩

/-! ## Learning, receiving and dispatching -/

theorem State.learn_traffic {s : State} (hw : s.mem.wf = true) (ip : Ip) (m : Mac) : s.SameButTraffic (s.learn ip m) := by
  refine ⟨?_, ?_, ?_⟩ <;> rw [State.learn_eq]
  · exact hw
  · exact MemSame.refl _ _

theorem State.emitDiag_traffic {s : State} (hw : s.mem.wf = true) (e : DiagEvent) : s.SameButTraffic (s.emitDiag e) :=
  ⟨rfl, hw, MemSame.refl _ _⟩

theorem State.nicReceive_traffic {s t : State} {n : Nat} {r : Code × List Byte} (hw : s.mem.wf = true)
    (h : s.nicReceive n = .ok (r, t)) : s.SameButTraffic t ∧ t.mem = s.mem := by
  obtain ⟨c, b⟩ := r
  rcases State.nicReceive_ok h with ⟨-, -, -, rfl⟩ | ⟨-, -, -, -, rfl⟩ | ⟨hi, hr, -, hdr, len, -, -, h | h⟩
  · exact ⟨.refl hw, rfl⟩
  · exact ⟨.refl hw, rfl⟩
  · rw [h.2.2.2]; exact ⟨⟨rfl, hw, MemSame.refl _ _⟩, rfl⟩
  · rw [h.2.2.2.2]; exact ⟨⟨rfl, hw, MemSame.refl _ _⟩, rfl⟩

theorem State.ethReceiveFrame_traffic {s t : State} {n : Nat} {r : Code × List Byte} (hw : s.mem.wf = true)
    (h : s.ethReceiveFrame n = .ok (r, t)) : s.SameButTraffic t ∧ t.mem = s.mem := by
  obtain ⟨c', b', hn, -⟩ := State.ethReceiveFrame_ok (c := r.1) (b := r.2) h
  exact State.nicReceive_traffic hw hn

theorem State.arpProcessPacket_traffic {s t : State} {src : MemRange} {d : List Byte} {r : Disposition}
    (hw : s.mem.wf = true) (h : s.arpProcessPacket src d = .ok (r, t)) : s.SameButTraffic t := by
  simp only [State.arpProcessPacket] at h
  split at h
  · cases h; exact .refl hw
  · split at h
    · cases h; exact .refl hw
    · have hl := State.learn_traffic hw (be32 d 14) (mac48 d 8)
      split at h
      · split at h
        · rename_i u hu
          cases h
          exact hl.trans (State.ethSendFrame_traffic hl.2.1 hu)
        · cases h
      · cases h; exact hl

theorem State.sendResolved_traffic {s t : State} {src : MemRange} {pkt : List Byte} {hop : Option Mac}
    {r : Code × Mac × Bool} (hw : s.mem.wf = true) (h : s.sendResolved src pkt hop = .ok (r, t)) : s.SameButTraffic t := by
  simp only [State.sendResolved] at h
  split at h
  · split at h
    · rename_i hu; cases h; exact State.ethSendFrame_traffic hw hu
    · cases h
  · split at h
    · cases h; exact .refl hw
    · split at h
      · rename_i hu; cases h; exact State.ethSendFrame_traffic hw hu
      · cases h

theorem State.icmpDispatched_traffic {s t : State} {src : MemRange} {m : List Byte} {sip : Ip} {r : Disposition}
    (hw : s.mem.wf = true) (h : s.icmpDispatched src m sip = .ok (r, t)) : s.SameButTraffic t := by
  simp only [State.icmpDispatched] at h
  split at h
  · cases h; exact .refl hw
  · cases h; exact State.emitDiag_traffic hw _
  · split at h
    · cases h
    · split at h
      · rename_i hu
        cases h
        have := State.sendResolved_traffic hw hu
        exact this.trans (State.emitDiag_traffic this.2.1 _)
      · cases h

theorem State.ipProcessPacket_traffic {s t : State} {src : MemRange} {d : List Byte} {m : Mac} {r : Disposition}
    (hw : s.mem.wf = true) (h : s.ipProcessPacket src d m = .ok (r, t)) : s.SameButTraffic t := by
  have hl := State.learn_traffic hw (be32 d 12) m
  simp only [State.ipProcessPacket] at h
  repeat' split at h
  all_goals first
    | exact hl.trans (State.icmpDispatched_traffic hl.2.1 h)
    | (cases h; first | exact .refl hw | exact hl)

theorem State.ethProcessFrame_traffic {s t : State} {src : MemRange} {f : List Byte} {r : Disposition}
    (hw : s.mem.wf = true) (h : s.ethProcessFrame src f = .ok (r, t)) : s.SameButTraffic t := by
  simp only [State.ethProcessFrame] at h
  repeat' split at h
  · cases h; exact .refl hw
  · exact State.arpProcessPacket_traffic hw h
  · exact State.ipProcessPacket_traffic hw h
  · cases h; exact .refl hw

theorem State.receiveAndDispatch_traffic {s t : State} {b : Bool} (hw : s.mem.wf = true)
    (h : s.receiveAndDispatch = .ok (b, t)) : s.SameButTraffic t := by
  simp only [State.receiveAndDispatch] at h
  split at h
  · cases h
  · rename_i u hu
    have h1 := (State.ethReceiveFrame_traffic hw hu).1
    split at h
    · split at h
      · rename_i hv; cases h; exact h1.trans (State.ethProcessFrame_traffic h1.2.1 hv)
      · cases h
    · cases h; exact h1

theorem State.pollRounds_traffic {n k : Nat} {s t : State} (hw : s.mem.wf = true)
    (h : State.pollRounds n s = .ok (k, t)) : s.SameButTraffic t := by
  induction n generalizing s k with
  | zero => cases h; exact .refl hw
  | succ n ih =>
    simp only [State.pollRounds] at h
    split at h
    · cases h
    · rename_i u hu; cases h; exact State.receiveAndDispatch_traffic hw hu
    · rename_i u hu
      have h1 := State.receiveAndDispatch_traffic hw hu
      split at h
      · rename_i hv; cases h; exact h1.trans (ih h1.2.1 hv)
      · cases h

theorem State.drainRounds_traffic {n k : Nat} {s t : State} (hw : s.mem.wf = true)
    (h : State.drainRounds n s = .ok (k, t)) : s.SameButTraffic t := by
  induction n generalizing s k with
  | zero => cases h
  | succ n ih =>
    simp only [State.drainRounds] at h
    split at h
    · cases h
    · rename_i u hu; cases h; exact State.receiveAndDispatch_traffic hw hu
    · rename_i u hu
      have h1 := State.receiveAndDispatch_traffic hw hu
      split at h
      · rename_i hv; cases h; exact h1.trans (ih h1.2.1 hv)
      · cases h

/-! ## Nothing stops while the DMA regions are accessible -/

/-- The DMA regions stay accessible under traffic, the ring offset staying in the ring. -/
theorem State.DmaClear.same {s t : State} (h : s.DmaClear) (hb : t.rxBase = s.rxBase) (ha : t.txAddr = s.txAddr)
    (hp : t.params = s.params) (hr : t.rxOff.toNat < s.params.rxRingLen) : t.DmaClear := by
  refine ⟨hp ▸ h.1, hp ▸ hr, ?_, fun i => ?_⟩
  · simpa only [State.Accessible, State.rxRegion, State.window, hb, hp] using h.2.2.1
  · simpa only [State.Accessible, State.txBuffer, State.window, ha, hp] using h.2.2.2 i

theorem State.nicReceive_total {s : State} (h : s.DmaClear) {n : Nat} (hn : n ≤ s.params.pollBufSize) :
    ∃ r t, s.nicReceive n = .ok (r, t) ∧ t.DmaClear := by
  have hsl := h.1.2.2.2
  have hoff := h.2.1
  have hreg := h.2.2.1
  have hwf : ∀ len, (s.rxAdvance len).rxOff.toNat < s.params.rxRingLen := fun len => by
    have := ringOffset_wf (s.rxOff.toNat + Config.rxHdrLen + len) s.params.rblen
    simp only [State.rxAdvance, Params.rxRingLen, this.1]; exact this.2.1
  cases hi : s.initialized with
  | false => exact ⟨(.notInitialized, []), s, by simp only [State.nicReceive, hi, if_true], h⟩
  | true =>
    cases hr : s.dev.rok with
    | false =>
      exact ⟨(.noData, []), s, by simp only [State.nicReceive, hi, hr, if_true, Bool.true_eq_false, if_false], h⟩
    | true =>
      have ha : s.Accessible ⟨s.ringHead, Config.rxHdrLen⟩ :=
        hreg.sub (by simp only [State.rxRegion, State.ringHead]; omega)
          (by simp only [State.rxRegion, State.ringHead, Config.rxHdrLen] at *; omega)
      simp only [State.nicReceive, hi, hr, Bool.true_eq_false, if_false, State.engineLoad_pos ha, except_ok_bind]
      split
      · exact ⟨_, _, rfl, h.same rfl rfl rfl (hwf _)⟩
      · rename_i hb
        have ha2 : ∀ k, k ≤ n → s.Accessible ⟨s.ringHead + Config.rxHdrLen, k⟩ := fun k hk =>
          hreg.sub (by simp only [State.rxRegion, State.ringHead]; omega)
            (by simp only [State.rxRegion, State.ringHead, Config.rxHdrLen] at *; omega)
        rw [State.engineLoad_pos (ha2 _ (Nat.min_le_right _ _))]
        exact ⟨_, _, rfl, h.same rfl rfl rfl (hwf _)⟩

theorem State.ethReceiveFrame_total {s : State} (h : s.DmaClear) {n : Nat} (hn : n ≤ s.params.pollBufSize) :
    ∃ r t, s.ethReceiveFrame n = .ok (r, t) ∧ t.DmaClear := by
  obtain ⟨⟨c, b⟩, t, ht, hd⟩ := State.nicReceive_total h hn
  simp only [State.ethReceiveFrame, ht]
  split
  · split <;> exact ⟨_, _, rfl, hd⟩
  · exact ⟨_, _, rfl, hd⟩

theorem State.SendsFrame.dmaClear {s t : State} {src : MemRange} {f : List Byte} (h : s.SendsFrame t src f)
    (hd : s.DmaClear) : t.DmaClear := by
  have h1 := h.1
  exact hd.same (by rw [h1]) (by rw [h1]) (by rw [h1]) (by rw [h1]; exact hd.2.1)

theorem State.ethSendFrame_dmaClear {s t : State} {src : MemRange} {d : Mac} {ty : Half} {p : List Byte} {c : Code}
    (hw : s.mem.wf = true) (hd : s.DmaClear) (h : s.ethSendFrame src d ty p = .ok (c, t)) : t.DmaClear := by
  rcases State.ethSendFrame_cases hw h with ⟨-, -, rfl⟩ | ⟨-, -, -, rfl⟩ | ⟨-, -, -, h, -⟩
  · exact hd
  · exact hd
  · exact h.dmaClear hd

theorem State.learn_dmaClear {s : State} (hd : s.DmaClear) (ip : Ip) (m : Mac) : (s.learn ip m).DmaClear := by
  rw [State.learn_eq]; exact hd

theorem State.arpProcessPacket_total {s : State} (hw : s.mem.wf = true) (h : s.DmaClear) (src : MemRange) (d : List Byte) :
    ∃ r t, s.arpProcessPacket src d = .ok (r, t) ∧ t.DmaClear := by
  simp only [State.arpProcessPacket]
  split
  · exact ⟨_, _, rfl, h⟩
  · split
    · exact ⟨_, _, rfl, h⟩
    · have hl := State.learn_dmaClear h (be32 d 14) (mac48 d 8)
      have hlw := (State.learn_traffic hw (be32 d 14) (mac48 d 8)).2.1
      split
      · obtain ⟨⟨c, t⟩, ht⟩ := State.ethSendFrame_total hl.1 (hl.2.2.2 _) src (mac48 d 8) Config.etherTypeArp
          (arpPacket Config.arpOpReply (s.learn (be32 d 14) (mac48 d 8)).mac (s.learn (be32 d 14) (mac48 d 8)).ourIp
            (mac48 d 8) (be32 d 14))
        simp only [State.arpSendReply, ht]
        exact ⟨_, _, rfl, State.ethSendFrame_dmaClear hlw hl ht⟩
      · exact ⟨_, _, rfl, hl⟩

theorem State.sendResolved_total {s : State} (hw : s.mem.wf = true) (h : s.DmaClear) (src : MemRange) (pkt : List Byte)
    (hop : Option Mac) : ∃ r t, s.sendResolved src pkt hop = .ok (r, t) ∧ t.DmaClear := by
  simp only [State.sendResolved]
  split
  · rename_i m
    obtain ⟨⟨c, t⟩, ht⟩ := State.ethSendFrame_total h.1 (h.2.2.2 _) src m Config.etherTypeIpv4 pkt
    rw [ht]; exact ⟨_, _, rfl, State.ethSendFrame_dmaClear hw h ht⟩
  · split
    · exact ⟨_, _, rfl, h⟩
    · obtain ⟨⟨c, t⟩, ht⟩ := State.ethSendFrame_total h.1 (h.2.2.2 _) src Config.broadcastMac Config.etherTypeIpv4 pkt
      rw [ht]; exact ⟨_, _, rfl, State.ethSendFrame_dmaClear hw h ht⟩

/-- A dispatched echo request is answered in the same step: its sender is in the cache (42_arp.md R215). -/
theorem State.icmpDispatched_total {s : State} (hw : s.mem.wf = true) (h : s.DmaClear) (src : MemRange) (m : List Byte)
    {sip : Ip} {hop : Mac} (hl : s.arpLookup sip = some hop) : ∃ r t, s.icmpDispatched src m sip = .ok (r, t) ∧ t.DmaClear := by
  simp only [State.icmpDispatched, hl]
  split
  · exact ⟨_, _, rfl, h⟩
  · exact ⟨_, _, rfl, h⟩
  · rename_i r id seq _
    obtain ⟨c, t, ht, hd⟩ := State.sendResolved_total hw h src (ipPacket s.params.ipTtl s.ourIp sip 1 r) (some hop)
    rw [ht]; exact ⟨_, _, rfl, hd⟩

theorem State.ipProcessPacket_total {s : State} (hw : s.mem.wf = true) (h : s.DmaClear) (src : MemRange) (d : List Byte)
    (m : Mac) : ∃ r t, s.ipProcessPacket src d m = .ok (r, t) ∧ t.DmaClear := by
  have hl := State.learn_dmaClear h (be32 d 12) m
  have hlw := (State.learn_traffic hw (be32 d 12) m).2.1
  simp only [State.ipProcessPacket]
  repeat' split
  all_goals first
    | exact State.icmpDispatched_total hlw hl _ _ (State.arpLookup_learn_self _ _ _)
    | exact ⟨_, _, rfl, h⟩
    | exact ⟨_, _, rfl, hl⟩

/-- NO NETWORK INPUT STOPS THE ENGINE (60_exceptions.md R272): any bytes are dispatched to an end. -/
theorem State.ethProcessFrame_total {s : State} (hw : s.mem.wf = true) (h : s.DmaClear) (src : MemRange) (f : List Byte) :
    ∃ r t, s.ethProcessFrame src f = .ok (r, t) ∧ t.DmaClear := by
  simp only [State.ethProcessFrame]
  repeat' split
  · exact ⟨_, _, rfl, h⟩
  · exact State.arpProcessPacket_total hw h _ _
  · exact State.ipProcessPacket_total hw h _ _ _
  · exact ⟨_, _, rfl, h⟩

theorem State.receiveAndDispatch_total {s : State} (hw : s.mem.wf = true) (h : s.DmaClear) :
    ∃ b t, s.receiveAndDispatch = .ok (b, t) ∧ t.DmaClear := by
  obtain ⟨⟨c, f⟩, t, ht, hd⟩ := State.ethReceiveFrame_total h (Nat.le_refl s.params.pollBufSize)
  simp only [State.receiveAndDispatch, ht]
  have hm := (State.ethReceiveFrame_traffic hw ht).1.2.1
  split
  · obtain ⟨r, u, hu, hdu⟩ := State.ethProcessFrame_total hm hd (s.recordRange f.length) f
    rw [hu]; exact ⟨_, _, rfl, hdu⟩
  · exact ⟨_, _, rfl, hd⟩

/-- A poll ends, having dispatched at most its bound. -/
theorem State.pollRounds_total {n : Nat} {s : State} (hw : s.mem.wf = true) (h : s.DmaClear) :
    ∃ k t, State.pollRounds n s = .ok (k, t) ∧ k ≤ n ∧ t.DmaClear := by
  induction n generalizing s with
  | zero => exact ⟨0, s, rfl, Nat.le_refl _, h⟩
  | succ n ih =>
    obtain ⟨b, t, ht, hd⟩ := State.receiveAndDispatch_total hw h
    cases b with
    | false => exact ⟨0, t, by simp only [State.pollRounds, ht], by omega, hd⟩
    | true =>
      obtain ⟨k, u, hu, hk, hdu⟩ := ih (State.receiveAndDispatch_traffic hw ht).2.1 hd
      exact ⟨k + 1, u, by simp only [State.pollRounds, ht, hu], by omega, hdu⟩

/-- A drain ends, or hangs. -/
theorem State.drainRounds_total {n : Nat} {s : State} (hw : s.mem.wf = true) (h : s.DmaClear) :
    (∃ k t, State.drainRounds n s = .ok (k, t) ∧ k < n) ∨ State.drainRounds n s = .error .drainHang := by
  induction n generalizing s with
  | zero => exact .inr rfl
  | succ n ih =>
    obtain ⟨b, t, ht, hd⟩ := State.receiveAndDispatch_total hw h
    cases b with
    | false => exact .inl ⟨0, t, by simp only [State.drainRounds, ht], by omega⟩
    | true =>
      rcases ih (State.receiveAndDispatch_traffic hw ht).2.1 hd with ⟨k, u, hu, hk⟩ | hu
      · exact .inl ⟨k + 1, u, by simp only [State.drainRounds, ht, hu], by omega⟩
      · exact .inr (by simp only [State.drainRounds, ht, hu])

end Sys2Proof.Machine
end

