-- ==== Sys2Proof/Laws/Commands.lean ====
section
/-! SUPPORT. What the operations that the commands share answer: a frame handed over, a record taken, a send tried, and how a
command ends. -/

namespace Sys2Proof.Machine

/-! ## Frames -/

/-- The builder makes the frame the layout says (30_encoding.md R110). -/
theorem buildFrame_eq (d m : Mac) (t : Half) (p : List Byte) : buildFrame d m t p = frameBytes d m t p := by
  simp [buildFrame, frameBytes, padFrame, macBytes, bytesBe16, bytesBe32, Config.ethMinFrame]

theorem frameBytes_length (d m : Mac) (t : Half) (p : List Byte) : (frameBytes d m t p).length = max 60 (14 + p.length) := by
  rw [← buildFrame_eq, buildFrame_length]; rfl

/-- A send without the device. -/
theorem State.ethSendFrame_off {s : State} (hi : s.initialized = false) (src d ty p) :
    s.ethSendFrame src d ty p = .ok (.notInitialized, s) := by
  simp only [State.ethSendFrame]; rw [if_pos hi]

/-- A send of too long a payload. -/
theorem State.ethSendFrame_big {s : State} (hi : s.initialized = true) (src d ty) {p} (hl : 1486 < p.length) :
    s.ethSendFrame src d ty p = .ok (.tooLarge, s) := by
  simp only [State.ethSendFrame]; rw [if_neg (by rw [hi]; decide), if_pos (by exact hl)]

/-- A send that fits hands its frame over. -/
theorem State.ethSendFrame_sends {s : State} (hw : s.mem.wf = true) (hi : s.initialized = true) {src d ty p}
    (hl : p.length ≤ 1486) (hs : s.SlotAccessible (max 60 (14 + p.length))) :
    ∃ u, s.ethSendFrame src d ty p = .ok (.ok, u) ∧ s.SendsFrame u src (frameBytes d s.mac ty p) := by
  obtain ⟨u, hu⟩ := State.nicSend_total (s := s) (src := src) (d := buildFrame d s.mac ty p)
    (by rw [buildFrame_length]; exact hs)
  have : s.ethSendFrame src d ty p = .ok (.ok, u) := by
    simp only [State.ethSendFrame]; rw [if_neg (by rw [hi]; decide), if_neg (by exact Nat.not_lt.2 hl), hu]
  refine ⟨u, this, ?_⟩
  rcases State.ethSendFrame_cases hw this with ⟨h, -⟩ | ⟨-, h, -⟩ | ⟨-, -, -, h, -⟩
  · rw [hi] at h; cases h
  · exact absurd h (Nat.not_lt.2 hl)
  · rw [buildFrame_eq] at h; exact h

/-- A send whose TX buffer meets the engine window faults. -/
theorem State.ethSendFrame_window {s : State} (hi : s.initialized = true) (src d ty) {p} (hl : p.length ≤ 1486)
    (hs : s.SlotOverWindow (max 60 (14 + p.length))) : s.ethSendFrame src d ty p = .error .bufferOverWindow := by
  have hn : s.nicSend src (buildFrame d s.mac ty p) = .error .bufferOverWindow :=
    State.nicSend_window (by rw [buildFrame_length]; exact hs)
  simp only [State.ethSendFrame]
  rw [if_neg (by rw [hi]; decide), if_neg (by exact Nat.not_lt.2 hl), hn]

/-- A send whose result is ignored. -/
theorem State.ethSendFrame_tries {s : State} (hw : s.mem.wf = true) {src d ty p} (hl : p.length ≤ 1486)
    (hs : s.initialized = true → s.SlotAccessible (max 60 (14 + p.length))) :
    ∃ c u, s.ethSendFrame src d ty p = .ok (c, u) ∧ s.TriesToSend u src (frameBytes d s.mac ty p) := by
  cases hi : s.initialized with
  | true =>
    obtain ⟨u, hu, h⟩ := State.ethSendFrame_sends (src := src) (d := d) (ty := ty) hw hi hl (hs hi)
    exact ⟨_, u, hu, by rw [State.TriesToSend, if_pos ⟨hi, by rw [frameBytes_length]; omega⟩]; exact h⟩
  | false => exact ⟨_, s, State.ethSendFrame_off hi .., by rw [State.TriesToSend, if_neg (by rw [hi]; simp)]⟩

theorem State.TriesToSend.keeps {s u : State} {src f} (h : s.TriesToSend u src f) :
    u.res = s.res ∧ u.phase = s.phase ∧ u.diag = s.diag ∧ u.arp = s.arp ∧ u.params = s.params ∧ u.initialized =
      s.initialized ∧ u.mac = s.mac ∧ u.ourIp = s.ourIp := by
  rw [State.TriesToSend] at h
  split at h
  · have := h.1; refine ⟨?_, ?_, ?_, ?_, ?_, ?_, ?_, ?_⟩ <;> rw [this]
  · subst h; simp

theorem arpPacket_short (a b c d e) : (arpPacket a b c d e).length ≤ 1486 := by
  show 28 ≤ 1486
  decide

theorem State.requestFrame_eq (s : State) (ip : Ip) :
    frameBytes Config.broadcastMac s.mac Config.etherTypeArp (arpPacket Config.arpOpRequest s.mac s.ourIp 0 ip) =
      s.requestFrame ip := by
  have h1 : macBytes Config.broadcastMac = [0xFF, 0xFF, 0xFF, 0xFF, 0xFF, 0xFF] := by decide
  have h2 : macBytes 0 = zeros 6 := by decide
  simp only [frameBytes, State.requestFrame, arpPacket, h1, h2]
  rfl

theorem State.replyFrame_eq (s : State) (tm : Mac) (tip sip : Ip) :
    frameBytes tm s.mac Config.etherTypeArp (arpPacket Config.arpOpReply s.mac sip tm tip) = s.replyFrame tm tip sip := by
  simp only [frameBytes, State.replyFrame, arpPacket]
  rfl

/-- The format check compares the packet's first six bytes. -/
theorem arpFormatOk_iff (d : List Byte) (h : 28 ≤ d.length) :
    arpFormatOk d = true ↔ d.take 6 = [0x00, 0x01, 0x08, 0x00, 0x06, 0x04] := by
  simp only [arpFormatOk, Bool.and_eq_true, decide_eq_true_eq]
  rw [show (1 : Half) = (0x00 : Byte) ++ (0x01 : Byte) by decide,
    show (0x0800 : Half) = (0x08 : Byte) ++ (0x00 : Byte) by decide, be16_eq, be16_eq]
  match d, h with
  | b0 :: b1 :: b2 :: b3 :: b4 :: b5 :: rest, _ =>
    simp [byteAt]; tauto

/-! ## Receiving -/

/-- A good record is taken whole. -/
theorem State.nicReceive_takes {s : State} (hi : s.initialized = true) (hr : s.dev.rok = true) (hg : s.RecordGood) {n : Nat}
    (ha : s.Accessible ⟨s.ringHead, 4 + (s.recordFrame n).length⟩) :
    ∃ u, s.nicReceive n = .ok ((.ok, s.recordFrame n), u) ∧ s.TakesRecord u := by
  have hl : (s.recordFrame n).length = min (s.recordLen - 4) n := Memory.length_readBytes _ _ _
  have h1 : s.Accessible ⟨s.ringHead, Config.rxHdrLen⟩ := ha.sub (Nat.le_refl _) (by simp only [Config.rxHdrLen]; omega)
  have h2 : s.Accessible ⟨s.ringHead + Config.rxHdrLen, min (s.recordLen - 4) n⟩ :=
    ha.sub (by simp) (by simp only [Config.rxHdrLen]; omega)
  refine ⟨(s.rxAdvance s.recordLen).writeIsr 1, ?_, s.rxAdvance s.recordLen, ⟨rfl, ?_, rfl⟩, rfl⟩
  · simp only [State.nicReceive, hi, hr, Bool.true_eq_false, if_false, State.engineLoad_pos h1, except_ok_bind]
    rw [if_neg]
    · have e : s.engineLoad ⟨s.ringHead + Config.rxHdrLen,
          min ((le16 (s.mem.readBytes s.ringHead Config.rxHdrLen) 2).toNat % 8192 - 4) n⟩ = _ := State.engineLoad_pos h2
      rw [e]; rfl
    · rw [not_or]; exact ⟨fun e => absurd (hg.1.symm.trans e) (by decide), Nat.not_lt.2 hg.2⟩
  · exact (ringOffset_wf (s.rxOff.toNat + Config.rxHdrLen + s.recordLen) s.params.rblen).1

theorem State.TakesRecord.keeps {s u : State} (h : s.TakesRecord u) :
    u.mem = s.mem ∧ u.res = s.res ∧ u.params = s.params ∧ u.mac = s.mac ∧ u.busy = s.busy := by
  obtain ⟨v, ⟨h1, -⟩, rfl⟩ := h
  refine ⟨?_, ?_, ?_, ?_, ?_⟩ <;> (show _ = _; simp only; rw [h1])

/-- A received frame is delivered. -/
theorem State.deliver_delivers {s : State} (hw : s.mem.wf = true) {src : MemRange} {dst : Nat} {b : List Byte}
    (h : s.Accessible ⟨dst, b.length⟩) :
    ∃ v, s.deliver src dst b = .ok v ∧ s.Delivers v src dst b := by
  refine ⟨_, State.deliver_ok.2 ⟨.inr h, rfl⟩, ?_, ?_, ?_, ?_⟩
  · rw [State.stored_state]; rfl
  · have := MemSame.writeBytes hw (a := dst) (b := (s.stored src ⟨dst, b.length⟩ b).1)
      (by rw [State.stored_length]; exact h.le)
    rw [State.stored_length] at this
    exact this
  · intro hd
    rw [State.stored_disjoint hd]
    exact Memory.readBytes_writeBytes hw h.le
  · intro i
    rw [State.stored_state]
    simp [State.clobberMet, State.txBuffer]

/-- The destination filter on the frame's first six bytes. -/
theorem State.acceptsFrame_iff (s : State) (b : List Byte) :
    s.acceptsFrame b = true ↔ 14 ≤ b.length ∧ (b.take 6 = macBytes s.mac ∨ b.take 6 =
      [0xFF, 0xFF, 0xFF, 0xFF, 0xFF, 0xFF]) := by
  simp only [State.acceptsFrame, Bool.and_eq_true, Bool.or_eq_true, decide_eq_true_eq]
  constructor
  · rintro ⟨h, h2⟩
    refine ⟨h, ?_⟩
    have h6 : 6 ≤ b.length := by simp only [Config.ethHdrLen] at h; omega
    rw [mac48_eq_iff _ _ h6, mac48_eq_iff _ _ h6] at h2
    exact h2
  · rintro ⟨h, h2⟩
    refine ⟨h, ?_⟩
    rw [mac48_eq_iff _ _ (by omega), mac48_eq_iff _ _ (by omega)]
    exact h2

/-- A good record is taken, and given on if the filter passes it. -/
theorem State.ethReceiveFrame_takes {s : State} (hi : s.initialized = true) (hr : s.dev.rok = true) (hg : s.RecordGood) {n : Nat}
    (ha : s.Accessible ⟨s.ringHead, 4 + (s.recordFrame n).length⟩) :
    ∃ u, s.TakesRecord u ∧ s.ethReceiveFrame n =
      .ok (if s.acceptsFrame (s.recordFrame n) then (.ok, s.recordFrame n) else (.noData, []), u) := by
  obtain ⟨u, hu, ht⟩ := State.nicReceive_takes hi hr hg ha
  refine ⟨u, ht, ?_⟩
  have : u.acceptsFrame (s.recordFrame n) = s.acceptsFrame (s.recordFrame n) := by
    simp only [State.acceptsFrame, (State.TakesRecord.keeps ht).2.2.2.1]
  simp only [State.ethReceiveFrame, hu, if_true, this]
  split <;> rfl

/-- A record whose header meets the engine window faults. -/
theorem State.ethReceiveFrame_header {s : State} (hi : s.initialized = true) (hr : s.dev.rok = true)
    (h : s.ringHead + 4 ≤ s.params.addrSpace) (hw : MemRange.meets ⟨s.ringHead, 4⟩ s.window = true) (n : Nat) :
    s.nicReceive n = .error .bufferOverWindow ∧ s.ethReceiveFrame n = .error .bufferOverWindow := by
  have e : s.nicReceive n = .error .bufferOverWindow := by
    simp only [State.nicReceive, hi, hr, Bool.true_eq_false, if_false,
      State.engineLoad_window (r := ⟨s.ringHead, Config.rxHdrLen⟩) h hw]
    rfl
  exact ⟨e, by simp [State.ethReceiveFrame, e]⟩

/-- A good record whose frame meets the engine window faults. -/
theorem State.ethReceiveFrame_frame {s : State} (hi : s.initialized = true) (hr : s.dev.rok = true)
    (ha : s.Accessible ⟨s.ringHead, 4⟩) (hg : s.RecordGood) {n : Nat}
    (h : s.ringHead + 4 + (s.recordFrame n).length ≤ s.params.addrSpace)
    (hw : MemRange.meets ⟨s.ringHead + 4, (s.recordFrame n).length⟩ s.window = true) :
    s.nicReceive n = .error .bufferOverWindow ∧ s.ethReceiveFrame n = .error .bufferOverWindow := by
  have hl : (s.recordFrame n).length = min (s.recordLen - 4) n := Memory.length_readBytes _ _ _
  rw [hl] at h hw
  have e : s.nicReceive n = .error .bufferOverWindow := by
    simp only [State.nicReceive, hi, hr, Bool.true_eq_false, if_false,
      State.engineLoad_pos (show s.Accessible ⟨s.ringHead, Config.rxHdrLen⟩ from ha), except_ok_bind]
    rw [if_neg]
    · have e : s.engineLoad ⟨s.ringHead + Config.rxHdrLen,
          min ((le16 (s.mem.readBytes s.ringHead Config.rxHdrLen) 2).toNat % 8192 - 4) n⟩ = _ := State.engineLoad_window h hw
      rw [e]; rfl
    · rw [not_or]; exact ⟨fun e => absurd (hg.1.symm.trans e) (by decide), Nat.not_lt.2 hg.2⟩
  exact ⟨e, by simp [State.ethReceiveFrame, e]⟩

/-! ## A round of a poll or a drain -/

/-- With no frame flagged nothing is received. -/
theorem State.ethReceiveFrame_none {s : State} (hi : s.initialized = true) (hr : s.dev.rok = false) (n : Nat) :
    s.ethReceiveFrame n = .ok ((.noData, []), s) := by
  simp [State.ethReceiveFrame, State.nicReceive, hi, hr]

/-- A bad record is skipped and nothing is received. -/
theorem State.ethReceiveFrame_skips {s : State} (hi : s.initialized = true) (hr : s.dev.rok = true)
    (ha : s.Accessible ⟨s.ringHead, 4⟩) (hg : ¬ s.RecordGood) (n : Nat) :
    ∃ u, s.SkipsRecord u ∧ s.ethReceiveFrame n = .ok ((.noData, []), u) := by
  refine ⟨s.rxAdvance s.recordLen, ⟨rfl, (ringOffset_wf (s.rxOff.toNat + Config.rxHdrLen + s.recordLen) s.params.rblen).1, rfl⟩, ?_⟩
  have e : s.nicReceive n = .ok ((.noData, []), s.rxAdvance s.recordLen) := by
    simp only [State.nicReceive, hi, hr, Bool.true_eq_false, if_false,
      State.engineLoad_pos (show s.Accessible ⟨s.ringHead, Config.rxHdrLen⟩ from ha), except_ok_bind]
    rw [if_pos]
    · rfl
    · by_contra hc
      rw [not_or] at hc
      exact hg ⟨(Bool.not_eq_false _).mp hc.1, Nat.not_lt.1 hc.2⟩
  simp [State.ethReceiveFrame, e]

theorem State.receiveAndDispatch_none {s : State} (hi : s.initialized = true) (hr : s.dev.rok = false) :
    s.receiveAndDispatch = .ok (false, s) := by
  simp [State.receiveAndDispatch, State.ethReceiveFrame_none hi hr]

theorem State.receiveAndDispatch_skips {s : State} (hi : s.initialized = true) (hr : s.dev.rok = true)
    (ha : s.Accessible ⟨s.ringHead, 4⟩) (hg : ¬ s.RecordGood) :
    ∃ u, s.SkipsRecord u ∧ s.receiveAndDispatch = .ok (false, u) := by
  obtain ⟨u, hu, e⟩ := State.ethReceiveFrame_skips hi hr ha hg s.params.pollBufSize
  exact ⟨u, hu, by simp [State.receiveAndDispatch, e]⟩

/-- A good record is taken; its frame is dispatched exactly if the filter passes it. -/
theorem State.receiveAndDispatch_takes {s : State} (hi : s.initialized = true) (hr : s.dev.rok = true) (hg : s.RecordGood)
    (ha : s.Accessible ⟨s.ringHead, 4 + (s.recordFrame s.params.pollBufSize).length⟩) :
    ∃ u, s.TakesRecord u ∧
      (s.acceptsFrame (s.recordFrame s.params.pollBufSize) = false → s.receiveAndDispatch = .ok (false, u)) ∧
      (s.acceptsFrame (s.recordFrame s.params.pollBufSize) = true → ∀ d v,
        u.ethProcessFrame (s.recordRange (s.recordFrame s.params.pollBufSize).length) (s.recordFrame s.params.pollBufSize) =
          .ok (d, v) → s.receiveAndDispatch = .ok (true, v)) := by
  obtain ⟨u, ht, hu⟩ := State.ethReceiveFrame_takes hi hr hg ha
  refine ⟨u, ht, fun h => ?_, fun h d v hd => ?_⟩
  · simp [State.receiveAndDispatch, hu, h]
  · simp [State.receiveAndDispatch, hu, h, hd]

/-- The DMA regions stay accessible when a record is taken. -/
theorem State.TakesRecord.dmaClear {s u : State} (h : s.TakesRecord u) (hd : s.DmaClear) : u.DmaClear := by
  obtain ⟨v, ⟨h1, h2, -⟩, rfl⟩ := h
  have e : v.rxBase = s.rxBase ∧ v.txAddr = s.txAddr ∧ v.params = s.params := by rw [h1]; exact ⟨rfl, rfl, rfl⟩
  exact hd.same e.1 e.2.1 e.2.2 (by
    show v.rxOff.toNat < _
    rw [h2]; exact Nat.mod_lt _ (ringLenOf_pos _))

/-! ## How a command ends -/

theorem State.SameButTraffic.keeps {s u : State} (h : s.SameButTraffic u) :
    u.busy = s.busy ∧ u.code = s.code ∧ u.res = s.res ∧ u.phase = s.phase := by
  have := h.1; refine ⟨?_, ?_, ?_, ?_⟩ <;> rw [this]

/-- Going on with a suspended command never stops while the DMA regions are accessible. -/
theorem State.continuePending_total {s : State} (hw : s.mem.wf = true) (h : s.DmaClear) (k : Pending) (hop : Option Mac) :
    ∃ t, s.continuePending k hop = .ok t := by
  cases k with
  | arpResolve => cases hop <;> exact ⟨_, rfl⟩
  | ipSend src pkt =>
    obtain ⟨r, t, ht, -⟩ := State.sendResolved_total hw h src pkt hop
    simp only [State.continuePending, ht]; exact ⟨_, rfl⟩
  | echoReply src pkt sip id seq =>
    obtain ⟨r, t, ht, -⟩ := State.sendResolved_total hw h src pkt hop
    simp only [State.continuePending, ht]; exact ⟨_, rfl⟩

/-- A continued command ends. -/
theorem State.continuePending_ends {s t : State} (hw : s.mem.wf = true) {k hop} (h : s.continuePending k hop = .ok t) :
    t.phase = s.phase ∧ t.busy = false := by
  simp only [State.continuePending] at h
  split at h
  · split at h <;> (cases h; exact ⟨rfl, rfl⟩)
  · rw [except_bind_ok] at h
    obtain ⟨⟨⟨c, m, fb⟩, u⟩, hu, h⟩ := h
    cases h
    exact ⟨(State.SameButTraffic.keeps (State.sendResolved_traffic hw hu)).2.2.2, rfl⟩
  · rw [except_bind_ok] at h
    obtain ⟨⟨r, u⟩, hu, h⟩ := h
    cases h
    exact ⟨(State.SameButTraffic.keeps (State.sendResolved_traffic hw hu)).2.2.2, rfl⟩

/-! ## Records the device writes -/

/-- A DMA write of one byte. -/
theorem State.dmaStore_byte {s : State} (hw : s.mem.wf = true) {a : Nat} (ha : a < Config.addrSpace) (x : Byte) :
    (s.dmaStore a [x]).mem.wf = true ∧
      (∀ y, (s.dmaStore a [x]).mem.read y = if y = a then x else s.mem.read y) ∧
      (∀ i : Fin 4, (s.dmaStore a [x]).dev.clobbered[i] = true ↔
        (s.dev.clobbered[i] = true ∨ s.dev.pending[i] = true ∧ (s.txBuffer i).meets ⟨a, 1⟩ = true)) := by
  have hp : physAddr a = a := Nat.mod_eq_of_lt ha
  refine ⟨Memory.writeBytes_wf hw a [x], fun y => ?_, fun i => ?_⟩
  · show (s.mem.writeBytes a [x]).read y = _
    rw [Memory.read_writeBytes hw (by simpa using ha)]
    by_cases h : y = a
    · subst h; simp
    · rw [if_neg (by simp; omega), if_neg h]
  · simp [State.dmaStore, State.clobberMet, State.txBuffer, hp]

/-- A record stored byte by byte: each byte at its place in the ring, every other byte of memory as it was, and a pending slot
clobbered exactly if its buffer holds one of the places. -/
theorem State.dmaStoreWrapped_bytes {s : State} {off : Nat} {b : List Byte} (hw : s.mem.wf = true)
    (hr : s.dev.rbstart.toNat + s.dev.ringLen ≤ Config.addrSpace) (hb : b.length ≤ s.dev.ringLen) :
    let a := fun k : Nat => s.dev.rbstart.toNat + (off + k) % s.dev.ringLen
    (∀ k, k < b.length → b[k]? = some ((s.dmaStoreWrapped off b).mem.read (a k))) ∧
      (∀ x, (∀ k, k < b.length → x ≠ a k) → (s.dmaStoreWrapped off b).mem.read x = s.mem.read x) ∧
      ∀ i : Fin 4, (s.dmaStoreWrapped off b).dev.clobbered[i] = true ↔
        (s.dev.clobbered[i] = true ∨
          s.dev.pending[i] = true ∧ ∃ k, k < b.length ∧ (s.txBuffer i).meets ⟨a k, 1⟩ = true) := by
  have hL : 0 < s.dev.ringLen := ringLenOf_pos _
  induction b generalizing s off with
  | nil => exact ⟨fun k h => absurd h (Nat.not_lt_zero _), fun _ _ => rfl, fun i => by simp [State.dmaStoreWrapped]⟩
  | cons x rest ih =>
    intro a
    have ha : a 0 < Config.addrSpace := by
      have := Nat.mod_lt (off + 0) hL
      show s.dev.rbstart.toNat + _ < _; omega
    obtain ⟨h1, h2, h3⟩ := State.dmaStore_byte hw ha x
    have e : s.dmaStoreWrapped off (x :: rest) = (s.dmaStore (a 0) [x]).dmaStoreWrapped (off + 1) rest := rfl
    obtain ⟨i1, i2, i3⟩ := ih (s := s.dmaStore (a 0) [x]) (off := off + 1) h1 hr (by simp at hb; exact Nat.le_of_lt hb) hL
    have ea : ∀ k, s.dev.rbstart.toNat + (off + 1 + k) % s.dev.ringLen = a (k + 1) := fun k => by
      show _ = _ + (off + (k + 1)) % _; rw [show off + 1 + k = off + (k + 1) by omega]
    have hne : ∀ k, k < rest.length → a 0 ≠ a (k + 1) := fun k hk h => by
      have h' : (off + 0) % s.dev.ringLen = (off + (k + 1)) % s.dev.ringLen := Nat.add_left_cancel h
      have hk' : k + 1 < s.dev.ringLen := by simp at hb; omega
      have := (Nat.modEq_iff_dvd' (show off + 0 ≤ off + (k + 1) by omega)).1 h'
      rw [show off + (k + 1) - (off + 0) = k + 1 by omega] at this
      exact absurd (Nat.le_of_dvd (by omega) this) (by omega)
    refine ⟨fun k hk => ?_, fun y hy => ?_, fun i => ?_⟩
    · cases k with
      | zero =>
        rw [e, i2 (a 0) (fun k hk h => hne k hk (h.trans (ea k))), h2, if_pos rfl]; rfl
      | succ k =>
        have hk' : k < rest.length := by simpa using hk
        rw [e, ← ea k]; exact i1 k hk'
    · rw [e, i2 y (fun k hk h => hy (k + 1) (by simpa using hk) (h.trans (ea k))), h2, if_neg (hy 0 (by simp))]
    · rw [e, i3 i, h3 i]
      constructor
      · rintro ((h | ⟨hp, h⟩) | ⟨hp, k, hk, h⟩)
        · exact .inl h
        · exact .inr ⟨hp, 0, by simp, h⟩
        · exact .inr ⟨hp, k + 1, by simpa using hk, by rw [← ea k]; exact h⟩
      · rintro (h | ⟨hp, k, hk, h⟩)
        · exact .inl (.inl h)
        · cases k with
          | zero => exact .inl (.inr ⟨hp, h⟩)
          | succ k => exact .inr ⟨hp, k, by simpa using hk, by rw [← ea k] at h; exact h⟩

end Sys2Proof.Machine
end

