-- ==== Sys2Proof/Laws/PerInstr.lean ====
section
/-! SUPPORT. A law of every command as syntax: its word round-trips, its MBZ bits are zero, and its opcode is the one its family's
rows of 30_encoding.md R101 share. -/

namespace Sys2Proof.Laws.Encoding

/-- The bytes of a command's word decode to it and leave what follows; the word has MBZ zero and an opcode of the map; the command
reads at most the five ARG registers. -/
def Statement (i : Instr) : Prop :=
  (∀ rest : List Byte, decodeBytes (bytesOfWord (encode i) ++ rest) = .ok (i, rest)) ∧
    mbzIsZero (encode i) = true ∧ (encode i).toNat = i.opcode.toNat ∧ decodeOpcode i.opcode = some i ∧ i.argCount ≤ 5

theorem nicInit : Statement .nicInit := ⟨fun _ => rfl, by decide, by decide, by decide, by decide⟩
theorem nicSend : Statement .nicSend := ⟨fun _ => rfl, by decide, by decide, by decide, by decide⟩
theorem nicReceive : Statement .nicReceive := ⟨fun _ => rfl, by decide, by decide, by decide, by decide⟩
theorem nicIrq : Statement .nicIrq := ⟨fun _ => rfl, by decide, by decide, by decide, by decide⟩
theorem ethSendFrame : Statement .ethSendFrame := ⟨fun _ => rfl, by decide, by decide, by decide, by decide⟩
theorem ethReceiveFrame : Statement .ethReceiveFrame := ⟨fun _ => rfl, by decide, by decide, by decide, by decide⟩
theorem ethProcessFrame : Statement .ethProcessFrame := ⟨fun _ => rfl, by decide, by decide, by decide, by decide⟩
theorem ethPoll : Statement .ethPoll := ⟨fun _ => rfl, by decide, by decide, by decide, by decide⟩
theorem arpLookup : Statement .arpLookup := ⟨fun _ => rfl, by decide, by decide, by decide, by decide⟩
theorem arpAddOrUpdate : Statement .arpAddOrUpdate := ⟨fun _ => rfl, by decide, by decide, by decide, by decide⟩
theorem arpSendRequest : Statement .arpSendRequest := ⟨fun _ => rfl, by decide, by decide, by decide, by decide⟩
theorem arpSendReply : Statement .arpSendReply := ⟨fun _ => rfl, by decide, by decide, by decide, by decide⟩
theorem arpProcessPacket : Statement .arpProcessPacket := ⟨fun _ => rfl, by decide, by decide, by decide, by decide⟩
theorem arpResolve : Statement .arpResolve := ⟨fun _ => rfl, by decide, by decide, by decide, by decide⟩
theorem arpPoll : Statement .arpPoll := ⟨fun _ => rfl, by decide, by decide, by decide, by decide⟩
theorem ipSetAddress : Statement .ipSetAddress := ⟨fun _ => rfl, by decide, by decide, by decide, by decide⟩
theorem ipSendPacket : Statement .ipSendPacket := ⟨fun _ => rfl, by decide, by decide, by decide, by decide⟩
theorem ipProcessPacket : Statement .ipProcessPacket := ⟨fun _ => rfl, by decide, by decide, by decide, by decide⟩
theorem ipChecksum : Statement .ipChecksum := ⟨fun _ => rfl, by decide, by decide, by decide, by decide⟩
theorem icmpSendEchoRequest : Statement .icmpSendEchoRequest := ⟨fun _ => rfl, by decide, by decide, by decide, by decide⟩
theorem icmpProcessPacket : Statement .icmpProcessPacket := ⟨fun _ => rfl, by decide, by decide, by decide, by decide⟩

end Sys2Proof.Laws.Encoding
end

