-- ==== Sys2Proof/Tests/Slice0.lean ====
section
/-! SUPPORT. Small tests: the words of 30_encoding.md R101, and single steps whose expected results stand in 95_test_vectors.md (the vector's
id is in each comment). -/

namespace Sys2Proof.Tests

open Sys2Proof Sys2Proof.Machine

set_option Elab.async false

/-! ## Helpers -/

/-- The outcome is a next state with the property. -/
def nextHas (o : Host.Outcome State Fault Refusal) (p : State → Bool) : Bool :=
  match o with
  | .next t => p t
  | .fault _ => false
  | .refused _ => false

/-- The outcome is this fault. -/
def faultIs (o : Host.Outcome State Fault Refusal) (f : Fault) : Bool :=
  match o with
  | .next _ => false
  | .fault g => decide (g = f)
  | .refused _ => false

/-- The outcome is this refusal. -/
def refusalIs (o : Host.Outcome State Fault Refusal) (r : Refusal) : Bool :=
  match o with
  | .next _ => false
  | .fault _ => false
  | .refused q => decide (q = r)

/-- POWER_ON with the common platform values of 95_test_vectors.md. -/
def powerOn : State :=
  State.launch { Config.params with engineBase := 0xFE000000 } 0x525400123456
    (some ⟨⟨0, 3, 0⟩, 0x10EC, 0x8139, 0x0001, 0x0000C001⟩) []

/-- The ARG registers hold these values, all written. -/
def withArgs (s : State) (a0 a1 a2 a3 a4 : Word) : State :=
  { s with args := Vector.ofFn fun i : Fin 5 => ⟨[a0, a1, a2, a3, a4].getD i.val 0, true⟩ }

/-- Host memory holds bytes at an address. -/
def withMem (s : State) (a : Nat) (b : List Byte) : State :=
  { s with mem := s.mem.writeBytes a b }

/-- UP with the common platform values and our_ip = 10.0.2.15. -/
def up : State :=
  { withArgs powerOn 0 0 0 0 0 with
    cmd := 0x00000030
    cmdWritten := true
    res := (powerOn.res.set 0 ⟨0x5254, true⟩).set 1 ⟨0x00123456, true⟩
    initialized := true
    ioBase := 0xC000
    mac := 0x525400123456
    macKnown := true
    rxBase := 0x00100100
    txAddr := Vector.ofFn fun i : Fin 4 => [0x00200010, 0x00200610, 0x00200C10, 0x00201210].getD i.val 0
    ourIp := 0x0A00020F
    pci := some ⟨⟨0, 3, 0⟩, 0x10EC, 0x8139, 0x0005, 0x0000C001⟩
    dev := { powerOn.dev with
      te := true, re := true, rcr := 0x8D, imr := 0x0005, rbstart := 0x00100100
      tsad := Vector.ofFn fun i : Fin 4 => [0x00200010, 0x00200610, 0x00200C10, 0x00201210].getD i.val 0 } }

/-- The cache holds the peer, 10.0.2.2 at 52:55:0a:00:02:02. -/
def withPeer (s : State) : State :=
  { s with arp := [⟨0x0A000202, 0x52550A000202, 0⟩] }

/-- The WIRE has delivered a frame at ring offset 0: record, WP and ROK as 40_nic.md R166 leaves them. -/
def withFrame (s : State) (f : List Byte) : State :=
  let n := alignUp (8 + f.length) 4
  { withMem s 0x00100100 (ringRecord 0x0001 f [0, 0, 0, 0]) with
    dev := { s.dev with wp := BitVec.ofNat 16 n, isr := 0x0001 } }

/-- The first bytes of the image in a TX buffer. -/
def image (s : State) (i : Fin 4) (n : Nat) : List Byte :=
  s.mem.readBytes s.txAddr[i].toNat n

/-- F1, our ARP request for 10.0.2.2. -/
def frameF1 : List Byte :=
  [0xff, 0xff, 0xff, 0xff, 0xff, 0xff, 0x52, 0x54, 0x00, 0x12, 0x34, 0x56, 0x08, 0x06, 0x00, 0x01, 0x08, 0x00, 0x06, 0x04,
    0x00, 0x01, 0x52, 0x54, 0x00, 0x12, 0x34, 0x56, 0x0a, 0x00, 0x02, 0x0f, 0x00, 0x00, 0x00, 0x00, 0x00, 0x00, 0x0a, 0x00,
    0x02, 0x02] ++ zeros 18

/-- F2, the peer's ARP request for 10.0.2.15. -/
def frameF2 : List Byte :=
  [0xff, 0xff, 0xff, 0xff, 0xff, 0xff, 0x52, 0x55, 0x0a, 0x00, 0x02, 0x02, 0x08, 0x06, 0x00, 0x01, 0x08, 0x00, 0x06, 0x04,
    0x00, 0x01, 0x52, 0x55, 0x0a, 0x00, 0x02, 0x02, 0x0a, 0x00, 0x02, 0x02, 0x00, 0x00, 0x00, 0x00, 0x00, 0x00, 0x0a, 0x00,
    0x02, 0x0f] ++ zeros 18

/-- F3, our ARP reply to the peer. -/
def frameF3 : List Byte :=
  [0x52, 0x55, 0x0a, 0x00, 0x02, 0x02, 0x52, 0x54, 0x00, 0x12, 0x34, 0x56, 0x08, 0x06, 0x00, 0x01, 0x08, 0x00, 0x06, 0x04,
    0x00, 0x02, 0x52, 0x54, 0x00, 0x12, 0x34, 0x56, 0x0a, 0x00, 0x02, 0x0f, 0x52, 0x55, 0x0a, 0x00, 0x02, 0x02, 0x0a, 0x00,
    0x02, 0x02] ++ zeros 18

/-- F4, the peer's ARP reply to us. -/
def frameF4 : List Byte :=
  [0x52, 0x54, 0x00, 0x12, 0x34, 0x56, 0x52, 0x55, 0x0a, 0x00, 0x02, 0x02, 0x08, 0x06, 0x00, 0x01, 0x08, 0x00, 0x06, 0x04,
    0x00, 0x02, 0x52, 0x55, 0x0a, 0x00, 0x02, 0x02, 0x0a, 0x00, 0x02, 0x02, 0x52, 0x54, 0x00, 0x12, 0x34, 0x56, 0x0a, 0x00,
    0x02, 0x0f] ++ zeros 18

/-- ECHO_DEFAULT_PATTERN. -/
def pattern32 : List Byte := (List.range 32).map (BitVec.ofNat 8)

/-- F5, our echo request to the peer. -/
def frameF5 : List Byte :=
  [0x52, 0x55, 0x0a, 0x00, 0x02, 0x02, 0x52, 0x54, 0x00, 0x12, 0x34, 0x56, 0x08, 0x00, 0x45, 0x00, 0x00, 0x3c, 0x00, 0x00,
    0x00, 0x00, 0x40, 0x01, 0x62, 0xb1, 0x0a, 0x00, 0x02, 0x0f, 0x0a, 0x00, 0x02, 0x02, 0x08, 0x00, 0x06, 0xfe, 0x00, 0x01,
    0x00, 0x00] ++ pattern32

/-- The IP packet of F6, the peer's echo reply to F5. -/
def packetF6 : List Byte :=
  [0x45, 0x00, 0x00, 0x3c, 0x00, 0x00, 0x00, 0x00, 0x40, 0x01, 0x62, 0xb1, 0x0a, 0x00, 0x02, 0x02, 0x0a, 0x00, 0x02, 0x0f,
    0x00, 0x00, 0x0e, 0xfe, 0x00, 0x01, 0x00, 0x00] ++ pattern32

/-- F7, the peer's echo request. -/
def frameF7 : List Byte :=
  [0x52, 0x54, 0x00, 0x12, 0x34, 0x56, 0x52, 0x55, 0x0a, 0x00, 0x02, 0x02, 0x08, 0x00, 0x45, 0x00, 0x00, 0x20, 0x00, 0x00,
    0x00, 0x00, 0x40, 0x01, 0x62, 0xcd, 0x0a, 0x00, 0x02, 0x02, 0x0a, 0x00, 0x02, 0x0f, 0x08, 0x00, 0x20, 0xfe, 0x12, 0x34,
    0x00, 0x07, 0x61, 0x62, 0x63, 0x64] ++ zeros 14

/-- F8, our echo reply to F7. -/
def frameF8 : List Byte :=
  [0x52, 0x55, 0x0a, 0x00, 0x02, 0x02, 0x52, 0x54, 0x00, 0x12, 0x34, 0x56, 0x08, 0x00, 0x45, 0x00, 0x00, 0x20, 0x00, 0x00,
    0x00, 0x00, 0x40, 0x01, 0x62, 0xcd, 0x0a, 0x00, 0x02, 0x0f, 0x0a, 0x00, 0x02, 0x02, 0x00, 0x00, 0x28, 0xfe, 0x12, 0x34,
    0x00, 0x07, 0x61, 0x62, 0x63, 0x64] ++ zeros 14

/-- A 60-byte frame to 52:54:00:aa:bb:cc. -/
def frameElsewhere : List Byte :=
  [0x52, 0x54, 0x00, 0xaa, 0xbb, 0xcc] ++ zeros 54

/-! ## WellFormed: an ill-formed term for each check -/

/-- R104: IP_CHECKSUM takes two operands. -/
theorem test_wellFormed_operandCount :
    (CommandLine.mk .ipChecksum [0x10000]).wellFormed = false ∧ (CommandLine.mk .ipChecksum [0x10000, 20]).wellFormed = true := by
  decide

/-- R166: 13 and 1515 bytes are no offers, 14 and 1514 are. -/
theorem test_wellFormedOffer_bounds :
    let p := Config.params
    wellFormedOffer p (zeros 13) = false ∧ wellFormedOffer p (zeros 14) = true ∧ wellFormedOffer p (zeros 1514) = true ∧
      wellFormedOffer p (zeros 1515) = false := by
  decide +kernel

/-- R7: its values fit each other; R78: a slot stride that is no multiple of 16 does not. -/
theorem test_paramsWf : Config.params.Wf ∧ ¬ ({ Config.params with txBufSize := 1530 } : Params).Wf := by
  decide +kernel

/-- R100: bit 8 set is not MBZ. -/
theorem test_mbzIsZero_bit8 : mbzIsZero 0x00000120 = false ∧ mbzIsZero 0x00000020 = true := by decide

/-! ## Decoding: words written out from R101, bit by bit -/

theorem test_decode_nic :
    decode 0b00000000000000000000000000000001 = .ok .nicInit ∧ decode 0b00000000000000000000000000000010 = .ok .nicSend ∧
      decode 0b00000000000000000000000000000011 = .ok .nicReceive ∧ decode 0b00000000000000000000000000000100 = .ok .nicIrq :=
  ⟨rfl, rfl, rfl, rfl⟩

theorem test_decode_ethernet :
    decode 0b00000000000000000000000000010000 = .ok .ethSendFrame ∧ decode 0b00000000000000000000000000010001 = .ok .ethReceiveFrame ∧
      decode 0b00000000000000000000000000010010 = .ok .ethProcessFrame ∧ decode 0b00000000000000000000000000010011 = .ok .ethPoll :=
  ⟨rfl, rfl, rfl, rfl⟩

theorem test_decode_arp :
    decode 0b00000000000000000000000000100000 = .ok .arpLookup ∧ decode 0b00000000000000000000000000100001 = .ok .arpAddOrUpdate ∧
      decode 0b00000000000000000000000000100010 = .ok .arpSendRequest ∧ decode 0b00000000000000000000000000100011 = .ok .arpSendReply ∧
      decode 0b00000000000000000000000000100100 = .ok .arpProcessPacket ∧ decode 0b00000000000000000000000000100101 = .ok .arpResolve ∧
      decode 0b00000000000000000000000000100110 = .ok .arpPoll :=
  ⟨rfl, rfl, rfl, rfl, rfl, rfl, rfl⟩

theorem test_decode_ip_icmp :
    decode 0b00000000000000000000000000110000 = .ok .ipSetAddress ∧ decode 0b00000000000000000000000000110001 = .ok .ipSendPacket ∧
      decode 0b00000000000000000000000000110010 = .ok .ipProcessPacket ∧ decode 0b00000000000000000000000000110011 = .ok .ipChecksum ∧
      decode 0b00000000000000000000000001000000 = .ok .icmpSendEchoRequest ∧
      decode 0b00000000000000000000000001000001 = .ok .icmpProcessPacket :=
  ⟨rfl, rfl, rfl, rfl, rfl, rfl⟩

/-- E1 to E5, by name. -/
theorem test_decode_rejects :
    decode 0x00000000 = .error (.unknownOpcode 0x00) ∧ decode 0x00000005 = .error (.unknownOpcode 0x05) ∧
      decode 0x00000014 = .error (.unknownOpcode 0x14) ∧ decode 0x00000042 = .error (.unknownOpcode 0x42) ∧
      decode 0x00000120 = .error .mbzNotZero ∧ decode 0xFFFFFFFF = .error .mbzNotZero ∧
      decodeBytes [0x20, 0x00] = .error .truncated :=
  ⟨rfl, rfl, rfl, rfl, rfl, rfl, rfl⟩

/-- R76: the least significant byte of a word is first. -/
theorem test_decodeBytes_littleEndian : decodeBytes [0x33, 0x00, 0x00, 0x00, 0x07] = .ok (.ipChecksum, [0x07]) := rfl

/-! ## NIC -/

/-- N1's registers, from a device whose soft reset ended: bringUp (R141 steps 5 to 7). -/
theorem test_bringUp_N1 :
    let t := powerOn.bringUp 0x00100010 0x00200004
    t.rxBase = 0x00100100 ∧ t.dev.tsad[1] = 0x00200610 ∧ t.dev.tsad[3] = 0x00201210 ∧ t.dev.rcr = 0x8D ∧ t.dev.imr = 0x0005 ∧
      t.dev.crWord = 0x0D ∧ t.mac = 0x525400123456 := by
  decide +kernel

/-- N6: the range rule comes before any effect. -/
theorem test_nicInit_addrWrap_N6 : faultIs (exec .nicInit (withArgs powerOn 0xFFFFE000 0x00200004 0 0 0)) .addrWrap = true := by
  decide +kernel

/-- R141: the scan finds bus 0, device 3, function 0; N3: a memory BAR. -/
theorem test_nicInit_barNotIo_N3 :
    powerOn.pciFind = some ⟨0, 3, 0⟩ ∧
      nextHas (exec .nicInit (withArgs { powerOn with pci := some ⟨⟨0, 3, 0⟩, 0x10EC, 0x8139, 0x0001, 0xE0000000⟩ } 0x00100010 0x00200004 0 0 0))
        (fun t => decide (t.code = .barNotIo) && !t.initialized) = true := by
  decide +kernel

/-- R142: two reads of 1, then 0; N5 in small: the last read of 1 ends the reset and the poll gives up. -/
theorem test_pollReset_R142 :
    (Device.pollReset 5 { powerOn.dev with rstLeft := .reads 2 }).1 = true ∧
      Device.pollReset 5 { powerOn.dev with rstLeft := .reads 5 } = (false, { powerOn.dev with rstLeft := .reads 0 }) := by
  decide +kernel

/-- N8: slot 3, 60 bytes, and the slot index wraps. -/
theorem test_nicSend_N8 :
    nextHas (exec .nicSend (withArgs { withMem up 0x10000 [0xAA, 0xBB] with txSlot := 3 } 0x00010000 60 0 0 0))
      (fun t => decide (t.txSlot = 0) && decide (t.dev.tsd[3] = 0x3C) && decide (t.dev.tsad[3] = 0x00201210) &&
        decide (image t 3 3 = [0xAA, 0xBB, 0x00]) && t.dev.pending[3]) = true := by
  decide +kernel

/-- N10: 1537 bytes are too large. -/
theorem test_nicSend_N10 :
    nextHas (exec .nicSend (withArgs up 0x00010000 1537 0 0 0))
      (fun t => decide (t.code = .tooLarge) && decide (t.txSlot = 0) && !t.dev.pending[0]) = true := by
  decide +kernel

/-- N16: one frame received whole. -/
theorem test_nicReceive_N16 :
    nextHas (exec .nicReceive (withArgs (withFrame up frameF2) 0x00020000 1536 0 0 0))
      (fun t => decide (t.res[0].value = 60) && decide (t.rxOff = 68) && decide (t.dev.capr = 0x0034) && !t.dev.rok &&
        decide (t.mem.readBytes 0x00020000 60 = frameF2)) = true := by
  decide +kernel

/-- N21: a bad packet is skipped and ROK not acknowledged. -/
theorem test_nicReceive_N21 :
    nextHas (exec .nicReceive (withArgs { withMem up 0x00100100 [0x00, 0x00, 0x40, 0x00] with dev := { up.dev with isr := 1 } } 0x00020000 1536 0 0 0))
      (fun t => decide (t.code = .noData) && decide (t.rxOff = 68) && t.dev.rok) = true := by
  decide +kernel

/-- R104: without the device RES0 is 0 too. -/
theorem test_nicReceive_R104 :
    nextHas (exec .nicReceive (withArgs (powerOn.setRes 0 7) 0x00020000 1536 0 0 0))
      (fun t => decide (t.code = .notInitialized) && decide (t.res[0] = ⟨0, true⟩)) = true := by
  decide +kernel

/-- N31: the handler drains one ARP request and answers it. -/
theorem test_nicIrq_N31 :
    nextHas (exec .nicIrq (withFrame up frameF2))
      (fun t => decide (t.irqIsr = 1) && decide (t.irqDrained = 1) && decide (t.dev.isr = 0) && !t.irqLine &&
        decide (t.arp = [⟨0x0A000202, 0x52550A000202, 0⟩]) && decide (image t 0 60 = frameF3)) = true := by
  decide +kernel

/-- N32: TOK alone is acknowledged and nothing drained. -/
theorem test_nicIrq_N32 :
    nextHas (exec .nicIrq { up with dev := { up.dev with isr := 0x0004 } })
      (fun t => decide (t.dev.isr = 0) && decide (t.irqIsr = 4) && decide (t.irqDrained = 0)) = true := by
  decide +kernel

/-! ## Ethernet -/

/-- H1: W4's frame, an 8-byte payload padded to 60 bytes. -/
theorem test_ethSendFrame_H1 :
    nextHas (exec .ethSendFrame (withArgs (withMem up 0x10000 [1, 2, 3, 4, 5, 6, 7, 8]) 0xFFFF 0xFFFFFFFF 0xABCD0800 0x10000 8))
      (fun t => decide (image t 0 60 = [0xff, 0xff, 0xff, 0xff, 0xff, 0xff, 0x52, 0x54, 0x00, 0x12, 0x34, 0x56, 0x08, 0x00,
        1, 2, 3, 4, 5, 6, 7, 8] ++ zeros 38) && decide (t.dev.tsd[0] = 0x3C)) = true := by
  decide +kernel

/-- H5: 1487 payload bytes are too large. -/
theorem test_ethSendFrame_H5 : (buildFrame 0 0 0 (zeros 1486)).length = 1500 ∧
    (match up.ethSendFrame MemRange.none 0 0 (zeros 1487) with | .ok (c, _) => decide (c = .tooLarge) | .error _ => false) = true := by
  decide +kernel

/-- W5: a frame to another MAC is consumed and gives NO_DATA. -/
theorem test_ethReceiveFrame_W5 :
    nextHas (exec .ethReceiveFrame (withArgs (withFrame up frameElsewhere) 0x00020000 1536 0 0 0))
      (fun t => decide (t.code = .noData) && decide (t.res[0].value = 0) && decide (t.rxOff = 68) && !t.dev.rok) = true := by
  decide +kernel

/-- H9: a broadcast frame passes the filter. -/
theorem test_ethReceiveFrame_H9 :
    nextHas (exec .ethReceiveFrame (withArgs (withFrame up frameF2) 0x00020000 1536 0 0 0))
      (fun t => decide (t.code = .ok) && decide (t.res[0].value = 60)) = true := by
  decide +kernel

/-- H13 and H14. -/
theorem test_ethProcessFrame_H13_H14 :
    nextHas (exec .ethProcessFrame (withArgs (withMem up 0x10000 (zeros 12 ++ [0x08, 0x06])) 0x10000 14 0 0 0))
        (fun t => decide (t.res[0].value = 1)) = true ∧
      nextHas (exec .ethProcessFrame (withArgs (withMem up 0x10000 (zeros 12 ++ [0x86, 0xDD])) 0x10000 60 0 0 0))
        (fun t => decide (t.res[0].value = 5)) = true := by
  decide +kernel

/-- P5: one echo request answered by a poll, its padding not echoed. -/
theorem test_ethPoll_P5 :
    nextHas (exec .ethPoll (withFrame up frameF7))
      (fun t => decide (t.res[0].value = 1) && decide (image t 0 60 = frameF8) && decide (t.engstatWord = 0x00000111) &&
        decide (t.diag = [.echoRequestAnswered 0x0A000202 0x1234 7])) = true := by
  decide +kernel

/-- H19. -/
theorem test_arpPoll_H19 :
    nextHas (exec .arpPoll powerOn) (fun t => decide (t.code = .notInitialized) && decide (t.res[0] = ⟨0, true⟩)) = true := by
  decide +kernel

/-! ## ARP -/

/-- A1 and A2. -/
theorem test_arpLookup_A1_A2 :
    nextHas (exec .arpLookup (withArgs powerOn 0x0A000202 0 0 0 0)) (fun t => decide (t.code = .miss) && !t.res[0].written) = true ∧
      nextHas (exec .arpLookup (withArgs (withPeer powerOn) 0x0A000202 0 0 0 0))
        (fun t => decide (t.res[0].value = 0x5255) && decide (t.res[1].value = 0x0A000202)) = true := by
  decide +kernel

/-- The full cache of A4: 10.0.0.1 to 10.0.0.16. -/
def fullCache : List ArpEntry :=
  (List.range 16).map fun k => ⟨BitVec.ofNat 32 (0x0A000001 + k), BitVec.ofNat 48 (0x020000000001 + k), 0⟩

/-- A4: an update in place; W3: the 17th IP evicts entry 0. -/
theorem test_arpAddOrUpdate_A4_W3 :
    nextHas (exec .arpAddOrUpdate (withArgs { powerOn with arp := fullCache } 0x0A000005 0x0200 0xAA 0 0))
        (fun t => decide (t.res[0].value = 4) && decide (t.arpRr = 0) && decide (t.arp.length = 16)) = true ∧
      nextHas (exec .arpAddOrUpdate (withArgs { powerOn with arp := fullCache } 0x0A000011 0x0200 0x11 0 0))
        (fun t => decide (t.res[0].value = 0) && decide (t.arpRr = 1) && decide (t.arpLookup 0x0A000001 = none) &&
          decide (t.arpLookup 0x0A000011 = some 0x020000000011)) = true := by
  decide +kernel

/-- A6: F1 handed over. -/
theorem test_arpSendRequest_A6 :
    nextHas (exec .arpSendRequest (withArgs up 0x0A000202 0 0 0 0)) (fun t => decide (image t 0 60 = frameF1)) = true := by
  decide +kernel

/-- A8: F3 handed over. -/
theorem test_arpSendReply_A8 :
    nextHas (exec .arpSendReply (withArgs up 0x5255 0x0A000202 0x0A000202 0x0A00020F 0)) (fun t => decide (image t 0 60 = frameF3)) = true := by
  decide +kernel

/-- A9 and A11. -/
theorem test_arpProcessPacket_A9_A11 :
    nextHas (exec .arpProcessPacket (withArgs (withMem up 0x10000 (frameF2.drop 14)) 0x10000 46 0x5255 0x0A000202 0))
        (fun t => decide (t.res[0].value = 0) && decide (t.arp = [⟨0x0A000202, 0x52550A000202, 0⟩]) &&
          decide (image t 0 60 = frameF3)) = true ∧
      nextHas (exec .arpProcessPacket (withArgs (withMem up 0x10000 (frameF2.drop 14)) 0x10000 27 0x5255 0x0A000202 0))
        (fun t => decide (t.res[0].value = 1) && decide (t.arp = [])) = true := by
  decide +kernel

/-- W6's first step: F1 handed over, RESOLVING with 10 iterations left; A16: t = 0 times out at once. -/
theorem test_arpResolve_W6_A16 :
    nextHas (exec .arpResolve (withArgs up 0x0A000202 100 0 0 0))
        (fun t => t.busy && decide (t.phase = .resolving .arpResolve 0x0A000202 10 .arpResolve) && decide (image t 0 60 = frameF1)) = true ∧
      nextHas (exec .arpResolve (withArgs up 0x0A000202 0 0 0 0))
        (fun t => !t.busy && decide (t.code = .timeout) && decide (image t 0 60 = frameF1)) = true := by
  decide +kernel

/-- W6's last iteration: the poll learns the reply and the lookup hits. -/
theorem test_resolveIteration_W6 :
    nextHas (runMove .engine { withFrame up frameF4 with busy := true, phase := .resolving .arpResolve 0x0A000202 8 .arpResolve })
      (fun t => !t.busy && decide (t.code = .ok) && decide (t.res[0].value = 0x5255) && decide (t.res[1].value = 0x0A000202) &&
        decide (t.phase = .idle)) = true := by
  decide +kernel

/-! ## IP and the checksum unit -/

/-- I1 to I8. -/
theorem test_internetChecksum_I1_I8 :
    internetChecksum [] = 0xFFFF ∧ internetChecksum [0x01] = 0xFEFF ∧ internetChecksum [1, 2, 3] = 0xFBFD ∧
      internetChecksum [0xFF, 0xFF, 0xFF, 0xFF] = 0x0000 ∧ internetChecksum [0x00, 0x01, 0xFF, 0xFF] = 0xFFFE ∧
      internetChecksum [0x00, 0x01, 0xf2, 0x03, 0xf4, 0xf5, 0xf6, 0xf7] = 0x220D := by
  decide +kernel

/-- I9: W1's header; I12: 65536 bytes are too many, before the range is tested. -/
theorem test_ipChecksum_I9_I12 :
    nextHas (exec .ipChecksum (withArgs (withMem up 0x10000 [0x45, 0x00, 0x00, 0x3c, 0x00, 0x00, 0x00, 0x00, 0x40, 0x01, 0x00, 0x00,
        0x0a, 0x00, 0x02, 0x0f, 0x0a, 0x00, 0x02, 0x02]) 0x10000 20 0 0 0)) (fun t => decide (t.res[0].value = 0x62B1)) = true ∧
      nextHas (exec .ipChecksum (withArgs up 0xFFFFFFF0 65536 0 0 0)) (fun t => decide (t.code = .tooLarge)) = true := by
  decide +kernel

/-- E8. -/
theorem test_ipSetAddress_E8 :
    nextHas (exec .ipSetAddress (withArgs powerOn 0x0A00020F 0 0 0 0)) (fun t => decide (t.ourIp = 0x0A00020F) && decide (t.statusWord = 0)) = true := by
  decide +kernel

/-- I14: the header of a sent packet and the next hop reported. -/
theorem test_ipSendPacket_I14 :
    nextHas (exec .ipSendPacket (withArgs (withPeer up) 0x0A000202 1 0x10000 40 0))
      (fun t => decide ((image t 0 34).drop 14 = [0x45, 0x00, 0x00, 0x3c, 0x00, 0x00, 0x00, 0x00, 0x40, 0x01, 0x62, 0xb1, 0x0a, 0x00, 0x02,
        0x0f, 0x0a, 0x00, 0x02, 0x02]) && decide (t.res[0].value = 0x5255) && decide (t.res[2].value = 0)) = true := by
  decide +kernel

/-- P4's last iteration: the broadcast fallback; I18: the ERROR policy. -/
theorem test_ipSendPacket_fallback_P4_I18 :
    let s : State := { up with busy := true, phase := .resolving .ipSendPacket 0x0A000263 1 (.ipSend ⟨0x10000, 1⟩ [0x45]) }
    nextHas (runMove .engine s) (fun t => decide (t.code = .ok) && decide (t.res[1].value = 0xFFFFFFFF) && decide (t.res[2].value = 1)) = true ∧
      nextHas (runMove .engine { s with params := { s.params with arpFail := .error } })
        (fun t => decide (t.code = .unresolved) && decide (t.res[1].value = 0) && decide (t.txSlot = 0)) = true := by
  decide +kernel

/-- I23 (W8) and I24. -/
theorem test_ipProcessPacket_I23_I24 :
    nextHas (exec .ipProcessPacket (withArgs (withMem up 0x10000 (packetF6.set 8 0x41)) 0x10000 60 0x5255 0x0A000202 0))
        (fun t => decide (t.res[0].value = 3) && decide (t.arp = [])) = true ∧
      nextHas (exec .ipProcessPacket (withArgs { withMem up 0x10000 packetF6 with ourIp := 0x0A000210 } 0x10000 60 0x5255 0x0A000202 0))
        (fun t => decide (t.res[0].value = 4) && decide (t.arp = [])) = true := by
  decide +kernel

/-- I27: bytes after total_length are trimmed; I21: total_length above the length. -/
theorem test_ipProcessPacket_I27_I21 :
    nextHas (exec .ipProcessPacket (withArgs (withMem up 0x10000 packetF6) 0x10000 66 0x5255 0x0A000202 0))
        (fun t => decide (t.res[0].value = 0) && decide (t.diag = [.echoReplyReceived 0x0A000202 1 0])) = true ∧
      nextHas (exec .ipProcessPacket (withArgs (withMem up 0x10000 packetF6) 0x10000 59 0x5255 0x0A000202 0))
        (fun t => decide (t.res[0].value = 2)) = true := by
  decide +kernel

/-! ## ICMP -/

/-- C1: F5 with the default pattern. -/
theorem test_icmpSendEchoRequest_C1 :
    nextHas (exec .icmpSendEchoRequest (withArgs (withPeer up) 0x0A000202 1 0 0x10000 0)) (fun t => decide (image t 0 74 = frameF5)) = true := by
  decide +kernel

/-- C5: ARG3 is read although len = 0. -/
theorem test_icmpSendEchoRequest_C5 :
    faultIs (exec .icmpSendEchoRequest { withArgs powerOn 0x0A000202 1 0 0 0 with args := (withArgs powerOn 0x0A000202 1 0 0 0).args.set 3 ⟨0, false⟩ })
      .unwrittenArg = true := by
  decide +kernel

/-- C6: F8 handed over and the event. -/
theorem test_icmpProcessPacket_C6 :
    nextHas (exec .icmpProcessPacket (withArgs (withMem (withPeer up) 0x10000 ((frameF7.drop 34).take 12)) 0x10000 12 0x0A000202 0 0))
      (fun t => decide (image t 0 60 = frameF8) && decide (t.diag = [.echoRequestAnswered 0x0A000202 0x1234 7]) &&
        decide (t.res[0].value = 0)) = true := by
  decide +kernel

/-- C8 and C9. -/
theorem test_icmpProcessPacket_C8_C9 :
    nextHas (exec .icmpProcessPacket (withArgs (withMem up 0x10000 (((frameF7.drop 34).take 12).set 11 0x65)) 0x10000 12 0x0A000202 0 0))
        (fun t => decide (t.res[0].value = 3) && decide (t.diag = [])) = true ∧
      nextHas (exec .icmpProcessPacket (withArgs (withMem up 0x10000 [0x03, 0x00, 0xfc, 0xff, 0, 0, 0, 0]) 0x10000 8 0x0A000202 0 0))
        (fun t => decide (t.res[0].value = 5)) = true := by
  decide +kernel

/-! ## Engine window, device window, agents -/

/-- E13 and E14: while RESOLVING only NIC_IRQ may be written. -/
theorem test_writeCmd_E13_E14 :
    let s : State := { up with busy := true, phase := .resolving .arpResolve 0x0A000202 5 .arpResolve }
    faultIs (writeCmd 0x00000020 s) .cmdWhileBusy = true ∧ faultIs (writeCmd 0x00000000 s) .cmdWhileBusy = true ∧
      nextHas (writeCmd 0x00000004 s) (fun t => t.busy && decide (t.phase = s.phase) && t.irqWritten && decide (t.res = s.res)) = true := by
  decide +kernel

/-- E1, E10, E11, E12. -/
theorem test_engineWindow_E1_E12 :
    nextHas (writeCmd 0x00000000 powerOn) (fun t => decide (t.statusWord = 0x00000012)) = true ∧
      faultIs (hostMove (.engineRead 0x04 .w16) powerOn) .badEngineAccess = true ∧
      nextHas (hostMove (.engineRead 0x1C .w32) powerOn) (fun t => decide (t.hostData = 0)) = true ∧
      nextHas (hostMove (.engineWrite 0x04 .w32 0xFFFFFFFF) powerOn) (fun t => decide (t = powerOn)) = true := by
  decide +kernel

/-- R-2, R-3, R-4. -/
theorem test_deviceWindow_R2_R4 :
    nextHas (hostMove (.deviceRead 0x37 .w8) powerOn) (fun t => decide (t.hostData = 0x01)) = true ∧
      nextHas (hostMove (.deviceRead 0x38 .w16) powerOn) (fun t => decide (t.hostData = 0xFFF0)) = true ∧
      nextHas (hostMove (.deviceRead 0x10 .w32) powerOn) (fun t => decide (t.hostData = 0x00002000)) = true ∧
      nextHas (hostMove (.deviceRead 0x05 .w8) powerOn) (fun t => decide (t.hostData = 0x56)) = true := by
  decide +kernel

/-- R-6: the HOST's reads of CR end a soft reset. -/
theorem test_deviceRead_R6 :
    nextHas (hostMove (.deviceRead 0x37 .w8) { powerOn with dev := { powerOn.dev with rstLeft := .reads 1 } })
      (fun t => decide (t.hostData = 0x11) && decide (t.dev.crWord = 0x01)) = true := by
  decide +kernel

/-- X3, X5, X6. -/
theorem test_deviceWindow_X3_X6 :
    faultIs (hostMove (.deviceWrite 0x3E .w16 1) up) .hostDeviceAccess = true ∧
      faultIs (hostMove (.deviceRead 0x3E .w32) up) .badDeviceAccess = true ∧
      faultIs (hostMove (.deviceRead 0x40 .w8) up) .hostDeviceAccess = true := by
  decide +kernel

/-- X7, X8, X9. -/
theorem test_hostMemWrite_X7_X9 :
    faultIs (hostMove (.memWrite 0x00100164 [1]) up) .hostDmaWrite = true ∧
      nextHas (hostMove (.memWrite 0x00200610 [1]) { up with dev := { up.dev with pending := up.dev.pending.set 1 true } })
        (fun t => t.dev.clobbered[1]) = true ∧
      faultIs (hostMove (.memWrite 0x00200610 [1]) up) .hostDmaWrite = true := by
  decide +kernel

/-- X10. -/
theorem test_bufferOverWindow_X10 : faultIs (exec .nicSend (withArgs up 0xFE000000 16 0 0 0)) .bufferOverWindow = true := by
  decide +kernel

/-- N24 and N25: the last frame that fits ends at 8188. -/
theorem test_nicRx_N24_N25 :
    nextHas (runMove (.wireRx frameF2 false) { up with dev := { up.dev with wp := 8124 } })
        (fun t => decide (t.dev.isr = 0x0010) && decide (t.dev.wp = 8124) && !t.irqLine) = true ∧
      nextHas (runMove (.wireRx frameF2 false) { up with dev := { up.dev with wp := 8120 } })
        (fun t => t.dev.rok && decide (t.dev.wp = 8188) && t.irqLine) = true := by
  decide +kernel

/-- N26, N27, N28, N29. -/
theorem test_nicRx_N26_N29 :
    nextHas (runMove (.wireRx (frameF2.take 59) false) up) (fun t => decide (t = up)) = true ∧
      nextHas (runMove (.wireRx frameF2 true) up) (fun t => decide (t = up)) = true ∧
      refusalIs (runMove (.wireRx (zeros 1515) false) up) .envFrame = true ∧
      nextHas (runMove (.wireRx frameF2 false) powerOn) (fun t => t.dev.ringEmpty && decide (t.mem = [])) = true := by
  decide +kernel

/-- N34: slot 0 transmitted. -/
theorem test_nicTx_N34 :
    nextHas (runMove (.nicTx 0 true) { withMem up 0x00200010 frameF1 with
        dev := { up.dev with pending := up.dev.pending.set 0 true, tsd := up.dev.tsd.set 0 0x3C } })
      (fun t => decide (t.wireOut = [frameF1]) && decide (t.dev.tsd[0] = 0x0000A03C) && decide (t.dev.isr = 0x0004) && t.irqLine &&
        !t.dev.pending[0]) = true := by
  decide +kernel

/-- R34, R116: RBLEN = 1 is a ring of 16384 bytes, on which N24's frame still fits; NIC_INIT programs it. -/
theorem test_ringLen_R34 :
    nextHas (runMove (.wireRx frameF2 false) { up with dev := { up.dev with rcr := 0x88D, wp := 8124 } })
        (fun t => t.dev.rok && decide (t.dev.wp = 8192)) = true ∧
      ({ powerOn with params := { powerOn.params with rblen := 1 } }.bringUp 0x00100010 0x00200004).dev.rcr = 0x88D := by
  decide +kernel

/-- R320: no ARG write while BUSY = 1; R311: launch states and one that is none. -/
theorem test_refusals_R320_R311 :
    refusalIs (hostMove (.engineWrite 0x08 .w32 1) { up with busy := true }) .hostBusyWrite = true ∧
      nextHas powerOn.start (fun t => decide (t = powerOn)) = true ∧ nextHas up.start (fun t => decide (t = up)) = true ∧
      refusalIs ({ up with diag := [.echoReplyReceived 0 0 0] } : State).start .launchPremise = true ∧
      refusalIs (withArgs powerOn 0 0 0 0 0).start .launchPremise = true ∧
      refusalIs ({ up with txAddr := Vector.replicate 4 0x00200010, dev := { up.dev with tsad := Vector.replicate 4 0x00200010 } } : State).start
        .launchPremise = true ∧
      refusalIs ({ up with cmdWritten := false } : State).start .launchPremise = true ∧
      refusalIs (step (powerOn.recordRefusal .envFrame)) .envFrame = true := by
  decide +kernel

/-- R109: the expansion of a line, and a step that fetches its CMD write. -/
theorem test_assemble_R109 :
    assemble [.nowait ⟨.ipSetAddress, [0x0A00020F]⟩] =
        some [.host (.engineWrite 0x08 .w32 0x0A00020F), .host (.engineWrite 0x00 .w32 0x00000030)] ∧
      nextHas (step ((withArgs powerOn 0x0A00020F 0 0 0 0).withFetchWord 32 0x30)) (fun t => decide (t.ourIp = 0x0A00020F)) = true := by
  decide +kernel

/-! ## Witnesses: for each statement of Certificates/Slice0/Obligations.lean, concrete states and operands that meet the hypotheses of
each of its clauses -/

/-- The engine is suspended in ARP_RESOLVE with `n` iterations left. -/
def suspended (n : Nat) : State :=
  { up with busy := true, phase := .resolving .arpResolve 0x0A000202 n .arpResolve }

/-- The HOST's write of a word to CMD is the next move. -/
def writing (s : State) (w : Word) : State :=
  { s with agenda := [.host (.engineWrite 0 .w32 w)] }

theorem witness_IllegalWordEndsWithErrIllegalCmd :
    powerOn.busy = false ∧ (0x00000101 : Word).extractLsb' 8 24 ≠ 0 ∧ (0x80000001 : Word).extractLsb' 8 24 ≠ 0 ∧
      (([0x00, 0x05, 0x0F, 0x14, 0x1F, 0x27, 0x2F, 0x34, 0x3F, 0x42, 0xFF] : List Byte).all fun b => (decodeOpcode b).isNone) = true := by
  decide +kernel

/-- No command has the opcode of an illegal word. -/
theorem witness_illegalOpcode : ∀ i : Instr, (0x42 : Word).extractLsb' 0 8 ≠ i.opcode := by
  intro i; cases i <;> decide

theorem witness_OnlyNicIrqPreempts :
    (suspended 5).busy = true ∧ (0x00000104 : Word).extractLsb' 8 24 ≠ 0 ∧ Instr.arpPoll ≠ .nicIrq := by
  decide

theorem witness_StepRunsTheDecodedCommand :
    ((writing up 0x20).faults = [] ∧ (writing up 0x20).refusals = [] ∧ (writing up 0x20).busy = false ∧ decode 0x20 = .ok .arpLookup) ∧
      ((writing (suspended 5) 0x04).faults = [] ∧ (writing (suspended 5) 0x04).busy = true ∧ decode 0x04 = .ok .nicIrq) := by
  decide +kernel

/-- R23: an unwritten first and an unwritten last operand. -/
theorem witness_ArgRegisterRules :
    (withArgs up 0 0 0 0 0).args[(4 : Fin 5)].written = true ∧ up.busy = false ∧ (suspended 5).busy = true ∧
      (0 < Instr.arpLookup.argCount ∧ powerOn.args[(0 : Fin 5)].written = false) ∧
      (4 < Instr.icmpSendEchoRequest.argCount ∧ ({ up with args := up.args.set 4 ⟨0, false⟩ } : State).args[(4 : Fin 5)].written = false) := by
  decide +kernel

theorem witness_WindowRegisterReads :
    (up.latchCmd 0x20).cmdWritten = true ∧ nextHas (engineWrite 0x00 .w32 0x00000013 up) (fun _ => true) = true ∧
      up.macKnown = true ∧ ({ up with irqWritten := true } : State).irqWritten = true ∧ ((up.setRes 3 7).res[(3 : Fin 4)]).written = true := by
  decide +kernel

theorem witness_EngstatFields : powerOn.arp.length ≤ 16 ∧ ({ up with arp := fullCache } : State).arp.length = 16 := by decide +kernel

theorem witness_ReservedAndMisalignedEngineAccess :
    ((0x4C : Fin 0x50).val = 0x4C ∧ (0x1C : Fin 0x50).val = 0x1C) ∧ Width.w16 ≠ .w32 ∧ (0x4F : Fin 0x50).val % 4 ≠ 0 := by
  decide

/-- Wrong accesses at the bounds of each register, the unmodelled bounds, and CR in and out of a reset. -/
theorem witness_HostDeviceAccess :
    ((0x05 : Fin 256).val ≤ 0x05 ∧ Width.w16 ≠ .w8) ∧ ((0x33 : Fin 256).val ≤ 0x33 ∧ (0x33 : Fin 256).val % 4 ≠ 0) ∧
      ((0x3F : Fin 256).val ≤ 0x3F ∧ (0x3F : Fin 256).val % 2 ≠ 0) ∧ ((0x47 : Fin 256).val ≤ 0x47 ∧ (0x47 : Fin 256).val ≠ 0x44) ∧
      (0x06 ≤ (0x06 : Fin 256).val ∧ (0x0F : Fin 256).val ≤ 0x0F) ∧ (0x34 ≤ (0x34 : Fin 256).val ∧ (0x36 : Fin 256).val ≤ 0x36) ∧
      (0x40 ≤ (0x40 : Fin 256).val ∧ (0x43 : Fin 256).val ≤ 0x43) ∧ 0x48 ≤ (0x48 : Fin 256).val ∧ 0x48 ≤ (0xFF : Fin 256).val ∧
      up.dev.rstLeft = .reads 0 ∧ ({ up.dev with rstLeft := .reads 1 } : Device).rstLeft = .reads (0 + 1) ∧
      ({ up.dev with rstLeft := .forever } : Device).rstLeft = .forever := by
  decide +kernel

/-- The clauses in order: one byte past 2^32; the window's last byte; the ring region's last byte; a TX buffer's first byte; a pending
slot's buffer; plain memory with and without the device. -/
theorem witness_HostMemoryWrites :
    let s : State := { up with dev := { up.dev with pending := up.dev.pending.set 1 true } }
    up.mem.wf = true ∧ (0xFFFFFFFF + 2 > up.params.addrSpace) ∧
      MemRange.meets ⟨0xFE00004F, 1⟩ up.window = true ∧
      (up.Accessible ⟨0x0010270F, 1⟩ ∧ MemRange.meets ⟨0x0010270F, 1⟩ up.rxRegion = true) ∧
      (up.Accessible ⟨0x00200010, 1⟩ ∧ up.dev.pending[(0 : Fin 4)] = false ∧ MemRange.meets ⟨0x00200010, 1⟩ (up.txBuffer 0) = true) ∧
      (up.Accessible ⟨0x00102710, 1⟩ ∧ MemRange.meets ⟨0x00102710, 1⟩ up.rxRegion = false ∧
        ∀ i : Fin 4, up.dev.pending[i] = false → MemRange.meets ⟨0x00102710, 1⟩ (up.txBuffer i) = false) ∧
      (s.Accessible ⟨0x00200610, 1⟩ ∧ s.initialized = true ∧ MemRange.meets ⟨0x00200610, 1⟩ s.rxRegion = false ∧
        (∀ i : Fin 4, s.dev.pending[i] = false → MemRange.meets ⟨0x00200610, 1⟩ (s.txBuffer i) = false) ∧
        s.dev.pending[(1 : Fin 4)] = true ∧ (s.txBuffer 1).meets ⟨0x00200610, 1⟩ = true) ∧
      (powerOn.Accessible ⟨0xFFFFFFFF, 1⟩ ∧ powerOn.initialized = false) := by
  simp only [State.Accessible]; decide +kernel

theorem witness_RokClearing :
    up.dev.rp = up.dev.wp.toNat ∧ (withFrame up frameF2).dev.rp ≠ (withFrame up frameF2).dev.wp.toNat ∧
      up.params.rokClear = .stickyWhileNonempty := by
  decide +kernel

/-- A handover, a write with OWN = 1, a reset and a plain write of CR; the latency is a draw, finite or not. -/
theorem witness_TsdAndCrWrites :
    (0x003C : Word).getLsbD 13 = false ∧ (0x2000 : Word).getLsbD 13 = true ∧ (0x10 : Byte).getLsbD 4 = true ∧ (0x0C : Byte).getLsbD 4 = false ∧
      ((∃ n, Config.drawLatency (up.draws + 5) = some n) ∨ Config.drawLatency (up.draws + 5) = none) := by
  refine ⟨by decide, by decide, by decide, by decide, ?_⟩
  cases Config.drawLatency (up.draws + 5) with
  | none => exact .inr rfl
  | some n => exact .inl ⟨n, rfl⟩

/-- The common hypotheses of NIC_INIT's statements, at an address whose region ends just inside 2^32. -/
theorem witness_NicInitBringsUpOrTimesOut :
    let s := (withArgs powerOn 0x00100010 0xFFFFE7F1 0 0 0).latchCmd (encode .nicInit)
    s.ArgsWritten 2 ∧ (s.ArgsWritten 5 ∧ s.cmdWritten = true ∧ s.cmd = encode .nicInit ∧ s.ArpWf) ∧ s.params.Wf ∧
      s.params.pciVendorId ≠ 0xFFFF ∧ (∃ p, s.pci = some p ∧ p.vendor = s.params.pciVendorId ∧ p.device = s.params.pciDeviceId ∧
        p.bar0.getLsbD 0 = true) ∧
      alignUp s.args[0].value.toNat 256 + 8192 * 2 ^ s.params.rblen.toNat + s.params.rxRingSlack ≤ s.params.addrSpace ∧
      alignUp s.args[1].value.toNat 16 + 4 * s.params.txBufSize = s.params.addrSpace := by
  refine ⟨by unfold State.ArgsWritten; decide +kernel, by unfold State.ArgsWritten; decide +kernel, by decide +kernel, by decide +kernel,
    ⟨_, rfl, ?_⟩, ?_⟩ <;> decide +kernel

/-- Whatever the draw of the latency, a poll limit of 0 misses it, and a finite one is below some limit. -/
theorem witness_latency (l : Option Nat) : ¬ latencyBelow l 0 ∧ (∀ n, l = some n → latencyBelow l (n + 1)) := by
  refine ⟨fun ⟨n, _, h⟩ => Nat.not_lt_zero n h, fun n h => ⟨n, h, Nat.lt_succ_self n⟩⟩

theorem witness_NicInitFatalCodes :
    let s := withArgs powerOn 0x00100010 0x00200004 0 0 0
    s.ArgsWritten 2 ∧ s.params.pciVendorId ≠ 0xFFFF ∧ ({ s with pci := none } : State).pci = none ∧
      (⟨⟨0, 3, 0⟩, 0x10EC, 0x8029, 0x0001, 0x0000C001⟩ : NicPci).device ≠ s.params.pciDeviceId ∧
      (⟨⟨0, 3, 0⟩, 0x10EC, 0x8139, 0x0001, 0xE0000000⟩ : NicPci).bar0.getLsbD 0 = false := by
  refine ⟨by unfold State.ArgsWritten; decide +kernel, by decide, ?_⟩; decide +kernel

/-- Every ARG register written, and each range two bytes long at the last address. -/
theorem witness_WrappingRangesFault :
    let s := withArgs up 0xFFFFFFFF 2 0 0xFFFFFFFF 2
    let n := s.params.addrSpace
    (∀ i : Fin 5, s.args[i].written = true) ∧ s.initialized = true ∧ s.args[1].value.toNat ≤ s.params.txBufSize ∧
      s.args[0].value.toNat + s.args[1].value.toNat > n ∧ s.args[3].value.toNat + s.args[4].value.toNat > n ∧
      alignUp s.args[0].value.toNat 256 + s.params.rxRingLen + s.params.rxRingSlack > n ∧
      (withArgs up 0 0 0xFFFFFFFF 2 0).args[2].value.toNat + (withArgs up 0 0 0xFFFFFFFF 2 0).args[3].value.toNat > n := by
  decide +kernel

/-- Buffers that end at the window's first byte, or begin at its last. -/
theorem witness_BuffersOverTheWindowFault :
    let s := withArgs up 0xFE00004F 1 0 0xFDFFFFFF 2
    (∀ i : Fin 5, s.args[i].written = true) ∧ s.initialized = true ∧ (bufferOf s.args[0].value s.args[1].value).meets s.window = true ∧
      (bufferOf s.args[3].value s.args[4].value).meets s.window = true ∧
      (bufferOf (withArgs up 0 0 0xFE000000 1 0).args[2].value (withArgs up 0 0 0xFE000000 1 0).args[3].value).meets s.window = true := by
  decide +kernel

/-- The state with the engine window elsewhere. -/
def withWindow (s : State) (base : Word) : State :=
  { s with params := { s.params with engineBase := base } }

/-- Receives: a destination that begins at the window's last byte; a record whose header, and one whose frame, ends at the window's first. -/
theorem witness_receivesOverTheWindow :
    let s := withArgs (withFrame up frameF4) 0xFE00004F 1536 0 0 0
    let b := s.recordFrame 1536
    let h := withWindow s 0x00100103
    let f := withWindow s 0x0010013F
    (s.ArgsWritten 2 ∧ s.initialized = true ∧ s.dev.rok = true ∧ s.args[0].value.toNat + s.args[1].value.toNat ≤ s.params.addrSpace ∧
        s.params.rokClear = .stickyWhileNonempty ∧ s.dev.ringEmpty = false ∧ s.RecordGood ∧ s.Accessible ⟨s.ringHead, 4 + b.length⟩) ∧
      (MemRange.meets ⟨s.args[0].value.toNat, b.length⟩ s.window = true ∧ 14 ≤ b.length ∧ b.take 6 = macBytes s.mac) ∧
      (h.ringHead + 4 ≤ h.params.addrSpace ∧ MemRange.meets ⟨h.ringHead, 4⟩ h.window = true) ∧
      (f.Accessible ⟨f.ringHead, 4⟩ ∧ f.RecordGood ∧ f.ringHead + 4 + b.length ≤ f.params.addrSpace ∧
        MemRange.meets ⟨f.ringHead + 4, b.length⟩ f.window = true) := by
  simp only [State.ArgsWritten, State.Accessible, State.RecordGood, State.recordLen]; decide +kernel

/-- Sends: a 60-byte frame whose last byte is the window's first; a hit and a miss; F2's request and F7's echo request as input. -/
theorem witness_sendsOverTheWindow :
    let s := withWindow (withArgs (withPeer up) 0x0A000202 46 0 0x00010000 26) 0x0020004B
    let p := (frameF7.drop 14).take 32
    s.initialized = true ∧ s.ArgsWritten 5 ∧ s.SlotOverWindow 60 ∧ s.SlotOverWindow (max 60 (14 + 46)) ∧ s.SlotOverWindow (max 60 (34 + 26)) ∧
      s.SlotOverWindow (max 60 (42 + 18)) ∧ ((withWindow (withArgs up 0 60 0 0 0) 0x0020004B).SlotOverWindow 60 ∧ 60 ≤ up.params.txBufSize) ∧
      (s.Accessible (bufferOf s.args[3].value s.args[4].value) ∧ s.arpLookup s.args[0].value ≠ none) ∧
      (s.phase = .idle ∧ s.arpLookup 0x0A000263 = none) ∧
      (28 ≤ (frameF2.drop 14).length ∧ (frameF2.drop 14).take 6 = [0x00, 0x01, 0x08, 0x00, 0x06, 0x04] ∧ be16 (frameF2.drop 14) 6 = 1 ∧
        be32 (frameF2.drop 14) 24 = s.ourIp) ∧
      ((byteAt p 0).extractLsb' 4 4 = 4 ∧ (be16 p 2).toNat = 32 ∧ internetChecksum (p.take 20) = 0 ∧ be32 p 16 = s.ourIp ∧ byteAt p 9 = 1 ∧
        internetChecksum (p.drop 20) = 0 ∧ byteAt (p.drop 20) 0 = 8 ∧ (p.drop 20).length = 12) := by
  simp only [State.ArgsWritten, State.Accessible, State.SlotOverWindow]; decide +kernel

theorem witness_NicSendOutcomes :
    let s := withArgs up 0x00010000 1536 0 0 0
    s.ArgsWritten 2 ∧ s.mem.wf = true ∧ s.initialized = true ∧ s.Accessible (bufferOf s.args[0].value s.args[1].value) ∧ s.SlotAccessible 1536 ∧
      (withArgs up 0 1537 0 0 0).args[1].value.toNat > up.params.txBufSize ∧ s.args[1].value.toNat ≤ s.params.txBufSize ∧ powerOn.initialized = false := by
  simp only [State.ArgsWritten, State.Accessible, State.SlotAccessible]; decide +kernel

/-- A good record, received whole; the frame is 60 bytes. -/
theorem witness_NicReceiveDelivers :
    let s := withArgs (withFrame up frameF2) 0x00020000 1536 0 0 0
    s.ArgsWritten 2 ∧ s.mem.wf = true ∧ s.initialized = true ∧ s.dev.rok = true ∧ s.RecordGood ∧
      s.Accessible (bufferOf s.args[0].value s.args[1].value) ∧ s.Accessible ⟨s.ringHead, 4 + (s.recordFrame s.args[1].value.toNat).length⟩ := by
  simp only [State.ArgsWritten, State.Accessible, State.RecordGood, State.recordLen]; decide +kernel

/-- Bad records: packet-OK clear, and a length of 3. -/
theorem witness_NicReceiveWithoutFrame :
    let s : State := { withMem (withArgs up 0x00020000 1536 0 0 0) 0x00100100 [0x00, 0x00, 0x40, 0x00] with dev := { up.dev with isr := 1 } }
    let q : State := { withMem (withArgs up 0x00020000 1536 0 0 0) 0x00100100 [0x01, 0x00, 0x03, 0x00] with dev := { up.dev with isr := 1 } }
    s.ArgsWritten 2 ∧ s.initialized = true ∧ s.args[0].value.toNat + s.args[1].value.toNat ≤ s.params.addrSpace ∧ s.dev.rok = true ∧
      s.Accessible ⟨s.ringHead, 4⟩ ∧ ¬ s.RecordGood ∧ ¬ q.RecordGood ∧ up.dev.rok = false ∧ powerOn.initialized = false := by
  simp only [State.ArgsWritten, State.Accessible, State.RecordGood, State.recordLen]; decide +kernel

theorem witness_RxAdvanceMovesBothPointers : up.dev.rcr.extractLsb' 11 2 = up.params.rblen := by decide +kernel

theorem witness_NicIrqWithoutRxOk : powerOn.initialized = false ∧ up.initialized = true ∧ up.dev.rok = false := by decide +kernel

/-- The DMA regions are clear of the engine window. -/
theorem witness_dmaClear : up.DmaClear ∧ (withFrame up frameF2).DmaClear ∧ (suspended 2).DmaClear := by
  simp only [State.DmaClear, State.Accessible]; decide +kernel

/-- The state has a record that is bad: packet-OK clear. -/
def withBadRecord : State :=
  { withMem up 0x00100100 [0x00, 0x00, 0x40, 0x00] with dev := { up.dev with isr := 1 } }

/-- The clauses on a round of a poll or a drain: ROK = 0; a bad record; a frame to another MAC; a broadcast frame, which is dispatched, and the
rounds go on. -/
theorem witness_rounds :
    up.dev.rok = false ∧ (withBadRecord.initialized = true ∧ withBadRecord.dev.rok = true ∧ withBadRecord.Accessible ⟨withBadRecord.ringHead, 4⟩ ∧
        ¬ withBadRecord.RecordGood) ∧
      (let s := withFrame up frameElsewhere;
        s.initialized = true ∧ s.dev.rok = true ∧ s.RecordGood ∧ s.Accessible ⟨s.ringHead, 4 + (s.recordFrame s.params.pollBufSize).length⟩ ∧
          (s.recordFrame s.params.pollBufSize).take 6 ≠ macBytes s.mac ∧
          (s.recordFrame s.params.pollBufSize).take 6 ≠ [0xFF, 0xFF, 0xFF, 0xFF, 0xFF, 0xFF]) ∧
      (let s := withFrame up frameF2;
        s.mem.wf = true ∧ s.initialized = true ∧ s.dev.rok = true ∧ s.RecordGood ∧
          s.Accessible ⟨s.ringHead, 4 + (s.recordFrame s.params.pollBufSize).length⟩ ∧ 14 ≤ (s.recordFrame s.params.pollBufSize).length ∧
          (s.recordFrame s.params.pollBufSize).take 6 = [0xFF, 0xFF, 0xFF, 0xFF, 0xFF, 0xFF]) := by
  simp only [State.Accessible, State.RecordGood, State.recordLen]; decide +kernel

/-- The rounds of F2's poll and drain, and a drain that has no round left for it. -/
theorem witness_roundsGoOn :
    (match State.pollRounds 10 (withFrame up frameF2) with | .ok (n, _) => decide (n = 1) | .error _ => false) = true ∧
      (match State.drainRounds 2 (withFrame up frameF2) with | .ok (n, _) => decide (n = 1) | .error _ => false) = true ∧
      (match State.drainRounds 1 (withFrame up frameF2) with | .ok _ => false | .error f => decide (f = .drainHang)) = true := by
  decide +kernel

theorem witness_NicIrqDrainsOrHangs :
    let s := withFrame up frameF2
    s.mem.wf = true ∧ s.initialized = true ∧ s.dev.rok = true ∧
      (match State.drainRounds (s.params.rxRingLen / 4 + 1) { s with dev := s.dev.writeIsr s.params.rokClear (s.dev.isr &&& 0x001F) } with
        | .ok (n, _) => decide (n = 1)
        | .error _ => false) = true := by
  decide +kernel

/-- With BUSY = 1 and with BUSY = 0 the write of the NIC_IRQ word reaches a next state. -/
theorem witness_NicIrqPreemption :
    (suspended 5).mem.wf = true ∧ (suspended 5).busy = true ∧ nextHas (writeCmd (encode .nicIrq) (suspended 5)) (fun _ => true) = true ∧
      up.busy = false ∧ nextHas (writeCmd (encode .nicIrq) up) (fun _ => true) = true := by
  decide +kernel

theorem witness_EthSendFrameOutcomes :
    let s := withArgs up 0x5255 0x0A000202 0x0800 0x00010000 1486
    s.ArgsWritten 5 ∧ s.mem.wf = true ∧ s.initialized = true ∧ s.Accessible (bufferOf s.args[3].value s.args[4].value) ∧
      s.SlotAccessible (max 60 (14 + 1486)) ∧ up.Accessible (bufferOf 0x00010000 1487) ∧ powerOn.initialized = false := by
  simp only [State.ArgsWritten, State.Accessible, State.SlotAccessible]; decide +kernel

/-- A broadcast frame of 60 bytes; one cut to 14 and one cut to 13 bytes by the buffer; a frame to another MAC. -/
theorem witness_EthReceiveFrameFilters :
    let s := withArgs (withFrame up frameF2) 0x00020000 14 0 0 0
    s.ArgsWritten 2 ∧ s.mem.wf = true ∧ s.initialized = true ∧ s.dev.rok = true ∧ s.RecordGood ∧
      s.Accessible (bufferOf s.args[0].value s.args[1].value) ∧ s.Accessible ⟨s.ringHead, 4 + (s.recordFrame 14).length⟩ ∧
      (14 ≤ (s.recordFrame 14).length ∧ (s.recordFrame 14).take 6 = [0xFF, 0xFF, 0xFF, 0xFF, 0xFF, 0xFF]) ∧ (s.recordFrame 13).length < 14 ∧
      ((withFrame up frameElsewhere).recordFrame 1536).take 6 ≠ macBytes up.mac ∧
      s.args[0].value.toNat + s.args[1].value.toNat ≤ s.params.addrSpace ∧ powerOn.initialized = false ∧ up.dev.rok = false := by
  simp only [State.ArgsWritten, State.Accessible, State.RecordGood, State.recordLen]; decide +kernel

/-- 13 bytes; 14 bytes of another EtherType; an ARP frame; an IPv4 frame. -/
theorem witness_EthProcessFrameOutcomes :
    let s := withArgs (withMem up 0x10000 frameF2) 0x10000 60 0 0 0
    s.ArgsWritten 2 ∧ s.Accessible (bufferOf 0x10000 13) ∧ s.Accessible (bufferOf 0x10000 14) ∧ s.Accessible (bufferOf 0x10000 60) ∧ s.mem.wf = true ∧
      ((s.mem.readBytes 0x10000 60).drop 12).take 2 = [0x08, 0x06] ∧
      (((withMem up 0x10000 frameF7).mem.readBytes 0x10000 60).drop 12).take 2 = [0x08, 0x00] ∧
      (((withMem up 0x10000 (zeros 12 ++ [0x86, 0xDD])).mem.readBytes 0x10000 14).drop 12).take 2 = [0x86, 0xDD] := by
  simp only [State.ArgsWritten, State.Accessible]; decide +kernel

theorem witness_MalformedInputNeverStops :
    let s := withArgs (withMem up 0x10000 [0xFF, 0xFF]) 0x10000 2 0 0 0
    s.ArgsWritten 4 ∧ s.mem.wf = true ∧ s.DmaClear ∧ s.Accessible (bufferOf s.args[0].value s.args[1].value) := by
  simp only [State.ArgsWritten, State.DmaClear, State.Accessible]; decide +kernel

/-- Without the device; the rounds are those of `witness_rounds`, the state of the second clause that of `witness_dmaClear`. -/
theorem witness_PollsAreBounded : powerOn.initialized = false ∧ up.initialized = true ∧ up.mem.wf = true := by
  decide +kernel

/-- A hit on the last of 16 entries, and a miss in a full cache. -/
theorem witness_ArpLookupFirstMatch :
    let s : State := { withArgs up 0x0A000010 0 0 0 0 with arp := fullCache }
    s.ArgsWritten 1 ∧ (s.arp[15]?.map ArpEntry.ip = some s.args[0].value) ∧ ((s.arp.take 15).all fun e => decide (e.ip ≠ s.args[0].value)) = true ∧
      (s.arp.all fun e => decide (e.ip ≠ 0x0A000011)) = true ∧ powerOn.args[0].written = false := by
  simp only [State.ArgsWritten]; decide +kernel

/-- An update; an append to 15 entries; an eviction from 16; an unwritten operand. -/
theorem witness_ArpAddOrUpdateThreeCases :
    let s : State := { withArgs up 0x0A000010 0x0200 0x10 0 0 with arp := fullCache }
    s.ArgsWritten 3 ∧ (s.arp[15]?.map ArpEntry.ip = some s.args[0].value) ∧
      (((fullCache.take 15).all fun e => decide (e.ip ≠ s.args[0].value)) = true ∧ (fullCache.take 15).length < 16) ∧
      ((fullCache.all fun e => decide (e.ip ≠ 0x0A000011)) = true ∧ 16 ≤ fullCache.length) ∧ ¬ powerOn.ArgsWritten 3 := by
  simp only [State.ArgsWritten]; decide +kernel

/-- An eviction: the address looked up is neither the new one nor the evicted one. -/
theorem witness_LookupAfterLearning :
    let s : State := { withArgs up 0x0A000011 0x0200 0x11 0 0 with arp := fullCache }
    nextHas (exec .arpAddOrUpdate s) (fun _ => true) = true ∧ (0x0A000002 : Ip) ≠ s.args[0].value ∧ s.arpLookup s.args[0].value = none ∧
      16 ≤ s.arp.length ∧ (s.arp[s.arpRr.val]?.map ArpEntry.ip = some 0x0A000001) := by
  decide +kernel

theorem witness_ArpSendsCarryTheirPackets :
    let s := withArgs up 0x5255 0x0A000202 0x0A000202 0x0A00020F 0
    s.mem.wf = true ∧ s.ArgsWritten 4 ∧ s.ArgsWritten 1 ∧ s.initialized = true ∧ s.SlotAccessible 60 ∧ powerOn.initialized = false := by
  simp only [State.ArgsWritten, State.Accessible, State.SlotAccessible]; decide +kernel

/-- F2 (a request for us), F4 (a reply), a bad format, and 27 bytes. -/
theorem witness_ArpProcessPacketLearns :
    let s := withArgs (withMem up 0x10000 (frameF2.drop 14)) 0x10000 28 0 0 0
    let d := s.mem.readBytes 0x10000 28
    s.ArgsWritten 4 ∧ s.mem.wf = true ∧ s.Accessible (bufferOf 0x10000 28) ∧ s.Accessible (bufferOf 0x10000 27) ∧
      d.take 6 = [0x00, 0x01, 0x08, 0x00, 0x06, 0x04] ∧ be16 d 6 = 1 ∧ be32 d 24 = s.ourIp ∧ s.SlotAccessible 60 ∧
      be16 (frameF4.drop 14) 6 ≠ 1 ∧ (zeros 28).take 6 ≠ [0x00, 0x01, 0x08, 0x00, 0x06, 0x04] := by
  simp only [State.ArgsWritten, State.Accessible, State.SlotAccessible]; decide +kernel

theorem witness_ArpResolveFirstPart :
    let s := withArgs up 0x0A000202 1 0 0 0
    s.ArgsWritten 2 ∧ s.mem.wf = true ∧ (withPeer s).arpLookup s.args[0].value = some 0x52550A000202 ∧ s.arpLookup s.args[0].value = none ∧
      s.phase = .idle ∧ s.SlotAccessible 60 ∧ 0 < s.args[1].value.toNat ∧ (withArgs up 0x0A000202 0 0 0 0).args[1].value.toNat = 0 := by
  simp only [State.ArgsWritten, State.Accessible, State.SlotAccessible]; decide +kernel

/-- The last iteration and the one before; the poll of the second state learns the address; another suspended command. -/
theorem witness_ArpResolveIteration :
    ({ suspended 1 with phase := .resolving .ipSendPacket 0x0A000263 1 (.ipSend ⟨0x10000, 1⟩ [0x45]) } : State).phase =
        .resolving .ipSendPacket 0x0A000263 1 (.ipSend ⟨0x10000, 1⟩ [0x45]) ∧
      (suspended 1).mem.wf = true ∧ (suspended 1).phase = .resolving .arpResolve 0x0A000202 1 .arpResolve ∧
      (match (suspended 2).ethPoll with | .ok (_, u) => decide (u.arpLookup 0x0A000202 = none) | .error _ => false) = true ∧
      (match (withFrame (suspended 2) frameF4).ethPoll with
        | .ok (_, u) => decide (u.arpLookup 0x0A000202 = some 0x52550A000202)
        | .error _ => false) = true := by
  decide +kernel

/-- An iteration that ends the command and one that does not. -/
theorem witness_EveryIterationCountsDown :
    (suspended 1).mem.wf = true ∧ nextHas (runMove .engine (suspended 1)) (fun t => !t.busy) = true ∧
      nextHas (runMove .engine (suspended 2)) (fun t => t.busy) = true := by
  decide +kernel

theorem witness_IpSetAddressStores : up.ArgsWritten 1 ∧ powerOn.args[0].written = false := by
  simp only [State.ArgsWritten]; decide +kernel

theorem witness_IpChecksumResult :
    let s := withArgs up 0x00010000 65535 0 0 0
    s.ArgsWritten 2 ∧ s.Accessible (bufferOf s.args[0].value s.args[1].value) ∧ (withArgs up 0x00010000 65536 0 0 0).args[1].value.toNat > 65535 := by
  simp only [State.ArgsWritten, State.Accessible]; decide +kernel

/-- An odd length, and the field at its last even offset. -/
theorem witness_ChecksumRoundTrip :
    2 % 2 = 0 ∧ 2 + 2 ≤ ([0x12, 0x34, 0x00, 0x00, 0x56] : List Byte).length ∧ byteAt [0x12, 0x34, 0x00, 0x00, 0x56] 2 = 0 ∧
      byteAt [0x12, 0x34, 0x00, 0x00, 0x56] 3 = 0 := by
  decide

theorem witness_IpSendPacketToKnownHost :
    let s := withArgs (withPeer up) 0x0A000202 1 0x00010000 1466 0
    s.ArgsWritten 4 ∧ s.mem.wf = true ∧ s.Accessible (bufferOf s.args[2].value s.args[3].value) ∧ s.arpLookup s.args[0].value = some 0x52550A000202 ∧
      s.initialized = true ∧ s.SlotAccessible (max 60 (34 + 1466)) ∧ s.Accessible (bufferOf 0x00010000 1467) ∧
      (withPeer powerOn).arpLookup 0x0A000202 = some 0x52550A000202 := by
  simp only [State.ArgsWritten, State.Accessible, State.SlotAccessible]; decide +kernel

theorem witness_SendsToUnknownHostResolve :
    let s := withArgs up 0x0A000263 1 0x00010000 0x00010000 0
    s.mem.wf = true ∧ s.phase = .idle ∧ s.arpLookup s.args[0].value = none ∧ s.SlotAccessible 60 ∧ s.ArgsWritten 4 ∧ s.ArgsWritten 5 ∧
      s.Accessible (bufferOf 0x00010000 0x00010000) ∧ s.Accessible (bufferOf 0x00010000 0) := by
  simp only [State.ArgsWritten, State.Accessible, State.SlotAccessible]; decide +kernel

theorem witness_SuspendedSendEnds :
    up.mem.wf = true ∧ up.initialized = true ∧ (zeros 1486).length ≤ 1486 ∧ up.SlotAccessible (max 60 (14 + 1486)) ∧
      1486 < (zeros 1487).length ∧ powerOn.initialized = false ∧
      up.params.arpFail = .broadcastFallback ∧ ({ up with params := { up.params with arpFail := .error } } : State).params.arpFail = .error := by
  simp only [State.Accessible, State.SlotAccessible]; decide +kernel

/-- F6's packet, with total_length exactly its length; the same made IPv6, given 59 bytes, with a bad checksum, to another host, and a UDP
packet with a good header. -/
theorem witness_IpProcessPacketVerdicts :
    let s := withArgs (withMem up 0x10000 packetF6) 0x10000 60 0 0 0
    let udp : List Byte := [0x45, 0x00, 0x00, 0x14, 0x00, 0x00, 0x00, 0x00, 0x40, 0x11, 0x62, 0xc9, 0x0a, 0x00, 0x02, 0x02, 0x0a, 0x00, 0x02, 0x0f]
    s.ArgsWritten 4 ∧ s.Accessible (bufferOf 0x10000 60) ∧ s.Accessible (bufferOf 0x10000 19) ∧
      (s.mem.readBytes 0x10000 60 = packetF6 ∧ (byteAt packetF6 0).extractLsb' 4 4 = 4 ∧ (be16 packetF6 2).toNat = 60) ∧
      internetChecksum (packetF6.take 20) = 0 ∧ internetChecksum ((packetF6.set 8 0x41).take 20) ≠ 0 ∧ be32 packetF6 16 = s.ourIp ∧
      be32 packetF6 16 ≠ 0x0A000210 ∧ (internetChecksum udp = 0 ∧ be32 udp 16 = s.ourIp ∧ byteAt udp 9 = 17 ∧ (be16 udp 2).toNat = 20) := by
  simp only [State.ArgsWritten, State.Accessible]; decide +kernel

/-- The IP packet of F7, four bytes of payload. -/
theorem witness_DispatchedEchoIsAnsweredAtOnce :
    let p := (frameF7.drop 14).take 32
    let s := withArgs (withMem up 0x10000 p) 0x10000 32 0x5255 0x0A000202 0
    s.ArgsWritten 4 ∧ s.mem.wf = true ∧ s.initialized = true ∧ s.Accessible (bufferOf s.args[0].value s.args[1].value) ∧
      (s.mem.readBytes 0x10000 32 = p ∧ (byteAt p 0).extractLsb' 4 4 = 4 ∧ (be16 p 2).toNat = 32) ∧ internetChecksum (p.take 20) = 0 ∧
      be32 p 16 = s.ourIp ∧ byteAt p 9 = 1 ∧ internetChecksum (p.drop 20) = 0 ∧ byteAt (p.drop 20) 0 = 8 ∧ s.SlotAccessible (max 60 (14 + 32)) ∧
      (internetChecksum ((p.drop 20).set 11 0x65) ≠ 0 ∧ (internetChecksum [0x03, 0x00, 0xfc, 0xff, 0, 0, 0, 0] = 0 ∧
        byteAt [0x03, 0x00, 0xfc, 0xff, 0, 0, 0, 0] 0 = 3)) ∧
      (be32 packetF6 16 = s.ourIp ∧ byteAt packetF6 9 = 1 ∧ internetChecksum (packetF6.drop 20) = 0 ∧ byteAt (packetF6.drop 20) 0 = 0) := by
  simp only [State.ArgsWritten, State.Accessible, State.SlotAccessible]; decide +kernel

/-- The ends without an answer: a packet of 27 bytes, one of 1487, and a block without the device that has this address. -/
theorem witness_unansweredEcho :
    let short := ipPacket 64 0x0A000202 0x0A00020F 1 (zeros 7)
    let long := ipPacket 64 0x0A000202 0x0A00020F 1 (icmpMessage 8 1 0 (zeros 1459))
    ((be16 short 2).toNat = 27 ∧ internetChecksum (short.take 20) = 0) ∧
      ((be16 long 2).toNat = 1487 ∧ internetChecksum (long.take 20) = 0 ∧ internetChecksum (long.drop 20) = 0 ∧ byteAt (long.drop 20) 0 = 8) ∧
      (({ powerOn with ourIp := 0x0A00020F } : State).initialized = false ∧ ({ powerOn with ourIp := 0x0A00020F } : State).ourIp = 0x0A00020F) := by
  decide +kernel

theorem witness_IcmpSendEchoRequestToKnownHost :
    let s := withArgs (withPeer up) 0x0A000202 1 0 0x00010000 1458
    s.ArgsWritten 5 ∧ s.mem.wf = true ∧ s.Accessible (bufferOf s.args[3].value s.args[4].value) ∧ s.arpLookup s.args[0].value = some 0x52550A000202 ∧
      s.initialized = true ∧ s.SlotAccessible (max 60 (42 + 1458)) ∧ s.Accessible (bufferOf 0x00010000 1459) ∧
      s.Accessible (bufferOf 0x00010000 0) := by
  simp only [State.ArgsWritten, State.Accessible, State.SlotAccessible]; decide +kernel

/-- F7's echo message (12 bytes), its shortest prefix, a bad checksum, a type 3 message and an echo reply. -/
theorem witness_IcmpProcessPacketOutcomes :
    let m := (frameF7.drop 34).take 12
    let s := withArgs (withMem up 0x10000 m) 0x10000 12 0x0A000202 0 0
    s.ArgsWritten 3 ∧ s.mem.wf = true ∧ s.Accessible (bufferOf 0x10000 12) ∧ s.Accessible (bufferOf 0x10000 7) ∧
      (s.mem.readBytes 0x10000 12 = m ∧ internetChecksum m = 0 ∧ byteAt m 0 = 8) ∧ internetChecksum (m.set 11 0x65) ≠ 0 ∧
      (internetChecksum [0x03, 0x00, 0xfc, 0xff, 0, 0, 0, 0] = 0 ∧ byteAt [0x03, 0x00, 0xfc, 0xff, 0, 0, 0, 0] 0 = 3) ∧
      (internetChecksum (packetF6.drop 20) = 0 ∧ byteAt (packetF6.drop 20) 0 = 0) ∧
      (withPeer s).arpLookup 0x0A000202 = some 0x52550A000202 ∧ s.arpLookup 0x0A000202 = none ∧ s.phase = .idle ∧ s.SlotAccessible 60 := by
  simp only [State.ArgsWritten, State.Accessible, State.SlotAccessible]; decide +kernel

/-- Offers at the bounds; a receiver that is off; a ring that is too full by one record, and one that just takes it, in both wrap modes. -/
theorem witness_NicRxRecordsFrames :
    let full : State := { up with dev := { up.dev with wp := 8124 } }
    let last : State := { up with dev := { up.dev with wp := 8120 } }
    let wraps : State := { up with dev := { up.dev with rcr := 0x0D, wp := 8188, capr := 8172 } }
    (zeros 13).length < 14 ∧ up.params.maxRxFrame < (zeros 1515).length ∧ up.dev.rcr = 0x0000008D ||| up.params.rblen.zeroExtend 32 <<< 11 ∧
      powerOn.dev.re = false ∧
      (14 ≤ frameF2.length ∧ frameF2.length ≤ up.params.maxRxFrame ∧ up.dev.re = true ∧ up.busMaster = true ∧ up.dev.resetting = false ∧
        up.dev.accepts frameF2 false = true ∧ wraps.dev.accepts frameF2 false = true) ∧
      8192 * 2 ^ (full.dev.rcr.extractLsb' 11 2).toNat = 8192 ∧ 8192 * 2 ^ (wraps.dev.rcr.extractLsb' 11 2).toNat = 8192 ∧
      8192 ≤ (full.dev.wp.toNat + 8192 - full.dev.rp) % 8192 + (frameF2.length + 8 + 3) / 4 * 4 ∧
      ((last.dev.wp.toNat + 8192 - last.dev.rp) % 8192 + (frameF2.length + 8 + 3) / 4 * 4 < 8192 ∧ last.mem.wf = true ∧
        last.dev.rcr.getLsbD 7 = true ∧ last.dev.rbstart.toNat + last.dev.wp.toNat + (frameF2.length + 8) ≤ 2 ^ 32) ∧
      ((wraps.dev.wp.toNat + 8192 - wraps.dev.rp) % 8192 + (frameF2.length + 8 + 3) / 4 * 4 < 8192 ∧
        wraps.dev.rcr.getLsbD 7 = false ∧ wraps.dev.rbstart.toNat + 8192 ≤ 2 ^ 32) := by
  decide +kernel

/-- Slot 3 alone is pending; then slots 3 and 0, with slot 3 next, under both orders. -/
theorem witness_NicTxTransmits :
    let s : State := { up with dev := { up.dev with pending := up.dev.pending.set 3 true } }
    let o : State := { s with txSlot := 1, params := { s.params with txOrder := .inOrder }, dev := { s.dev with pending := s.dev.pending.set 0 true } }
    up.dev.pending[(3 : Fin 4)] = false ∧ s.dev.pending[(3 : Fin 4)] = true ∧ s.dev.te = true ∧ s.busMaster = true ∧ s.dev.resetting = false ∧
      s.params.txOrder = .any ∧ s.dev.clobbered[(3 : Fin 4)] = false ∧
      ({ s with dev := { s.dev with clobbered := s.dev.clobbered.set 3 true } } : State).dev.clobbered[(3 : Fin 4)] = true ∧
      (o.params.txOrder = .inOrder ∧ ∀ j : Fin 4, o.dev.pending[j] = true → ((3 : Fin 4) - o.txSlot).val ≤ (j - o.txSlot).val) ∧
      (o.dev.pending[(3 : Fin 4)] = true ∧ ((3 : Fin 4) - o.txSlot).val < ((0 : Fin 4) - o.txSlot).val) := by
  decide +kernel

/-- Launch arguments with canonical memory and R7's parameters; and each broken premise is one of these. -/
theorem witness_ResetMeetsTheInvariants :
    Memory.wf [(0x10000, 0xAA)] = true ∧ Config.params.Wf ∧ Config.params.rokClear = .stickyWhileNonempty ∧
      (up.recordFault .addrWrap).faults ≠ [] ∧ (up.recordRefusal .envFrame).refusals ≠ [] ∧ (suspended 1).busy = true ∧
      (suspended 1).phase ≠ .idle ∧ (up.emitWire []).wireOut ≠ [] ∧
      (up.initialized = true ∧ ({ up with cmdWritten := false } : State).cmdWritten = false ∧ ¬ ({ up with arpRr := 1 } : State).ArpWf ∧
        ({ up with txAddr := Vector.replicate 4 0x00200010 } : State).txAddr[(1 : Fin 4)].toNat ≠ 0x00200010 + 1 * up.params.txBufSize) := by
  decide +kernel

/-- A full cache meets the cache invariants, and the CMD write of an ARP_ADD_OR_UPDATE is a step. -/
theorem witness_StepKeepsTheArpCache :
    let s : State := writing { withArgs up 0x0A000011 0x0200 0x11 0 0 with arp := fullCache } 0x21
    s.ArpWf ∧ s.mem.wf = true ∧ nextHas (step s) (fun _ => true) = true := by
  simp only [State.ArpWf]; decide +kernel

/-- The device is up, with an unread record and a pending slot, and can take a step. -/
def upWithTraffic : State :=
  writing { withFrame up frameF2 with dev := { (withFrame up frameF2).dev with pending := up.dev.pending.set 0 true } } 0x13

theorem upWithTraffic_upWf : upWithTraffic.UpWf := by
  refine ⟨?_, ?_, fun _ => ?_⟩
  · unfold State.RingWf; decide +kernel
  · decide +kernel
  · decide +kernel

theorem witness_StepKeepsTheDeviceServing :
    upWithTraffic.SlotsWf ∧ upWithTraffic.initialized = true ∧ upWithTraffic.dev.pending[(0 : Fin 4)] = true ∧
      nextHas (step upWithTraffic) (fun _ => true) = true := by
  refine ⟨⟨upWithTraffic_upWf, ?_⟩, ?_⟩ <;> decide +kernel

theorem witness_StepKeepsRokWhileUnread :
    upWithTraffic.RokWf ∧ upWithTraffic.initialized = true ∧ upWithTraffic.dev.ringEmpty = false ∧
      nextHas (step upWithTraffic) (fun _ => true) = true := by
  refine ⟨⟨upWithTraffic_upWf, ?_⟩, ?_⟩ <;> decide +kernel

theorem witness_StepKeepsMemoryCanonical :
    upWithTraffic.mem.wf = true ∧ nextHas (step upWithTraffic) (fun _ => true) = true := by
  decide +kernel

/-- BUSY = 1 in phase RESOLVING, and an ENGINE turn. -/
theorem witness_StepKeepsBusyWithPhase :
    let s : State := { suspended 2 with agenda := [.engine] }
    s.mem.wf = true ∧ s.BusyWf ∧ nextHas (step s) (fun t => t.busy) = true := by
  simp only [State.BusyWf]; decide +kernel

/-- Steps that change our_ip, an ARG register and DIAG; steps that raise a fault and a refusal, and states that have stopped. -/
theorem witness_WhoWritesWhat :
    nextHas (step (writing (withArgs up 0x01020304 0 0 0 0) 0x30)) (fun t => decide (t.ourIp ≠ up.ourIp)) = true ∧
      nextHas (step { up with agenda := [.host (.engineWrite 0x18 .w32 7)] }) (fun t => decide (t.args ≠ up.args)) = true ∧
      nextHas (step (writing (withFrame up frameF7) 0x13)) (fun t => decide (t.diag ≠ up.diag)) = true ∧
      (up.faults = [] ∧ up.refusals = [] ∧ faultIs (step { up with agenda := [.host (.engineRead 0x04 .w16)] }) .badEngineAccess = true ∧
        refusalIs (step { up with agenda := [.wireRx (zeros 13) false] }) .envFrame = true) ∧
      (.addrWrap ∈ (up.recordFault .addrWrap).faults ∧ .envFrame ∈ (up.recordRefusal .envFrame).refusals) := by
  decide +kernel

end Sys2Proof.Tests
end

namespace Sys2Proof.Machine

/-! ## Every step keeps the device serving, and ROK while a packet is unread -/

/-- Settles O57: each elementary update keeps the slots servable, and neither the latch of CMD nor a write of an ARG register
touches what the invariant speaks of. -/
theorem stepKeepsTheDeviceServing : Obligations.StepKeepsTheDeviceServing :=
  fun _ _ hs h => step_keeps (fun _ _ _ e => e.slotsWf) (fun _ _ hs => hs) (fun _ _ _ _ hs => hs) hs h

/-- Settles O58: each elementary update keeps ROK while the ring holds an unread packet. -/
theorem stepKeepsRokWhileUnread : Obligations.StepKeepsRokWhileUnread :=
  fun _ _ hs h => step_keeps (fun _ _ _ e => e.rokWf) (fun _ _ hs => hs) (fun _ _ _ _ hs => hs) hs h

/-! ## BUSY and the phase (10_state.md R21, R46)

A command is started with BUSY = 0 and so in phase IDLE. It ends with BUSY = 0, the phase untouched, or it suspends in a resolve with
BUSY = 1; NIC_IRQ and the agents touch neither. -/

/-- `t` has the BUSY bit and the phase of `s`. -/
def State.SameActivity (s t : State) : Prop :=
  t.busy = s.busy ∧ t.phase = s.phase

theorem State.SameActivity.refl (s : State) : s.SameActivity s := ⟨rfl, rfl⟩

theorem State.SameActivity.busyWf {s t : State} (h : s.SameActivity t) (hs : s.BusyWf) : t.BusyWf := by
  rw [State.BusyWf, h.1, h.2]; exact hs

theorem State.SameButTraffic.sameActivity {s t : State} (h : s.SameButTraffic t) : s.SameActivity t :=
  ⟨h.keeps.1, h.keeps.2.2.2⟩

theorem State.SendsFrame.sameActivity {s t : State} {src : MemRange} {f : List Byte} (h : s.SendsFrame t src f) :
    s.SameActivity t := by
  have e := h.1
  constructor <;> rw [e]

theorem State.deliver_sameActivity {s t : State} {src : MemRange} {dst : Nat} {b : List Byte}
    (h : s.deliver src dst b = .ok t) : s.SameActivity t := by
  rw [(State.deliver_ok.1 h).2, State.stored_state]
  exact .refl s

/-- A command started in phase IDLE that has left the phase alone satisfies the invariant once it finishes. -/
theorem State.finish_busyWf {s : State} (h : s.phase = .idle) (c : Code) : (s.finish c).BusyWf := by
  rw [State.BusyWf, State.finish_busy, State.finish_phase, h]; rfl

theorem State.finishReceive_busyWf {s before t : State} {dst : Word} {r : Code × List Byte} (hp : s.phase = .idle)
    (h : s.finishReceive before dst r = .ok t) : t.BusyWf := by
  simp only [State.finishReceive] at h
  split at h
  · rw [except_bind_ok] at h
    obtain ⟨u, hu, h⟩ := h
    cases h
    exact State.finish_busyWf (s := u.setRes 0 _) ((State.deliver_sameActivity hu).2.trans hp) _
  · cases h; exact State.finish_busyWf (s := s.setRes 0 0) hp _

theorem State.continuePending_busyWf {s t : State} (hw : s.mem.wf = true) (hp : s.phase = .idle) {k : Pending} {hop : Option Mac}
    (h : s.continuePending k hop = .ok t) : t.BusyWf := by
  obtain ⟨hph, hb⟩ := State.continuePending_ends hw h
  rw [State.BusyWf, hb, hph, hp]; rfl

/-- A resolve ends its command or suspends it in phase RESOLVING with BUSY = 1. -/
theorem State.resolve_busyWf {s t : State} (hw : s.mem.wf = true) (hp : s.phase = .idle) {i : Instr} {src : MemRange} {ip : Ip}
    {n : Nat} {k : Pending} (h : s.resolve i src ip n k = .ok t) : t.BusyWf := by
  simp only [State.resolve] at h
  split at h
  · exact State.continuePending_busyWf hw hp h
  · split at h
    · cases h
    · rw [except_bind_ok] at h
      obtain ⟨⟨c, u⟩, hu, h⟩ := h
      have hu := State.ethSendFrame_traffic hw hu
      dsimp only at h
      split at h
      · exact State.continuePending_busyWf hu.2.1 (hu.sameActivity.2.trans hp) h
      · cases h; rfl

theorem State.ipSendPacket_busyWf {s t : State} (hw : s.mem.wf = true) (hp : s.phase = .idle) {i : Instr} {src : MemRange}
    {ip : Ip} {pr : Byte} {d : List Byte} {k : List Byte → Pending} (h : s.ipSendPacket i src ip pr d k = .ok t) : t.BusyWf := by
  simp only [State.ipSendPacket] at h
  split at h
  · exact State.continuePending_busyWf hw hp h
  · exact State.resolve_busyWf hw hp h

theorem State.pollCommand_busyWf {s t : State} (hw : s.mem.wf = true) (hp : s.phase = .idle) (h : s.pollCommand = .ok t) :
    t.BusyWf := by
  simp only [State.pollCommand] at h
  split at h
  · cases h; exact State.finish_busyWf (s := s.setRes 0 0) hp _
  · rw [except_bind_ok] at h
    obtain ⟨⟨n, u⟩, hu, h⟩ := h
    cases h
    exact State.finish_busyWf (s := u.setRes 0 _) ((State.pollRounds_traffic hw hu).sameActivity.2.trans hp) _

/-- A command that ends in one `finish` of a state that traffic reached. -/
theorem State.SameButTraffic.finish_busyWf {s u : State} (h : s.SameButTraffic u) (hp : s.phase = .idle) (c : Code) :
    (u.finish c).BusyWf :=
  State.finish_busyWf (h.sameActivity.2.trans hp) c

theorem State.SameButTraffic.finishDisposition_busyWf {s u : State} (h : s.SameButTraffic u) (hp : s.phase = .idle)
    (d : Disposition) : (u.finishDisposition d).BusyWf :=
  State.finish_busyWf (s := u.setRes 0 d.number) (h.sameActivity.2.trans hp) _

theorem execNicSend_busyWf {s t : State} (hw : s.mem.wf = true) (hp : s.phase = .idle) (h : execNicSend s = .next t) :
    t.BusyWf := by
  simp only [execNicSend, outcome_next, except_bind_ok] at h
  obtain ⟨src, -, n, -, h⟩ := h
  split at h
  · cases h; exact State.finish_busyWf hp _
  · split at h
    · cases h; exact State.finish_busyWf hp _
    · simp only [except_bind_ok] at h
      obtain ⟨d, -, u, hu, h⟩ := h
      cases h
      exact State.finish_busyWf ((State.nicSend_sends hw hu).1.sameActivity.2.trans hp) _

theorem execNicReceive_busyWf {s t : State} (hw : s.mem.wf = true) (hp : s.phase = .idle) (h : execNicReceive s = .next t) :
    t.BusyWf := by
  simp only [execNicReceive, outcome_next, except_bind_ok] at h
  obtain ⟨dst, -, n, -, h⟩ := h
  split at h
  · cases h; exact State.finish_busyWf (s := s.setRes 0 0) hp _
  · simp only [except_bind_ok] at h
    obtain ⟨-, -, ⟨r, u⟩, hu, h⟩ := h
    exact State.finishReceive_busyWf ((State.nicReceive_traffic hw hu).1.sameActivity.2.trans hp) h

theorem execIcmpProcessPacket_busyWf {s t : State} (hw : s.mem.wf = true) (hp : s.phase = .idle)
    (h : execIcmpProcessPacket s = .next t) : t.BusyWf := by
  simp only [execIcmpProcessPacket, outcome_next, except_bind_ok] at h
  obtain ⟨_, -, _, -, _, -, _, -, h⟩ := h
  split at h
  · cases h; exact (State.SameButTraffic.refl hw).finishDisposition_busyWf hp _
  · cases h; exact (State.emitDiag_traffic hw _).finishDisposition_busyWf hp _
  · exact State.ipSendPacket_busyWf hw hp h

theorem execIpChecksum_busyWf {s t : State} (hp : s.phase = .idle) (h : execIpChecksum s = .next t) : t.BusyWf := by
  simp only [execIpChecksum, outcome_next, except_bind_ok] at h
  obtain ⟨_, -, _, -, h⟩ := h
  split at h
  · cases h; exact State.finish_busyWf hp _
  · simp only [except_bind_ok] at h
    obtain ⟨_, -, h⟩ := h
    cases h; exact State.finish_busyWf (s := s.setRes 0 _) hp _

/-- NIC_IRQ leaves the phase alone, and BUSY too unless it finishes, which it does with BUSY = 0 only. -/
theorem execNicIrq_sameActivity {s t : State} (hw : s.mem.wf = true) (h : execNicIrq s = .next t) : s.SameActivity t := by
  simp only [execNicIrq, outcome_next, State.finishIrq_eq] at h
  split at h
  · cases h; exact .refl s
  · split at h
    · cases h; exact .refl s
    · simp only [except_bind_ok] at h
      obtain ⟨⟨n, u⟩, hu, h⟩ := h
      cases h
      exact (State.drainRounds_traffic (s := s.writeIsr _) hw hu).sameActivity

/-- A command started in phase IDLE ends with BUSY = 0 in phase IDLE, or suspends with BUSY = 1. -/
theorem exec_busyWf {i : Instr} {s t : State} (hw : s.mem.wf = true) (hi : i ≠ .nicIrq) (hp : s.phase = .idle)
    (h : exec i s = .next t) : t.BusyWf := by
  cases i with
  | nicInit =>
    simp only [exec, execNicInit, outcome_next, except_bind_ok] at h
    obtain ⟨rxr, -, txr, -, h⟩ := h
    split at h
    · cases h
    · cases h
      rw [State.BusyWf, s.nicInit_eq rxr txr, hp]; rfl
  | nicSend => exact execNicSend_busyWf hw hp h
  | nicReceive => exact execNicReceive_busyWf hw hp h
  | nicIrq => exact absurd rfl hi
  | ethSendFrame =>
    simp only [exec, execEthSendFrame, outcome_next, except_bind_ok] at h
    obtain ⟨_, -, _, -, _, -, _, -, _, -, _, -, ⟨c, u⟩, hu, h⟩ := h
    cases h; exact (State.ethSendFrame_traffic hw hu).finish_busyWf hp _
  | ethReceiveFrame =>
    simp only [exec, execEthReceiveFrame, outcome_next, except_bind_ok] at h
    obtain ⟨_, -, _, -, -, -, ⟨r, u⟩, hu, h⟩ := h
    exact State.finishReceive_busyWf ((State.ethReceiveFrame_traffic hw hu).1.sameActivity.2.trans hp) h
  | ethProcessFrame =>
    simp only [exec, execEthProcessFrame, outcome_next, except_bind_ok] at h
    obtain ⟨_, -, _, -, _, -, ⟨r, u⟩, hu, h⟩ := h
    cases h; exact (State.ethProcessFrame_traffic hw hu).finishDisposition_busyWf hp _
  | ethPoll => exact State.pollCommand_busyWf hw hp (outcome_next.1 h)
  | arpLookup =>
    simp only [exec, execArpLookup, outcome_next, except_bind_ok] at h
    obtain ⟨_, -, h⟩ := h
    split at h
    · cases h; exact State.finish_busyWf (s := s.setResMac _) hp _
    · cases h; exact State.finish_busyWf hp _
  | arpAddOrUpdate =>
    simp only [exec, execArpAddOrUpdate, outcome_next, except_bind_ok] at h
    obtain ⟨ip, -, hi, -, lo, -, h⟩ := h
    cases h
    exact State.finish_busyWf (s := State.setRes _ 0 _) ((State.learn_traffic hw ip _).sameActivity.2.trans hp) _
  | arpSendRequest =>
    simp only [exec, execArpSendRequest, outcome_next, except_bind_ok] at h
    obtain ⟨_, -, ⟨c, u⟩, hu, h⟩ := h
    cases h; exact (State.ethSendFrame_traffic hw hu).finish_busyWf hp _
  | arpSendReply =>
    simp only [exec, execArpSendReply, outcome_next, except_bind_ok] at h
    obtain ⟨_, -, _, -, _, -, _, -, ⟨c, u⟩, hu, h⟩ := h
    cases h; exact (State.ethSendFrame_traffic hw hu).finish_busyWf hp _
  | arpProcessPacket =>
    simp only [exec, execArpProcessPacket, outcome_next, except_bind_ok] at h
    obtain ⟨_, -, _, -, _, -, _, -, _, -, ⟨r, u⟩, hu, h⟩ := h
    cases h; exact (State.arpProcessPacket_traffic hw hu).finishDisposition_busyWf hp _
  | arpResolve =>
    simp only [exec, execArpResolve, outcome_next, except_bind_ok] at h
    obtain ⟨_, -, _, -, h⟩ := h
    exact State.resolve_busyWf hw hp h
  | arpPoll => exact State.pollCommand_busyWf hw hp (outcome_next.1 h)
  | ipSetAddress =>
    simp only [exec, execIpSetAddress, outcome_next, except_bind_ok] at h
    obtain ⟨ip, -, h⟩ := h
    cases h; exact State.finish_busyWf (s := { s with ourIp := ip }) hp _
  | ipSendPacket =>
    simp only [exec, execIpSendPacket, outcome_next, except_bind_ok] at h
    obtain ⟨_, -, _, -, _, -, _, -, _, -, h⟩ := h
    exact State.ipSendPacket_busyWf hw hp h
  | ipProcessPacket =>
    simp only [exec, execIpProcessPacket, outcome_next, except_bind_ok] at h
    obtain ⟨_, -, _, -, _, -, _, -, _, -, ⟨r, u⟩, hu, h⟩ := h
    cases h; exact (State.ipProcessPacket_traffic hw hu).finishDisposition_busyWf hp _
  | ipChecksum => exact execIpChecksum_busyWf hp h
  | icmpSendEchoRequest =>
    simp only [exec, execIcmpSendEchoRequest, outcome_next, except_bind_ok] at h
    obtain ⟨_, -, _, -, _, -, _, -, _, -, _, -, h⟩ := h
    exact State.ipSendPacket_busyWf hw hp h
  | icmpProcessPacket => exact execIcmpProcessPacket_busyWf hw hp h

/-- With the invariant, BUSY = 0 means phase IDLE. -/
theorem State.BusyWf.idle {s : State} (h : s.BusyWf) (hb : s.busy = false) : s.phase = .idle := by
  cases hp : s.phase with
  | idle => rfl
  | resolving _ _ _ _ => rw [State.BusyWf, hp, hb] at h; cases h

theorem writeCmd_busyWf {s t : State} {w : Word} (hw : s.mem.wf = true) (hs : s.BusyWf) (h : writeCmd w s = .next t) :
    t.BusyWf := by
  simp only [writeCmd] at h
  split at h
  · rename_i i _
    split at h
    · cases h
    · rename_i hb
      by_cases hi : i = .nicIrq
      · subst hi
        exact (execNicIrq_sameActivity (s := s.latchCmd w) hw h).busyWf hs
      · exact exec_busyWf (s := s.latchCmd w) hw hi (hs.idle (by simpa [hi] using hb)) h
  · split at h
    · cases h
    · rename_i hb
      cases h
      exact State.finish_busyWf (s := s.latchCmd w) (hs.idle (by simpa using hb)) _

theorem hostMove_busyWf {s t : State} {m : HostMove} (hw : s.mem.wf = true) (hs : s.BusyWf) (h : hostMove m s = .next t) :
    t.BusyWf := by
  cases m with
  | engineRead off w =>
    simp only [hostMove, outcome_next, State.engineRead] at h
    split at h
    · cases h
      rw [State.engineRegister_eq]; exact hs
    · cases h
  | engineWrite off w v =>
    obtain ⟨-, ⟨-, h⟩ | ⟨-, rfl | ⟨k, rfl, -⟩⟩⟩ := engineWrite_next h
    · exact writeCmd_busyWf hw hs h
    · exact hs
    · exact hs
  | deviceRead off w =>
    simp only [hostMove, outcome_next, State.deviceRead] at h
    split at h
    · cases h; exact hs
    · split at h <;> cases h
  | deviceWrite off w v => cases h
  | memWrite a b =>
    simp only [hostMove, outcome_next, State.hostMemWrite] at h
    repeat' split at h
    all_goals cases h
    all_goals exact hs
  | wait => cases h; exact hs

theorem State.dmaStoreWrapped_sameActivity (s : State) (off : Nat) (b : List Byte) : s.SameActivity (s.dmaStoreWrapped off b) := by
  obtain ⟨-, m, cl, e⟩ := State.dmaStoreWrapped_eq (cmd := none) s off b
  rw [e]; exact .refl s

theorem State.writeRecord_sameActivity (s : State) (f : List Byte) (bad : Bool) : s.SameActivity (s.writeRecord f bad) := by
  cases hw : s.dev.rcr.getLsbD 7 <;>
    simp only [State.writeRecord, State.drawWord, State.drawBytes, hw, Bool.false_eq_true, if_true, if_false]
  · exact ⟨(State.dmaStoreWrapped_sameActivity _ _ _).1, (State.dmaStoreWrapped_sameActivity _ _ _).2⟩
  · exact .refl s

theorem State.nicRx_sameActivity (s : State) (f : List Byte) (bad : Bool) : s.SameActivity (s.nicRx f bad) := by
  simp only [State.nicRx]
  repeat' split
  · exact .refl s
  · exact .refl s
  · exact .refl s
  · exact s.writeRecord_sameActivity f bad

theorem State.nicTx_sameActivity (s : State) (i : Fin 4) (ok : Bool) : s.SameActivity (s.nicTx i ok) := by
  simp only [State.nicTx]
  split
  · rw [State.emitSlot_eq]; exact .refl s
  · exact .refl s

/-- A resolve iteration suspends again with BUSY still 1, or goes on with the command from phase IDLE to its end. -/
theorem State.resolveIteration_busyWf {s t : State} (hw : s.mem.wf = true) (hs : s.BusyWf) (h : s.resolveIteration = .ok t) :
    t.BusyWf := by
  simp only [State.resolveIteration] at h
  split at h
  · cases h; exact hs
  · rename_i hp
    rw [except_bind_ok] at h
    obtain ⟨⟨n, u⟩, hu, h⟩ := h
    have hu := State.pollRounds_traffic hw hu
    have hb : u.busy = true := by rw [hu.sameActivity.1, hs, hp]; rfl
    dsimp only at h
    split at h
    · exact State.continuePending_busyWf (s := { u with phase := .idle }) hu.2.1 rfl h
    · split at h
      · exact State.continuePending_busyWf (s := { u with phase := .idle }) hu.2.1 rfl h
      · cases h; exact hb

theorem runMove_busyWf {s t : State} {m : Move} (hw : s.mem.wf = true) (hs : s.BusyWf) (h : runMove m s = .next t) :
    t.BusyWf := by
  cases m with
  | host m => exact hostMove_busyWf hw hs h
  | wireRx f bad =>
    simp only [runMove] at h
    split at h
    · cases h; exact (s.nicRx_sameActivity f bad).busyWf hs
    · cases h
  | nicTx i ok =>
    simp only [runMove] at h
    cases h
    split
    · exact (s.nicTx_sameActivity i ok).busyWf hs
    · exact hs
  | engine => exact State.resolveIteration_busyWf hw hs (outcome_next.1 h)

theorem freeTurn_busyWf {s t : State} (hw : s.mem.wf = true) (hs : s.BusyWf) (h : freeTurn s = .next t) : t.BusyWf := by
  simp only [freeTurn] at h
  split at h
  · cases h; exact hs
  · exact runMove_busyWf (s := { s with draws := s.draws + 1 }) hw hs h

/-- Settles O59: a turn of any agent keeps BUSY = 1 exactly in phase RESOLVING, and a step is one turn. -/
theorem stepKeepsBusyWithPhase : Obligations.StepKeepsBusyWithPhase := by
  intro s t hw hs h
  simp only [step, nextTurn] at h
  split at h
  · cases h
  · cases h
  · split at h
    · exact freeTurn_busyWf (s := { s with hostData := s.statusWord }) hw hs h
    · split at h
      · exact freeTurn_busyWf hw hs h
      · rename_i m rest _
        exact runMove_busyWf (s := { s with agenda := rest }) hw hs h

end Sys2Proof.Machine

namespace Sys2Proof.Machine

/-! ## Who writes what (10_state.md R23, R25, R26, R48, 60_exceptions.md R274) -/

/-- A field that no elementary update with this command and no latch of CMD touches stays as it is. -/
theorem TurnEffects.field_eq {cmd : Option Instr} {α : Type} {f : State → α} (hE : ∀ s t, Effect cmd s t → f t = f s)
    (hL : ∀ s w, f (s.latchCmd w) = f s) {s t : State} (h : TurnEffects cmd s t) : f t = f s :=
  h.keeps (P := fun u => f u = f s) (fun u v e hu => (hE u v e).trans hu) (fun u w hu => (hL u w).trans hu) rfl

/-- What every chain of a turn keeps, whatever its command: the ARG registers, the marks, the parameters, and the logs but for what
they gain. -/
theorem TurnEffects.frame {cmd : Option Instr} {s t : State} (h : TurnEffects cmd s t) :
    t.args = s.args ∧ s.wireOut <+: t.wireOut ∧ s.diag <+: t.diag ∧ t.faults = s.faults ∧ t.refusals = s.refusals ∧
      t.params = s.params := by
  refine ⟨h.field_eq (fun _ _ e => e.args_eq) (fun _ _ => rfl), ?_, ?_, h.field_eq (fun _ _ e => e.faults_eq.1) (fun _ _ => rfl),
    h.field_eq (fun _ _ e => e.faults_eq.2) (fun _ _ => rfl), h.field_eq (fun _ _ e => e.params_eq) (fun _ _ => rfl)⟩
  · exact h.keeps (P := fun u => s.wireOut <+: u.wireOut) (fun _ _ e hu => hu.trans e.logs_prefix.1) (fun _ _ hu => hu)
      (List.prefix_refl _)
  · exact h.keeps (P := fun u => s.diag <+: u.diag) (fun _ _ e hu => hu.trans e.logs_prefix.2) (fun _ _ hu => hu)
      (List.prefix_refl _)

theorem TurnEffects.ourIp_eq {cmd : Option Instr} (hc : cmd ≠ some .ipSetAddress) {s t : State} (h : TurnEffects cmd s t) :
    t.ourIp = s.ourIp :=
  h.field_eq (fun _ _ e => e.ourIp_eq hc) (fun _ _ => rfl)

theorem TurnEffects.mac_eq {cmd : Option Instr} (hc : cmd ≠ some .nicInit) {s t : State} (h : TurnEffects cmd s t) :
    t.mac = s.mac ∧ t.macKnown = s.macKnown :=
  ⟨h.field_eq (fun _ _ e => (e.mac_eq hc).1) (fun _ _ => rfl), h.field_eq (fun _ _ e => (e.mac_eq hc).2) (fun _ _ => rfl)⟩

/-- Who writes what in one step. -/
theorem step_writes {s t : State} (h : step s = .next t) :
    (t.ourIp ≠ s.ourIp → ∃ w rest, s.agenda = .host (.engineWrite 0 .w32 w) :: rest ∧ decode w = .ok .ipSetAddress) ∧
    (t.mac ≠ s.mac ∨ t.macKnown ≠ s.macKnown →
      ∃ w rest, s.agenda = .host (.engineWrite 0 .w32 w) :: rest ∧ decode w = .ok .nicInit) ∧
    (t.args ≠ s.args → s.busy = false ∧ ∃ off v rest, s.agenda = .host (.engineWrite off .w32 v) :: rest) ∧
    s.wireOut <+: t.wireOut ∧ s.diag <+: t.diag ∧ t.faults = s.faults ∧ t.refusals = s.refusals ∧ t.params = s.params := by
  rcases step_effects h with ⟨cmd, he, hcmd⟩ | ⟨off, v, k, rest, ha, rfl, hb⟩
  · obtain ⟨hargs, hframe⟩ := he.frame
    refine ⟨fun hne => hcmd _ ?_, fun hne => hcmd _ ?_, fun hne => absurd hargs hne, hframe⟩
    · by_contra hc
      exact hne (he.ourIp_eq hc)
    · by_contra hc
      obtain ⟨hm, hk⟩ := he.mac_eq hc
      exact hne.elim (absurd hm) (absurd hk)
  · exact ⟨fun hne => absurd rfl hne, fun hne => hne.elim (absurd rfl) (absurd rfl), fun _ => ⟨hb, off, v, rest, ha⟩,
      List.prefix_refl _, List.prefix_refl _, rfl, rfl, rfl⟩

/-! ## A stopped run stays stopped (60_exceptions.md R274, 93_implementation_defined.md) -/

theorem State.noFault_iff {s : State} : s.noFault = true ↔ s.faults = [] ∧ s.refusals = [] := by
  simp [State.noFault]

/-- With a fault recorded a step answers the first one. -/
theorem step_faulted {s : State} {f : Fault} {fs : List Fault} (h : s.faults = f :: fs) : step s = .fault f := by
  simp only [step, h]

/-- With no fault but a refusal recorded a step answers the first one. -/
theorem step_refused {s : State} {r : Refusal} {rs : List Refusal} (hf : s.faults = []) (h : s.refusals = r :: rs) :
    step s = .refused r := by
  simp only [step, hf, h]

theorem State.afterStep_next {s t : State} (h : step s = .next t) : s.afterStep = t := by
  rw [State.afterStep, h]

theorem State.afterStep_fault {s : State} {f : Fault} (h : step s = .fault f) :
    s.afterStep = if s.noFault then s.recordFault f else s := by
  rw [State.afterStep, h]

theorem State.afterStep_refused {s : State} {r : Refusal} (h : step s = .refused r) :
    s.afterStep = if s.noFault then s.recordRefusal r else s := by
  rw [State.afterStep, h]

/-- A recorded fault stops every agent. -/
theorem State.afterStep_faulted {s : State} (h : s.faults ≠ []) : s.afterStep = s := by
  obtain ⟨f, fs, hf⟩ := List.exists_cons_of_ne_nil h
  rw [State.afterStep_fault (step_faulted hf), if_neg fun hn => h (State.noFault_iff.1 hn).1]

/-- A recorded refusal stops every agent. -/
theorem State.afterStep_marked {s : State} (hf : s.faults = []) (h : s.refusals ≠ []) : s.afterStep = s := by
  obtain ⟨r, rs, hr⟩ := List.exists_cons_of_ne_nil h
  rw [State.afterStep_refused (step_refused hf hr), if_neg fun hn => h (State.noFault_iff.1 hn).2]

/-- Once a step has left a stopped state behind, further steps change nothing. -/
theorem State.iterate_afterStep_stops {s t : State} (h : s.afterStep = t) (ht : t.afterStep = t) (n : Nat) :
    Nat.iterate State.afterStep (n + 1) s = t := by
  rw [Function.iterate_succ_apply, h, Function.iterate_fixed ht]

theorem State.iterate_afterStep_of_fault {s : State} (hf : s.faults = []) (hr : s.refusals = []) {f : Fault}
    (h : step s = .fault f) (n : Nat) : Nat.iterate State.afterStep (n + 1) s = { s with faults := [f] } := by
  refine State.iterate_afterStep_stops ?_ (State.afterStep_faulted (List.cons_ne_nil f [])) n
  rw [State.afterStep_fault h, if_pos (State.noFault_iff.2 ⟨hf, hr⟩), State.recordFault, hf, List.nil_append]

theorem State.iterate_afterStep_of_refusal {s : State} (hf : s.faults = []) (hr : s.refusals = []) {r : Refusal}
    (h : step s = .refused r) (n : Nat) : Nat.iterate State.afterStep (n + 1) s = { s with refusals := [r] } := by
  refine State.iterate_afterStep_stops ?_ (State.afterStep_marked (s := { s with refusals := [r] }) hf (List.cons_ne_nil r [])) n
  rw [State.afterStep_refused h, if_pos (State.noFault_iff.2 ⟨hf, hr⟩), State.recordRefusal, hr, List.nil_append]

/-- Settles O60: the writers from what a step can do, and the marks from what `afterStep` records. -/
theorem whoWritesWhat : Obligations.WhoWritesWhat := by
  refine ⟨fun _ _ => step_writes, fun s hf hr => ⟨fun _ => State.afterStep_next, fun f => State.iterate_afterStep_of_fault hf hr,
    fun r => State.iterate_afterStep_of_refusal hf hr⟩, fun s f hmem => ?_, fun s r hf hmem => ?_⟩
  · obtain ⟨g, gs, hg⟩ := List.exists_cons_of_ne_nil (List.ne_nil_of_mem hmem)
    exact ⟨⟨g, hg ▸ List.mem_cons_self, step_faulted hg⟩,
      Function.iterate_fixed (State.afterStep_faulted (List.ne_nil_of_mem hmem))⟩
  · obtain ⟨q, qs, hq⟩ := List.exists_cons_of_ne_nil (List.ne_nil_of_mem hmem)
    exact ⟨⟨q, hq ▸ List.mem_cons_self, step_refused hf hq⟩,
      Function.iterate_fixed (State.afterStep_marked hf (List.ne_nil_of_mem hmem))⟩

end Sys2Proof.Machine

namespace Sys2Proof.Machine

/-! ## The engine register window (10_state.md R20 to R30) -/

/-- An aligned 32-bit read of a register whose value is specified latches it for the HOST and has no other effect. -/
theorem State.engineRead_value {s : State} {off : Fin 0x50} {v : Word} (h4 : off.val % 4 = 0)
    (hv : s.engineRegister off.val = (v, s)) : s.engineRead off .w32 = .ok { s with hostData := v } := by
  rw [State.engineRead_aligned s h4, hv]

theorem alignedWord_of_mod {off : Nat} (h4 : off % 4 = 0) : alignedWord off .w32 = true := by
  simp [alignedWord, h4]

/-- An aligned 32-bit write beside CMD goes to the register at its offset, but to no ARG register while BUSY = 1. -/
theorem engineWrite_aligned {off : Fin 0x50} (h4 : off.val % 4 = 0) (h0 : off.val ≠ 0) (v : Word) (s : State) :
    engineWrite off .w32 v s =
      if s.busy = true ∧ isArgOffset off.val = true then .refused .hostBusyWrite
      else .next (s.engineWriteRegister off.val v) := by
  rw [engineWrite, alignedWord_of_mod h4, if_neg (by decide), if_neg h0]

/-- A register that is not an ARG register takes no write. -/
theorem State.engineWriteRegister_ignored (s : State) {off : Nat} (h : isArgOffset off = false) (v : Word) :
    s.engineWriteRegister off v = s := by
  simp only [State.engineWriteRegister]
  split
  all_goals first | rfl | exact absurd h (by decide)

theorem engineWrite_ignored {off : Fin 0x50} (h4 : off.val % 4 = 0) (h0 : off.val ≠ 0) (ha : isArgOffset off.val = false)
    (v : Word) (s : State) : engineWrite off .w32 v s = .next s := by
  rw [engineWrite_aligned h4 h0, if_neg (by simp [ha]), State.engineWriteRegister_ignored s ha]

/-- A write of CMD is a command's start. -/
theorem engineWrite_cmd (w : Word) (s : State) : engineWrite 0 .w32 w s = writeCmd w s := rfl

/-- A step with nothing recorded whose turn is the HOST's, in a move other than WAIT, makes that move on the agenda's rest. -/
theorem step_hostMove {s : State} {m : HostMove} {rest : List Move} (hf : s.faults = []) (hr : s.refusals = [])
    (ha : s.agenda = .host m :: rest) (hm : m ≠ .wait) : step s = hostMove m { s with agenda := rest } := by
  have hsp : s.spinning = false := by
    simp only [State.spinning, ha]
    split
    · rename_i h; cases h; exact absurd rfl hm
    · rfl
  simp only [step, hf, hr, nextTurn, hsp, ha, Bool.false_eq_true, if_false]
  rfl

/-- Settles O5: the turn is the HOST's write, which the decoder maps to its command. -/
theorem stepRunsTheDecodedCommand : Obligations.StepRunsTheDecodedCommand := by
  intro s w i rest hf hr ha hd hb
  rw [step_hostMove hf hr ha (by simp)]
  show engineWrite 0 .w32 w _ = _
  rw [engineWrite_cmd, writeCmd, hd]
  refine if_neg fun h => ?_
  rcases hb with hb | hb
  · exact absurd (hb.symm.trans h.1) (by decide)
  · exact h.2 hb

/-- Settles O9: offsets 0x1C and 0x4C name no register, and every other access fails the alignment test. -/
theorem reservedAndMisalignedEngineAccess : Obligations.ReservedAndMisalignedEngineAccess := by
  refine ⟨fun s off v h => ?_, fun s off w v h => ?_⟩
  · have hoff : off = 0x1C ∨ off = 0x4C := h.imp Fin.ext Fin.ext
    rcases hoff with rfl | rfl
    · exact ⟨State.engineRead_value rfl rfl, engineWrite_ignored rfl (by decide) rfl v s⟩
    · exact ⟨State.engineRead_value rfl rfl, engineWrite_ignored rfl (by decide) rfl v s⟩
  · have ha : alignedWord off.val w = false := by
      rcases h with h | h <;> simp [alignedWord, h]
    exact ⟨by rw [State.engineRead, ha]; rfl, by rw [engineWrite, ha]; rfl⟩

/-! ## ARG registers (10_state.md R23) -/

/-- The offset of ARG register `k`. -/
theorem argOffset_val (k : Fin 5) : (Fin.ofNat 0x50 (0x08 + 4 * k.val)).val = 0x08 + 4 * k.val :=
  Nat.mod_eq_of_lt (by omega)

theorem State.engineRegister_arg (s : State) (k : Fin 5) :
    s.engineRegister (0x08 + 4 * k.val) = s.readSpecified s.args[k].written s.args[k].value := by
  fin_cases k <;> rfl

theorem State.engineWriteRegister_arg (s : State) (k : Fin 5) (v : Word) :
    s.engineWriteRegister (0x08 + 4 * k.val) v = s.setArg k v := by
  fin_cases k <;> rfl

/-- A HOST write of ARG register `k`: refused while BUSY = 1, taken otherwise. -/
theorem engineWrite_arg (k : Fin 5) (v : Word) (s : State) :
    engineWrite (Fin.ofNat 0x50 (0x08 + 4 * k.val)) .w32 v s =
      if s.busy = true then .refused .hostBusyWrite else .next (s.setArg k v) := by
  have harg : isArgOffset (0x08 + 4 * k.val) = true := by
    simp only [isArgOffset, Bool.and_eq_true, decide_eq_true_eq]; omega
  rw [engineWrite_aligned (by rw [argOffset_val]; omega) (by rw [argOffset_val]; omega), argOffset_val,
    State.engineWriteRegister_arg]
  simp only [harg, and_true]

/-- The reads of ARG0, ARG1, ... with which a command begins, one after the other: those before `j` having answered, the read of `j`
raises the fault or all the reads up to it have answered. -/
theorem State.arg_bind_fault {α : Type} {s : State} {f : Word → Except Fault α} (j : Fin 5) (hj : s.ArgsWritten j.val)
    (h : s.ArgsWritten (j.val + 1) → f s.args[j].value = .error .unwrittenArg) : (s.arg j >>= f) = .error .unwrittenArg := by
  refine State.arg_bind_unwritten fun hw => h fun i hi => ?_
  rcases Nat.lt_succ_iff_lt_or_eq.1 hi with hlt | heq
  · exact hj i hlt
  · rw [Fin.ext heq]; exact hw

theorem State.argsWritten_zero (s : State) : s.ArgsWritten 0 := fun _ h => absurd h (Nat.not_lt_zero _)

/-- Every command reads its ARG registers before anything else, and faults if one of them is unwritten. -/
theorem exec_unwrittenArg {i : Instr} {s : State} (h : ¬ s.ArgsWritten i.argCount) : exec i s = .fault .unwrittenArg := by
  have h0 := s.argsWritten_zero
  cases i with
  | nicIrq | ethPoll | arpPoll => exact absurd h0 h
  | arpLookup | arpSendRequest | ipSetAddress => exact outcome_fault.2 (State.arg_bind_fault 0 h0 fun h1 => absurd h1 h)
  | nicInit | nicSend | nicReceive | ethReceiveFrame | ethProcessFrame | arpResolve | ipChecksum =>
    exact outcome_fault.2 (State.arg_bind_fault 0 h0 fun h1 => State.arg_bind_fault 1 h1 fun h2 => absurd h2 h)
  | arpAddOrUpdate | icmpProcessPacket =>
    exact outcome_fault.2 (State.arg_bind_fault 0 h0 fun h1 => State.arg_bind_fault 1 h1 fun h2 =>
      State.arg_bind_fault 2 h2 fun h3 => absurd h3 h)
  | arpSendReply | arpProcessPacket | ipSendPacket | ipProcessPacket =>
    exact outcome_fault.2 (State.arg_bind_fault 0 h0 fun h1 => State.arg_bind_fault 1 h1 fun h2 =>
      State.arg_bind_fault 2 h2 fun h3 => State.arg_bind_fault 3 h3 fun h4 => absurd h4 h)
  | ethSendFrame | icmpSendEchoRequest =>
    exact outcome_fault.2 (State.arg_bind_fault 0 h0 fun h1 => State.arg_bind_fault 1 h1 fun h2 =>
      State.arg_bind_fault 2 h2 fun h3 => State.arg_bind_fault 3 h3 fun h4 => State.arg_bind_fault 4 h4 fun h5 => absurd h5 h)

/-- No command modifies an ARG register. -/
theorem exec_args {i : Instr} {s t : State} (h : exec i s = .next t) : t.args = s.args :=
  (exec_effects h).keeps (P := fun u => u.args = s.args) (fun _ _ e hu => e.args_eq.trans hu) rfl

/-- Settles O6: the window gives and takes ARG registers, and the commands only read them, before anything else. -/
theorem argRegisterRules : Obligations.ArgRegisterRules := by
  refine ⟨fun k => ?_, fun s k v hb => ?_, fun s k v hb => ?_, fun s k hk => ?_, fun i s k hk hu => ?_, fun i s t => exec_args⟩
  · show (Vector.replicate 5 (⟨0, false⟩ : Latch))[k].written = false
    simp
  · rw [engineWrite_arg, if_neg (by simp [hb])]; rfl
  · rw [engineWrite_arg, if_pos hb]
  · refine State.engineRead_value (by rw [argOffset_val]; omega) ?_
    rw [argOffset_val, State.engineRegister_arg, State.readSpecified_known s hk]
  · exact exec_unwrittenArg fun hw => absurd (hu.symm.trans (hw k hk)) (by decide)

/-! ## STATUS and ENGSTAT bit by bit (10_state.md R22, R27) -/

/-- STATUS holds CODE in [7:0], BUSY in [8], and 0 above. -/
theorem State.statusWord_fields (s : State) :
    s.statusWord.extractLsb' 0 8 = s.code.number ∧ s.statusWord.getLsbD 8 = s.busy ∧ s.statusWord.extractLsb' 9 23 = 0 := by
  simp only [State.statusWord]
  refine ⟨?_, by simp, ?_⟩
  all_goals
    ext i hi
    interval_cases i <;> simp

/-- A 16-bit register shown in a 32-bit window register. -/
theorem zeroExtend_halves (v : Half) :
    (v.zeroExtend 32).extractLsb' 0 16 = v ∧ (v.zeroExtend 32).extractLsb' 16 16 = 0 := by
  constructor
  · ext i hi
    have h32 : i < 32 := by omega
    simp [h32, BitVec.getLsbD_eq_getElem hi]
  · ext i hi
    simp

/-- A number below 2^m in a 32-bit word is an `m`-bit field. -/
theorem ofNat_eq_zeroExtend {m x : Nat} (hx : x < 2 ^ m) : BitVec.ofNat 32 x = (BitVec.ofNat m x).zeroExtend 32 := by
  apply BitVec.eq_of_toNat_eq
  simp [Nat.mod_eq_of_lt hx]

/-- The word with ENGSTAT's layout over its five fields. -/
def engstatLayout (up : Bool) (slot : BitVec 2) (count : BitVec 5) (rr : BitVec 4) (resolving : Bool) : Word :=
  (BitVec.ofBool up).zeroExtend 32 ||| slot.zeroExtend 32 <<< 4 ||| count.zeroExtend 32 <<< 8 ||| rr.zeroExtend 32 <<< 16 |||
    (BitVec.ofBool resolving).zeroExtend 32 <<< 24

theorem State.engstatWord_eq (s : State) :
    s.engstatWord = engstatLayout s.initialized (BitVec.ofNat 2 s.txSlot.val) (BitVec.ofNat 5 s.arp.length)
      (BitVec.ofNat 4 s.arpRr.val) s.phase.isResolving := by
  rw [State.engstatWord, engstatLayout, ofNat_eq_zeroExtend (m := 2) s.txSlot.isLt,
    ofNat_eq_zeroExtend (m := 4) s.arpRr.isLt]

/-- Each field stands in its bits and every other bit is 0. -/
theorem engstatLayout_fields (up : Bool) (slot : BitVec 2) (count : BitVec 5) (rr : BitVec 4) (resolving : Bool) :
    let v := engstatLayout up slot count rr resolving
    (v.getLsbD 0 = up ∧ v.extractLsb' 4 2 = slot ∧ v.extractLsb' 8 5 = count ∧ v.extractLsb' 16 4 = rr ∧
      v.getLsbD 24 = resolving) ∧
    v.extractLsb' 1 3 = 0 ∧ v.extractLsb' 6 2 = 0 ∧ v.extractLsb' 13 3 = 0 ∧ v.extractLsb' 20 4 = 0 ∧ v.extractLsb' 25 7 = 0 := by
  simp only [engstatLayout]
  refine ⟨⟨by simp, ?_, ?_, ?_, by simp⟩, ?_, ?_, ?_, ?_, ?_⟩
  all_goals
    ext i hi
    interval_cases i <;> simp

/-- Settles O8: ENGSTAT's fields, and that its offset is none a write reaches. -/
theorem engstatFields : Obligations.EngstatFields := by
  refine ⟨fun s hl => ⟨s.engstatWord, State.engineRead_value rfl rfl, ?_⟩, State.engineRead_value rfl rfl,
    fun s v => engineWrite_ignored rfl (by decide) rfl v s⟩
  obtain ⟨⟨hi, hx, hn, hr, hp⟩, hz⟩ := engstatLayout_fields s.initialized (BitVec.ofNat 2 s.txSlot.val)
    (BitVec.ofNat 5 s.arp.length) (BitVec.ofNat 4 s.arpRr.val) s.phase.isResolving
  rw [State.engstatWord_eq]
  refine ⟨hi, ?_, ?_, ?_, hp, hz⟩
  · rw [hx, BitVec.toNat_ofNat]; exact Nat.mod_eq_of_lt s.txSlot.isLt
  · rw [hn, BitVec.toNat_ofNat]; exact Nat.mod_eq_of_lt (by omega)
  · rw [hr, BitVec.toNat_ofNat]; exact Nat.mod_eq_of_lt s.arpRr.isLt

/-! ## Reads of the other registers (10_state.md R21 to R29) -/

/-- A write of CMD that reaches a next state has latched its word there. -/
theorem writeCmd_latches {w : Word} {s t : State} (h : writeCmd w s = .next t) : t.cmd = w ∧ t.cmdWritten = true := by
  simp only [writeCmd] at h
  split at h <;> split at h
  · cases h
  · exact (exec_effects h).keeps (P := fun u => u.cmd = w ∧ u.cmdWritten = true)
      (fun _ _ e hu => ⟨e.cmd_eq.1.trans hu.1, e.cmd_eq.2.trans hu.2⟩) ⟨rfl, rfl⟩
  · cases h
  · cases h; exact ⟨rfl, rfl⟩

theorem State.engineRead_cmd {s : State} (h : s.cmdWritten = true) : s.engineRead 0x00 .w32 = .ok { s with hostData := s.cmd } :=
  State.engineRead_value rfl (s.readSpecified_known h s.cmd)

theorem State.engineRegister_res (s : State) (i : Fin 4) :
    s.engineRegister (0x20 + 4 * i.val) = s.readSpecified s.res[i].written s.res[i].value := by
  fin_cases i <;> rfl

/-- MAC_HI and IRQ_ISR show a 16-bit value below 16 zero bits: the mask changes nothing. -/
theorem zeroExtend_and_mask (v : Half) : (v.zeroExtend 32 &&& 0x0000FFFF : Word) = v.zeroExtend 32 := by
  ext i hi
  interval_cases i <;> simp

theorem State.engineRegister_macHi {s : State} (h : s.macKnown = true) :
    s.engineRegister 0x34 = ((s.mac.extractLsb' 32 16).zeroExtend 32, s) := by
  simp only [State.engineRegister, State.readSpecified_known s h, macHi, zeroExtend_and_mask]

theorem State.engineRegister_irqIsr {s : State} (h : s.irqWritten = true) :
    s.engineRegister 0x44 = (s.irqIsr.zeroExtend 32, s) := by
  simp only [State.engineRegister, State.readSpecified_known s h, zeroExtend_and_mask]

/-- The offsets of the window's read-only registers lie aligned, off CMD and off the ARG registers. -/
theorem readOnlyOffset {off : Fin 0x50}
    (h : off.val ∈ [0x04, 0x20, 0x24, 0x28, 0x2C, 0x30, 0x34, 0x38, 0x3C, 0x40, 0x44, 0x48]) :
    off.val % 4 = 0 ∧ off.val ≠ 0 ∧ isArgOffset off.val = false := by
  simp only [List.mem_cons, List.not_mem_nil, or_false] at h
  simp only [isArgOffset, Bool.and_eq_false_iff, decide_eq_false_iff_not]
  omega

/-- Settles O7: each register's read, and that writes of the read-only ones are ignored. -/
theorem windowRegisterReads : Obligations.WindowRegisterReads := by
  refine ⟨fun s h => State.engineRead_cmd h, fun s t w h => ?_,
    fun s => ⟨s.statusWord, State.engineRead_value rfl rfl, s.statusWord_fields⟩, fun s => State.engineRead_value rfl rfl,
    fun s h => ⟨?_, ?_⟩, fun s => ?_, fun s h => ⟨?_, ?_⟩, fun s i h => ?_, fun s off v h => ?_⟩
  · obtain ⟨hw, hk⟩ := writeCmd_latches h
    rw [State.engineRead_cmd hk, hw]
  · exact ⟨_, State.engineRead_value rfl (State.engineRegister_macHi h), zeroExtend_halves _⟩
  · exact State.engineRead_value rfl (s.readSpecified_known h (macLo s.mac))
  · exact ⟨_, State.engineRead_value rfl rfl, zeroExtend_halves s.rxOff⟩
  · exact ⟨_, State.engineRead_value rfl (State.engineRegister_irqIsr h), zeroExtend_halves _⟩
  · exact State.engineRead_value rfl (s.readSpecified_known h s.irqDrained)
  · have hoff : (Fin.ofNat 0x50 (0x20 + 4 * i.val)).val = 0x20 + 4 * i.val := Nat.mod_eq_of_lt (by omega)
    refine State.engineRead_value (by rw [hoff]; omega) ?_
    rw [hoff, State.engineRegister_res, State.readSpecified_known s h]
  · obtain ⟨h4, h0, ha⟩ := readOnlyOffset h
    exact engineWrite_ignored h4 h0 ha v s

end Sys2Proof.Machine

namespace Sys2Proof.Machine

/-! ## HOST reads of the device (10_state.md R31 to R41, R53) -/

/-- The offsets at which device registers begin, with their widths. -/
theorem deviceWidth_eq_some {off : Nat} {w : Width} : deviceWidth off = some w ↔
    (off ≤ 0x05 ∧ w = .w8) ∨ (0x10 ≤ off ∧ off < 0x34 ∧ off % 4 = 0 ∧ w = .w32) ∨ (off = 0x37 ∧ w = .w8) ∨
      (0x38 ≤ off ∧ off < 0x40 ∧ off % 2 = 0 ∧ w = .w16) ∨ (off = 0x44 ∧ w = .w32) := by
  simp only [deviceWidth]
  split_ifs <;> cases w <;> simp <;> omega

/-- The offsets that lie in some register. -/
theorem deviceModelled_iff {off : Nat} : deviceModelled off = true ↔
    off ≤ 0x05 ∨ (0x10 ≤ off ∧ off < 0x34) ∨ (0x37 ≤ off ∧ off < 0x40) ∨ (0x44 ≤ off ∧ off < 0x48) := by
  simp only [deviceModelled, Bool.or_eq_true, Bool.and_eq_true, decide_eq_true_eq, or_assoc]

/-- A read of a register other than CR at its offset and width returns it and changes nothing. -/
theorem hostMove_deviceRead {s : State} {off : Fin 256} {w : Width} (hw : deviceWidth off.val = some w) (hcr : off.val ≠ 0x37) :
    hostMove (.deviceRead off w) s = .next { s with hostData := s.dev.register off.val } := by
  simp only [hostMove, State.deviceRead, hw, hcr, if_true, if_false]; rfl

/-- A read that is none of a register at its width faults, inside a register for one reason and outside for another. -/
theorem hostMove_deviceRead_bad {off : Fin 256} {w : Width} (hw : deviceWidth off.val ≠ some w) (s : State) :
    hostMove (.deviceRead off w) s = .fault (if deviceModelled off.val then .badDeviceAccess else .hostDeviceAccess) := by
  simp only [hostMove, State.deviceRead, hw, if_false]
  split <;> rfl

/-- TSD[i] reads as it is stored, but for bit 14. -/
theorem Device.tsdWord_getLsbD (d : Device) (i : Fin 4) (k : Nat) :
    (d.tsdWord i).getLsbD k = (d.tsd[i].getLsbD k && decide (k ≠ 14)) := by
  have hmask : ∀ k : Fin 32, (0xFFFFBFFF : Word).getLsbD k.val = decide (k.val ≠ 14) := by decide
  rw [Device.tsdWord, BitVec.getLsbD_and]
  by_cases hk : k < 32
  · rw [hmask ⟨k, hk⟩]
  · rw [BitVec.getLsbD_of_ge _ _ (Nat.not_lt.1 hk)]; rfl

/-- The mask of ISR's five bits. -/
theorem isrMask_getLsbD (k : Nat) : (0x001F : Half).getLsbD k = decide (k < 5) := by
  have hmask : ∀ k : Fin 16, (0x001F : Half).getLsbD k.val = decide (k.val < 5) := by decide
  by_cases hk : k < 16
  · exact hmask ⟨k, hk⟩
  · rw [BitVec.getLsbD_of_ge _ _ (Nat.not_lt.1 hk), decide_eq_false (by omega)]

/-- The mask of ISR's bits but ROK. -/
theorem isrMaskButRok_getLsbD (k : Nat) : (0x001E : Half).getLsbD k = (decide (k < 5) && decide (k ≠ 0)) := by
  have hmask : ∀ k : Fin 16, (0x001E : Half).getLsbD k.val = (decide (k.val < 5) && decide (k.val ≠ 0)) := by decide
  by_cases hk : k < 16
  · exact hmask ⟨k, hk⟩
  · rw [BitVec.getLsbD_of_ge _ _ (Nat.not_lt.1 hk), decide_eq_false (by omega)]; rfl

/-- ISR shows its five bits. -/
theorem Device.isrWord_getLsbD (d : Device) (k : Nat) : d.isrWord.getLsbD k = (d.isr.getLsbD k && decide (k < 5)) := by
  rw [Device.isrWord, BitVec.getLsbD_and, isrMask_getLsbD]

/-- CR as a read shows it (10_state.md R33). -/
theorem Device.crWord_fields (d : Device) :
    d.crWord.getLsbD 0 = d.ringEmpty ∧ d.crWord.getLsbD 1 = false ∧ d.crWord.getLsbD 2 = d.te ∧ d.crWord.getLsbD 3 = d.re ∧
      d.crWord.getLsbD 4 = d.resetting ∧ d.crWord.extractLsb' 5 3 = 0 := by
  simp only [Device.crWord]
  refine ⟨by simp, by simp, by simp, by simp, by simp, ?_⟩
  ext i hi
  interval_cases i <;> simp

/-- A read of CR touches rst_left only. -/
theorem Device.afterCrRead_eq (d : Device) : d.afterCrRead = { d with rstLeft := d.afterCrRead.rstLeft } := by
  simp only [Device.afterCrRead]
  split <;> rfl

theorem hostMove_readCr (s : State) : hostMove (.deviceRead 0x37 .w8) s =
    .next { s with hostData := s.dev.crWord.zeroExtend 32, dev := { s.dev with rstLeft := s.dev.afterCrRead.rstLeft } } := by
  rw [← Device.afterCrRead_eq]; rfl

/-- Settles O10: a read at a register's offset and width returns the register; every other access falls outside `deviceWidth`. -/
theorem hostDeviceAccess : Obligations.HostDeviceAccess := by
  refine ⟨fun s off w v => rfl, fun s i => ?_, fun s i => ?_, fun s i => ?_, fun s => ?_, fun s => ?_, fun s off w h => ?_,
    fun s off w h => ?_⟩
  · fin_cases i <;> exact hostMove_deviceRead (by rfl) (by decide)
  · refine ⟨s.dev.tsdWord i, ?_, ?_, fun k hk => ?_⟩
    · fin_cases i <;> exact hostMove_deviceRead (by rfl) (by decide)
    · rw [Device.tsdWord_getLsbD]; simp
    · rw [Device.tsdWord_getLsbD]; simp [hk]
  · fin_cases i <;> exact hostMove_deviceRead (by rfl) (by decide)
  · refine ⟨hostMove_deviceRead rfl (by decide), hostMove_deviceRead rfl (by decide), hostMove_deviceRead rfl (by decide),
      hostMove_deviceRead rfl (by decide), hostMove_deviceRead rfl (by decide), s.dev.isrWord.zeroExtend 32,
      hostMove_deviceRead rfl (by decide), fun k hk => ?_, fun k hk => ?_⟩
    · have h32 : k < 32 := by omega
      simp [Device.isrWord_getLsbD, hk, h32]
    · simp [Device.isrWord_getLsbD, Nat.not_lt.2 hk]
  · obtain ⟨h0, h1, h2, h3, h4, h5⟩ := s.dev.crWord_fields
    refine ⟨_, _, hostMove_readCr s, h0, h1, h2, h3, h5, fun h => ?_, fun n h => ?_, fun h => ?_⟩ <;>
      exact ⟨by rw [h4, Device.resetting, h], by simp only [Device.afterCrRead, h]⟩
  · have hw : deviceWidth off.val ≠ some w := by
      intro hw
      rcases deviceWidth_eq_some.1 hw with ⟨_, rfl⟩ | ⟨_, _, _, rfl⟩ | ⟨_, rfl⟩ | ⟨_, _, _, rfl⟩ | ⟨_, rfl⟩ <;>
        simp at h <;> omega
    rw [hostMove_deviceRead_bad hw, if_pos (deviceModelled_iff.2 (by omega))]
  · have hw : deviceWidth off.val ≠ some w := fun hw => by have := deviceWidth_eq_some.1 hw; omega
    rw [hostMove_deviceRead_bad hw, if_neg fun hm => by have := deviceModelled_iff.1 hm; omega]

/-! ## Writes of ISR (10_state.md R31, R32) -/

/-- The bits a write of ISR clears: those of the five that are written 1, but ROK only where the policy lets it go. -/
theorem Device.writeIsr_getLsbD (d : Device) (p : RokClearPolicy) (v : Half) (k : Nat) :
    (d.writeIsr p v).isr.getLsbD k =
      (d.isr.getLsbD k && !(v.getLsbD k && decide (k < 5) && (decide (k ≠ 0) || decide (p = .unconditional) || d.ringEmpty))) := by
  by_cases hk : k < 16
  · cases p <;> cases he : d.ringEmpty <;>
      simp only [Device.writeIsr, he, BitVec.getLsbD_and, BitVec.getLsbD_not, isrMask_getLsbD, isrMaskButRok_getLsbD, hk,
        Bool.false_eq_true, if_true, if_false] <;> simp [Bool.and_assoc]
  · rw [BitVec.getLsbD_of_ge _ _ (Nat.not_lt.1 hk), BitVec.getLsbD_of_ge _ _ (Nat.not_lt.1 hk)]; rfl

theorem Device.ringEmpty_iff (d : Device) : d.ringEmpty = true ↔ d.rp = d.wp.toNat := by
  rw [Device.ringEmpty, beq_iff_eq]

/-- Settles O12: the bits of ISR after a write, one by one. -/
theorem rokClearing : Obligations.RokClearing := by
  intro p v d
  refine ⟨rfl, fun hp he => ?_, fun hp he => ?_, fun hp => ?_, fun k h1 h4 => ?_, fun k h5 => ?_⟩
  · rw [Device.writeIsr_getLsbD, d.ringEmpty_iff.2 he]; simp
  · rw [Ne, ← Device.ringEmpty_iff, Bool.not_eq_true] at he
    rw [Device.writeIsr_getLsbD, hp, he]; simp
  · rw [Device.writeIsr_getLsbD, hp]; simp
  · have hlt : k < 5 := by omega
    have hne : k ≠ 0 := by omega
    simp [Device.writeIsr_getLsbD, hlt, hne]
  · simp [Device.writeIsr_getLsbD, Nat.not_lt.2 h5]

/-! ## Writes of TSD and CR (10_state.md R33, R35, 70_reset_and_hazards.md R302) -/

/-- TSD[i] after a write reads as the word written, with TUN and TOK 0. -/
theorem Device.tsdWord_writeTsd (d : Device) (i : Fin 4) (v : Word) (k : Nat) :
    ((d.writeTsd i v).tsdWord i).getLsbD k = (v.getLsbD k && decide (k ≠ 14) && decide (k ≠ 15)) := by
  have hmask : ∀ k : Fin 32, (0xFFFF3FFF : Word).getLsbD k.val = (decide (k.val ≠ 14) && decide (k.val ≠ 15)) := by decide
  rw [Device.tsdWord_getLsbD]
  have htsd : (d.writeTsd i v).tsd[i] = v &&& 0xFFFF3FFF := by simp [Device.writeTsd]
  rw [htsd, BitVec.getLsbD_and]
  by_cases hk : k < 32
  · rw [hmask ⟨k, hk⟩]
    cases v.getLsbD k <;> cases decide (k ≠ 14) <;> cases decide (k ≠ 15) <;> rfl
  · rw [BitVec.getLsbD_of_ge _ _ (Nat.not_lt.1 hk)]; rfl

theorem Device.writeTsd_pending_self (d : Device) (i : Fin 4) (v : Word) :
    (d.writeTsd i v).pending[i] = (!v.getLsbD 13 || d.pending[i]) := by
  cases h : v.getLsbD 13 <;> simp only [Device.writeTsd, h, Bool.false_eq_true, if_true, if_false] <;> simp

theorem Device.writeTsd_other (d : Device) {i j : Fin 4} (h : j ≠ i) (v : Word) :
    (d.writeTsd i v).tsd[j] = d.tsd[j] ∧ (d.writeTsd i v).pending[j] = d.pending[j] := by
  have hij : i.val ≠ j.val := fun e => h (Fin.ext e.symm)
  constructor
  · simp [Device.writeTsd, hij]
  · simp only [Device.writeTsd]
    split
    · rfl
    · simp [hij]

/-- A reset of latency `n` shows RST = 1 to the first `n` reads of CR. -/
theorem Device.iterate_afterCrRead {d : Device} {n : Nat} (h : d.rstLeft = .reads n) (k : Nat) :
    (Nat.iterate Device.afterCrRead k d).resetting = decide (k < n) := by
  induction k generalizing d n with
  | zero => cases n <;> simp [Device.resetting, h]
  | succ k ih =>
    rw [Function.iterate_succ_apply]
    cases n with
    | zero => rw [ih (n := 0) (by simp only [Device.afterCrRead, h])]; simp
    | succ n => rw [ih (n := n) (by simp only [Device.afterCrRead, h])]; simp

theorem Device.iterate_afterCrRead_forever {d : Device} (h : d.rstLeft = .forever) (k : Nat) :
    (Nat.iterate Device.afterCrRead k d).resetting = true := by
  have hfix : d.afterCrRead = d := by simp only [Device.afterCrRead, h]
  rw [Function.iterate_fixed hfix, Device.resetting, h]

theorem Device.softReset_rp (d : Device) (tsd : Vector Word 4) (rcr : Word) (l : Option Nat) : (d.softReset tsd rcr l).rp = 0 := by
  show ((0xFFF0 : Half).toNat + 16) % 65536 % _ = 0
  exact Nat.zero_mod _

theorem State.writeCr_reset {s : State} {v : Byte} (h : v.getLsbD 4 = true) : s.writeCr v = s.softReset := by
  rw [State.writeCr, if_pos h]

/-- Settles O14: TSD bit by bit; a CR write with bit 4 is the soft reset, whose latency the reads of CR use up. -/
theorem tsdAndCrWrites : Obligations.TsdAndCrWrites := by
  refine ⟨fun d i v => ?_, fun s v h => ?_, fun s v h => ?_⟩
  · refine ⟨rfl, ?_, ?_, ?_, ?_, ?_, fun h => ?_, fun h => ?_, fun j hj => Device.writeTsd_other d hj v⟩
    · apply BitVec.eq_of_getLsbD_eq
      intro k hk
      have h14 : k ≠ 14 := by omega
      have h15 : k ≠ 15 := by omega
      simp [Device.tsdWord_writeTsd, h14, h15]
    · rw [Device.tsdWord_writeTsd]; simp
    · rw [Device.tsdWord_writeTsd]; simp
    · rw [Device.tsdWord_writeTsd]; simp
    · apply BitVec.eq_of_getLsbD_eq
      intro k hk
      have h14 : 16 + k ≠ 14 := by omega
      have h15 : 16 + k ≠ 15 := by omega
      simp [Device.tsdWord_writeTsd, h14, h15]
    · rw [Device.writeTsd_pending_self, h]; rfl
    · rw [Device.writeTsd_pending_self, h]; rfl
  · refine ⟨s.softReset, State.writeCr_reset h, rfl, Device.softReset_rp _ _ _ _, ?_, fun n hl k => ?_, fun hl k => ?_⟩
    · exact (Device.ringEmpty_iff _).2 (Device.softReset_rp _ _ _ _)
    · exact Device.iterate_afterCrRead (by simp only [State.softReset, Device.softReset_rstLeft, hl]; rfl) k
    · exact Device.iterate_afterCrRead_forever (by simp only [State.softReset, Device.softReset_rstLeft, hl]; rfl) k
  · rw [State.writeCr, if_neg (by rw [h]; decide)]

end Sys2Proof.Machine

namespace Sys2Proof.Machine

/-! ## Host memory (20_memory.md R71 to R83) -/

/-- Settles O55: each elementary update keeps the canonical form, and neither the latch of CMD nor a write of an ARG register touches
memory. -/
theorem stepKeepsMemoryCanonical : Obligations.StepKeepsMemoryCanonical :=
  fun _ _ hs h => step_keeps (P := fun s => s.mem.wf = true) (fun _ _ _ e => e.mem_wf) (fun _ _ hs => hs)
    (fun _ _ _ _ hs => hs) hs h

/-! ### HOST writes -/

/-- Which ranges the HOST may not write once the device is up (R83). -/
theorem State.dmaOwned_iff {s : State} {r : MemRange} :
    s.dmaOwned r = true ↔ s.initialized = true ∧
      (r.meets s.rxRegion = true ∨ ∃ i : Fin 4, s.dev.pending[i] = false ∧ r.meets (s.txBuffer i) = true) := by
  simp [State.dmaOwned]

/-- A HOST write of at least one byte goes through its checks in this order. -/
theorem State.hostMemWrite_eq (s : State) (a : Word) {b : List Byte} (hb : b ≠ []) :
    s.hostMemWrite a b =
      if s.params.addrSpace < a.toNat + b.length then .error .addrWrap
      else if MemRange.meets ⟨a.toNat, b.length⟩ s.window then .error .badEngineAccess
      else if s.dmaOwned ⟨a.toNat, b.length⟩ then .error .hostDmaWrite
      else .ok (({ s with mem := s.mem.writeBytes a.toNat b }).clobberMet ⟨a.toNat, b.length⟩) := by
  have hl : b.length ≠ 0 := fun h => hb (List.length_eq_zero_iff.1 h)
  simp only [State.hostMemWrite, if_neg hl]

/-- Off the engine window only the ownership of the DMA regions is left to check. -/
theorem State.hostMemWrite_accessible {s : State} {a : Word} {b : List Byte} (hb : b ≠ [])
    (ha : s.Accessible ⟨a.toNat, b.length⟩) :
    s.hostMemWrite a b =
      if s.dmaOwned ⟨a.toNat, b.length⟩ then .error .hostDmaWrite
      else .ok (({ s with mem := s.mem.writeBytes a.toNat b }).clobberMet ⟨a.toNat, b.length⟩) := by
  rw [State.hostMemWrite_eq s a hb, if_neg (Nat.not_lt.2 ha.1), if_neg (by rw [ha.2]; decide)]

theorem State.clobberMet_clobbered (s : State) (r : MemRange) (i : Fin 4) :
    (s.clobberMet r).dev.clobbered[i] = (s.dev.clobbered[i] || (s.dev.pending[i] && (s.txBuffer i).meets r)) := by
  simp [State.clobberMet]

/-- Settles O11: the first check that a write fails names its fault, and one that passes them all lands. -/
theorem hostMemoryWrites : Obligations.HostMemoryWrites := by
  refine ⟨fun _ _ => rfl, fun s a b hw hb => ⟨fun hr => ?_, fun hr hm => ?_, fun ha hi ho => ?_, fun ha hfree => ?_⟩⟩
  · exact outcome_fault.2 (by rw [State.hostMemWrite_eq s a hb, if_pos hr])
  · exact outcome_fault.2 (by rw [State.hostMemWrite_eq s a hb, if_neg (Nat.not_lt.2 hr), if_pos hm])
  · exact outcome_fault.2 (by rw [State.hostMemWrite_accessible hb ha, if_pos (State.dmaOwned_iff.2 ⟨hi, ho⟩)])
  · have hown : ¬ s.dmaOwned ⟨a.toNat, b.length⟩ = true := by
      rw [State.dmaOwned_iff]
      rintro ⟨hi, hx | ⟨i, hp, hx⟩⟩
      · exact absurd (hx.symm.trans (hfree hi).1) (by decide)
      · exact absurd (hx.symm.trans ((hfree hi).2 i hp)) (by decide)
    refine ⟨_, outcome_next.2 (by rw [State.hostMemWrite_accessible hb ha, if_neg hown]), rfl, ?_, ?_, fun i => ?_⟩
    · exact Memory.readBytes_writeBytes hw ha.le
    · exact MemSame.writeBytes hw ha.le
    · exact State.clobberMet_clobbered _ _ i

/-! ### Source buffers (20_memory.md R72, R74, R82)

A command reads its ARG registers, checks what its rule lists before the range, and then loads its source buffer: what stops the load stops
the command. -/

theorem except_error_bind {ε α β : Type} (e : ε) (f : α → Except ε β) : ((.error e : Except ε α) >>= f) = .error e := rfl

/-- What stops the first part of a computation stops the whole. -/
theorem except_bind_of_error {ε α β : Type} {x : Except ε α} {e : ε} (h : x = .error e) (f : α → Except ε β) :
    (x >>= f) = .error e := by
  rw [h, except_error_bind]

/-- A command goes on with the value of an ARG register that has been written. -/
theorem State.ArgsWritten.arg_bind {α : Type} {s : State} {n : Nat} (h : s.ArgsWritten n) (i : Fin 5) (hi : i.val < n)
    (f : Word → Except Fault α) : (s.arg i >>= f) = f s.args[i].value := by
  rw [h.arg i hi]; rfl

theorem State.loadSource_bind {α : Type} {s : State} {r : MemRange} (h : s.Accessible r) (f : List Byte → Except Fault α) :
    (s.loadSource r >>= f) = f (s.mem.readBytes r.base r.len) := by
  rw [State.loadSource_pos h, except_ok_bind]

/-- Once the source buffer is loaded, what stops the rest of a command stops the whole. -/
theorem State.loadSource_bind_of_error {α : Type} {s : State} {r : MemRange} {f : List Byte → Except Fault α} {e : Fault}
    (ha : s.Accessible r) (h : f (s.mem.readBytes r.base r.len) = .error e) : (s.loadSource r >>= f) = .error e := by
  rw [State.loadSource_bind ha, h]

/-- The ARG registers with the address and the length of a command's source buffer (30_encoding.md R107). -/
def sourceArgs : Instr → Option (Fin 5 × Fin 5)
  | .nicSend | .ethProcessFrame | .arpProcessPacket | .ipProcessPacket | .icmpProcessPacket | .ipChecksum => some (0, 1)
  | .ipSendPacket => some (2, 3)
  | .ethSendFrame | .icmpSendEchoRequest => some (3, 4)
  | _ => none

/-- The checks that come before the source buffer is loaded: NIC_SEND's and IP_CHECKSUM's (40_nic.md R143, 43_ip.md R233). -/
def State.ReachesSource (s : State) (i : Instr) : Prop :=
  (i = .nicSend → s.initialized = true ∧ s.args[(1 : Fin 5)].value.toNat ≤ s.params.txBufSize) ∧
    (i = .ipChecksum → s.args[(1 : Fin 5)].value.toNat ≤ 65535)

/-- What stops the load of a command's source buffer stops the command. -/
theorem exec_source_fault {i : Instr} {s : State} {a n : Fin 5} {f : Fault} (hs : sourceArgs i = some (a, n))
    (hw : s.ArgsWritten i.argCount) (hc : s.ReachesSource i)
    (h : s.loadSource (bufferOf s.args[a].value s.args[n].value) = .error f) : exec i s = .fault f := by
  cases i with
  | nicSend =>
    obtain ⟨hi, hn⟩ := hc.1 rfl
    cases hs
    refine outcome_fault.2 ?_
    simp (disch := decide) only [hw.arg_bind]
    rw [if_neg (by simp [hi]), if_neg (by omega), h, except_error_bind]
  | ipChecksum =>
    have hn := hc.2 rfl
    cases hs
    refine outcome_fault.2 ?_
    simp (disch := decide) only [hw.arg_bind]
    rw [if_neg (by omega), h, except_error_bind]
  | ethProcessFrame | arpProcessPacket | ipProcessPacket | icmpProcessPacket | ipSendPacket | ethSendFrame | icmpSendEchoRequest =>
    cases hs
    refine outcome_fault.2 ?_
    simp (disch := decide) only [hw.arg_bind, h, except_error_bind]
  | _ => cases hs

/-- A source buffer past the address space. -/
theorem exec_source_wrap {i : Instr} {s : State} {a n : Fin 5} (hs : sourceArgs i = some (a, n)) (hw : s.ArgsWritten i.argCount)
    (hc : s.ReachesSource i) (h : s.args[a].value.toNat + s.args[n].value.toNat > s.params.addrSpace) :
    exec i s = .fault .addrWrap :=
  exec_source_fault hs hw hc (State.loadSource_wrap h)

/-- A source buffer over the engine window. -/
theorem exec_source_window {i : Instr} {s : State} {a n : Fin 5} (hs : sourceArgs i = some (a, n)) (hw : s.ArgsWritten i.argCount)
    (hc : s.ReachesSource i) (h : s.args[a].value.toNat + s.args[n].value.toNat ≤ s.params.addrSpace)
    (hm : (bufferOf s.args[a].value s.args[n].value).meets s.window = true) : exec i s = .fault .bufferOverWindow :=
  exec_source_fault hs hw hc (State.loadSource_window h hm)

/-- NIC_INIT tests its two regions before anything else. -/
theorem execNicInit_wrap {s : State} (hw : s.ArgsWritten 2)
    (h : alignUp s.args[0].value.toNat Config.rxRingAlign + s.params.rxRingLen + s.params.rxRingSlack > s.params.addrSpace ∨
      alignUp s.args[1].value.toNat Config.txBufAlign + Config.txSlots * s.params.txBufSize > s.params.addrSpace) :
    exec .nicInit s = .fault .addrWrap := by
  refine outcome_fault.2 ?_
  simp (disch := decide) only [hw.arg_bind]
  exact if_pos h

/-! ### Receives (20_memory.md R72, R74, R82) -/

/-- What NIC_RECEIVE and ETH_RECEIVE_FRAME share: the check of the host buffer, the receive `recv` of at most its length, and the delivery. -/
def State.receiveInto (s : State) (recv : Nat → Except Fault ((Code × List Byte) × State)) : Except Fault State := do
  s.checkRange (bufferOf s.args[0].value s.args[1].value)
  let (r, t) ← recv s.args[1].value.toNat
  t.finishReceive s s.args[0].value r

theorem exec_nicReceive_eq {s : State} (hw : s.ArgsWritten 2) (hi : s.initialized = true) :
    exec .nicReceive s = outcome (s.receiveInto s.nicReceive) := by
  simp (disch := decide) only [exec, execNicReceive, hw.arg_bind]
  rw [if_neg (by simp [hi])]
  rfl

theorem exec_ethReceiveFrame_eq {s : State} (hw : s.ArgsWritten 2) :
    exec .ethReceiveFrame s = outcome (s.receiveInto s.ethReceiveFrame) := by
  simp (disch := decide) only [exec, execEthReceiveFrame, hw.arg_bind]
  rfl

section
variable {s : State} {recv : Nat → Except Fault ((Code × List Byte) × State)}

/-- A host buffer past the address space stops a receive. -/
theorem State.receiveInto_wrap (h : s.args[0].value.toNat + s.args[1].value.toNat > s.params.addrSpace) :
    s.receiveInto recv = .error .addrWrap := by
  rw [State.receiveInto, State.checkRange_neg h, except_error_bind]

/-- What stops the receive itself stops the command. -/
theorem State.receiveInto_fault {f : Fault} (hr : s.args[0].value.toNat + s.args[1].value.toNat ≤ s.params.addrSpace)
    (h : recv s.args[1].value.toNat = .error f) : s.receiveInto recv = .error f := by
  rw [State.receiveInto, State.checkRange_pos hr, except_ok_bind, h, except_error_bind]

/-- A received frame whose destination meets the engine window stops the command. -/
theorem State.receiveInto_window {u : State} {b : List Byte}
    (hr : s.args[0].value.toNat + s.args[1].value.toNat ≤ s.params.addrSpace)
    (h : recv s.args[1].value.toNat = .ok ((.ok, b), u)) (hl : b.length ≤ s.args[1].value.toNat) (hp : u.params = s.params)
    (hm : MemRange.meets ⟨s.args[0].value.toNat, b.length⟩ s.window = true) :
    s.receiveInto recv = .error .bufferOverWindow := by
  have hd : u.deliver (s.recordRange b.length) s.args[0].value.toNat b = .error .bufferOverWindow :=
    State.deliver_window (by rw [hp]; omega) (by rw [State.window, hp]; exact hm)
  rw [State.receiveInto, State.checkRange_pos hr, except_ok_bind, h, except_ok_bind]
  simp only [State.finishReceive, hd, except_error_bind]

end

/-- Settles O17: the range that wraps is the command's source buffer, the destination of a receive, or a region of NIC_INIT. -/
theorem wrappingRangesFault : Obligations.WrappingRangesFault := by
  intro i s hw
  refine ⟨?_, ?_, ?_, ?_, fun hi h => ?_, ?_, fun hi h => ?_⟩
  · rintro rfl h
    exact execNicInit_wrap hw h
  · rintro rfl hin hn h
    exact exec_source_wrap rfl hw ⟨fun _ => ⟨hin, hn⟩, nofun⟩ h
  · rintro rfl hin h
    rw [exec_nicReceive_eq hw hin, outcome_fault]; exact State.receiveInto_wrap h
  · rintro rfl hn h
    exact exec_source_wrap rfl hw ⟨nofun, fun _ => hn⟩ h
  · simp only [List.mem_cons, List.not_mem_nil, or_false] at hi
    rcases hi with rfl | rfl | rfl | rfl | rfl
    · rw [exec_ethReceiveFrame_eq hw, outcome_fault]; exact State.receiveInto_wrap h
    all_goals exact exec_source_wrap rfl hw ⟨nofun, nofun⟩ h
  · rintro rfl h
    exact exec_source_wrap rfl hw ⟨nofun, nofun⟩ h
  · simp only [List.mem_cons, List.not_mem_nil, or_false] at hi
    rcases hi with rfl | rfl <;> exact exec_source_wrap rfl hw ⟨nofun, nofun⟩ h

/-! ### Receives over the engine window (20_memory.md R74) -/

/-- The record at the ring head meets the engine window: its header does, or a receive of `n` bytes gets to a frame that does. -/
def State.RecordOverWindow (s : State) (n : Nat) : Prop :=
  (s.ringHead + 4 ≤ s.params.addrSpace ∧ MemRange.meets ⟨s.ringHead, 4⟩ s.window = true) ∨
    (s.Accessible ⟨s.ringHead, 4⟩ ∧ s.RecordGood ∧ s.ringHead + 4 + (s.recordFrame n).length ≤ s.params.addrSpace ∧
      MemRange.meets ⟨s.ringHead + 4, (s.recordFrame n).length⟩ s.window = true)

theorem State.RecordOverWindow.receive {s : State} {n : Nat} (h : s.RecordOverWindow n) (hi : s.initialized = true)
    (hr : s.dev.rok = true) : s.nicReceive n = .error .bufferOverWindow ∧ s.ethReceiveFrame n = .error .bufferOverWindow := by
  rcases h with ⟨hle, hm⟩ | ⟨ha, hg, hle, hm⟩
  · exact State.ethReceiveFrame_header hi hr hle hm n
  · exact State.ethReceiveFrame_frame hi hr ha hg hle hm

/-- NIC_RECEIVE and ETH_RECEIVE_FRAME of a record that meets the engine window. -/
theorem State.RecordOverWindow.exec_receive {i : Instr} {s : State} (h : s.RecordOverWindow s.args[1].value.toNat)
    (hm : i ∈ [.nicReceive, .ethReceiveFrame]) (hw : s.ArgsWritten i.argCount) (hi : s.initialized = true) (hr : s.dev.rok = true)
    (hle : s.args[0].value.toNat + s.args[1].value.toNat ≤ s.params.addrSpace) : exec i s = .fault .bufferOverWindow := by
  obtain ⟨hn, he⟩ := h.receive hi hr
  simp only [List.mem_cons, List.not_mem_nil, or_false] at hm
  rcases hm with rfl | rfl
  · rw [exec_nicReceive_eq hw hi, outcome_fault]; exact State.receiveInto_fault hle hn
  · rw [exec_ethReceiveFrame_eq hw, outcome_fault]; exact State.receiveInto_fault hle he

/-- What stops the receive stops a round of a poll or a drain. -/
theorem State.receiveAndDispatch_fault {s : State} {f : Fault} (h : s.ethReceiveFrame s.params.pollBufSize = .error f) :
    s.receiveAndDispatch = .error f := by
  rw [State.receiveAndDispatch, h]

/-- What stops the first round stops a poll. -/
theorem State.pollCommand_fault {s : State} {f : Fault} (hi : s.initialized = true) (h : s.receiveAndDispatch = .error f) :
    s.pollCommand = .error f := by
  have hp : s.ethPoll = .error f := by simp only [State.ethPoll, Config.pollMaxFrames, State.pollRounds, h]
  rw [State.pollCommand, if_neg (by simp [hi]), hp, except_error_bind]

/-- What stops the first round of its drain stops NIC_IRQ, which drains if RX-OK is set. -/
theorem execNicIrq_fault {s : State} {f : Fault} (hi : s.initialized = true) (hr : s.dev.rok = true)
    (h : (s.writeIsr s.dev.isrWord).receiveAndDispatch = .error f) : exec .nicIrq s = .fault f := by
  have hrok : s.dev.isrWord.getLsbD 0 = true := by rw [Device.isrWord_getLsbD]; simpa [Device.rok] using hr
  have hd : (s.writeIsr s.dev.isrWord).drain = .error f := by simp only [State.drain, State.drainRounds, h]
  refine outcome_fault.2 ?_
  rw [if_neg (by simp [hi])]
  simp only [hrok, hd, Bool.true_eq_false, if_false, except_error_bind]

/-- The polls and NIC_IRQ at a record that meets the engine window: NIC_IRQ's acknowledgement keeps ROK while the ring is not empty and
touches nothing else the receive reads. -/
theorem State.RecordOverWindow.exec_poll {i : Instr} {s : State} (h : s.RecordOverWindow s.params.pollBufSize)
    (hm : i ∈ [.ethPoll, .arpPoll, .nicIrq]) (hi : s.initialized = true) (hr : s.dev.rok = true)
    (hirq : i = .nicIrq → s.params.rokClear = .stickyWhileNonempty ∧ s.dev.ringEmpty = false) :
    exec i s = .fault .bufferOverWindow := by
  have hpoll : s.pollCommand = .error .bufferOverWindow :=
    State.pollCommand_fault hi (State.receiveAndDispatch_fault (h.receive hi hr).2)
  simp only [List.mem_cons, List.not_mem_nil, or_false] at hm
  rcases hm with rfl | rfl | rfl
  · exact outcome_fault.2 hpoll
  · exact outcome_fault.2 hpoll
  · obtain ⟨hp, he⟩ := hirq rfl
    have hrok : (s.writeIsr s.dev.isrWord).dev.rok = true := by
      simp only [State.writeIsr, hp]; exact Device.writeIsr_rok_sticky hr he
    have ht : (s.writeIsr s.dev.isrWord).RecordOverWindow s.params.pollBufSize := h
    exact execNicIrq_fault hi hr (State.receiveAndDispatch_fault (ht.receive hi hrok).2)

/-- NIC_RECEIVE and ETH_RECEIVE_FRAME of a frame, which passes ETH_RECEIVE_FRAME's filter, into a host buffer that meets the engine window. -/
theorem exec_receive_window {i : Instr} {s : State} (hm : i ∈ [.nicReceive, .ethReceiveFrame]) (hw : s.ArgsWritten i.argCount)
    (hi : s.initialized = true) (hr : s.dev.rok = true)
    (hle : s.args[0].value.toNat + s.args[1].value.toNat ≤ s.params.addrSpace) (hg : s.RecordGood)
    (hf : i = .ethReceiveFrame → s.acceptsFrame (s.recordFrame s.args[1].value.toNat) = true)
    (ha : s.Accessible ⟨s.ringHead, 4 + (s.recordFrame s.args[1].value.toNat).length⟩)
    (hd : MemRange.meets ⟨s.args[0].value.toNat, (s.recordFrame s.args[1].value.toNat).length⟩ s.window = true) :
    exec i s = .fault .bufferOverWindow := by
  have hl : (s.recordFrame s.args[1].value.toNat).length ≤ s.args[1].value.toNat := by
    rw [State.recordFrame, Memory.length_readBytes]; exact Nat.min_le_right _ _
  simp only [List.mem_cons, List.not_mem_nil, or_false] at hm
  rcases hm with rfl | rfl
  · obtain ⟨u, hu, ht⟩ := State.nicReceive_takes hi hr hg ha
    rw [exec_nicReceive_eq hw hi, outcome_fault]
    exact State.receiveInto_window hle hu hl ht.keeps.2.2.1 hd
  · obtain ⟨u, ht, hu⟩ := State.ethReceiveFrame_takes hi hr hg ha
    rw [hf rfl, if_pos rfl] at hu
    rw [exec_ethReceiveFrame_eq hw, outcome_fault]
    exact State.receiveInto_window hle hu hl ht.keeps.2.2.1 hd

/-! ### Sends over the engine window (20_memory.md R74)

A frame whose TX buffer meets the window stops its send; below, the operations and the commands that send stop with it. -/

/-- A request or a reply of ours is a 60-byte frame. -/
theorem State.arpSend_window {s : State} (hi : s.initialized = true) (h : s.SlotOverWindow 60) (src : MemRange) :
    (∀ tip, s.arpSendRequest src tip = .error .bufferOverWindow) ∧
      ∀ tmac tip sip, s.arpSendReply src tmac tip sip = .error .bufferOverWindow :=
  ⟨fun _ => State.ethSendFrame_window hi _ _ _ (arpPacket_short ..) h,
    fun _ _ _ => State.ethSendFrame_window hi _ _ _ (arpPacket_short ..) h⟩

/-- The learned sender changes neither the TX slots nor the window. -/
theorem State.learn_slotOverWindow {s : State} {n : Nat} (h : s.SlotOverWindow n) (ip : Ip) (m : Mac) :
    (s.learn ip m).SlotOverWindow n := by
  rw [State.learn_eq]; exact h

section
variable {s : State} {pkt : List Byte}

/-- A packet to a known next hop. -/
theorem State.sendResolved_window (hi : s.initialized = true) (hl : pkt.length ≤ 1486)
    (h : s.SlotOverWindow (max 60 (14 + pkt.length))) (src : MemRange) (m : Mac) :
    s.sendResolved src pkt (some m) = .error .bufferOverWindow := by
  simp only [State.sendResolved, State.ethSendFrame_window hi src m Config.etherTypeIpv4 hl h]

/-- The packet a command still has to send when its resolve ends. -/
def Pending.packet : Pending → Option (List Byte)
  | .arpResolve => none
  | .ipSend _ pkt => some pkt
  | .echoReply _ pkt _ _ _ => some pkt

theorem State.continuePending_window {k : Pending} (hk : k.packet = some pkt) (hi : s.initialized = true) (hl : pkt.length ≤ 1486)
    (h : s.SlotOverWindow (max 60 (14 + pkt.length))) (m : Mac) :
    s.continuePending k (some m) = .error .bufferOverWindow := by
  cases k with
  | arpResolve => cases hk
  | ipSend src p | echoReply src p sip id seq =>
    cases hk
    simp only [State.continuePending, State.sendResolved_window hi hl h, except_error_bind]

end

section
variable {s : State} {dip : Ip} {cmd : Instr} {src : MemRange}

/-- A resolve of an unknown address sends its request first. -/
theorem State.resolve_window (hi : s.initialized = true) (hp : s.phase = .idle) (hl : s.arpLookup dip = none)
    (h : s.SlotOverWindow 60) (t : Nat) (k : Pending) : s.resolve cmd src dip t k = .error .bufferOverWindow := by
  simp only [State.resolve, hl, hp, Phase.isResolving, (State.arpSend_window hi h src).1 dip, Bool.false_eq_true, if_false,
    except_error_bind]

variable {proto : Byte} {data : List Byte} {k : List Byte → Pending}

/-- An IPv4 packet to an unknown host. -/
theorem State.ipSendPacket_miss_window (hi : s.initialized = true) (hp : s.phase = .idle) (hl : s.arpLookup dip = none)
    (h : s.SlotOverWindow 60) : s.ipSendPacket cmd src dip proto data k = .error .bufferOverWindow := by
  simp only [State.ipSendPacket, hl, State.resolve_window hi hp hl h]

/-- An IPv4 packet to a known host. -/
theorem State.ipSendPacket_hit_window (hk : ∀ pkt, (k pkt).packet = some pkt) (hi : s.initialized = true)
    (hl : s.arpLookup dip ≠ none) (hd : data.length ≤ 1466) (h : s.SlotOverWindow (max 60 (34 + data.length))) :
    s.ipSendPacket cmd src dip proto data k = .error .bufferOverWindow := by
  obtain ⟨m, hm⟩ := Option.ne_none_iff_exists'.1 hl
  simp only [State.ipSendPacket, hm]
  refine State.continuePending_window (hk _) hi ?_ ?_ m
  · rw [ipPacket_length]; omega
  · rw [ipPacket_length, ← Nat.add_assoc]; exact h

end

/-- IP_SEND_PACKET once its source buffer is loaded. -/
theorem exec_ipSendPacket_loaded {s : State} (hw : s.ArgsWritten 4) (ha : s.Accessible (bufferOf s.args[2].value s.args[3].value)) :
    exec .ipSendPacket s = outcome (s.ipSendPacket .ipSendPacket (bufferOf s.args[2].value s.args[3].value) s.args[0].value
      (lowByte s.args[1].value) (s.mem.readBytes s.args[2].value.toNat s.args[3].value.toNat)
      fun pkt => .ipSend (bufferOf s.args[2].value s.args[3].value) pkt) := by
  simp (disch := decide) only [exec, execIpSendPacket, hw.arg_bind]
  exact congrArg outcome (State.loadSource_bind ha _)

/-- ICMP_SEND_ECHO_REQUEST once its source buffer is loaded. -/
theorem exec_icmpSendEchoRequest_loaded {s : State} (hw : s.ArgsWritten 5)
    (ha : s.Accessible (bufferOf s.args[3].value s.args[4].value)) :
    exec .icmpSendEchoRequest s = outcome (s.ipSendPacket .icmpSendEchoRequest (bufferOf s.args[3].value s.args[4].value)
      s.args[0].value 1 (icmpMessage Config.icmpEchoRequest (lowHalf s.args[1].value) (lowHalf s.args[2].value)
        (s.echoPayload (s.mem.readBytes s.args[3].value.toNat s.args[4].value.toNat)))
      fun pkt => .ipSend (bufferOf s.args[3].value s.args[4].value) pkt) := by
  simp (disch := decide) only [exec, execIcmpSendEchoRequest, hw.arg_bind]
  exact congrArg outcome (State.loadSource_bind ha _)

/-- The payload of an echo request: the loaded bytes, or the default pattern if there are none. -/
theorem State.echoPayload_readBytes (s : State) (a n : Nat) :
    s.echoPayload (s.mem.readBytes a n) = if n = 0 then s.params.echoDefault.toList else s.mem.readBytes a n := by
  cases n with
  | zero => rfl
  | succ n => rfl

/-- An echo request is answered by a reply of its own length. -/
theorem icmpAction_request {m : List Byte} (h8 : 8 ≤ m.length) (hc : internetChecksum m = 0) (ht : byteAt m 0 = 8) :
    ∃ r id seq, icmpAction m = .reply r id seq ∧ r.length = m.length := by
  refine ⟨icmpMessage Config.icmpEchoReply (be16 m 4) (be16 m 6) (m.drop 8), be16 m 4, be16 m 6, ?_, ?_⟩
  · have hlen : ¬ m.length < Config.icmpHdrLen := Nat.not_lt.2 h8
    have hreq : byteAt m 0 = Config.icmpEchoRequest := ht
    rw [icmpAction, if_neg hlen, if_neg (not_not.2 hc), if_pos hreq]
  · rw [icmpMessage_length, List.length_drop]; omega

/-- A good IPv4 packet for us with an ICMP message has its sender learned and the message dispatched. -/
theorem State.ipProcessPacket_icmp {s : State} {d : List Byte} (h4 : (byteAt d 0).extractLsb' 4 4 = 4) (hlo : 20 ≤ (be16 d 2).toNat)
    (hhi : (be16 d 2).toNat ≤ d.length) (hc : internetChecksum (d.take 20) = 0) (hip : be32 d 16 = s.ourIp) (hp : byteAt d 9 = 1)
    (src : MemRange) (m : Mac) :
    s.ipProcessPacket src d m =
      (s.learn (be32 d 12) m).icmpDispatched src ((d.take (be16 d 2).toNat).drop 20) (be32 d 12) := by
  have hlen : ¬ d.length < Config.ipHdrLen := Nat.not_lt.2 (Nat.le_trans hlo hhi)
  have htl : ¬ ((be16 d 2).toNat < Config.ipHdrLen ∨ (be16 d 2).toNat > d.length) :=
    not_or.2 ⟨Nat.not_lt.2 hlo, Nat.not_lt.2 hhi⟩
  have hsum : ¬ internetChecksum (d.take Config.ipHdrLen) ≠ 0 := not_not.2 hc
  simp only [State.ipProcessPacket]
  rw [if_neg hlen, if_neg (not_not.2 h4), if_neg htl, if_neg hsum, if_neg (not_not.2 hip), if_pos hp]
  rfl

/-- The reply to a dispatched echo request of a known sender. -/
theorem State.icmpDispatched_window {s : State} {m : List Byte} {sip : Ip} {hop : Mac} (hi : s.initialized = true)
    (h8 : 8 ≤ m.length) (hm : m.length ≤ 1466) (hc : internetChecksum m = 0) (ht : byteAt m 0 = 8) (hl : s.arpLookup sip = some hop)
    (h : s.SlotOverWindow (max 60 (34 + m.length))) (src : MemRange) :
    s.icmpDispatched src m sip = .error .bufferOverWindow := by
  obtain ⟨r, id, seq, ha, hr⟩ := icmpAction_request h8 hc ht
  have hlen : (ipPacket s.params.ipTtl s.ourIp sip 1 r).length = 20 + m.length := by rw [ipPacket_length, hr]
  have hs := State.sendResolved_window hi (pkt := ipPacket s.params.ipTtl s.ourIp sip 1 r) (by rw [hlen]; omega)
    (by rw [hlen, ← Nat.add_assoc]; exact h) src hop
  simp only [State.icmpDispatched, ha, hl, hs]

/-- The reply to an ARP request for our address. -/
theorem State.arpProcessPacket_window {s : State} {d : List Byte} (hi : s.initialized = true) (hl : 28 ≤ d.length)
    (hf : d.take 6 = [0x00, 0x01, 0x08, 0x00, 0x06, 0x04]) (ho : be16 d 6 = 1) (hip : be32 d 24 = s.ourIp)
    (h : s.SlotOverWindow 60) (src : MemRange) : s.arpProcessPacket src d = .error .bufferOverWindow := by
  have hu : (s.learn (be32 d 14) (mac48 d 8)).initialized = true ∧ (s.learn (be32 d 14) (mac48 d 8)).ourIp = s.ourIp := by
    rw [State.learn_eq]; exact ⟨hi, rfl⟩
  have hr := (State.arpSend_window hu.1 (State.learn_slotOverWindow h _ _) src).2
  have hlen : ¬ d.length < Config.arpPacketLen := Nat.not_lt.2 hl
  simp only [State.arpProcessPacket]
  rw [if_neg hlen, if_neg (by rw [(arpFormatOk_iff d hl).2 hf]; decide), if_pos ⟨ho, hu.2 ▸ hip⟩, hr]

/-! ### Commands whose send meets the engine window -/

section
variable {s : State} (hi : s.initialized = true)
include hi

theorem exec_nicSend_window (hw : s.ArgsWritten 2) (ha : s.Accessible (bufferOf s.args[0].value s.args[1].value))
    (hn : s.args[1].value.toNat ≤ s.params.txBufSize) (h : s.SlotOverWindow s.args[1].value.toNat) :
    exec .nicSend s = .fault .bufferOverWindow := by
  have hbig : ¬ s.args[(1 : Fin 5)].value.toNat > s.params.txBufSize := Nat.not_lt.2 hn
  refine outcome_fault.2 ?_
  simp (disch := decide) only [hw.arg_bind]
  rw [if_neg (by simp [hi]), if_neg hbig]
  exact State.loadSource_bind_of_error ha (except_bind_of_error (State.nicSend_window (by rw [Memory.length_readBytes]; exact h)) _)

theorem exec_ethSendFrame_window (hw : s.ArgsWritten 5) (ha : s.Accessible (bufferOf s.args[3].value s.args[4].value))
    (hn : s.args[4].value.toNat ≤ 1486) (h : s.SlotOverWindow (max 60 (14 + s.args[4].value.toNat))) :
    exec .ethSendFrame s = .fault .bufferOverWindow := by
  refine outcome_fault.2 ?_
  simp (disch := decide) only [hw.arg_bind]
  exact State.loadSource_bind_of_error ha (except_bind_of_error (State.ethSendFrame_window hi _ _ _
    (by rw [Memory.length_readBytes]; exact hn) (by rw [Memory.length_readBytes]; exact h)) _)

theorem exec_ipSendPacket_hit_window (hw : s.ArgsWritten 4) (ha : s.Accessible (bufferOf s.args[2].value s.args[3].value))
    (hn : s.args[3].value.toNat ≤ 1466) (hl : s.arpLookup s.args[0].value ≠ none)
    (h : s.SlotOverWindow (max 60 (34 + s.args[3].value.toNat))) : exec .ipSendPacket s = .fault .bufferOverWindow := by
  rw [exec_ipSendPacket_loaded hw ha, outcome_fault]
  exact State.ipSendPacket_hit_window (fun _ => rfl) hi hl (by rw [Memory.length_readBytes]; exact hn)
    (by rw [Memory.length_readBytes]; exact h)

theorem exec_icmpSendEchoRequest_hit_window (hw : s.ArgsWritten 5)
    (ha : s.Accessible (bufferOf s.args[3].value s.args[4].value)) (hn : s.args[4].value.toNat ≤ 1458)
    (hl : s.arpLookup s.args[0].value ≠ none)
    (h : s.SlotOverWindow (max 60 (42 + (s.echoPayload (s.mem.readBytes s.args[3].value.toNat s.args[4].value.toNat)).length))) :
    exec .icmpSendEchoRequest s = .fault .bufferOverWindow := by
  have hq : (s.echoPayload (s.mem.readBytes s.args[3].value.toNat s.args[4].value.toNat)).length ≤ 1458 := by
    rw [State.echoPayload_readBytes]
    split
    · rw [Vector.length_toList]; decide
    · rw [Memory.length_readBytes]; exact hn
  rw [exec_icmpSendEchoRequest_loaded hw ha, outcome_fault]
  refine State.ipSendPacket_hit_window (fun _ => rfl) hi hl ?_ ?_
  · rw [icmpMessage_length]; omega
  · rw [icmpMessage_length, ← Nat.add_assoc]; exact h

/-- An ARP request of ours, by command or by a resolve, and an ARP reply. -/
theorem exec_arpSend_window (h : s.SlotOverWindow 60) :
    (s.ArgsWritten 1 → exec .arpSendRequest s = .fault .bufferOverWindow) ∧
      (s.ArgsWritten 4 → exec .arpSendReply s = .fault .bufferOverWindow) := by
  refine ⟨fun hw => outcome_fault.2 ?_, fun hw => outcome_fault.2 ?_⟩ <;> simp (disch := decide) only [hw.arg_bind]
  · exact except_bind_of_error ((State.arpSend_window hi h _).1 _) _
  · exact except_bind_of_error ((State.arpSend_window hi h _).2 _ _ _) _

/-- The commands that resolve an unknown address send a request first. -/
theorem exec_resolve_window (h : s.SlotOverWindow 60) (hp : s.phase = .idle) (hl : s.arpLookup s.args[0].value = none) :
    (s.ArgsWritten 2 → exec .arpResolve s = .fault .bufferOverWindow) ∧
      (s.ArgsWritten 4 → s.Accessible (bufferOf s.args[2].value s.args[3].value) →
        exec .ipSendPacket s = .fault .bufferOverWindow) ∧
      (s.ArgsWritten 5 → s.Accessible (bufferOf s.args[3].value s.args[4].value) →
        exec .icmpSendEchoRequest s = .fault .bufferOverWindow) := by
  refine ⟨fun hw => ?_, fun hw ha => ?_, fun hw ha => ?_⟩
  · refine outcome_fault.2 ?_
    simp (disch := decide) only [hw.arg_bind]
    exact State.resolve_window hi hp hl h _ _
  · rw [exec_ipSendPacket_loaded hw ha, outcome_fault]
    exact State.ipSendPacket_miss_window hi hp hl h
  · rw [exec_icmpSendEchoRequest_loaded hw ha, outcome_fault]
    exact State.ipSendPacket_miss_window hi hp hl h

section
variable {d : List Byte} (hd : d = s.mem.readBytes s.args[0].value.toNat s.args[1].value.toNat)
  (ha : s.Accessible (bufferOf s.args[0].value s.args[1].value))
include hd ha

theorem exec_arpProcessPacket_window (hw : s.ArgsWritten 4) (hl : 28 ≤ d.length)
    (hf : d.take 6 = [0x00, 0x01, 0x08, 0x00, 0x06, 0x04]) (ho : be16 d 6 = 1) (hip : be32 d 24 = s.ourIp)
    (h : s.SlotOverWindow 60) : exec .arpProcessPacket s = .fault .bufferOverWindow := by
  subst hd
  refine outcome_fault.2 ?_
  simp (disch := decide) only [hw.arg_bind]
  exact State.loadSource_bind_of_error ha (except_bind_of_error (State.arpProcessPacket_window hi hl hf ho hip h _) _)

theorem exec_icmpProcessPacket_window (hw : s.ArgsWritten 3) (h8 : 8 ≤ d.length) (hm : d.length ≤ 1466)
    (hc : internetChecksum d = 0) (ht : byteAt d 0 = 8) (hl : s.arpLookup s.args[2].value ≠ none)
    (h : s.SlotOverWindow (max 60 (34 + d.length))) : exec .icmpProcessPacket s = .fault .bufferOverWindow := by
  obtain ⟨r, id, seq, hr, hlen⟩ := icmpAction_request h8 hc ht
  subst hd
  have hact : icmpAction (s.mem.readBytes (bufferOf s.args[(0 : Fin 5)].value s.args[(1 : Fin 5)].value).base
      (bufferOf s.args[(0 : Fin 5)].value s.args[(1 : Fin 5)].value).len) = .reply r id seq := hr
  refine outcome_fault.2 ?_
  simp (disch := decide) only [hw.arg_bind]
  refine State.loadSource_bind_of_error ha ?_
  rw [hact]
  exact State.ipSendPacket_hit_window (fun _ => rfl) hi hl (hlen ▸ hm) (hlen ▸ h)

theorem exec_ipProcessPacket_window (hw : s.ArgsWritten 4) (h4 : (byteAt d 0).extractLsb' 4 4 = 4) (hlo : 28 ≤ (be16 d 2).toNat)
    (hhi : (be16 d 2).toNat ≤ d.length) (hm : (be16 d 2).toNat ≤ 1486) (hc : internetChecksum (d.take 20) = 0)
    (hip : be32 d 16 = s.ourIp) (hp : byteAt d 9 = 1) (hce : internetChecksum ((d.take (be16 d 2).toNat).drop 20) = 0)
    (ht : byteAt ((d.take (be16 d 2).toNat).drop 20) 0 = 8) (h : s.SlotOverWindow (max 60 (14 + (be16 d 2).toNat))) :
    exec .ipProcessPacket s = .fault .bufferOverWindow := by
  have hlen : ((d.take (be16 d 2).toNat).drop 20).length = (be16 d 2).toNat - 20 := by
    rw [List.length_drop, List.length_take, Nat.min_eq_left hhi]
  have hfault : ∀ src m, s.ipProcessPacket src d m = .error .bufferOverWindow := fun src m => by
    have hlearn : (s.learn (be32 d 12) m).initialized = true := by rw [State.learn_eq]; exact hi
    rw [State.ipProcessPacket_icmp h4 (by omega) hhi hc hip hp]
    refine State.icmpDispatched_window hlearn (by omega) (by omega) hce ht (State.arpLookup_learn_self _ _ _) ?_ _
    rw [hlen, show 34 + ((be16 d 2).toNat - 20) = 14 + (be16 d 2).toNat by omega]
    exact State.learn_slotOverWindow h _ _
  subst hd
  refine outcome_fault.2 ?_
  simp (disch := decide) only [hw.arg_bind]
  exact State.loadSource_bind_of_error ha (except_bind_of_error (hfault _ _) _)

end

end

/-- Settles O18: the access over the window is the load of a source buffer, a receive's read of the ring or its delivery, or the store of a
frame into a TX buffer; each faults, and its command with it. -/
theorem buffersOverTheWindowFault : Obligations.BuffersOverTheWindowFault := by
  refine ⟨fun s r b hr hm => ⟨State.engineLoad_window hr hm, fun hb => ?_⟩,
    fun s src dst type p hi hp h => State.ethSendFrame_window hi src dst type hp h,
    fun i s hw => ⟨fun hmem hsend hsum hr hm => ?_, fun h hr hm => ?_, fun hmem hr hm => ?_⟩,
    fun i s hw hi hrok hrange hirq hmem => ?_,
    fun s hi => ⟨exec_nicSend_window hi, exec_ethSendFrame_window hi, exec_ipSendPacket_hit_window hi,
      fun hw ha hr hl h => ?_, fun h => ?_, fun hw ha h8 hr hc ht hl h => ?_,
      fun hw ha h4 hlo hhi hmax hc hip hp hce ht h => ?_⟩⟩
  · exact State.engineStore_window (by rw [hb]; exact hr) (by rw [hb]; exact hm)
  · have hsrc : sourceArgs i = some (0, 1) := by
      simp only [List.mem_cons, List.not_mem_nil, or_false] at hmem
      rcases hmem with rfl | rfl | rfl | rfl | rfl | rfl <;> rfl
    exact exec_source_window hsrc hw ⟨hsend, hsum⟩ hr hm
  · subst h
    exact exec_source_window rfl hw ⟨nofun, nofun⟩ hr hm
  · simp only [List.mem_cons, List.not_mem_nil, or_false] at hmem
    rcases hmem with rfl | rfl <;> exact exec_source_window rfl hw ⟨nofun, nofun⟩ hr hm
  · by_cases hrecv : i ∈ [.nicReceive, .ethReceiveFrame]
    · have hover : s.RecordOverWindow s.args[1].value.toNat → exec i s = .fault .bufferOverWindow := fun h =>
        h.exec_receive hrecv hw hi hrok (hrange hrecv)
      rw [if_pos hrecv]
      exact ⟨fun hle hm => hover (.inl ⟨hle, hm⟩), fun ha hg hle hm => hover (.inr ⟨ha, hg, hle, hm⟩), fun _ hf hg ha hd =>
        exec_receive_window hrecv hw hi hrok (hrange hrecv) hg (fun h => (State.acceptsFrame_iff _ _).2 (hf h)) ha hd⟩
    · have hpoll : i ∈ [.ethPoll, .arpPoll, .nicIrq] := by
        simp only [List.mem_cons, List.not_mem_nil, or_false] at hmem hrecv ⊢
        tauto
      have hover : s.RecordOverWindow s.params.pollBufSize → exec i s = .fault .bufferOverWindow := fun h =>
        h.exec_poll hpoll hi hrok hirq
      rw [if_neg hrecv]
      exact ⟨fun hle hm => hover (.inl ⟨hle, hm⟩), fun ha hg hle hm => hover (.inr ⟨ha, hg, hle, hm⟩), fun h => absurd h hrecv⟩
  · exact exec_icmpSendEchoRequest_hit_window hi hw ha hr hl (by rw [State.echoPayload_readBytes]; exact h)
  · obtain ⟨hreq, hrep⟩ := exec_arpSend_window hi h
    refine ⟨hreq, hrep, exec_resolve_window hi h, fun hw ha hl hf ho hip => ?_⟩
    exact exec_arpProcessPacket_window hi rfl ha hw (by rw [Memory.length_readBytes]; exact hl) hf ho hip h
  · exact exec_icmpProcessPacket_window hi rfl ha hw (by rw [Memory.length_readBytes]; exact h8)
      (by rw [Memory.length_readBytes]; exact hr) hc ht hl (by rw [Memory.length_readBytes]; exact h)
  · exact exec_ipProcessPacket_window hi rfl ha hw h4 hlo (by rw [Memory.length_readBytes]; exact hhi) hmax hc hip hp hce ht h

end Sys2Proof.Machine

namespace Sys2Proof.Machine

/-! ## Encoding (30_encoding.md R100 to R103) -/

/-- Every command's encoding law, collected from the commands' own. -/
theorem encoding_law (i : Instr) : Laws.Encoding.Statement i := by
  cases i
  exacts [Laws.Encoding.nicInit, Laws.Encoding.nicSend, Laws.Encoding.nicReceive, Laws.Encoding.nicIrq,
    Laws.Encoding.ethSendFrame, Laws.Encoding.ethReceiveFrame, Laws.Encoding.ethProcessFrame, Laws.Encoding.ethPoll,
    Laws.Encoding.arpLookup, Laws.Encoding.arpAddOrUpdate, Laws.Encoding.arpSendRequest, Laws.Encoding.arpSendReply,
    Laws.Encoding.arpProcessPacket, Laws.Encoding.arpResolve, Laws.Encoding.arpPoll, Laws.Encoding.ipSetAddress,
    Laws.Encoding.ipSendPacket, Laws.Encoding.ipProcessPacket, Laws.Encoding.ipChecksum, Laws.Encoding.icmpSendEchoRequest,
    Laws.Encoding.icmpProcessPacket]

/-- The two maps of R101 agree: no OPCODE but a command's own is read as that command. -/
theorem decodeOpcode_eq_some {op : Byte} {i : Instr} : decodeOpcode op = some i ↔ op = i.opcode := by
  constructor
  · intro h
    apply BitVec.eq_of_toNat_eq
    simp only [decodeOpcode] at h
    split at h
    all_goals cases h
    all_goals assumption
  · rintro rfl
    obtain ⟨_, _, _, hop, _⟩ := encoding_law i
    exact hop

/-- A word is a command's exactly if its two fields are (R100). -/
theorem eq_encode_iff {w : Word} {i : Instr} : w = encode i ↔ w.extractLsb' 8 24 = 0 ∧ w.extractLsb' 0 8 = i.opcode := by
  constructor
  · rintro rfl
    exact ⟨append_hi _ _, append_lo _ _⟩
  · rintro ⟨hmbz, hop⟩
    rw [encode, ← hmbz, ← hop]
    exact (append_split (n := 24) (m := 8) w).symm

theorem decode_of_mbz_ne_zero {w : Word} (h : w.extractLsb' 8 24 ≠ 0) : decode w = .error .mbzNotZero := by
  rw [decode, mbzIsZero, beq_false_of_ne h]
  exact if_neg (by decide)

theorem decode_of_mbz_eq_zero {w : Word} (h : w.extractLsb' 8 24 = 0) :
    decode w = (decodeOpcode (w.extractLsb' 0 8)).elim (.error (.unknownOpcode (w.extractLsb' 0 8))) .ok := by
  rw [decode, mbzIsZero, h]
  cases decodeOpcode (w.extractLsb' 0 8) <;> rfl

/-- The only word that decodes to a command is the encoder's. -/
theorem decode_eq_ok {w : Word} {i : Instr} : decode w = .ok i ↔ w = encode i := by
  rw [eq_encode_iff, ← decodeOpcode_eq_some]
  by_cases h : w.extractLsb' 8 24 = 0
  · rw [decode_of_mbz_eq_zero h]
    cases decodeOpcode (w.extractLsb' 0 8) <;> simp [h]
  · simp only [decode_of_mbz_ne_zero h, h, false_and, reduceCtorEq]

theorem decode_encode (i : Instr) : decode (encode i) = .ok i := decode_eq_ok.2 rfl

/-- A register is a little-endian word (20_memory.md R76). -/
theorem wordOfBytes_bytes (w : Word) :
    wordOfBytes (w.extractLsb' 0 8) (w.extractLsb' 8 8) (w.extractLsb' 16 8) (w.extractLsb' 24 8) = w := by
  rw [wordOfBytes, BitVec.extractLsb'_append_extractLsb'_eq_extractLsb' (rfl : 24 = 16 + 8),
    BitVec.extractLsb'_append_extractLsb'_eq_extractLsb' (rfl : 16 = 8 + 8),
    BitVec.extractLsb'_append_extractLsb'_eq_extractLsb' (rfl : 8 = 0 + 8)]
  exact BitVec.extractLsb'_eq_self

theorem decodeBytes_bytesOfWord (w : Word) (rest : List Byte) :
    decodeBytes (bytesOfWord w ++ rest) = (decode w).map (·, rest) := by
  simp only [bytesOfWord, List.cons_append, List.nil_append, decodeBytes, wordOfBytes_bytes]
  cases decode w <;> rfl

theorem decodeBytes_eq_ok {w : Word} {rest : List Byte} {i : Instr} :
    decodeBytes (bytesOfWord w ++ rest) = .ok (i, rest) ↔ w = encode i := by
  rw [decodeBytes_bytesOfWord, ← decode_eq_ok]
  cases decode w <;> simp [Except.map]

/-- Settles O2: a word is its four bytes, and decodes to a command exactly if both of its fields are the command's. -/
theorem decodingInvertsEncoding : Obligations.DecodingInvertsEncoding :=
  ⟨fun _ _ => decodeBytes_eq_ok.2 rfl, fun _ _ => decode_eq_ok, fun _ _ _ => decodeBytes_eq_ok⟩

/-! ### Legal and illegal words -/

/-- An illegal word is no command's. -/
theorem decode_illegal {w : Word} (h : w.extractLsb' 8 24 ≠ 0 ∨ ∀ i : Instr, w.extractLsb' 0 8 ≠ i.opcode) :
    ∃ e, decode w = .error e := by
  cases hd : decode w with
  | error e => exact ⟨e, rfl⟩
  | ok i =>
    obtain ⟨hmbz, hop⟩ := eq_encode_iff.1 (decode_eq_ok.1 hd)
    rcases h with h | h
    · exact absurd hmbz h
    · exact absurd hop (h i)

theorem writeCmd_illegal {w : Word} (h : w.extractLsb' 8 24 ≠ 0 ∨ ∀ i : Instr, w.extractLsb' 0 8 ≠ i.opcode) (s : State) :
    writeCmd w s = if s.busy = true then .fault .cmdWhileBusy else .next ((s.latchCmd w).finish .illegalCmd) := by
  obtain ⟨e, he⟩ := decode_illegal h
  rw [writeCmd, he]

theorem writeCmd_encode (i : Instr) (s : State) :
    writeCmd (encode i) s =
      if s.busy = true ∧ i ≠ .nicIrq then .fault .cmdWhileBusy else exec i (s.latchCmd (encode i)) := by
  rw [writeCmd, decode_encode]

/-- The OPCODE values of the map, by family (R101). -/
theorem opcode_ranges (i : Instr) :
    (0x01 ≤ i.opcode.toNat ∧ i.opcode.toNat ≤ 0x04) ∨ (0x10 ≤ i.opcode.toNat ∧ i.opcode.toNat ≤ 0x13) ∨
      (0x20 ≤ i.opcode.toNat ∧ i.opcode.toNat ≤ 0x26) ∨ (0x30 ≤ i.opcode.toNat ∧ i.opcode.toNat ≤ 0x33) ∨
      (0x40 ≤ i.opcode.toNat ∧ i.opcode.toNat ≤ 0x41) := by
  cases i <;> decide

/-- Settles O3: an illegal word is latched and finishes, and the OPCODE values listed lie between the families'. -/
theorem illegalWordEndsWithErrIllegalCmd : Obligations.IllegalWordEndsWithErrIllegalCmd := by
  refine ⟨fun w s hb hw => ?_, fun op i hlist hop => ?_⟩
  · rw [writeCmd_illegal hw, if_neg (by rw [hb]; decide)]
    rfl
  · have := opcode_ranges i
    rw [← hop] at this
    omega

/-- Settles O4: what a CMD write does with BUSY = 1, for an illegal word, for a command's and for NIC_IRQ's. -/
theorem onlyNicIrqPreempts : Obligations.OnlyNicIrqPreempts := by
  intro s hb
  refine ⟨fun w hw => ?_, fun i hi => ?_, ?_⟩
  · rw [writeCmd_illegal hw, if_pos hb]
  · rw [writeCmd_encode, if_pos ⟨hb, hi⟩]
  · rw [writeCmd_encode, if_neg fun h => h.2 rfl]
    rfl

/-- Settles O1: the legal words are the encoder's, and the others have an OPCODE of no command or MBZ ≠ 0. -/
theorem decodedSampleWords : Obligations.DecodedSampleWords :=
  ⟨decode_encode .nicInit, decode_encode .nicIrq, decode_encode .ethSendFrame, decode_encode .ethPoll,
    decode_encode .arpAddOrUpdate, decode_encode .arpResolve, decode_encode .ipSendPacket, decode_encode .ipChecksum,
    decode_encode .icmpSendEchoRequest, decode_encode .icmpProcessPacket, decode_of_mbz_eq_zero (by decide),
    decode_of_mbz_eq_zero (by decide), decode_of_mbz_ne_zero (by decide)⟩

end Sys2Proof.Machine

namespace Sys2Proof.Machine

/-! ## NIC_INIT (40_nic.md R141, R142, R144) -/

/-- NIC_INIT whose two regions end inside host memory goes on to its search for the device. -/
theorem exec_nicInit_inRange {s : State} (hw : s.ArgsWritten 2)
    (hr : alignUp s.args[0].value.toNat Config.rxRingAlign + s.params.rxRingLen + s.params.rxRingSlack ≤ s.params.addrSpace)
    (ht : alignUp s.args[1].value.toNat Config.txBufAlign + Config.txSlots * s.params.txBufSize ≤ s.params.addrSpace) :
    exec .nicInit s = .next (s.nicInit s.args[0].value s.args[1].value) := by
  refine outcome_next.2 ?_
  simp (disch := decide) only [hw.arg_bind]
  exact if_neg (not_or.2 ⟨Nat.not_lt.2 hr, Nat.not_lt.2 ht⟩)

section
variable {s : State} (hv : s.params.pciVendorId ≠ 0xFFFF) (rxr txr : Word)
include hv

/-- Without a function whose IDs match. -/
theorem State.nicInit_absent
    (h : ∀ p, s.pci = some p → ¬ (p.vendor = s.params.pciVendorId ∧ p.device = s.params.pciDeviceId)) :
    s.nicInit rxr txr = ({ s with initialized := false }).finish .deviceNotFound := by
  obtain ⟨-, e⟩ | ⟨p, hp, hven, hdev, -⟩ := State.nicInit_cases hv rxr txr
  · exact e
  · exact absurd ⟨hven, hdev⟩ (h p hp)

/-- With a function whose IDs match, the kind of its BAR and then the latency of the reset decide. -/
theorem State.nicInit_found {p : NicPci} (hp : s.pci = some p) (hven : p.vendor = s.params.pciVendorId)
    (hdev : p.device = s.params.pciDeviceId) :
    s.nicInit rxr txr =
      if p.bar0.getLsbD 0 = false then ({ s with initialized := false }).finish .barNotIo
      else if latencyEnds (Config.drawLatency (s.draws + 5)) s.params.resetPollLimit then
        ((s.initialised p rxr txr).setResMac (s.initialised p rxr txr).mac).finish .ok
      else (s.polling p).finish .resetTimeout := by
  obtain ⟨hno, -⟩ | ⟨q, hq, -, -, hcases⟩ := State.nicInit_cases hv rxr txr
  · exact absurd ⟨hven, hdev⟩ (hno p hp)
  · obtain rfl : q = p := Option.some.inj (hq.symm.trans hp)
    obtain ⟨hb, e⟩ | ⟨hb, hl, e⟩ | ⟨hb, hl, e⟩ := hcases <;> rw [e, hb]
    · rw [if_pos rfl]
    · rw [hl]; rfl
    · rw [hl]; rfl

end

/-- Settles O16: without a match, and with a memory BAR, only `initialized` has been cleared when the command ends. -/
theorem nicInitFatalCodes : Obligations.NicInitFatalCodes := by
  intro s hw hv hr ht
  rw [exec_nicInit_inRange hw hr ht]
  refine ⟨fun h => ?_, fun p hp hven hdev hb => ?_⟩
  · rw [State.nicInit_absent hv _ _ fun p hp => not_and_or.2 (h p hp)]
    rfl
  · rw [State.nicInit_found hv _ _ hp hven hdev, if_pos hb]
    rfl

/-- The reset ends within the poll limit exactly if its latency is below it. -/
theorem latencyEnds_iff {l : Option Nat} {n : Nat} : latencyEnds l n = true ↔ latencyBelow l n := by
  cases l <;> simp [latencyEnds, latencyBelow]

section
variable {s : State} (p : NicPci)

/-- The state in which NIC_INIT ends its polls. -/
theorem State.polling_eq : s.polling p = { s with
    initialized := false, ioBase := p.bar0 &&& 0xFFFFFFFC
    dev := { s.resetDevice with rstLeft := (s.polling p).dev.rstLeft }, draws := s.draws + 6 } := by
  rw [← State.polling_dev]
  rfl

/-- A reset that outlasts the polls has used up one read of its latency for each of them. -/
theorem State.polling_rstLeft {n : Nat} (h : Config.drawLatency (s.draws + 5) = some n) :
    (s.polling p).dev.rstLeft = .reads (n - s.params.resetPollLimit) := by
  have hd : s.resetDevice.rstLeft = .reads n := by rw [State.resetDevice, Device.softReset_rstLeft, h]; rfl
  rw [State.polling, Device.pollReset_reads hd]

variable (hl : latencyEnds (Config.drawLatency (s.draws + 5)) s.params.resetPollLimit = true)

include hl in
/-- The state after a NIC_INIT that succeeded: the device as the soft reset left it and NIC_INIT programs it. -/
theorem State.initialised_eq (rxr txr : Word) :
    s.initialised p rxr txr = { s with
      initialized := true, ioBase := p.bar0 &&& 0xFFFFFFFC, mac := s.dev.idr, macKnown := true
      rxBase := (s.initialised p rxr txr).rxBase, txAddr := (s.initialised p rxr txr).txAddr, txSlot := 0, rxOff := 0
      dev := { s.dev with
        isr := 0, imr := 0x0005, te := true, re := true, rcr := s.params.rcrInit
        rbstart := (s.initialised p rxr txr).rxBase, tsad := (s.initialised p rxr txr).txAddr, capr := 0xFFF0, wp := 0
        pending := Vector.replicate 4 false, clobbered := Vector.replicate 4 false
        tsd := (s.initialised p rxr txr).dev.tsd, rstLeft := .reads 0 }
      pci := some { p with command := p.command ||| 0x0004 }
      draws := (s.initialised p rxr txr).draws } := by
  have hover : (s.polling p).dev.rstLeft = .reads 0 := (Device.pollReset_ofLatency (d := s.resetDevice) rfl).2.2 hl
  simp only [State.initialised]
  rw [State.polling_dev, hover]
  rfl

variable {rxr : Word} (txr : Word)
  (hr : alignUp rxr.toNat Config.rxRingAlign + s.params.rxRingLen + s.params.rxRingSlack ≤ s.params.addrSpace)

include hr in
/-- The ring's base fits an address register. -/
theorem State.initialised_rxBase : (s.initialised p rxr txr).rxBase.toNat = alignUp rxr.toNat Config.rxRingAlign := by
  have hA := Params.addrSpace_le s.params
  have hL : 0 < s.params.rxRingLen := ringLenOf_pos _
  refine Nat.mod_eq_of_lt ?_
  simp only [Config.addrSpace] at hA
  omega

variable {p txr}

include hl hr in
/-- A NIC_INIT that succeeded leaves the launch premise UP (70_reset_and_hazards.md R311, notes/assumptions/39.md). -/
theorem State.initialised_isUp
    (ht : alignUp txr.toNat Config.txBufAlign + Config.txSlots * s.params.txBufSize ≤ s.params.addrSpace)
    (hven : p.vendor = s.params.pciVendorId) (hdev : p.device = s.params.pciDeviceId) (hbar : p.bar0.getLsbD 0 = true)
    (hp : s.params.Wf) (hargs : s.ArgsWritten 5) (hcw : s.cmdWritten = true) (hc : s.cmd = encode .nicInit) (ha : s.ArpWf) :
    (((s.initialised p rxr txr).setResMac (s.initialised p rxr txr).mac).finish .ok).isUp = true := by
  have e := State.initialised_eq p hl rxr txr
  have hwp : (s.initialised p rxr txr).dev.wp = 0 := by rw [e]
  have hcapr : (s.initialised p rxr txr).dev.capr = 0xFFF0 := by rw [e]
  have hisr : (s.initialised p rxr txr).dev.isr = 0 := by rw [e]
  have hclob : (s.initialised p rxr txr).dev.clobbered = Vector.replicate 4 false := by rw [e]
  refine decide_eq_true ⟨⟨State.initialised_up hl hp hr ht, rfl, rfl, rfl, ?_, ?_, hven, hdev, hbar, rfl, rfl, rfl, hwp, hcapr,
    hisr, hclob, ha, hcw, .inl hc⟩, fun i => hargs i i.isLt⟩
  · simp [State.setResMac, State.finish, State.setRes]
  · simp [State.setResMac, State.finish, State.setRes]

end

/-- Settles O15: the drawn latency decides between the device brought up and the device left in its reset. -/
theorem nicInitBringsUpOrTimesOut : Obligations.NicInitBringsUpOrTimesOut := by
  intro s p hw hv hp hven hdev hbar rx tx hr ht
  have hfound := State.nicInit_found hv s.args[0].value s.args[1].value hp hven hdev
  rw [if_neg (by rw [hbar]; decide)] at hfound
  refine ⟨_, exec_nicInit_inRange hw hr ht, fun hl => ?_, fun hl => ?_⟩
  · rw [← latencyEnds_iff] at hl
    rw [hfound, if_pos hl]
    refine ⟨?_, State.initialised_rxBase p s.args[1].value hr, fun i => ?_, State.initialised_isUp hl hr ht hven hdev hbar⟩
    · rw [State.initialised_mac]
      have e := State.initialised_eq p hl s.args[0].value s.args[1].value
      generalize s.initialised p s.args[0].value s.args[1].value = u at e ⊢
      generalize u.rxBase = a1, u.txAddr = a2, u.dev.tsd = a3, u.draws = a4 at e
      subst e
      rfl
    · exact Vector.getElem_ofFn i.isLt
  · rw [← latencyEnds_iff] at hl
    rw [hfound, if_neg hl]
    refine ⟨?_, fun n => State.polling_rstLeft p⟩
    have e := State.polling_eq p (s := s)
    generalize s.polling p = u at e ⊢
    generalize u.dev.rstLeft = a1 at e
    subst e
    rfl

end Sys2Proof.Machine

namespace Sys2Proof.Machine

/-! ## NIC_SEND (40_nic.md R143, R148) -/

/-- NIC_SEND checks for the device and the length before it reads its source buffer. -/
theorem exec_nicSend_eq {s : State} (hw : s.ArgsWritten 2) : exec .nicSend s = outcome (
    let r := bufferOf s.args[0].value s.args[1].value
    if s.initialized = false then .ok (s.finish .notInitialized)
    else if r.len > s.params.txBufSize then .ok (s.finish .tooLarge)
    else do
      let data ← s.loadSource r
      let s ← s.nicSend r data
      .ok (s.finish .ok)) := by
  simp (disch := decide) only [exec, execNicSend, hw.arg_bind]
  rfl

/-- Settles O19: the two refusals come before the source buffer is read, and a send into an accessible slot hands the frame over. -/
theorem nicSendOutcomes : Obligations.NicSendOutcomes := by
  intro s hw hm r
  rw [exec_nicSend_eq hw]
  refine ⟨fun hi => ?_, fun hi hl => ?_, fun hi hl ha hs => ?_⟩
  · rw [if_pos hi]; rfl
  · rw [if_neg (by simp [hi]), if_pos hl]; rfl
  · obtain ⟨u, hu⟩ := State.nicSend_total (s := s) (src := r) (d := s.mem.readBytes r.base r.len)
      (by rw [Memory.length_readBytes]; exact hs)
    refine ⟨u, ?_, (State.nicSend_sends hm hu).1⟩
    rw [if_neg (by simp [hi]), if_neg (Nat.not_lt.2 hl), State.loadSource_bind ha, hu]
    rfl

/-! ## NIC_RECEIVE (40_nic.md R145, R146, R149) -/

/-- A receive without a frame ends with its code and RES0 = 0. -/
theorem State.receiveInto_none {s t : State} {recv : Nat → Except Fault ((Code × List Byte) × State)} {c : Code}
    (hr : s.args[0].value.toNat + s.args[1].value.toNat ≤ s.params.addrSpace) (hc : c ≠ .ok)
    (h : recv s.args[1].value.toNat = .ok ((c, []), t)) : s.receiveInto recv = .ok ((t.setRes 0 0).finish c) := by
  rw [State.receiveInto, State.checkRange_pos hr, except_ok_bind, h, except_ok_bind]
  cases c with
  | ok => exact absurd rfl hc
  | _ => rfl

/-- A receive with a frame delivers it and ends with its length in RES0. -/
theorem State.receiveInto_frame {s t v : State} {recv : Nat → Except Fault ((Code × List Byte) × State)} {b : List Byte}
    (hr : s.args[0].value.toNat + s.args[1].value.toNat ≤ s.params.addrSpace)
    (h : recv s.args[1].value.toNat = .ok ((.ok, b), t))
    (hd : t.deliver (s.recordRange b.length) s.args[0].value.toNat b = .ok v) :
    s.receiveInto recv = .ok ((v.setRes 0 (BitVec.ofNat 32 b.length)).finish .ok) := by
  rw [State.receiveInto, State.checkRange_pos hr, except_ok_bind, h, except_ok_bind]
  simp only [State.finishReceive, hd, except_ok_bind]

/-- Taking a record keeps every range that the engine may access. -/
theorem State.TakesRecord.accessible {s u : State} (h : s.TakesRecord u) {r : MemRange} (ha : s.Accessible r) : u.Accessible r := by
  obtain ⟨-, -, hp, -, -⟩ := h.keeps
  simpa only [State.Accessible, State.window, hp] using ha

/-- Delivering a frame changes no result register. -/
theorem State.Delivers.res_eq {s t : State} {src : MemRange} {dst : Nat} {b : List Byte} (h : s.Delivers t src dst b) :
    t.res = s.res := by
  rw [h.1]

/-- Settles O20: the good record is taken from the ring, and its frame, no longer than the host buffer, is delivered there. -/
theorem nicReceiveDelivers : Obligations.NicReceiveDelivers := by
  intro s hw hm hi hrok hg hbuf b hrec
  have hb : b.length ≤ s.args[1].value.toNat := by
    rw [show b.length = _ from Memory.length_readBytes _ _ _]; exact Nat.min_le_right _ _
  obtain ⟨u, hu, htake⟩ := State.nicReceive_takes hi hrok hg hrec
  obtain ⟨humem, hures, -, -, -⟩ := htake.keeps
  have hdst : u.Accessible ⟨s.args[0].value.toNat, b.length⟩ :=
    htake.accessible (hbuf.sub (Nat.le_refl _) (Nat.add_le_add_left hb _))
  obtain ⟨v, hv, hdel⟩ := State.deliver_delivers (humem ▸ hm) (src := s.recordRange b.length) hdst
  refine ⟨u, v, ?_, htake, hdel⟩
  rw [exec_nicReceive_eq hw hi, State.receiveInto_frame hbuf.1 hu hv, ← hures, ← hdel.res_eq]
  rfl

/-- NIC_RECEIVE without the device. -/
theorem exec_nicReceive_off {s : State} (hw : s.ArgsWritten 2) (hi : s.initialized = false) :
    exec .nicReceive s = .next ((s.setRes 0 0).finish .notInitialized) := by
  simp (disch := decide) only [exec, execNicReceive, hw.arg_bind]
  rw [if_pos hi]
  rfl

/-- A record is skipped without any change to RES. -/
theorem State.SkipsRecord.res_eq {s u : State} (h : s.SkipsRecord u) : u.res = s.res := by
  rw [h.1]

/-- With no frame flagged a receive takes nothing. -/
theorem State.nicReceive_none {s : State} (hi : s.initialized = true) (hr : s.dev.rok = false) (n : Nat) :
    s.nicReceive n = .ok ((.noData, []), s) := by
  rw [State.nicReceive, if_neg (by simp [hi]), if_pos hr]

/-- A receive skips a bad record. -/
theorem State.nicReceive_skips {s : State} (hi : s.initialized = true) (hr : s.dev.rok = true)
    (ha : s.Accessible ⟨s.ringHead, 4⟩) (hg : ¬ s.RecordGood) (n : Nat) :
    ∃ u, s.SkipsRecord u ∧ s.nicReceive n = .ok ((.noData, []), u) := by
  obtain ⟨u, hu, e⟩ := State.ethReceiveFrame_skips hi hr ha hg n
  obtain ⟨c, b, hn, -⟩ := State.ethReceiveFrame_ok e
  obtain ⟨hoff, -⟩ | ⟨-, hno, -⟩ | ⟨-, -, -, _, _, rfl, rfl, ⟨-, rfl, rfl, -⟩ | ⟨hgood, -⟩⟩ := State.nicReceive_ok hn
  · cases hi.symm.trans hoff
  · cases hr.symm.trans hno
  · exact ⟨u, hu, hn⟩
  · exact absurd hgood hg

/-- Settles O21: no device, no frame flagged, and a bad record, which is skipped. -/
theorem nicReceiveWithoutFrame : Obligations.NicReceiveWithoutFrame := by
  intro s hw
  refine ⟨fun hi => exec_nicReceive_off hw hi, fun hi hr hrok => ?_, fun hi hr hrok ha hg => ?_⟩
  · rw [exec_nicReceive_eq hw hi, State.receiveInto_none hr (by decide) (State.nicReceive_none hi hrok _)]
    rfl
  · obtain ⟨u, hskip, hu⟩ := State.nicReceive_skips hi hrok ha hg s.args[1].value.toNat
    refine ⟨u, ?_, hskip⟩
    rw [exec_nicReceive_eq hw hi, State.receiveInto_none hr (by decide) hu, ← hskip.res_eq]
    rfl

/-- Settles O22: the offset is the aligned end of the record modulo the ring length, and CAPR is 16 below it. -/
theorem rxAdvanceMovesBothPointers : Obligations.RxAdvanceMovesBothPointers := by
  intro s n
  obtain ⟨hoff, hlt, hmod⟩ := ringOffset_wf (s.rxOff.toNat + 4 + n) s.params.rblen
  have hadv : (s.rxAdvance n).rxOff.toNat = alignUp (s.rxOff.toNat + 4 + n) 4 % ringLenOf s.params.rblen := hoff
  refine ⟨_, rfl, rfl, ⟨alignUp (s.rxOff.toNat + 4 + n) 4 / ringLenOf s.params.rblen, ?_⟩, hadv ▸ hlt, hadv ▸ hmod, ?_, fun hk => ?_⟩
  · rw [hadv, Nat.mul_comm 4]
    exact Nat.mod_add_div' _ _
  · show ((s.rxAdvance n).rxOff - 16).toNat = _
    rw [BitVec.toNat_sub]
    show (65536 - 16 + _) % 65536 = _
    omega
  · have hlen : alignUp (s.rxOff.toNat + 4 + n) 4 % ringLenOf s.params.rblen < s.dev.ringLen := by
      rw [Device.ringLen, hk]; exact hlt
    rw [hadv]
    exact Device.rp_capr _ s.dev hlen

/-! ## NIC_IRQ (40_nic.md R150, R151) -/

/-- NIC_IRQ: without the device it reports 0, otherwise it acknowledges what it reads, and with ROK = 1 it drains. -/
theorem exec_nicIrq_eq (s : State) : exec .nicIrq s = outcome (
    if s.initialized = false then .ok ((s.setIrq 0 0).finishIrq .notInitialized)
    else if s.dev.rok = false then .ok (((s.writeIsr s.dev.isrWord).setIrq s.dev.isrWord 0).finishIrq .ok)
    else do
      let (k, t) ← (s.writeIsr s.dev.isrWord).drain
      .ok ((t.setIrq s.dev.isrWord k).finishIrq .ok)) := by
  have hrok : s.dev.isrWord.getLsbD 0 = s.dev.rok := by rw [Device.isrWord_getLsbD]; simp [Device.rok]
  rw [← hrok]
  rfl

/-- The acknowledgement of NIC_IRQ with ROK = 0 clears the five bits whatever the policy. -/
theorem Device.writeIsr_isrWord {d : Device} (h : d.rok = false) (p : RokClearPolicy) (k : Nat) :
    (d.writeIsr p d.isrWord).isr.getLsbD k = (d.isr.getLsbD k && !decide (k < 5)) := by
  rw [Device.writeIsr_getLsbD, Device.isrWord_getLsbD]
  rcases Nat.eq_zero_or_pos k with rfl | hk
  · rw [show d.isr.getLsbD 0 = false from h]; rfl
  · have hne : k ≠ 0 := by omega
    cases d.isr.getLsbD k <;> simp [hne]

/-- Settles O23: NIC_IRQ that does not drain. -/
theorem nicIrqWithoutRxOk : Obligations.NicIrqWithoutRxOk := by
  intro s
  rw [exec_nicIrq_eq]
  refine ⟨fun hi => ?_, fun hi hrok => ⟨(s.dev.writeIsr s.params.rokClear s.dev.isrWord).isr, ?_, fun k hk => ?_, fun k hk => ?_⟩⟩
  · rw [if_pos hi, State.finishIrq_eq]
    rfl
  · rw [if_neg (by simp [hi]), if_pos hrok, State.finishIrq_eq]
    rfl
  · rw [Device.writeIsr_isrWord hrok]; simp [hk]
  · rw [Device.writeIsr_isrWord hrok]; simp [Nat.not_lt.2 hk]

/-- NIC_IRQ with ROK = 1 drains, and ends with the drain. -/
theorem exec_nicIrq_drains {s : State} (hi : s.initialized = true) (hrok : s.dev.rok = true) :
    (∀ n u, (s.writeIsr s.dev.isrWord).drain = .ok (n, u) →
      exec .nicIrq s = .next { u with
        irqIsr := s.dev.isrWord, irqDrained := BitVec.ofNat 32 n, irqWritten := true
        code := if u.busy then u.code else .ok }) ∧
    ∀ f, (s.writeIsr s.dev.isrWord).drain = .error f → exec .nicIrq s = .fault f := by
  rw [exec_nicIrq_eq, if_neg (by simp [hi]), if_neg (by simp [hrok])]
  refine ⟨fun n u h => ?_, fun f h => ?_⟩
  · rw [h, except_ok_bind]
    simp only [State.finishIrq_eq]
    rfl
  · rw [h, except_error_bind]
    rfl

/-- An access of ISR is traffic. -/
theorem State.writeIsr_traffic {s : State} (hw : s.mem.wf = true) (v : Half) : s.SameButTraffic (s.writeIsr v) :=
  ⟨rfl, hw, MemSame.refl _ _⟩

/-- A round that dispatches nothing ends a drain. -/
theorem State.drainRounds_ends {s u : State} (h : s.receiveAndDispatch = .ok (false, u)) (n : Nat) :
    State.drainRounds (n + 1) s = .ok (0, u) := by
  rw [State.drainRounds, h]

/-- After a round that dispatched a frame the drain goes on, one frame further. -/
theorem State.drainRounds_goesOn {s v : State} (h : s.receiveAndDispatch = .ok (true, v)) (n : Nat) :
    (∀ k w, State.drainRounds n v = .ok (k, w) → State.drainRounds (n + 1) s = .ok (k + 1, w)) ∧
      ∀ f, State.drainRounds n v = .error f → State.drainRounds (n + 1) s = .error f :=
  ⟨fun k w hk => by rw [State.drainRounds, h]; simp only [hk], fun f hf => by rw [State.drainRounds, h]; simp only [hf]⟩

/-- Settles O24: NIC_IRQ's end is its drain's, which is traffic or a hang; each round is one receive and its dispatch. -/
theorem nicIrqDrainsOrHangs : Obligations.NicIrqDrainsOrHangs := by
  refine ⟨fun s hi hrok => exec_nicIrq_drains hi hrok, fun s hm hd hi hrok => ?_, fun _ => rfl, fun s n hi => ?_⟩
  · obtain ⟨hok, hfault⟩ := exec_nicIrq_drains hi hrok
    obtain ⟨k, u, hu, hk⟩ | hhang := State.drainRounds_total (n := s.params.rxRingLen / 4 + 1) (s := s.writeIsr s.dev.isrWord) hm hd
    · have htr := (State.writeIsr_traffic hm s.dev.isrWord).trans (State.drainRounds_traffic hm hu)
      obtain ⟨hbusy, hcode, -, -⟩ := htr.keeps
      refine .inl ⟨u, k, Nat.le_of_lt_succ hk, htr, ?_⟩
      rw [hok k u hu, hbusy, hcode]
      rfl
    · exact .inr (hfault _ hhang)
  · refine ⟨fun hrok => State.drainRounds_ends (State.receiveAndDispatch_none hi hrok) n, fun hrok ha hg => ?_, fun hrok hg => ?_⟩
    · obtain ⟨u, hskip, hu⟩ := State.receiveAndDispatch_skips hi hrok ha hg
      exact ⟨u, State.drainRounds_ends hu n, hskip⟩
    · intro b ha
      obtain ⟨u, htake, hdrop, hpass⟩ := State.receiveAndDispatch_takes hi hrok hg ha
      refine ⟨fun hno => ?_, fun hm hd hlen hdst => ?_⟩
      · have hrej : s.acceptsFrame b = false := by
          rw [← Bool.not_eq_true, State.acceptsFrame_iff]
          rintro ⟨h14, hdst⟩
          obtain h | ⟨h1, h2⟩ := hno
          · omega
          · exact hdst.elim h1 h2
        exact ⟨u, State.drainRounds_ends (hdrop hrej) n, htake⟩
      · obtain ⟨d, v, hv, -⟩ := State.ethProcessFrame_total (htake.keeps.1 ▸ hm) (htake.dmaClear hd) (s.recordRange b.length) b
        exact ⟨u, d, v, htake, hv, State.drainRounds_goesOn (hpass ((State.acceptsFrame_iff s b).2 ⟨hlen, hdst⟩) d v hv) n⟩

/-- However NIC_IRQ ends: traffic, its two registers written, and its code where it does not preempt. -/
theorem exec_nicIrq_next {s t : State} (hm : s.mem.wf = true) (h : exec .nicIrq s = .next t) :
    ∃ u isr n, s.SameButTraffic u ∧ t = (u.setIrq isr n).finishIrq (if s.initialized then .ok else .notInitialized) := by
  rw [exec_nicIrq_eq, outcome_next] at h
  split at h
  next hi => cases h; exact ⟨s, _, _, .refl hm, by rw [hi]; rfl⟩
  next hi =>
    rw [Bool.not_eq_false] at hi
    have hack := State.writeIsr_traffic hm s.dev.isrWord
    rw [hi]
    split at h
    · cases h; exact ⟨_, _, _, hack, rfl⟩
    · rw [except_bind_ok] at h
      obtain ⟨⟨n, u⟩, hu, h⟩ := h
      cases h
      exact ⟨u, _, n, hack.trans (State.drainRounds_traffic hack.2.1 hu), rfl⟩

/-- Traffic of the state that has latched a word of CMD is traffic of the state before it, once CMD and the registers that NIC_IRQ writes are
put back. -/
theorem State.SameButTraffic.of_latchCmd {s u : State} {w : Word} (h : (s.latchCmd w).SameButTraffic u) :
    s.SameButTraffic { u with
      cmd := s.cmd, cmdWritten := s.cmdWritten, code := s.code, busy := s.busy
      irqIsr := s.irqIsr, irqDrained := s.irqDrained, irqWritten := s.irqWritten } := by
  obtain ⟨e, hm, hsame⟩ := h
  refine ⟨?_, hm, hsame⟩
  generalize u.mem = a1, u.arp = a2, u.arpRr = a3, u.rxOff = a4, u.txSlot = a5, u.dev.isr = a6, u.dev.capr = a7,
    u.dev.tsad = a8, u.dev.tsd = a9, u.dev.pending = a10, u.dev.clobbered = a11, u.diag = a12, u.draws = a13 at e
  subst e
  rfl

/-- Settles O25: what any end of NIC_IRQ leaves, in the state that has latched its word. -/
theorem nicIrqPreemption : Obligations.NicIrqPreemption := by
  intro s t hm h
  rw [writeCmd_encode, if_neg fun h => h.2 rfl] at h
  obtain ⟨u, isr, n, htr, rfl⟩ := exec_nicIrq_next (s := s.latchCmd (encode .nicIrq)) hm h
  obtain ⟨hbusy, hcode, hres, hphase⟩ := htr.keeps
  rw [State.latchCmd_busy] at hbusy
  rw [State.finishIrq_eq]
  refine ⟨fun hb => ⟨?_, hbusy.trans hb⟩, fun hb => ⟨?_, hbusy.trans hb⟩, hphase, hres, rfl, htr.of_latchCmd⟩
  · show (if u.busy then u.code else _) = _
    rw [hbusy, if_pos hb, hcode, State.latchCmd_code]
  · show (if u.busy then u.code else _) = _
    rw [hbusy, if_neg (by simp [hb]), State.latchCmd_initialized]

end Sys2Proof.Machine

namespace Sys2Proof.Machine

/-! ## NIC_RX (40_nic.md R166, R167, R170) -/

/-- The offers that NIC_RX takes. -/
theorem runMove_wireRx {s : State} {f : List Byte} (h14 : 14 ≤ f.length) (hmax : f.length ≤ s.params.maxRxFrame) (bad : Bool) :
    runMove (.wireRx f bad) s = .next (s.nicRx f bad) := by
  refine if_pos ?_
  rw [wellFormedOffer, Bool.and_eq_true, decide_eq_true_eq, decide_eq_true_eq]
  exact ⟨h14, hmax⟩

/-- The offers that are outside the model. -/
theorem runMove_wireRx_refused {s : State} {f : List Byte} (h : f.length < 14 ∨ s.params.maxRxFrame < f.length) (bad : Bool) :
    runMove (.wireRx f bad) s = .refused .envFrame := by
  refine if_neg ?_
  rw [wellFormedOffer, Bool.and_eq_true, decide_eq_true_eq, decide_eq_true_eq, not_and_or, Nat.not_le, Nat.not_le]
  exact h

/-- Under the RCR of NIC_INIT, which takes every address but no runt and no frame with an error (30_encoding.md R116). -/
theorem Device.accepts_init {d : Device} {p : Params} (h : d.rcr = p.rcrInit) (f : List Byte) (bad : Bool) :
    d.accepts f bad = true ↔ bad = false ∧ 60 ≤ f.length := by
  obtain ⟨-, hall, -, -, -, hrunt, herr, -⟩ := Params.rcrInit_fields p
  simp only [Device.accepts, h, hall, hrunt, herr, Config.ethMinFrame]
  by_cases h60 : f.length < 60
  · simp [h60, Nat.not_le.2 h60]
  · cases bad <;> simp [h60, Nat.not_lt.1 h60]

/-- When NIC_RX writes to the ring. -/
theorem State.receiverOn_iff {s : State} :
    s.receiverOn = true ↔ s.dev.re = true ∧ s.busMaster = true ∧ s.dev.resetting = false := by
  simp [State.receiverOn, and_assoc]

/-- A frame that is not received changes nothing. -/
theorem State.nicRx_dropped {s : State} {f : List Byte} {bad : Bool}
    (h : s.dev.re = false ∨ s.busMaster = false ∨ s.dev.resetting = true ∨ s.dev.accepts f bad = false) : s.nicRx f bad = s := by
  have hoff : s.receiverOn = false ∨ s.dev.accepts f bad = false := by
    rcases h with h | h | h | h <;> simp [State.receiverOn, h]
  rw [State.nicRx]
  rcases hoff with h | h
  · rw [if_pos h]
  · rw [if_pos h, ite_self]

/-- A frame that is received overflows the ring or is recorded. -/
theorem State.nicRx_received {s : State} {f : List Byte} {bad : Bool} (hon : s.receiverOn = true) (ha : s.dev.accepts f bad = true) :
    s.nicRx f bad = if s.dev.ringFull f.length then { s with dev := s.dev.setIsr 4 } else s.writeRecord f bad := by
  rw [State.nicRx, if_neg (by simp [hon]), if_neg (by simp [ha])]

/-! ### The record -/

/-- The record NIC_RX stores for a frame: its status bits [15:1] and CRC bytes are the draws it takes. -/
def State.drawnRecord (s : State) (f : List Byte) (bad : Bool) : List Byte :=
  ringRecord ((lowHalf (Config.drawWord s.draws) &&& 0xFFFE) |||
      (BitVec.ofBool (!bad && decide (Config.ethMinFrame ≤ f.length))).zeroExtend 16) f
    ((List.range 4).map fun k => Config.drawByte (s.draws + 1 + k))

/-- The store of a record at WP, whole or byte by byte, after the draws for it. -/
def State.storeRecord (s : State) (r : List Byte) : State :=
  let s := { s with draws := s.draws + 1 + 4 }
  if s.dev.rcr.getLsbD 7 then s.dmaStore (s.dev.rbstart.toNat + s.dev.wp.toNat) r else s.dmaStoreWrapped s.dev.wp.toNat r

/-- What the store of a record changes. -/
theorem State.storeRecord_eq (s : State) (r : List Byte) :
    s.storeRecord r = { s with
      mem := (s.storeRecord r).mem, draws := s.draws + 1 + 4
      dev := { s.dev with clobbered := (s.storeRecord r).dev.clobbered } } := by
  rw [State.storeRecord]
  split
  · rfl
  · obtain ⟨-, m, cl, e⟩ := State.dmaStoreWrapped_eq (cmd := none) { s with draws := s.draws + 1 + 4 } s.dev.wp.toNat r
    simp only [e]

/-- The packet write of NIC_RX: the store of the record, then WP and ISR. -/
theorem State.writeRecord_eq (s : State) (f : List Byte) (bad : Bool) :
    s.writeRecord f bad = { s with
      mem := (s.storeRecord (s.drawnRecord f bad)).mem, draws := s.draws + 1 + 4
      dev := { s.dev with
        clobbered := (s.storeRecord (s.drawnRecord f bad)).dev.clobbered
        wp := BitVec.ofNat 16 (alignUp (s.dev.wp.toNat + Config.rxHdrLen + f.length + 4) Config.rxPtrAlign % s.dev.ringLen)
        isr := s.dev.isr ||| if bad = false ∧ 60 ≤ f.length then 0x0001 else 0x0002 } } := by
  have e : s.writeRecord f bad =
      let u := s.storeRecord (s.drawnRecord f bad)
      { u with
        dev := ({ u.dev with
          wp := BitVec.ofNat 16
            (alignUp (s.dev.wp.toNat + Config.rxHdrLen + f.length + 4) Config.rxPtrAlign % u.dev.ringLen) } : Device).setIsr
              (if !bad && decide (Config.ethMinFrame ≤ f.length) then 0 else 1) } := rfl
  have hbit : (1 : Half) <<< (if !bad && decide (Config.ethMinFrame ≤ f.length) then 0 else 1) =
      if bad = false ∧ 60 ≤ f.length then 0x0001 else 0x0002 := by
    have hcond : (!bad && decide (Config.ethMinFrame ≤ f.length)) = true ↔ bad = false ∧ 60 ≤ f.length := by
      rw [Bool.and_eq_true, Bool.not_eq_true', decide_eq_true_eq]
      rfl
    simp only [hcond]
    split <;> rfl
  rw [e, State.storeRecord_eq, ← hbit]
  rfl

/-- A record begins with its status and its length field, little-endian, and the frame follows (30_encoding.md R114). -/
theorem ringRecord_fields {st : Half} {f crc : List Byte} (hcrc : crc.length = 4) :
    (ringRecord st f crc).length = f.length + 8 ∧ le16 (ringRecord st f crc) 0 = st ∧
      (le16 (ringRecord st f crc) 2).toNat = (f.length + 4) % 65536 ∧ ((ringRecord st f crc).drop 4).take f.length = f := by
  have hle : ∀ v : Half, v.extractLsb' 8 8 ++ v.extractLsb' 0 8 = v := append_split (n := 8) (m := 8)
  refine ⟨?_, hle st, ?_, ?_⟩
  · simp [ringRecord, bytesLe16, hcrc]
  · rw [show le16 (ringRecord st f crc) 2 = BitVec.ofNat 16 (f.length + 4) from hle _, BitVec.toNat_ofNat]
  · simp [ringRecord, bytesLe16]

/-- The record of a frame: its length, packet-OK exactly for a good frame, its length field, and the frame behind the header. -/
theorem State.drawnRecord_fields (s : State) (f : List Byte) (bad : Bool) :
    (s.drawnRecord f bad).length = f.length + 8 ∧
      ((le16 (s.drawnRecord f bad) 0).getLsbD 0 = true ↔ bad = false ∧ 60 ≤ f.length) ∧
      (le16 (s.drawnRecord f bad) 2).toNat = (f.length + 4) % 65536 ∧ ((s.drawnRecord f bad).drop 4).take f.length = f := by
  have hok : ∀ (v : Half) (ok : Bool), ((v &&& 0xFFFE) ||| (BitVec.ofBool ok).zeroExtend 16).getLsbD 0 = ok := fun v ok => by
    cases ok <;> simp
  obtain ⟨hlen, hst, hcount, hframe⟩ := ringRecord_fields
    (st := (lowHalf (Config.drawWord s.draws) &&& 0xFFFE) |||
      (BitVec.ofBool (!bad && decide (Config.ethMinFrame ≤ f.length))).zeroExtend 16)
    (f := f) (crc := (List.range 4).map fun k => Config.drawByte (s.draws + 1 + k)) rfl
  refine ⟨hlen, ?_, hcount, hframe⟩
  rw [State.drawnRecord, hst, hok, Bool.and_eq_true, Bool.not_eq_true', decide_eq_true_eq]
  rfl

section
variable (s : State) (r : List Byte)

/-- A record stored whole. -/
theorem State.storeRecord_whole (hm : s.mem.wf = true) (hw : s.dev.rcr.getLsbD 7 = true) (hr : 0 < r.length)
    (hle : s.dev.rbstart.toNat + s.dev.wp.toNat + r.length ≤ 2 ^ 32) :
    let a := s.dev.rbstart.toNat + s.dev.wp.toNat
    (s.storeRecord r).mem.readBytes a r.length = r ∧ MemSame s.mem (s.storeRecord r).mem [⟨a, r.length⟩] ∧
      ∀ i : Fin 4, (s.storeRecord r).dev.clobbered[i] =
        (s.dev.clobbered[i] || (s.dev.pending[i] && (s.txBuffer i).meets ⟨a, r.length⟩)) := by
  intro a
  have hphys : physAddr a = a := Nat.mod_eq_of_lt (by show a < 2 ^ 32; omega)
  have e : s.storeRecord r = ({ s with draws := s.draws + 1 + 4 } : State).dmaStore a r := if_pos hw
  rw [e, State.dmaStore, hphys]
  exact ⟨Memory.readBytes_writeBytes hm hle, MemSame.writeBytes hm hle, State.clobberMet_clobbered _ _⟩

/-- A record stored byte by byte. -/
theorem State.storeRecord_wrapped (hm : s.mem.wf = true) (hw : s.dev.rcr.getLsbD 7 = false) (hr : r.length ≤ s.dev.ringLen)
    (hle : s.dev.rbstart.toNat + s.dev.ringLen ≤ 2 ^ 32) :
    let a := fun k : Nat => s.dev.rbstart.toNat + (s.dev.wp.toNat + k) % s.dev.ringLen
    (∀ k, k < r.length → r[k]? = some ((s.storeRecord r).mem.read (a k))) ∧
      (∀ x, (∀ k, k < r.length → x ≠ a k) → (s.storeRecord r).mem.read x = s.mem.read x) ∧
      ∀ i : Fin 4, (s.storeRecord r).dev.clobbered[i] = true ↔
        (s.dev.clobbered[i] = true ∨
          s.dev.pending[i] = true ∧ ∃ k, k < r.length ∧ (s.txBuffer i).meets ⟨a k, 1⟩ = true) := by
  have e : s.storeRecord r = ({ s with draws := s.draws + 1 + 4 } : State).dmaStoreWrapped s.dev.wp.toNat r :=
    if_neg (by rw [hw]; decide)
  rw [e]
  exact State.dmaStoreWrapped_bytes (s := { s with draws := s.draws + 1 + 4 }) hm hle hr

end

/-- The end of a record, aligned. -/
theorem alignUp_recordEnd (x n : Nat) : alignUp (x + 4 + n + 4) 4 = (x + n + 8 + 3) / 4 * 4 := by
  rw [alignUp, show x + 4 + n + 4 + 4 - 1 = x + n + 8 + 3 by omega]

/-- The ring space of a record, aligned. -/
theorem recordSpace_eq (n : Nat) : recordSpace n = (n + 8 + 3) / 4 * 4 := by
  have := alignUp_recordEnd 0 n
  simpa [recordSpace, Config.rxHdrLen, Config.rxPtrAlign] using this

/-- Settles O51: the offer, the receiver, the filter and the space decide; a record that is stored is the drawn one. -/
theorem nicRxRecordsFrames : Obligations.NicRxRecordsFrames := by
  intro s f bad
  refine ⟨fun h => runMove_wireRx_refused h bad, fun h => Device.accepts_init h f bad, fun h14 hmax => ?_⟩
  rw [runMove_wireRx h14 hmax]
  refine ⟨fun h => by rw [State.nicRx_dropped h], fun hre hbm hrst ha => ?_⟩
  intro len space used good
  rw [State.nicRx_received (State.receiverOn_iff.2 ⟨hre, hbm, hrst⟩) ha]
  have hfull : s.dev.ringFull f.length = decide (len ≤ used + space) := by
    rw [Device.ringFull, recordSpace_eq]; rfl
  refine ⟨fun h => ?_, fun hfit hm => ?_⟩
  · rw [if_pos (by rw [hfull]; exact decide_eq_true h)]
    rfl
  · rw [if_neg (by rw [hfull, decide_eq_true_eq]; omega), State.writeRecord_eq]
    obtain ⟨hlen, hst, hcount, hframe⟩ := s.drawnRecord_fields f bad
    have hwp := (ringOffset_wf (s.dev.wp.toNat + Config.rxHdrLen + f.length + 4) (s.dev.rcr.extractLsb' 11 2)).1
    refine ⟨_, rfl, rfl, hwp.trans (by rw [← alignUp_recordEnd]; rfl), fun hg => ?_, fun hg => ?_, s.drawnRecord f bad, hlen, hst, hcount,
      hframe, fun hwrap => ?_, fun hwrap hle => ?_⟩
    · show _ ||| (if good then _ else _) = _
      rw [if_pos hg]
    · show _ ||| (if good then _ else _) = _
      rw [if_neg hg]
    · intro a hle
      rw [← hlen] at hle ⊢
      exact State.storeRecord_whole s _ hm hwrap (by omega) hle
    · rw [← hlen]
      exact State.storeRecord_wrapped s _ hm hwrap (by rw [hlen]; show _ ≤ len; omega) hle

/-! ## NIC_TX (40_nic.md R168, R169) -/

/-- The first index with a property in a round of the four from `t` on is the one with the least distance from `t`. -/
theorem find_from_iff {p : Fin 4 → Bool} {t i : Fin 4} :
    [t, t + 1, t + 2, t + 3].find? p = some i ↔ p i = true ∧ ∀ j, p j = true → (i - t).val ≤ (j - t).val := by
  have hround : [t, t + 1, t + 2, t + 3] = (List.finRange 4).map (t + ·) := by simp [List.finRange_succ]
  rw [hround, List.find?_map, ← Fin.find?_eq_find?_finRange, Option.map_eq_some_iff]
  constructor
  · rintro ⟨k, hk, rfl⟩
    obtain ⟨hp, hfirst⟩ := Fin.find?_eq_some_iff.1 hk
    refine ⟨hp, fun j hj => ?_⟩
    rw [add_sub_cancel_left, Fin.val_fin_le, ← not_lt]
    intro hlt
    have hno := hfirst (j - t) hlt
    rw [Function.comp_apply, add_sub_cancel, hj] at hno
    exact absurd hno (by decide)
  · rintro ⟨hp, hfirst⟩
    refine ⟨i - t, Fin.find?_eq_some_iff.2 ⟨?_, fun k hk => ?_⟩, add_sub_cancel t i⟩
    · rw [Function.comp_apply, add_sub_cancel]
      exact hp
    · rw [← Bool.not_eq_true]
      intro hkp
      have hle := hfirst (t + k) hkp
      rw [add_sub_cancel_left, Fin.val_fin_le] at hle
      exact absurd hk (not_lt.2 hle)

/-- The slot handed over first is the pending one closest behind tx_slot. -/
theorem State.oldestPending_iff {s : State} {i : Fin 4} :
    s.oldestPending = some i ↔ s.dev.pending[i] = true ∧
      ∀ j : Fin 4, s.dev.pending[j] = true → (i - s.txSlot).val ≤ (j - s.txSlot).val :=
  find_from_iff (p := fun i => s.dev.pending[i])

/-- TX_ORDER lets a pending slot go next if no other pending one is closer behind tx_slot, or in any case. -/
theorem State.orderAllows_iff {s : State} {i : Fin 4} (hp : s.dev.pending[i] = true) :
    s.orderAllows i = true ↔ s.params.txOrder = .any ∨ s.params.txOrder = .inOrder ∧
      ∀ j : Fin 4, s.dev.pending[j] = true → (i - s.txSlot).val ≤ (j - s.txSlot).val := by
  rw [State.orderAllows]
  cases s.params.txOrder with
  | any => simp
  | inOrder =>
    rw [decide_eq_true_eq, State.oldestPending_iff]
    simp [hp]

/-- When NIC_TX takes a step. -/
theorem State.txEnabled_iff {s : State} {i : Fin 4} :
    s.txEnabled i = true ↔ s.dev.pending[i] = true ∧ s.dev.te = true ∧ s.busMaster = true ∧ s.dev.resetting = false ∧
      (s.params.txOrder = .any ∨ s.params.txOrder = .inOrder ∧
        ∀ j : Fin 4, s.dev.pending[j] = true → (i - s.txSlot).val ≤ (j - s.txSlot).val) := by
  simp only [State.txEnabled, Bool.and_eq_true, Bool.not_eq_true', and_assoc]
  refine and_congr_right fun hp => ?_
  rw [State.orderAllows_iff hp]

/-- What a successful transmission puts on the wire. -/
theorem State.emitSlot_wireOut (s : State) (i : Fin 4) :
    (s.dev.clobbered[i] = false →
      (s.emitSlot i).wireOut = s.wireOut ++ [s.mem.readBytes s.dev.tsad[i].toNat (s.dev.tsd[i].extractLsb' 0 13).toNat]) ∧
    (s.dev.clobbered[i] = true → ∃ fs : List (List Byte), (s.emitSlot i).wireOut = s.wireOut ++ fs ∧ fs.length ≤ 2 ∧
      ∀ f ∈ fs, f.length ≤ s.params.txBufSize) := by
  refine ⟨fun h => ?_, fun h => ⟨((Config.drawFrames s.draws).take 2).map (List.take s.params.txBufSize), ?_, ?_, fun f hf => ?_⟩⟩
  · rw [State.emitSlot, if_neg (by rw [h]; decide)]
    rfl
  · rw [State.emitSlot, if_pos h]
    rfl
  · rw [List.length_map]
    exact List.length_take_le _ _
  · obtain ⟨g, -, rfl⟩ := List.mem_map.1 hf
    exact List.length_take_le _ _

/-- Settles O52: NIC_TX steps exactly for an enabled slot, and the step emits, sets the flags and frees the slot. -/
theorem nicTxTransmits : Obligations.NicTxTransmits := by
  intro s i
  refine ⟨fun ok h => ?_, fun hp hte hbm hrst ho => ?_⟩
  · have hoff : ¬ s.txEnabled i = true := by
      rw [State.txEnabled_iff]
      rintro ⟨hp, hte, hbm, hrst, ho⟩
      rcases h with h | h | h | h | ⟨hin, j, hj, hlt⟩
      · cases hp.symm.trans h
      · cases hte.symm.trans h
      · cases hbm.symm.trans h
      · cases hrst.symm.trans h
      · obtain ho | ⟨-, hfirst⟩ := ho
        · cases hin.symm.trans ho
        · exact absurd (hfirst j hj) (Nat.not_le.2 hlt)
    rw [runMove, if_neg hoff]
  · have hon : s.txEnabled i = true := State.txEnabled_iff.2 ⟨hp, hte, hbm, hrst, ho⟩
    have hstep : ∀ ok, runMove (.nicTx i ok) s = .next (s.nicTx i ok) := fun ok => by rw [runMove, if_pos hon]
    obtain ⟨hwire, hclob⟩ := s.emitSlot_wireOut i
    refine ⟨⟨_, hstep true, ?_, hwire, hclob⟩, hstep false⟩
    have e := s.emitSlot_eq i
    rw [State.nicTx, if_pos rfl]
    generalize s.emitSlot i = u at e ⊢
    generalize u.wireOut = a1, u.draws = a2 at e
    subst e
    rfl

end Sys2Proof.Machine

namespace Sys2Proof.Machine

/-! ## ETH_SEND_FRAME (41_ethernet.md R180) -/

/-- ETH_SEND_FRAME ends with the code of the send of the payload in its source buffer. -/
theorem exec_ethSendFrame_next {s u : State} {c : Code} (hw : s.ArgsWritten 5)
    (ha : s.Accessible (bufferOf s.args[3].value s.args[4].value))
    (h : s.ethSendFrame (bufferOf s.args[3].value s.args[4].value) (macOf s.args[0].value s.args[1].value)
      (lowHalf s.args[2].value) (s.mem.readBytes s.args[3].value.toNat s.args[4].value.toNat) = .ok (c, u)) :
    exec .ethSendFrame s = .next (u.finish c) := by
  refine outcome_next.2 ?_
  simp (disch := decide) only [hw.arg_bind]
  refine (State.loadSource_bind ha _).trans ?_
  exact congrArg (· >>= _) h

/-- Settles O26: the two refusals leave the state to the end of the command, and a send into an accessible slot hands over the frame of
R110. -/
theorem ethSendFrameOutcomes : Obligations.EthSendFrameOutcomes := by
  intro s hw hm r f ha
  have hlen : (s.mem.readBytes r.base r.len).length = r.len := Memory.length_readBytes _ _ _
  refine ⟨fun hi => ?_, fun hi hbig => ?_, fun hi hfit hslot => ?_⟩
  · exact exec_ethSendFrame_next hw ha (State.ethSendFrame_off hi ..)
  · exact exec_ethSendFrame_next hw ha (State.ethSendFrame_big hi _ _ _ (hlen.symm ▸ hbig))
  · obtain ⟨u, hu, hsend⟩ := State.ethSendFrame_sends (src := r) (d := macOf s.args[0].value s.args[1].value)
      (ty := lowHalf s.args[2].value) hm hi (hlen.symm ▸ hfit) (hlen.symm ▸ hslot)
    exact ⟨by rw [frameBytes_length, hlen], u, exec_ethSendFrame_next hw ha hu, hsend⟩

/-! ## ETH_RECEIVE_FRAME (41_ethernet.md R181) -/

/-- The filter drops a frame that is too short or addressed neither to the adapter nor to broadcast. -/
theorem State.acceptsFrame_eq_false_iff (s : State) (b : List Byte) :
    s.acceptsFrame b = false ↔
      b.length < 14 ∨ (b.take 6 ≠ macBytes s.mac ∧ b.take 6 ≠ [0xFF, 0xFF, 0xFF, 0xFF, 0xFF, 0xFF]) := by
  rw [← Bool.not_eq_true, State.acceptsFrame_iff, not_and_or, not_or, Nat.not_le]

/-- A receive without the device. -/
theorem State.ethReceiveFrame_off {s : State} (hi : s.initialized = false) (n : Nat) :
    s.ethReceiveFrame n = .ok ((.notInitialized, []), s) := by
  simp [State.ethReceiveFrame, State.nicReceive, hi]

/-- A receive that took a record with frame `b` ends with `b` in the host buffer. -/
theorem State.receiveInto_delivers {s u : State} {recv : Nat → Except Fault ((Code × List Byte) × State)} {b : List Byte}
    (hm : s.mem.wf = true) (hbuf : s.Accessible (bufferOf s.args[0].value s.args[1].value))
    (hb : b.length ≤ s.args[1].value.toNat) (htake : s.TakesRecord u)
    (hrecv : recv s.args[1].value.toNat = .ok ((.ok, b), u)) :
    ∃ v, s.receiveInto recv =
        .ok { v with res := s.res.set 0 ⟨BitVec.ofNat 32 b.length, true⟩, code := .ok, busy := false } ∧
      u.Delivers v (s.recordRange b.length) s.args[0].value.toNat b := by
  obtain ⟨humem, hures, -, -, -⟩ := htake.keeps
  have hdst : u.Accessible ⟨s.args[0].value.toNat, b.length⟩ :=
    htake.accessible (hbuf.sub (Nat.le_refl _) (Nat.add_le_add_left hb _))
  obtain ⟨v, hv, hdel⟩ := State.deliver_delivers (humem ▸ hm) (src := s.recordRange b.length) hdst
  refine ⟨v, ?_, hdel⟩
  rw [State.receiveInto_frame hbuf.1 hrecv hv, ← hures, ← hdel.res_eq]
  rfl

/-- Settles O27: three ends without a frame; a good record is taken from the ring, and the filter decides whether it is delivered. -/
theorem ethReceiveFrameFilters : Obligations.EthReceiveFrameFilters := by
  intro s hw
  rw [exec_ethReceiveFrame_eq hw]
  refine ⟨fun hr => ⟨fun hi => ?_, fun hi hrok => ?_, fun hi hrok ha hg => ?_⟩, fun hm hi hrok hg hbuf => ?_⟩
  · rw [State.receiveInto_none hr (by decide) (State.ethReceiveFrame_off hi _)]
    rfl
  · rw [State.receiveInto_none hr (by decide) (State.ethReceiveFrame_none hi hrok _)]
    rfl
  · obtain ⟨u, hskip, hu⟩ := State.ethReceiveFrame_skips hi hrok ha hg s.args[1].value.toNat
    refine ⟨u, ?_, hskip⟩
    rw [State.receiveInto_none hr (by decide) hu, ← hskip.res_eq]
    rfl
  · intro b hrec
    obtain ⟨u, htake, hu⟩ := State.ethReceiveFrame_takes hi hrok hg hrec
    refine ⟨fun h14 hdst => ?_, fun hdrop => ⟨u, ?_, htake⟩⟩
    · rw [if_pos ((State.acceptsFrame_iff s b).2 ⟨h14, hdst⟩)] at hu
      have hb : b.length ≤ s.args[1].value.toNat := by
        rw [show b.length = _ from Memory.length_readBytes _ _ _]
        exact Nat.min_le_right _ _
      obtain ⟨v, hv, hdel⟩ := State.receiveInto_delivers hm hbuf hb htake hu
      exact ⟨u, v, by rw [hv]; rfl, htake, hdel⟩
    · rw [(State.acceptsFrame_eq_false_iff s b).2 hdrop, if_neg (by decide)] at hu
      rw [State.receiveInto_none hbuf.1 (by decide) hu, ← htake.keeps.2.1]
      rfl

/-! ## ETH_PROCESS_FRAME (41_ethernet.md R182) -/

/-- A 16-bit field inside a byte list is given by its two bytes there. -/
theorem be16_eq_iff_take {b : List Byte} {o : Nat} (h : o + 2 ≤ b.length) (x y : Byte) :
    be16 b o = x ++ y ↔ (b.drop o).take 2 = [x, y] := by
  have htake : (b.drop o).take 2 = [byteAt b o, byteAt b (o + 1)] := by
    rw [byteAt, byteAt, List.getD_eq_getElem _ _ (by omega), List.getD_eq_getElem _ _ (by omega),
      List.drop_eq_getElem_cons (by omega), List.drop_eq_getElem_cons (by omega)]
    rfl
  rw [be16_eq, htake]
  simp

section
variable {s : State} {src : MemRange} {f : List Byte}

/-- A frame without a whole header is dropped. -/
theorem State.ethProcessFrame_short (h : f.length < 14) : s.ethProcessFrame src f = .ok (.short, s) := if_pos h

/-- The EtherType of a frame with a header decides where its payload goes. -/
theorem State.ethProcessFrame_dispatches (h : 14 ≤ f.length) :
    ((f.drop 12).take 2 = [0x08, 0x06] → s.ethProcessFrame src f = s.arpProcessPacket src (f.drop 14)) ∧
    ((f.drop 12).take 2 = [0x08, 0x00] → s.ethProcessFrame src f = s.ipProcessPacket src (f.drop 14) (mac48 f 6)) ∧
    ((f.drop 12).take 2 ≠ [0x08, 0x06] ∧ (f.drop 12).take 2 ≠ [0x08, 0x00] →
      s.ethProcessFrame src f = .ok (.unknownType, s)) := by
  have harp : be16 f 12 = Config.etherTypeArp ↔ (f.drop 12).take 2 = [0x08, 0x06] := be16_eq_iff_take h 0x08 0x06
  have hip : be16 f 12 = Config.etherTypeIpv4 ↔ (f.drop 12).take 2 = [0x08, 0x00] := be16_eq_iff_take h 0x08 0x00
  simp only [State.ethProcessFrame, harp, hip]
  rw [if_neg (show ¬ f.length < Config.ethHdrLen from Nat.not_lt.2 h)]
  refine ⟨fun ht => ?_, fun ht => ?_, fun ⟨hna, hni⟩ => ?_⟩
  · rw [if_pos ht]
    rfl
  · rw [ht, if_neg (by decide), if_pos rfl]
    rfl
  · rw [if_neg hna, if_neg hni]

end

/-- ETH_PROCESS_FRAME ends with the disposition of the frame in its source buffer. -/
theorem exec_ethProcessFrame_next {s u : State} {d : Disposition} (hw : s.ArgsWritten 2)
    (ha : s.Accessible (bufferOf s.args[0].value s.args[1].value))
    (h : s.ethProcessFrame (bufferOf s.args[0].value s.args[1].value)
      (s.mem.readBytes s.args[0].value.toNat s.args[1].value.toNat) = .ok (d, u)) (hres : u.res = s.res) :
    exec .ethProcessFrame s = .next { u with res := s.res.set 0 ⟨d.number, true⟩, code := .ok, busy := false } := by
  refine outcome_next.2 ?_
  simp (disch := decide) only [hw.arg_bind]
  refine (State.loadSource_bind ha _).trans ?_
  rw [← hres]
  exact congrArg (· >>= _) h

/-- Settles O28: length and EtherType decide; what ARP or IPv4 makes of a payload is traffic. -/
theorem ethProcessFrameOutcomes : Obligations.EthProcessFrameOutcomes := by
  intro s hw r f ha
  have hlen : f.length = r.len := Memory.length_readBytes _ _ _
  rw [← hlen]
  refine ⟨fun hshort => ?_, fun h14 hother => ?_, fun hm hd h14 harp => ?_, fun hm hd h14 hip => ?_⟩
  · exact exec_ethProcessFrame_next hw ha (State.ethProcessFrame_short hshort) rfl
  · exact exec_ethProcessFrame_next hw ha ((State.ethProcessFrame_dispatches h14).2.2 hother) rfl
  · obtain ⟨d, u, hu, -⟩ := State.arpProcessPacket_total hm hd r (f.drop 14)
    have htr := State.arpProcessPacket_traffic hm hu
    exact ⟨d, u, hu, htr, exec_ethProcessFrame_next hw ha (((State.ethProcessFrame_dispatches h14).1 harp).trans hu)
      htr.keeps.2.2.1⟩
  · obtain ⟨d, u, hu, -⟩ := State.ipProcessPacket_total hm hd r (f.drop 14) (mac48 f 6)
    have htr := State.ipProcessPacket_traffic hm hu
    exact ⟨d, u, hu, htr, exec_ethProcessFrame_next hw ha (((State.ethProcessFrame_dispatches h14).2.1 hip).trans hu)
      htr.keeps.2.2.1⟩

/-! ## ETH_POLL and ARP_POLL (41_ethernet.md R183, 42_arp.md R211) -/

/-- Both polling commands are the polling pass. -/
theorem exec_poll_eq {i : Instr} (h : i ∈ [.ethPoll, .arpPoll]) (s : State) : exec i s = outcome s.pollCommand := by
  simp only [List.mem_cons, List.not_mem_nil, or_false] at h
  rcases h with rfl | rfl <;> rfl

/-- With the device the polling pass ends with its rounds, whose count is RES0. -/
theorem State.pollCommand_polls {s u : State} {n : Nat} (hi : s.initialized = true) (h : State.pollRounds 10 s = .ok (n, u)) :
    s.pollCommand = .ok ((u.setRes 0 (BitVec.ofNat 32 n)).finish .ok) := by
  rw [State.pollCommand, if_neg (by simp [hi]), show s.ethPoll = .ok (n, u) from h, except_ok_bind]

/-- A round that dispatches nothing ends a poll. -/
theorem State.pollRounds_ends {s u : State} (h : s.receiveAndDispatch = .ok (false, u)) (n : Nat) :
    State.pollRounds (n + 1) s = .ok (0, u) := by
  rw [State.pollRounds, h]

/-- After a round that dispatched a frame the poll goes on, one frame further. -/
theorem State.pollRounds_goesOn {s v w : State} {n k : Nat} (h : s.receiveAndDispatch = .ok (true, v))
    (hk : State.pollRounds n v = .ok (k, w)) : State.pollRounds (n + 1) s = .ok (k + 1, w) := by
  rw [State.pollRounds, h]
  simp only [hk]

/-- Settles O30: a polling pass ends with its rounds, which are traffic; each round is one receive and its dispatch. -/
theorem pollsAreBounded : Obligations.PollsAreBounded := by
  refine ⟨fun i s hpoll => ?_, fun _ => rfl, fun s n hi => ?_⟩
  · rw [exec_poll_eq hpoll]
    refine ⟨fun hi => ?_, fun hi hm hd => ?_⟩
    · rw [State.pollCommand, if_pos hi]
      rfl
    · obtain ⟨k, u, hu, hk, -⟩ := State.pollRounds_total (n := 10) hm hd
      have htr := State.pollRounds_traffic hm hu
      refine ⟨u, k, hk, htr, hu, ?_⟩
      rw [State.pollCommand_polls hi hu, ← htr.keeps.2.2.1]
      rfl
  · refine ⟨fun hrok => State.pollRounds_ends (State.receiveAndDispatch_none hi hrok) n, fun hrok ha hg => ?_, fun hrok hg => ?_⟩
    · obtain ⟨u, hskip, hu⟩ := State.receiveAndDispatch_skips hi hrok ha hg
      exact ⟨u, State.pollRounds_ends hu n, hskip⟩
    · intro b ha
      obtain ⟨u, htake, hdrop, hpass⟩ := State.receiveAndDispatch_takes hi hrok hg ha
      refine ⟨fun hno => ⟨u, State.pollRounds_ends (hdrop ((State.acceptsFrame_eq_false_iff s b).2 hno)) n, htake⟩,
        fun hm hd hlen hdst => ?_⟩
      have hum : u.mem.wf = true := htake.keeps.1 ▸ hm
      obtain ⟨d, v, hv, hvd⟩ := State.ethProcessFrame_total hum (htake.dmaClear hd) (s.recordRange b.length) b
      obtain ⟨k, w, hk, -⟩ := State.pollRounds_total (n := n) (State.ethProcessFrame_traffic hum hv).2.1 hvd
      exact ⟨u, d, v, k, w, htake, hv, hk,
        State.pollRounds_goesOn (hpass ((State.acceptsFrame_iff s b).2 ⟨hlen, hdst⟩) d v hv) hk⟩

end Sys2Proof.Machine

namespace Sys2Proof.Machine

/-! ## The ARP cache (42_arp.md R200 to R202, R206) -/

/-- Settles O56: each elementary update keeps the cache invariants and drops no entry, and neither the latch of CMD nor a write of an ARG
register touches the cache. -/
theorem stepKeepsTheArpCache : Obligations.StepKeepsTheArpCache := by
  refine fun s t hs h => ⟨?_, ?_⟩
  · exact step_keeps (P := State.ArpWf) (fun _ _ _ e => e.arpWf) (fun _ _ hs => hs) (fun _ _ _ _ hs => hs) hs h
  · exact step_keeps (P := fun u => s.arp.length ≤ u.arp.length) (fun _ _ _ e hu => hu.trans e.arp_length) (fun _ _ hu => hu)
      (fun _ _ _ _ hu => hu) (Nat.le_refl _) h

/-! ### ARP_LOOKUP (42_arp.md R201) -/

theorem exec_arpLookup_hit {s : State} {m : Mac} (hw : s.ArgsWritten 1) (h : s.arpLookup s.args[0].value = some m) :
    exec .arpLookup s = .next ((s.setResMac m).finish .ok) := by
  refine outcome_next.2 ?_
  simp (disch := decide) only [hw.arg_bind]
  rw [show s.arpLookup s.args[(0 : Fin 5)].value = some m from h]

theorem exec_arpLookup_miss {s : State} (hw : s.ArgsWritten 1) (h : s.arpLookup s.args[0].value = none) :
    exec .arpLookup s = .next (s.finish .miss) := by
  refine outcome_next.2 ?_
  simp (disch := decide) only [hw.arg_bind]
  rw [show s.arpLookup s.args[(0 : Fin 5)].value = none from h]

/-- Settles O32: the lookup decides, and it answers the first entry with the address. -/
theorem arpLookupFirstMatch : Obligations.ArpLookupFirstMatch := by
  refine fun s => ⟨fun hw => ?_, fun hw k hk hip hfirst => ?_, fun hw hmiss => ?_⟩
  · exact outcome_fault.2 (except_bind_of_error (State.arg_unwritten hw) _)
  · exact exec_arpLookup_hit hw (State.arpLookup_some.2 ⟨k, hk, hip, rfl, hfirst⟩)
  · exact exec_arpLookup_miss hw (State.arpLookup_none.2 hmiss)

/-! ### ARP_ADD_OR_UPDATE (42_arp.md R202) -/

/-- ARP_ADD_OR_UPDATE ends with what the insertion leaves and the index it wrote. -/
theorem exec_arpAddOrUpdate_next {s t : State} {i : Nat} (hw : s.ArgsWritten 3)
    (h : s.arpAddOrUpdate s.args[0].value (macOf s.args[1].value s.args[2].value) = (i, t)) :
    exec .arpAddOrUpdate s = .next ((t.setRes 0 (BitVec.ofNat 32 i)).finish .ok) := by
  refine outcome_next.2 ?_
  simp (disch := decide) only [hw.arg_bind]
  rw [show s.arpAddOrUpdate s.args[(0 : Fin 5)].value (macOf s.args[(1 : Fin 5)].value s.args[(2 : Fin 5)].value) = (i, t) from h]

/-- With one of its three operands unwritten ARP_ADD_OR_UPDATE faults. -/
theorem exec_arpAddOrUpdate_unwritten {s : State} (hw : ¬ s.ArgsWritten 3) : exec .arpAddOrUpdate s = .fault .unwrittenArg := by
  refine outcome_fault.2 (State.arg_bind_unwritten fun h0 => State.arg_bind_unwritten fun h1 =>
    State.arg_bind_unwritten fun h2 => ?_)
  refine absurd (fun i hi => ?_) hw
  obtain h | h | h : i = 0 ∨ i = 1 ∨ i = 2 := by omega
  · rw [h]; exact h0
  · rw [h]; exact h1
  · rw [h]; exact h2

/-- The index of the first entry with an address. -/
theorem State.arp_findIdx_eq {s : State} {ip : Ip} {k : Nat} (hk : k < s.arp.length) (hip : s.arp[k].ip = ip)
    (hfirst : ∀ j, ∀ hj : j < k, (s.arp[j]'(Nat.lt_trans hj hk)).ip ≠ ip) :
    s.arp.findIdx? (fun e => decide (e.ip = ip)) = some k :=
  List.findIdx?_eq_some_iff_getElem.2 ⟨hk, by simpa using hip, fun j hj => by simpa using hfirst j hj⟩

/-- Settles O33: the three cases of an insertion. -/
theorem arpAddOrUpdateThreeCases : Obligations.ArpAddOrUpdateThreeCases := by
  refine ⟨fun s => exec_arpAddOrUpdate_unwritten, fun s hw => ⟨fun k hk hip hfirst => ?_, fun hnew hroom => ?_, fun hnew hfull => ?_⟩⟩
  · exact exec_arpAddOrUpdate_next hw (State.arpAddOrUpdate_hit (State.arp_findIdx_eq hk hip hfirst))
  · exact exec_arpAddOrUpdate_next hw (State.arpAddOrUpdate_append hnew hroom)
  · exact ⟨s.arpRr + 1, Fin.val_add s.arpRr 1, exec_arpAddOrUpdate_next hw (State.arpAddOrUpdate_evict hnew hfull)⟩

/-- ARP_ADD_OR_UPDATE that ends leaves the cache as learning its operands does. -/
theorem exec_arpAddOrUpdate_arp {s t : State} (h : exec .arpAddOrUpdate s = .next t) :
    t.arp = (s.learn s.args[0].value (macOf s.args[1].value s.args[2].value)).arp := by
  have hw : s.ArgsWritten 3 := by
    by_contra hw
    rw [exec_arpAddOrUpdate_unwritten hw] at h
    cases h
  rw [exec_arpAddOrUpdate_next hw rfl] at h
  cases h
  rfl

/-- A lookup depends on the cache only. -/
theorem State.arpLookup_congr {s t : State} (h : t.arp = s.arp) (ip : Ip) : t.arpLookup ip = s.arpLookup ip := by
  rw [State.arpLookup, h, State.arpLookup]

/-- Settles O34: the lookups after learning. -/
theorem lookupAfterLearning : Obligations.LookupAfterLearning := by
  intro s t h
  have hlookup := State.arpLookup_congr (exec_arpAddOrUpdate_arp h)
  refine ⟨(hlookup _).trans (State.arpLookup_learn_self ..), fun q hq hkept => (hlookup q).trans ?_⟩
  exact State.arpLookup_learn_other _ _ _ hq fun hnew hfull => hkept (State.arpLookup_none.2 hnew) hfull

/-! ## ARP frames (42_arp.md R203 to R205, 30_encoding.md R111) -/

/-- A request of ours that can be stored is handed over. -/
theorem State.arpSendRequest_sends {s : State} (hm : s.mem.wf = true) (hi : s.initialized = true) (hs : s.SlotAccessible 60)
    (src : MemRange) (ip : Ip) :
    ∃ u, s.arpSendRequest src ip = .ok (.ok, u) ∧ s.SendsFrame u src (s.requestFrame ip) := by
  rw [← State.requestFrame_eq]
  exact State.ethSendFrame_sends hm hi (arpPacket_short ..) hs

theorem State.arpSendReply_sends {s : State} (hm : s.mem.wf = true) (hi : s.initialized = true) (hs : s.SlotAccessible 60)
    (src : MemRange) (tmac : Mac) (tip sip : Ip) :
    ∃ u, s.arpSendReply src tmac tip sip = .ok (.ok, u) ∧ s.SendsFrame u src (s.replyFrame tmac tip sip) := by
  rw [← State.replyFrame_eq]
  exact State.ethSendFrame_sends hm hi (arpPacket_short ..) hs

theorem State.arpSendRequest_tries {s : State} (hm : s.mem.wf = true) (hs : s.initialized = true → s.SlotAccessible 60)
    (src : MemRange) (ip : Ip) :
    ∃ c u, s.arpSendRequest src ip = .ok (c, u) ∧ s.TriesToSend u src (s.requestFrame ip) := by
  rw [← State.requestFrame_eq]
  exact State.ethSendFrame_tries hm (arpPacket_short ..) hs

theorem State.arpSendReply_tries {s : State} (hm : s.mem.wf = true) (hs : s.initialized = true → s.SlotAccessible 60)
    (src : MemRange) (tmac : Mac) (tip sip : Ip) :
    ∃ c u, s.arpSendReply src tmac tip sip = .ok (c, u) ∧ s.TriesToSend u src (s.replyFrame tmac tip sip) := by
  rw [← State.replyFrame_eq]
  exact State.ethSendFrame_tries hm (arpPacket_short ..) hs

theorem exec_arpSendRequest_next {s u : State} {c : Code} (hw : s.ArgsWritten 1)
    (h : s.arpSendRequest MemRange.none s.args[0].value = .ok (c, u)) : exec .arpSendRequest s = .next (u.finish c) := by
  refine outcome_next.2 ?_
  simp (disch := decide) only [hw.arg_bind]
  exact congrArg (· >>= _) h

theorem exec_arpSendReply_next {s u : State} {c : Code} (hw : s.ArgsWritten 4)
    (h : s.arpSendReply MemRange.none (macOf s.args[0].value s.args[1].value) s.args[2].value s.args[3].value = .ok (c, u)) :
    exec .arpSendReply s = .next (u.finish c) := by
  refine outcome_next.2 ?_
  simp (disch := decide) only [hw.arg_bind]
  exact congrArg (· >>= _) h

/-- Settles O35: both commands end with the code of their send. -/
theorem arpSendsCarryTheirPackets : Obligations.ArpSendsCarryTheirPackets := by
  refine fun s hm => ⟨fun hw => ⟨fun hi => ?_, fun hi hs => ?_⟩, fun hw => ⟨fun hi => ?_, fun hi hs => ?_⟩⟩
  · exact exec_arpSendRequest_next hw (State.ethSendFrame_off hi ..)
  · obtain ⟨u, hu, hsend⟩ := State.arpSendRequest_sends hm hi hs MemRange.none s.args[0].value
    exact ⟨u, exec_arpSendRequest_next hw hu, hsend⟩
  · exact exec_arpSendReply_next hw (State.ethSendFrame_off hi ..)
  · obtain ⟨u, hu, hsend⟩ := State.arpSendReply_sends hm hi hs MemRange.none (macOf s.args[0].value s.args[1].value)
      s.args[2].value s.args[3].value
    exact ⟨u, exec_arpSendReply_next hw hu, hsend⟩

section
variable {s : State} {src : MemRange} {d : List Byte}

theorem State.arpProcessPacket_short (h : d.length < 28) : s.arpProcessPacket src d = .ok (.short, s) := if_pos h

/-- The first six bytes of a whole packet decide whether it is one for Ethernet and IPv4. -/
theorem State.arpProcessPacket_badFormat (h : 28 ≤ d.length) (hf : d.take 6 ≠ [0x00, 0x01, 0x08, 0x00, 0x06, 0x04]) :
    s.arpProcessPacket src d = .ok (.badFormat, s) := by
  have hbad : arpFormatOk d = false := by rw [← Bool.not_eq_true, arpFormatOk_iff d h]; exact hf
  exact (if_neg (Nat.not_lt.2 h)).trans (if_pos hbad)

/-- A good packet has its sender learned; a request for our address is then answered. -/
theorem State.arpProcessPacket_good (h : 28 ≤ d.length) (hf : d.take 6 = [0x00, 0x01, 0x08, 0x00, 0x06, 0x04]) :
    s.arpProcessPacket src d =
      if be16 d 6 = 1 ∧ be32 d 24 = s.ourIp then
        ((s.learn (be32 d 14) (mac48 d 8)).arpSendReply src (mac48 d 8) (be32 d 14) s.ourIp).map fun r => (.accepted, r.2)
      else .ok (.accepted, s.learn (be32 d 14) (mac48 d 8)) := by
  have hgood : ¬ arpFormatOk d = false := by rw [(arpFormatOk_iff d h).2 hf]; decide
  have hip : (s.learn (be32 d 14) (mac48 d 8)).ourIp = s.ourIp := by rw [State.learn_eq]
  refine (if_neg (Nat.not_lt.2 h)).trans ((if_neg hgood).trans ?_)
  simp only [hip]
  refine if_congr Iff.rfl ?_ rfl
  cases (s.learn (be32 d 14) (mac48 d 8)).arpSendReply src (mac48 d 8) (be32 d 14) s.ourIp <;> rfl

end

/-- ARP_PROCESS_PACKET ends with the disposition of the packet in its source buffer. -/
theorem exec_arpProcessPacket_next {s u : State} {d : Disposition} (hw : s.ArgsWritten 4)
    (ha : s.Accessible (bufferOf s.args[0].value s.args[1].value))
    (h : s.arpProcessPacket (bufferOf s.args[0].value s.args[1].value)
      (s.mem.readBytes s.args[0].value.toNat s.args[1].value.toNat) = .ok (d, u)) (hres : u.res = s.res) :
    exec .arpProcessPacket s = .next { u with res := s.res.set 0 ⟨d.number, true⟩, code := .ok, busy := false } := by
  refine outcome_next.2 ?_
  simp (disch := decide) only [hw.arg_bind]
  refine (State.loadSource_bind ha _).trans ?_
  rw [← hres]
  exact congrArg (· >>= _) h

/-- Learning touches the cache only. -/
theorem State.learn_keeps (s : State) (ip : Ip) (m : Mac) :
    (s.learn ip m).res = s.res ∧ (s.learn ip m).mac = s.mac ∧ (s.learn ip m).ourIp = s.ourIp ∧ (s.learn ip m).params = s.params ∧
      (s.learn ip m).diag = s.diag ∧ (s.learn ip m).mem = s.mem ∧ (s.learn ip m).initialized = s.initialized := by
  rw [State.learn_eq]
  exact ⟨rfl, rfl, rfl, rfl, rfl, rfl, rfl⟩

theorem State.learn_slotAccessible {s : State} {n : Nat} (h : s.SlotAccessible n) (ip : Ip) (m : Mac) :
    (s.learn ip m).SlotAccessible n := by
  rw [State.learn_eq]; exact h

theorem State.replyFrame_congr {s t : State} (h : t.mac = s.mac) (tmac : Mac) (tip sip : Ip) :
    t.replyFrame tmac tip sip = s.replyFrame tmac tip sip := by
  rw [State.replyFrame, h, State.replyFrame]

/-- Settles O36: length and format decide whether the sender is learned, opcode and target whether a reply is tried. -/
theorem arpProcessPacketLearns : Obligations.ArpProcessPacketLearns := by
  intro s hw hm r d ha
  have hlen : d.length = r.len := Memory.length_readBytes _ _ _
  rw [← hlen]
  refine ⟨fun hshort => ?_, fun h28 hbad => ?_, fun h28 hgood => ?_⟩
  · exact exec_arpProcessPacket_next hw ha (State.arpProcessPacket_short hshort) rfl
  · exact exec_arpProcessPacket_next hw ha (State.arpProcessPacket_badFormat h28 hbad) rfl
  · intro sha spa
    have hpacket := State.arpProcessPacket_good (s := s) (src := r) h28 hgood
    obtain ⟨hres, hmac, -, -, -, hmem, hinit⟩ := s.learn_keeps spa sha
    refine ⟨fun hother => ?_, fun hop htarget hs => ?_⟩
    · rw [if_neg (not_and_or.2 hother)] at hpacket
      exact exec_arpProcessPacket_next hw ha hpacket hres
    · obtain ⟨c, u, hu, htry⟩ := State.arpSendReply_tries (s := s.learn spa sha) (hmem ▸ hm)
        (fun hi => State.learn_slotAccessible (hs (hinit ▸ hi)) spa sha) r sha spa s.ourIp
      rw [if_pos ⟨hop, htarget⟩, hu] at hpacket
      rw [← State.replyFrame_congr hmac]
      exact ⟨u, exec_arpProcessPacket_next hw ha hpacket (htry.keeps.1.trans hres), htry⟩

/-! ## Resolution (42_arp.md R214) -/

section
variable {s : State} {cmd : Instr} {src : MemRange} {ip : Ip} {k : Pending}

/-- A resolve of a known address goes on with the command at once. -/
theorem State.resolve_hit {m : Mac} (h : s.arpLookup ip = some m) (t : Nat) :
    s.resolve cmd src ip t k = s.continuePending k (some m) := by
  simp only [State.resolve, h]

/-- A resolve of an unknown address ends at once without a timeout, else it suspends the command. -/
theorem State.resolve_miss {u : State} {c : Code} (h : s.arpLookup ip = none) (hp : s.phase = .idle)
    (hu : s.arpSendRequest src ip = .ok (c, u)) (t : Nat) :
    s.resolve cmd src ip t k =
      if ceilDiv t 10 = 0 then u.continuePending k none
      else .ok { u with phase := .resolving cmd ip (ceilDiv t 10) k, busy := true } := by
  simp only [State.resolve, h, hp, Phase.isResolving, hu, except_ok_bind, Bool.false_eq_true, if_false]
  rfl

end

theorem exec_arpResolve_eq {s : State} (hw : s.ArgsWritten 2) :
    exec .arpResolve s =
      outcome (s.resolve .arpResolve MemRange.none s.args[0].value s.args[1].value.toNat .arpResolve) := by
  simp (disch := decide) only [exec, execArpResolve, hw.arg_bind]
  rfl

/-- Settles O37: a hit goes on at once; after a miss the timeout decides. -/
theorem arpResolveFirstPart : Obligations.ArpResolveFirstPart := by
  intro s hw hm ip ms
  rw [exec_arpResolve_eq hw]
  refine ⟨fun m hhit => ?_, fun hmiss hp hs => ?_⟩
  · rw [State.resolve_hit hhit]
    rfl
  · obtain ⟨c, u, hu, htry⟩ := State.arpSendRequest_tries hm hs MemRange.none ip
    rw [State.resolve_miss hmiss hp hu]
    refine ⟨u, htry, fun h0 => ?_, fun hpos => ?_⟩
    · have hn : ceilDiv ms 10 = 0 := by rw [h0]; rfl
      rw [if_pos hn]
      rfl
    · have hn : ceilDiv ms 10 ≠ 0 := by rw [ceilDiv]; omega
      rw [if_neg hn]
      rfl

section
variable {s u : State} {cmd : Instr} {ip : Ip} {n k : Nat} {p : Pending} (hp : s.phase = .resolving cmd ip n p)
  (hu : s.ethPoll = .ok (k, u))
include hp hu

theorem State.resolveIteration_hit {m : Mac} (h : u.arpLookup ip = some m) :
    s.resolveIteration = ({ u with phase := .idle } : State).continuePending p (some m) := by
  simp only [State.resolveIteration, hp, hu, except_ok_bind, h]

theorem State.resolveIteration_last (h : u.arpLookup ip = none) (hn : n ≤ 1) :
    s.resolveIteration = ({ u with phase := .idle } : State).continuePending p none := by
  have hlast : n - 1 = 0 := by omega
  simp only [State.resolveIteration, hp, hu, except_ok_bind, h, hlast, if_true]

theorem State.resolveIteration_counts (h : u.arpLookup ip = none) (hn : 1 < n) :
    s.resolveIteration = .ok { u with phase := .resolving cmd ip (n - 1) p } := by
  have hmore : n - 1 ≠ 0 := by omega
  simp only [State.resolveIteration, hp, hu, except_ok_bind, h, hmore, if_false]

end

/-- Settles O38: the poll ends, and the lookup after it decides how the iteration goes on. -/
theorem arpResolveIteration : Obligations.ArpResolveIteration := by
  intro s cmd ip n p hm hd hn hp
  obtain ⟨k, u, hu, hk, hud⟩ := State.pollRounds_total (n := 10) hm hd
  have htr : s.SameButTraffic u := State.pollRounds_traffic hm hu
  obtain ⟨-, -, hres, -⟩ := htr.keeps
  have hcont := State.continuePending_total (s := { u with phase := .idle }) htr.2.1 hud p
  refine ⟨u, k, hk, hu, htr, fun m hhit => ?_, fun hmiss h1 => ?_, fun hmiss h1 => ?_⟩
  · obtain ⟨t, ht⟩ := hcont (some m)
    refine ⟨t, ht, outcome_next.2 ((State.resolveIteration_hit hp hu hhit).trans ht), ?_⟩
    rintro rfl
    rw [← Except.ok.inj ht, ← hres]
    rfl
  · obtain ⟨t, ht⟩ := hcont none
    refine ⟨t, ht, outcome_next.2 ((State.resolveIteration_last hp hu hmiss (Nat.le_of_eq h1)).trans ht), ?_⟩
    rintro rfl
    exact (Except.ok.inj ht).symm
  · exact outcome_next.2 (State.resolveIteration_counts hp hu hmiss h1)

/-- An iteration starts with a poll that ends. -/
theorem State.resolveIteration_polls {s t : State} {cmd : Instr} {ip : Ip} {n : Nat} {p : Pending}
    (hp : s.phase = .resolving cmd ip n p) (h : s.resolveIteration = .ok t) : ∃ k u, s.ethPoll = .ok (k, u) := by
  simp only [State.resolveIteration, hp, except_bind_ok] at h
  obtain ⟨⟨k, u⟩, hu, -⟩ := h
  exact ⟨k, u, hu⟩

/-- Settles O39: a command that goes on ends; one that does not has only had traffic and one iteration less. -/
theorem everyIterationCountsDown : Obligations.EveryIterationCountsDown := by
  intro s t cmd ip n p hm hp h
  rw [runMove, outcome_next] at h
  obtain ⟨k, u, hu⟩ := State.resolveIteration_polls hp h
  have htr := State.pollRounds_traffic hm hu
  have hends : ∀ hop, ({ u with phase := .idle } : State).continuePending p hop = .ok t → t.phase = .idle ∧ t.busy = false :=
    fun _ => State.continuePending_ends (s := { u with phase := .idle }) htr.2.1
  cases hlookup : u.arpLookup ip with
  | some m => exact .inl (hends _ ((State.resolveIteration_hit hp hu hlookup).symm.trans h))
  | none =>
    by_cases hn : 1 < n
    · rw [State.resolveIteration_counts hp hu hlookup hn] at h
      cases h
      obtain ⟨hbusy, hcode, hres, -⟩ := htr.keeps
      exact .inr ⟨hn, rfl, hbusy, hcode, hres⟩
    · exact .inl (hends _ ((State.resolveIteration_last hp hu hlookup (Nat.not_lt.1 hn)).symm.trans h))

/-! ## ICMP inside a received packet (42_arp.md R215, 43_ip.md R235, 44_icmp.md R251) -/

section
variable {m : List Byte}

theorem icmpAction_short (h : m.length < 8) : icmpAction m = .drop .short := if_pos h

theorem icmpAction_badChecksum (h : 8 ≤ m.length) (hc : internetChecksum m ≠ 0) : icmpAction m = .drop .badChecksum :=
  (if_neg (Nat.not_lt.2 h)).trans (if_pos hc)

/-- The type of a whole message whose checksum verifies decides. -/
theorem icmpAction_verified (h : 8 ≤ m.length) (hc : internetChecksum m = 0) :
    icmpAction m =
      if byteAt m 0 = 8 then .reply (icmpMessage 0 (be16 m 4) (be16 m 6) (m.drop 8)) (be16 m 4) (be16 m 6)
      else if byteAt m 0 = 0 then .report (be16 m 4) (be16 m 6)
      else .drop .unknownType :=
  (if_neg (Nat.not_lt.2 h)).trans (if_neg (not_not.2 hc))

end

/-- A send without the device, or of too long a payload, changes nothing. -/
theorem State.ethSendFrame_nothing {s : State} {p : List Byte} (h : s.initialized = false ∨ 1486 < p.length) (src : MemRange)
    (d : Mac) (ty : Half) : ∃ c, s.ethSendFrame src d ty p = .ok (c, s) := by
  by_cases hi : s.initialized = true
  · exact ⟨_, State.ethSendFrame_big hi _ _ _ (h.resolve_left (by rw [hi]; decide))⟩
  · exact ⟨_, State.ethSendFrame_off (Bool.not_eq_true _ ▸ hi) ..⟩

/-- A packet to a known next hop is one frame to it. -/
theorem State.sendResolved_hop {s u : State} {src : MemRange} {pkt : List Byte} {m : Mac} {c : Code}
    (h : s.ethSendFrame src m 0x0800 pkt = .ok (c, u)) : s.sendResolved src pkt (some m) = .ok ((c, m, false), u) := by
  have hsend : s.ethSendFrame src m Config.etherTypeIpv4 pkt = .ok (c, u) := h
  simp only [State.sendResolved, hsend]

section
variable {s : State} {src : MemRange} {m : List Byte} {sip : Ip}

theorem State.icmpDispatched_drop {d : Disposition} (h : icmpAction m = .drop d) : s.icmpDispatched src m sip = .ok (d, s) := by
  simp only [State.icmpDispatched, h]

theorem State.icmpDispatched_report {id seq : Half} (h : icmpAction m = .report id seq) :
    s.icmpDispatched src m sip = .ok (.accepted, s.emitDiag (.echoReplyReceived sip id seq)) := by
  simp only [State.icmpDispatched, h]

/-- The reply to a known sender is one frame to it, and the request is reported whatever became of the frame. -/
theorem State.icmpDispatched_reply {u : State} {r : List Byte} {id seq : Half} {hop : Mac} {c : Code}
    (h : icmpAction m = .reply r id seq) (hl : s.arpLookup sip = some hop)
    (hu : s.ethSendFrame src hop 0x0800 (ipPacket s.params.ipTtl s.ourIp sip 1 r) = .ok (c, u)) :
    s.icmpDispatched src m sip = .ok (.accepted, u.emitDiag (.echoRequestAnswered sip id seq)) := by
  simp only [State.icmpDispatched, h, hl, State.sendResolved_hop hu]

end

section
variable {s : State} {m : List Byte} {sip : Ip} {hop : Mac} (h8 : 8 ≤ m.length) (hc : internetChecksum m = 0)
  (ht : byteAt m 0 = 8) (hl : s.arpLookup sip = some hop)
include h8 hc ht hl

/-- A dispatched echo request from a known sender is reported although its reply cannot be sent. -/
theorem State.icmpDispatched_unsent (h : s.initialized = false ∨ 1466 < m.length) (src : MemRange) :
    s.icmpDispatched src m sip = .ok (.accepted, s.emitDiag (.echoRequestAnswered sip (be16 m 4) (be16 m 6))) := by
  obtain ⟨c, hu⟩ := State.ethSendFrame_nothing
    (p := ipPacket s.params.ipTtl s.ourIp sip 1 (icmpMessage 0 (be16 m 4) (be16 m 6) (m.drop 8)))
    (h.imp_right fun h => by rw [ipPacket_length, icmpMessage_length, List.length_drop]; omega) src hop 0x0800
  exact State.icmpDispatched_reply ((icmpAction_verified h8 hc).trans (if_pos ht)) hl hu

/-- A dispatched echo request from a known sender is reported and its reply handed over, in an IPv4 packet of the request's length. -/
theorem State.icmpDispatched_answers (hm : s.mem.wf = true) (hi : s.initialized = true) (hfit : m.length ≤ 1466)
    (hs : s.SlotAccessible (max 60 (34 + m.length))) (src : MemRange) :
    ∃ u, s.icmpDispatched src m sip = .ok (.accepted, u.emitDiag (.echoRequestAnswered sip (be16 m 4) (be16 m 6))) ∧
      s.SendsFrame u src (frameBytes hop s.mac 0x0800
        (ipPacket s.params.ipTtl s.ourIp sip 1 (icmpMessage 0 (be16 m 4) (be16 m 6) (m.drop 8)))) := by
  have hlen : (ipPacket s.params.ipTtl s.ourIp sip 1 (icmpMessage 0 (be16 m 4) (be16 m 6) (m.drop 8))).length =
      20 + m.length := by
    rw [ipPacket_length, icmpMessage_length, List.length_drop]; omega
  obtain ⟨u, hu, hsend⟩ := State.ethSendFrame_sends (src := src) (d := hop) (ty := 0x0800) hm hi
    (by rw [hlen]; omega) (by rw [hlen, ← Nat.add_assoc]; exact hs)
  exact ⟨u, State.icmpDispatched_reply ((icmpAction_verified h8 hc).trans (if_pos ht)) hl hu, hsend⟩

end

/-- IP_PROCESS_PACKET ends with the disposition of the packet in its source buffer. -/
theorem exec_ipProcessPacket_next {s u : State} {d : Disposition} (hw : s.ArgsWritten 4)
    (ha : s.Accessible (bufferOf s.args[0].value s.args[1].value))
    (h : s.ipProcessPacket (bufferOf s.args[0].value s.args[1].value)
      (s.mem.readBytes s.args[0].value.toNat s.args[1].value.toNat) (macOf s.args[2].value s.args[3].value) = .ok (d, u))
    (hres : u.res = s.res) :
    exec .ipProcessPacket s = .next { u with res := s.res.set 0 ⟨d.number, true⟩, code := .ok, busy := false } := by
  refine outcome_next.2 ?_
  simp (disch := decide) only [hw.arg_bind]
  refine (State.loadSource_bind ha _).trans ?_
  rw [← hres]
  exact congrArg (· >>= _) h

theorem State.SendsFrame.keeps {s u : State} {src : MemRange} {f : List Byte} (h : s.SendsFrame u src f) :
    u.res = s.res ∧ u.diag = s.diag := by
  have e := h.1
  constructor <;> rw [e]

/-- Settles O48: the message is dispatched in the state that has learned its sender, where the sender's lookup hits. -/
theorem dispatchedEchoIsAnsweredAtOnce : Obligations.DispatchedEchoIsAnsweredAtOnce := by
  intro s hw hm r d tl sip smac e t ha h20 h4 hlo hhi hc hip hproto
  have hdlen : d.length = r.len := Memory.length_readBytes _ _ _
  have helen : e.length = tl - 20 := by rw [List.length_drop, List.length_take, Nat.min_eq_left (hdlen ▸ hhi)]
  have hlookup : t.arpLookup sip = some smac := State.arpLookup_learn_self s sip smac
  obtain ⟨hres, hmac, hour, hparams, hdiag, hmem, hinit⟩ := s.learn_keeps sip smac
  have hend : ∀ {v u}, t.icmpDispatched r e sip = .ok (v, u) → u.res = s.res →
      exec .ipProcessPacket s = .next { u with res := s.res.set 0 ⟨v.number, true⟩, code := .ok, busy := false } := fun hv hu =>
    exec_ipProcessPacket_next hw ha ((State.ipProcessPacket_icmp h4 hlo (hdlen ▸ hhi) hc hip hproto r smac).trans hv) hu
  rw [← hdiag]
  have hwhole : 28 ≤ tl → 8 ≤ e.length := fun h28 => by omega
  refine ⟨fun hshort => ?_, fun h28 hbad => ?_, fun h28 hgood hn8 hn0 => ?_, fun h28 hgood h0 => ?_,
    fun h28 hgood hreq => ⟨fun hnone => ?_, fun hi hfit hs => ?_⟩⟩
  · exact hend (State.icmpDispatched_drop (icmpAction_short (by omega))) hres
  · exact hend (State.icmpDispatched_drop (icmpAction_badChecksum (hwhole h28) hbad)) hres
  · have hact := icmpAction_verified (hwhole h28) hgood
    rw [if_neg hn8, if_neg hn0] at hact
    exact hend (State.icmpDispatched_drop hact) hres
  · have hact := icmpAction_verified (hwhole h28) hgood
    rw [if_neg (by rw [h0]; decide), if_pos h0] at hact
    exact hend (State.icmpDispatched_report hact) hres
  · exact hend (State.icmpDispatched_unsent (hwhole h28) hgood hreq hlookup (hnone.imp hinit.trans (by omega)) r) hres
  · have hslot : t.SlotAccessible (max 60 (34 + e.length)) := by
      rw [helen, show 34 + (tl - 20) = 14 + tl by omega]
      exact State.learn_slotAccessible hs sip smac
    obtain ⟨u, hu, hsend⟩ := State.icmpDispatched_answers (hwhole h28) hgood hreq hlookup (hmem ▸ hm) (hinit.trans hi)
      (by omega) hslot r
    obtain ⟨hures, hudiag⟩ := hsend.keeps
    rw [← hmac, ← hparams, ← hour, ← hudiag]
    exact ⟨u, hend hu (hures.trans hres), hsend⟩

/-! ## ARP_POLL (42_arp.md R211) -/

/-- Settles O31: the two words decode to two commands with one meaning, the polling pass. -/
theorem arpPollIsEthPoll : Obligations.ArpPollIsEthPoll :=
  ⟨decode_encode .arpPoll, fun s => (exec_poll_eq (by simp) s).trans (exec_poll_eq (by simp) s).symm⟩

end Sys2Proof.Machine

namespace Sys2Proof.Machine

/-! ## The Internet checksum (43_ip.md R233, R236) -/

/-- The checksum of a sequence is 0 exactly if its words sum to a multiple of 65535 other than 0. -/
theorem internetChecksum_eq_zero_iff (b : List Byte) :
    internetChecksum b = 0 ↔ sumWords b % 65535 = 0 ∧ sumWords b ≠ 0 := by
  obtain ⟨hle, hmod, hzero⟩ := foldCarries_spec (n := sumWords b) (s := sumWords b) (by omega)
  rw [← BitVec.toNat_inj, internetChecksum_toNat, show (0 : Half).toNat = 0 from rfl]
  omega

/-- The checksum complements the end-around-carry sum: a number congruent to the sum modulo 65535 that is 0 only if the sum is. -/
theorem internetChecksum_complements (b : List Byte) :
    (65535 - (internetChecksum b).toNat) % 65535 = sumWords b % 65535 ∧
      ((internetChecksum b).toNat = 65535 ↔ sumWords b = 0) := by
  obtain ⟨hle, hmod, hzero⟩ := foldCarries_spec (n := sumWords b) (s := sumWords b) (by omega)
  rw [internetChecksum_toNat]
  omega

/-- Settles O42: the embedded checksum makes the sum of the words a multiple of 65535, and it leaves the sum 0 in no case. -/
theorem checksumRoundTrip : Obligations.ChecksumRoundTrip := by
  intro b o ho hl h0 h1
  obtain ⟨hmod, hzero⟩ := internetChecksum_complements b
  have hlt : (internetChecksum b).toNat < 65536 := (internetChecksum b).isLt
  rw [internetChecksum_eq_zero_iff, sumWords_putBe16 b o ho hl h0 h1]
  omega

/-- IP_CHECKSUM tests the length before it reads its source buffer. -/
theorem exec_ipChecksum_eq {s : State} (hw : s.ArgsWritten 2) : exec .ipChecksum s = outcome (
    let r := bufferOf s.args[0].value s.args[1].value
    if r.len > 65535 then .ok (s.finish .tooLarge)
    else do
      let b ← s.loadSource r
      .ok ((s.setRes 0 ((internetChecksum b).zeroExtend 32)).finish .ok)) := by
  simp (disch := decide) only [exec, execIpChecksum, hw.arg_bind]
  rfl

/-- Settles O41: the length is tested first; RES0 then holds the checksum, which complements the folded sum. -/
theorem ipChecksumResult : Obligations.IpChecksumResult := by
  intro s hw r
  rw [exec_ipChecksum_eq hw]
  refine ⟨fun hbig => ?_, fun hfit ha => ⟨internetChecksum (s.mem.readBytes r.base r.len), ?_, internetChecksum_complements _⟩⟩
  · rw [if_pos hbig]
    rfl
  · rw [if_neg (Nat.not_lt.2 hfit), State.loadSource_bind ha]
    rfl

/-! ## Packets the block builds (43_ip.md R234, 44_icmp.md R250, R251) -/

/-- A 16-bit field is read back from its two bytes. -/
theorem be16_of_bytes {b : List Byte} {o : Nat} {v : Half} (h : [byteAt b o, byteAt b (o + 1)] = bytesBe16 v) : be16 b o = v := by
  simp only [bytesBe16, List.cons.injEq, and_true] at h
  obtain ⟨hhi, hlo⟩ := h
  rw [be16, hhi, hlo]
  exact append_split (n := 8) (m := 8) v

/-- A 32-bit field is read back from its four bytes. -/
theorem be32_of_bytes {b : List Byte} {o : Nat} {v : Word}
    (h : [byteAt b o, byteAt b (o + 1), byteAt b (o + 2), byteAt b (o + 3)] = bytesBe32 v) : be32 b o = v := by
  obtain ⟨hhi, hlo⟩ := List.append_inj (s₁ := [_, _]) (t₁ := [_, _]) h rfl
  rw [be32, be16_of_bytes hhi, be16_of_bytes hlo]
  exact append_split (n := 16) (m := 16) v

/-- The header of a built IPv4 packet verifies. -/
theorem ipPacket_header_verifies (ttl : Byte) (our dip : Ip) (proto : Byte) (data : List Byte) :
    internetChecksum ((ipPacket ttl our dip proto data).take 20) = 0 :=
  checksumRoundTrip (ipHeaderZero ttl our dip proto data.length) 10 rfl (by decide : 12 ≤ 20) rfl rfl

/-- A built echo message verifies. -/
theorem icmpMessage_verifies (type : Byte) (id seq : Half) (q : List Byte) : internetChecksum (icmpMessage type id seq q) = 0 :=
  checksumRoundTrip _ 2 rfl (by simp [bytesBe16]) rfl rfl

/-- Settles O43: both builders put their fields down as constant-size byte lists, with the checksum in a field of zeros. -/
theorem builtPacketsVerify : Obligations.BuiltPacketsVerify := by
  refine ⟨fun ttl our dip proto data => ?_, fun type id seq q => ?_⟩
  · have htotal : be16 (ipPacket ttl our dip proto data) 2 = BitVec.ofNat 16 (20 + data.length) := be16_of_bytes rfl
    exact ⟨ipPacket_length .., rfl, rfl, by rw [htotal, BitVec.toNat_ofNat], rfl, be32_of_bytes rfl, be32_of_bytes rfl,
      ipPacket_header_verifies ..⟩
  · exact ⟨icmpMessage_length .., rfl, rfl, be16_of_bytes rfl, be16_of_bytes rfl, rfl, icmpMessage_verifies ..⟩

end Sys2Proof.Machine

namespace Sys2Proof.Machine

/-! ## IPv4 packets to a known, a failed and an unknown next hop (42_arp.md R214, 43_ip.md R234) -/

/-- `m` is the MAC a packet goes to once its resolve ended with `hop`, and `fb` whether that is the broadcast fallback of a resolve that
failed (43_ip.md R234). -/
def State.UsesHop (s : State) (hop : Option Mac) (m : Mac) (fb : Bool) : Prop :=
  (hop = some m ∧ fb = false) ∨ (hop = none ∧ s.params.arpFail = .broadcastFallback ∧ m = 0xFFFFFFFFFFFF ∧ fb = true)

theorem State.usesHop_some (s : State) (m : Mac) : s.UsesHop (some m) m false := .inl ⟨rfl, rfl⟩

/-- RES0, RES1 and RES2 of a finished send. -/
theorem State.setResHop_finish (s : State) (m : Mac) (fb : Bool) (c : Code) :
    (s.setResHop m fb).finish c = { s with res := hopResults s.res m fb, code := c, busy := false } := by
  cases fb <;> rfl

section
variable {s : State} {src : MemRange} {pkt : List Byte} {hop : Option Mac} {m : Mac} {fb : Bool}

/-- A packet with a MAC to go to is one frame to that MAC. -/
theorem State.sendResolved_uses {u : State} {c : Code} (h : s.UsesHop hop m fb)
    (hu : s.ethSendFrame src m 0x0800 pkt = .ok (c, u)) : s.sendResolved src pkt hop = .ok ((c, m, fb), u) := by
  obtain ⟨rfl, rfl⟩ | ⟨rfl, hfail, rfl, rfl⟩ := h
  · exact State.sendResolved_hop hu
  · have hsend : s.ethSendFrame src Config.broadcastMac Config.etherTypeIpv4 pkt = .ok (c, u) := hu
    simp only [State.sendResolved, hfail, hsend]
    rfl

/-- Under ARP_FAIL_POLICY = ERROR a packet whose resolve failed is not sent. -/
theorem State.sendResolved_unresolved (h : s.params.arpFail = .error) (src : MemRange) (pkt : List Byte) :
    s.sendResolved src pkt none = .ok ((.unresolved, 0, false), s) := by
  simp only [State.sendResolved, h]

/-- A command that sends a packet reports the MAC, the fallback and the code of the send. -/
theorem State.continuePending_ipSend {u : State} {c : Code} (h : s.sendResolved src pkt hop = .ok ((c, m, fb), u))
    (hres : u.res = s.res) :
    s.continuePending (.ipSend src pkt) hop = .ok { u with res := hopResults s.res m fb, code := c, busy := false } := by
  simp only [State.continuePending, h, except_ok_bind, State.setResHop_finish, hres]

/-- A command that answers an echo request reports the request, whatever became of the reply. -/
theorem State.continuePending_echoReply {u : State} {r : Code × Mac × Bool} (h : s.sendResolved src pkt hop = .ok (r, u))
    (hres : u.res = s.res) (hdiag : u.diag = s.diag) (sip : Ip) (id seq : Half) :
    s.continuePending (.echoReply src pkt sip id seq) hop = .ok { u with
      diag := s.diag ++ [.echoRequestAnswered sip id seq], res := s.res.set 0 ⟨0, true⟩, code := .ok, busy := false } := by
  rw [← hres, ← hdiag]
  simp only [State.continuePending, h, except_ok_bind]
  rfl

section
variable (h : s.UsesHop hop m fb)
include h

/-- Without the device a packet is not sent. -/
theorem State.continuePending_ipSend_off (hi : s.initialized = false) (src : MemRange) (pkt : List Byte) :
    s.continuePending (.ipSend src pkt) hop =
      .ok { s with res := hopResults s.res m fb, code := .notInitialized, busy := false } :=
  State.continuePending_ipSend (State.sendResolved_uses h (State.ethSendFrame_off hi ..)) rfl

/-- A packet too large for a frame is not sent. -/
theorem State.continuePending_ipSend_big (hi : s.initialized = true) (src : MemRange) (hl : 1486 < pkt.length) :
    s.continuePending (.ipSend src pkt) hop = .ok { s with res := hopResults s.res m fb, code := .tooLarge, busy := false } :=
  State.continuePending_ipSend (State.sendResolved_uses h (State.ethSendFrame_big hi src m _ hl)) rfl

/-- Any other packet is handed over. -/
theorem State.continuePending_ipSend_sends (hm : s.mem.wf = true) (hi : s.initialized = true) (src : MemRange)
    (hl : pkt.length ≤ 1486) (hs : s.SlotAccessible (max 60 (14 + pkt.length))) :
    ∃ u, s.continuePending (.ipSend src pkt) hop = .ok { u with res := hopResults s.res m fb, code := .ok, busy := false } ∧
      s.SendsFrame u src (frameBytes m s.mac 0x0800 pkt) := by
  obtain ⟨u, hu, hsend⟩ := State.ethSendFrame_sends (src := src) (d := m) (ty := 0x0800) hm hi hl hs
  exact ⟨u, State.continuePending_ipSend (State.sendResolved_uses h hu) hsend.keeps.1, hsend⟩

end

/-- A send whose result is ignored, of a payload of any length: one too large for a frame is not tried. -/
theorem State.ethSendFrame_tries_any (hm : s.mem.wf = true) (src : MemRange) (m : Mac) (ty : Half)
    (hs : s.initialized = true → pkt.length ≤ 1486 → s.SlotAccessible (max 60 (14 + pkt.length))) :
    ∃ c u, s.ethSendFrame src m ty pkt = .ok (c, u) ∧ s.TriesToSend u src (frameBytes m s.mac ty pkt) := by
  by_cases hl : pkt.length ≤ 1486
  · exact State.ethSendFrame_tries hm hl fun hi => hs hi hl
  · obtain ⟨c, hc⟩ := State.ethSendFrame_nothing (s := s) (p := pkt) (.inr (Nat.not_le.1 hl)) src m ty
    have hbig : ¬ (s.initialized = true ∧ (frameBytes m s.mac ty pkt).length ≤ 1500) := by
      rw [frameBytes_length]; omega
    exact ⟨c, s, hc, by rw [State.TriesToSend, if_neg hbig]⟩

end

/-- Settles O46: a MAC to go to makes the packet one frame, whose code a send reports and an echo reply ignores; without one nothing is
sent. -/
theorem suspendedSendEnds : Obligations.SuspendedSendEnds := by
  intro s r p hm hs
  refine ⟨fun hop m fb hhop => ⟨fun hi => ?_, fun hi hbig => ?_, fun hi hfit => ?_, fun sip id seq => ?_⟩,
    fun hfail => ⟨?_, fun sip id seq => ?_⟩⟩
  · exact State.continuePending_ipSend_off hhop hi r p
  · exact State.continuePending_ipSend_big hhop hi r hbig
  · exact State.continuePending_ipSend_sends hhop hm hi r hfit (hs hi hfit)
  · obtain ⟨c, u, hu, htry⟩ := State.ethSendFrame_tries_any hm r m 0x0800 hs
    obtain ⟨hres, -, hdiag, -⟩ := htry.keeps
    exact ⟨u, State.continuePending_echoReply (State.sendResolved_uses hhop hu) hres hdiag sip id seq, htry⟩
  · exact State.continuePending_ipSend (State.sendResolved_unresolved hfail r p) rfl
  · exact State.continuePending_echoReply (State.sendResolved_unresolved hfail r p) rfl rfl sip id seq

section
variable {s : State} {cmd : Instr} {src : MemRange} {dip : Ip} {proto : Byte} {data : List Byte} {k : List Byte → Pending}

/-- To a known host the command goes on with the assembled packet at once. -/
theorem State.ipSendPacket_hit {m : Mac} (h : s.arpLookup dip = some m) :
    s.ipSendPacket cmd src dip proto data k =
      s.continuePending (k (ipPacket s.params.ipTtl s.ourIp dip proto data)) (some m) := by
  simp only [State.ipSendPacket, h]

/-- To an unknown host the command is suspended for 200 iterations behind its ARP request. -/
theorem State.ipSendPacket_miss (hm : s.mem.wf = true) (hp : s.phase = .idle) (hs : s.initialized = true → s.SlotAccessible 60)
    (h : s.arpLookup dip = none) :
    ∃ u, s.TriesToSend u src (s.requestFrame dip) ∧ s.ipSendPacket cmd src dip proto data k = .ok { u with
      phase := .resolving cmd dip 200 (k (ipPacket s.params.ipTtl s.ourIp dip proto data)), busy := true } := by
  obtain ⟨c, u, hu, htry⟩ := State.arpSendRequest_tries hm hs src dip
  refine ⟨u, htry, ?_⟩
  simp only [State.ipSendPacket, h, State.resolve_miss h hp hu]
  rfl

end

/-- IP_SEND_PACKET to a known host ends as its send does. -/
theorem exec_ipSendPacket_hit {s t : State} {m : Mac} (hw : s.ArgsWritten 4)
    (ha : s.Accessible (bufferOf s.args[2].value s.args[3].value)) (hl : s.arpLookup s.args[0].value = some m)
    (h : s.continuePending (.ipSend (bufferOf s.args[2].value s.args[3].value)
      (ipPacket s.params.ipTtl s.ourIp s.args[0].value (lowByte s.args[1].value)
        (s.mem.readBytes s.args[2].value.toNat s.args[3].value.toNat))) (some m) = .ok t) :
    exec .ipSendPacket s = .next t := by
  rw [exec_ipSendPacket_loaded hw ha, outcome_next, State.ipSendPacket_hit hl, h]

/-- Settles O44: the three ends of a packet to the MAC the cache holds. -/
theorem ipSendPacketToKnownHost : Obligations.IpSendPacketToKnownHost := by
  intro s m hw hm r p ha hl
  have hlen : p.length = 20 + r.len := by rw [ipPacket_length, Memory.length_readBytes]
  refine ⟨fun hi => ?_, fun hi hbig => ?_, fun hi hfit hs => ?_⟩
  · exact exec_ipSendPacket_hit hw ha hl (State.continuePending_ipSend_off (s.usesHop_some m) hi r p)
  · exact exec_ipSendPacket_hit hw ha hl (State.continuePending_ipSend_big (s.usesHop_some m) hi r (pkt := p) (by omega))
  · obtain ⟨u, hu, hsend⟩ := State.continuePending_ipSend_sends (s.usesHop_some m) hm hi r (pkt := p) (by omega)
      (by rw [hlen, ← Nat.add_assoc]; exact hs)
    exact ⟨u, exec_ipSendPacket_hit hw ha hl hu, hsend⟩

/-- Settles O45: both commands go on from their loaded source buffer to a lookup that misses. -/
theorem sendsToUnknownHostResolve : Obligations.SendsToUnknownHostResolve := by
  intro s hm hp hl hs
  constructor
  · intro hw r p ha
    rw [exec_ipSendPacket_loaded hw ha]
    obtain ⟨u, htry, hu⟩ := State.ipSendPacket_miss hm hp hs hl
    exact ⟨u, htry, outcome_next.2 hu⟩
  · intro hw r q p ha
    rw [exec_icmpSendEchoRequest_loaded hw ha, State.echoPayload_readBytes]
    obtain ⟨u, htry, hu⟩ := State.ipSendPacket_miss hm hp hs hl
    exact ⟨u, htry, outcome_next.2 hu⟩

end Sys2Proof.Machine

namespace Sys2Proof.Machine

/-! ## IP_SET_ADDRESS and IP_PROCESS_PACKET (43_ip.md R230, R235, R239) -/

/-- Settles O40: the operand becomes our_ip. -/
theorem ipSetAddressStores : Obligations.IpSetAddressStores := by
  refine ⟨rfl, fun s => State.engineRead_value rfl rfl, fun s hw => ?_, fun s hw => outcome_next.2 ?_⟩
  · exact outcome_fault.2 (except_bind_of_error (State.arg_unwritten hw) _)
  · simp (disch := decide) only [hw.arg_bind]
    rfl

/-- A packet that is whole, of version 4, with a total length between a header and what arrived (43_ip.md R235). -/
def IpWellFormed (d : List Byte) : Prop :=
  20 ≤ d.length ∧ (byteAt d 0).extractLsb' 4 4 = 4 ∧ 20 ≤ (be16 d 2).toNat ∧ (be16 d 2).toNat ≤ d.length

section
variable {s : State} {d : List Byte}

theorem State.ipProcessPacket_short (h : d.length < 20) (src : MemRange) (m : Mac) :
    s.ipProcessPacket src d m = .ok (.short, s) :=
  if_pos h

theorem State.ipProcessPacket_badFormat (h : 20 ≤ d.length) (hf : ¬ IpWellFormed d) (src : MemRange) (m : Mac) :
    s.ipProcessPacket src d m = .ok (.badFormat, s) := by
  refine (if_neg (Nat.not_lt.2 h)).trans ?_
  by_cases h4 : (byteAt d 0).extractLsb' 4 4 = 4
  · have htl : (be16 d 2).toNat < 20 ∨ (be16 d 2).toNat > d.length := by
      by_contra hc
      exact hf ⟨h, h4, by omega, by omega⟩
    exact (if_neg (not_not.2 h4)).trans (if_pos htl)
  · exact if_pos h4

/-- A well-formed packet goes on to the checks of its checksum and its destination. -/
theorem State.ipProcessPacket_wellFormed (hf : IpWellFormed d) (src : MemRange) (m : Mac) :
    s.ipProcessPacket src d m =
      if internetChecksum (d.take 20) ≠ 0 then .ok (.badChecksum, s)
      else if be32 d 16 ≠ s.ourIp then .ok (.notForUs, s)
      else if byteAt d 9 = 1 then
        (s.learn (be32 d 12) m).icmpDispatched src ((d.take (be16 d 2).toNat).drop 20) (be32 d 12)
      else if byteAt d 9 = 6 ∨ byteAt d 9 = 17 then .ok (.stub, s.learn (be32 d 12) m)
      else .ok (.unknownType, s.learn (be32 d 12) m) := by
  obtain ⟨h20, h4, hlo, hhi⟩ := hf
  exact (if_neg (Nat.not_lt.2 h20)).trans ((if_neg (not_not.2 h4)).trans
    (if_neg (not_or.2 ⟨Nat.not_lt.2 hlo, Nat.not_lt.2 hhi⟩)))

end

/-- Settles O47: the checks in their order; only a packet that passes them all has its sender learned. -/
theorem ipProcessPacketVerdicts : Obligations.IpProcessPacketVerdicts := by
  intro s hw r d tl smac wellFormed ha
  have hlen : d.length = r.len := Memory.length_readBytes _ _ _
  have hwf : wellFormed ↔ IpWellFormed d := by rw [IpWellFormed, hlen]
  rw [hwf, ← hlen]
  refine ⟨fun hshort => ?_, fun h20 hbad => ?_, fun hf hsum => ?_, fun hf hsum hip => ?_, fun hf hsum hip hproto => ?_⟩
  · exact exec_ipProcessPacket_next hw ha (State.ipProcessPacket_short hshort r smac) rfl
  · exact exec_ipProcessPacket_next hw ha (State.ipProcessPacket_badFormat h20 hbad r smac) rfl
  · exact exec_ipProcessPacket_next hw ha ((State.ipProcessPacket_wellFormed hf r smac).trans (if_pos hsum)) rfl
  · have hverdict := State.ipProcessPacket_wellFormed (s := s) hf r smac
    rw [if_neg (not_not.2 hsum), if_pos hip] at hverdict
    exact exec_ipProcessPacket_next hw ha hverdict rfl
  · have hverdict := State.ipProcessPacket_wellFormed (s := s) hf r smac
    rw [if_neg (not_not.2 hsum), if_neg (not_not.2 hip), if_neg hproto] at hverdict
    have hres := (s.learn_keeps (be32 d 12) smac).1
    by_cases hinert : byteAt d 9 = 6 ∨ byteAt d 9 = 17
    · rw [if_pos hinert] at hverdict ⊢
      exact exec_ipProcessPacket_next hw ha hverdict hres
    · rw [if_neg hinert] at hverdict ⊢
      exact exec_ipProcessPacket_next hw ha hverdict hres

end Sys2Proof.Machine

namespace Sys2Proof.Machine

/-! ## ICMP_SEND_ECHO_REQUEST and ICMP_PROCESS_PACKET (44_icmp.md R250, R251, R252, R254) -/

/-- The default pattern has 32 bytes. -/
theorem State.echoPayload_length (s : State) (a n : Nat) :
    (s.echoPayload (s.mem.readBytes a n)).length = if n = 0 then 32 else n := by
  rw [State.echoPayload_readBytes]
  split
  · exact Vector.length_toList
  · exact Memory.length_readBytes ..

/-- ICMP_SEND_ECHO_REQUEST to a known host ends as the send of its packet does. -/
theorem exec_icmpSendEchoRequest_hit {s t : State} {m : Mac} (hw : s.ArgsWritten 5)
    (ha : s.Accessible (bufferOf s.args[3].value s.args[4].value)) (hl : s.arpLookup s.args[0].value = some m)
    (h : s.continuePending (.ipSend (bufferOf s.args[3].value s.args[4].value)
      (ipPacket s.params.ipTtl s.ourIp s.args[0].value 1
        (icmpMessage 8 (lowHalf s.args[1].value) (lowHalf s.args[2].value)
          (s.echoPayload (s.mem.readBytes s.args[3].value.toNat s.args[4].value.toNat))))) (some m) = .ok t) :
    exec .icmpSendEchoRequest s = .next t := by
  rw [exec_icmpSendEchoRequest_loaded hw ha, outcome_next, State.ipSendPacket_hit hl]
  exact h

/-- Settles O49: the three ends of an echo request to the MAC the cache holds; the 32 bytes of the default pattern are never too large. -/
theorem icmpSendEchoRequestToKnownHost : Obligations.IcmpSendEchoRequestToKnownHost := by
  intro s m hw hm r q p ha hl
  have hq : q = s.echoPayload (s.mem.readBytes r.base r.len) := (s.echoPayload_readBytes r.base r.len).symm
  have hlen : p.length = 28 + q.length := by rw [ipPacket_length, icmpMessage_length]; omega
  have hfits : p.length ≤ 1486 ↔ r.len ≤ 1458 := by
    rw [hlen, hq, State.echoPayload_length]
    split <;> omega
  have hend : ∀ {t}, s.continuePending (.ipSend r p) (some m) = .ok t → exec .icmpSendEchoRequest s = .next t := fun h =>
    exec_icmpSendEchoRequest_hit hw ha hl (hq ▸ h)
  refine ⟨fun hi => ?_, fun hi hbig => ?_, fun hi hfit hs => ?_⟩
  · exact hend (State.continuePending_ipSend_off (s.usesHop_some m) hi r p)
  · exact hend (State.continuePending_ipSend_big (s.usesHop_some m) hi r (Nat.lt_of_not_le (mt hfits.1 (Nat.not_le.2 hbig))))
  · obtain ⟨u, hu, hsend⟩ := State.continuePending_ipSend_sends (s.usesHop_some m) hm hi r (hfits.2 hfit)
      (by rw [hlen, ← Nat.add_assoc]; exact hs)
    exact ⟨u, hend hu, hsend⟩

/-- The end of ICMP_PROCESS_PACKET by what its message, from `sip` in the buffer `src`, asks for (44_icmp.md R251). -/
def State.icmpEnds (s : State) (src : MemRange) (sip : Ip) : IcmpAction → Except Fault State
  | .drop d => .ok (s.finishDisposition d)
  | .report id seq => .ok ((s.emitDiag (.echoReplyReceived sip id seq)).finishDisposition .accepted)
  | .reply r id seq => s.ipSendPacket .icmpProcessPacket src sip 1 r fun pkt => .echoReply src pkt sip id seq

/-- ICMP_PROCESS_PACKET once its source buffer is loaded. -/
theorem exec_icmpProcessPacket_loaded {s : State} (hw : s.ArgsWritten 3)
    (ha : s.Accessible (bufferOf s.args[0].value s.args[1].value)) :
    exec .icmpProcessPacket s = outcome (s.icmpEnds (bufferOf s.args[0].value s.args[1].value) s.args[2].value
      (icmpAction (s.mem.readBytes s.args[0].value.toNat s.args[1].value.toNat))) := by
  simp (disch := decide) only [exec, execIcmpProcessPacket, hw.arg_bind]
  exact congrArg outcome (State.loadSource_bind ha _)

/-- Settles O50: what the message asks for is what ends the command; the answer to an echo request is a packet to its sender. -/
theorem icmpProcessPacketOutcomes : Obligations.IcmpProcessPacketOutcomes := by
  intro s hw hm r e sip p ha
  have helen : e.length = r.len := Memory.length_readBytes ..
  have hend : ∀ {a t}, icmpAction e = a → s.icmpEnds r sip a = .ok t → exec .icmpProcessPacket s = .next t := fun he h => by
    rw [exec_icmpProcessPacket_loaded hw ha, outcome_next]
    exact (congrArg _ he).trans h
  rw [← helen]
  refine ⟨fun hshort => ?_, fun h8 hbad => ?_, fun h8 hgood hn8 hn0 => ?_, fun h8 hgood h0 => ?_, fun h8 hgood hreq => ?_⟩
  · exact hend (icmpAction_short hshort) rfl
  · exact hend (icmpAction_badChecksum h8 hbad) rfl
  · have hact := icmpAction_verified h8 hgood
    rw [if_neg hn8, if_neg hn0] at hact
    exact hend hact rfl
  · have hact := icmpAction_verified h8 hgood
    rw [if_neg (by rw [h0]; decide), if_pos h0] at hact
    exact hend hact rfl
  · have hact := (icmpAction_verified h8 hgood).trans (if_pos hreq)
    have hsend : ∀ {t}, s.ipSendPacket .icmpProcessPacket r sip 1 (icmpMessage 0 (be16 e 4) (be16 e 6) (e.drop 8))
        (fun pkt => .echoReply r pkt sip (be16 e 4) (be16 e 6)) = .ok t → exec .icmpProcessPacket s = .next t := hend hact
    have hplen : p.length = 20 + e.length := by
      rw [ipPacket_length, icmpMessage_length, List.length_drop]; omega
    refine ⟨fun m hl hs => ?_, fun hl hp hs => ?_⟩
    · obtain ⟨c, u, hu, htry⟩ := State.ethSendFrame_tries_any (pkt := p) hm r m 0x0800
        (by rw [hplen, ← Nat.add_assoc]; exact fun hi hfit => hs hi (by omega))
      obtain ⟨hres, -, hdiag, -⟩ := htry.keeps
      exact ⟨u, hsend ((State.ipSendPacket_hit hl).trans
        (State.continuePending_echoReply (State.sendResolved_hop hu) hres hdiag sip _ _)), htry⟩
    · obtain ⟨u, htry, hu⟩ := State.ipSendPacket_miss hm hp hs hl
      exact ⟨u, htry, hsend hu⟩

end Sys2Proof.Machine

namespace Sys2Proof.Machine

/-! ## The IRQ line (60_exceptions.md R276) -/

/-- A word differs from 0 exactly if some bit of it is set. -/
theorem ne_zero_iff_exists_getLsbD {w : Nat} {x : BitVec w} : x ≠ 0#w ↔ ∃ k, x.getLsbD k = true := by
  refine ⟨fun hx => ?_, fun ⟨k, hk⟩ h0 => ?_⟩
  · by_contra hno
    refine hx (BitVec.eq_of_getLsbD_eq fun k _ => ?_)
    rw [BitVec.getLsbD_zero, Bool.eq_false_iff]
    exact fun hk => hno ⟨k, hk⟩
  · rw [h0, BitVec.getLsbD_zero] at hk
    exact Bool.false_ne_true hk

/-- The bits that drive the IRQ line: those of ISR and of IMR, below bit 5. -/
theorem State.irqBits_getLsbD (s : State) (k : Nat) :
    (s.dev.isr &&& s.dev.imr &&& 0x001F).getLsbD k = true ↔
      k < 5 ∧ s.dev.isr.getLsbD k = true ∧ s.dev.imr.getLsbD k = true := by
  rw [BitVec.getLsbD_and, BitVec.getLsbD_and, isrMask_getLsbD, Bool.and_eq_true, Bool.and_eq_true, decide_eq_true_iff,
    and_comm]

/-- Settles O13: the line is 1 exactly if one of the bits that drive it is set. -/
theorem irqLineIsLevel : Obligations.IrqLineIsLevel := by
  intro s
  rw [State.irqLine, bne_iff_ne]
  exact ne_zero_iff_exists_getLsbD.trans (exists_congr s.irqBits_getLsbD)

/-! ## No network input stops the engine (60_exceptions.md R271, R272) -/

/-- A disposition's number is one of R271's seven. -/
theorem Disposition.number_le (d : Disposition) : d.number.toNat ≤ 6 := by
  cases d <;> decide

/-- How the process commands end: `r` is what becomes of the bytes, and the command writes the number of its disposition to RES0 (60_exceptions.md
R271). -/
theorem exec_reports_disposition {i : Instr} {s : State} {r : Except Fault (Disposition × State)}
    (htotal : ∃ d u, r = .ok (d, u) ∧ u.DmaClear) (htraffic : ∀ {d u}, r = .ok (d, u) → s.SameButTraffic u)
    (hend : ∀ {d u}, r = .ok (d, u) → u.res = s.res →
      exec i s = .next { u with res := s.res.set 0 ⟨d.number, true⟩, code := .ok, busy := false }) :
    ∃ u n, n ≤ 6 ∧ s.SameButTraffic u ∧
      exec i s = .next { u with res := s.res.set 0 ⟨BitVec.ofNat 32 n, true⟩, code := .ok, busy := false } := by
  obtain ⟨d, u, hr, -⟩ := htotal
  obtain ⟨-, -, hres, -⟩ := (htraffic hr).keeps
  refine ⟨u, d.number.toNat, d.number_le, htraffic hr, ?_⟩
  rw [BitVec.ofNat_toNat, BitVec.setWidth_eq]
  exact hend hr hres

/-- Settles O29: whatever the bytes, each of the three processings has an end, and all it does is traffic. -/
theorem malformedInputNeverStops : Obligations.MalformedInputNeverStops := by
  intro i s hi hw hm hd ha
  simp only [List.mem_cons, List.not_mem_nil, or_false] at hi
  rcases hi with rfl | rfl | rfl
  · exact exec_reports_disposition (State.ethProcessFrame_total hm hd _ _) (State.ethProcessFrame_traffic hm)
      (exec_ethProcessFrame_next hw ha)
  · exact exec_reports_disposition (State.arpProcessPacket_total hm hd _ _) (State.arpProcessPacket_traffic hm)
      (exec_arpProcessPacket_next hw ha)
  · exact exec_reports_disposition (State.ipProcessPacket_total hm hd _ _ _) (State.ipProcessPacket_traffic hm)
      (exec_ipProcessPacket_next hw ha)

end Sys2Proof.Machine

namespace Sys2Proof.Machine

/-! ## Power-on reset (70_reset_and_hazards.md R300, R301) -/

/-- The ring of a device after power-on is empty: CAPR + 16 wraps to offset 0, where WP is. -/
theorem Device.reset_ringEmpty (mac : Mac) : (Device.reset mac).ringEmpty = true := by
  rw [Device.ringEmpty_iff]
  show ((0xFFF0 : Half).toNat + 16) % 65536 % ringLenOf _ = 0
  exact Nat.zero_mod _

/-- CR after power-on shows the empty ring alone. -/
theorem Device.reset_crWord (mac : Mac) : (Device.reset mac).crWord = 0x01 := by
  have hte : (Device.reset mac).te = false := rfl
  have hre : (Device.reset mac).re = false := rfl
  have hrst : (Device.reset mac).resetting = false := rfl
  rw [Device.crWord, Device.reset_ringEmpty, hte, hre, hrst]
  decide

/-- STATUS reads 0 of an idle engine whose last command ended OK. -/
theorem State.statusWord_of_ok {s : State} (hc : s.code = .ok) (hb : s.busy = false) : s.statusWord = 0 := by
  rw [State.statusWord, hc, hb]
  decide

/-- With every interrupt masked the line is 0. -/
theorem State.irqLine_of_imr_eq_zero {s : State} (h : s.dev.imr = 0) : s.irqLine = false := by
  rw [State.irqLine, h, BitVec.ofNat_eq_ofNat, BitVec.and_zero, BitVec.zero_and, bne_self_eq_false]

/-- The mask a launch puts over the PCI command word clears bit 2, bus mastering. -/
theorem busMasterMask_getLsbD (c : Half) : (c &&& 0xFFFB).getLsbD 2 = false := by
  rw [BitVec.getLsbD_and, show (0xFFFB : Half).getLsbD 2 = false from rfl, Bool.and_false]

section
variable (p : Params) (mac : Mac) (pci : Option NicPci) (mem : Memory)

/-- Whatever header the platform leaves at NIC_PCI_LOCATION, bus mastering is off (R301). -/
theorem State.launch_busMaster : (State.launch p mac pci mem).busMaster = false := by
  cases pci with
  | none => rfl
  | some h => exact busMasterMask_getLsbD h.command

/-- The PCI header at launch is the platform's but for its command word. -/
theorem State.launch_pci {h : NicPci} (hl : (State.launch p mac pci mem).pci = some h) :
    ∃ h', pci = some h' ∧ h = { h' with command := h.command } := by
  obtain ⟨h', hp, rfl⟩ := Option.map_eq_some_iff.1 hl
  exact ⟨h', hp, rfl⟩

theorem State.launch_args (k : Fin 5) : (State.launch p mac pci mem).args[k] = ⟨0, false⟩ :=
  Vector.getElem_replicate k.isLt

theorem State.launch_res (k : Fin 4) : (State.launch p mac pci mem).res[k] = ⟨0, false⟩ :=
  Vector.getElem_replicate k.isLt

theorem State.launch_tsd (i : Fin 4) : (State.launch p mac pci mem).dev.tsd[i] = 0x2000 :=
  Vector.getElem_replicate i.isLt

theorem State.launch_tsad (i : Fin 4) : (State.launch p mac pci mem).dev.tsad[i] = 0 :=
  Vector.getElem_replicate i.isLt

theorem State.launch_pending (i : Fin 4) : (State.launch p mac pci mem).dev.pending[i] = false :=
  Vector.getElem_replicate i.isLt

theorem State.launch_clobbered (i : Fin 4) : (State.launch p mac pci mem).dev.clobbered[i] = false :=
  Vector.getElem_replicate i.isLt

end

/-- ECHO_DEFAULT_PATTERN counts up from 0 (00_scope.md R7). -/
theorem Config.params_echoDefault : Config.params.echoDefault.toList = (List.range 32).map (BitVec.ofNat 8) := by
  decide

/-- Settles O53: most values are fields `State.launch` sets; the vectors, the words computed from the state (STATUS, CR, the IRQ line), bus
mastering and the PCI header have their lemmas. -/
theorem resetState : Obligations.ResetState := by
  refine ⟨fun p mac pci mem => ?_, ⟨Config.burnedInMac, Config.nicPciAtLaunch, rfl⟩, ?_⟩
  · have hargs (k) := congrArg Latch.written (State.launch_args p mac pci mem k)
    have hres (k) := congrArg Latch.written (State.launch_res p mac pci mem k)
    exact ⟨rfl, rfl, State.statusWord_of_ok rfl rfl, rfl, hargs, hres, rfl, rfl, rfl, rfl, rfl, rfl, rfl, rfl, rfl, rfl, rfl,
      State.irqLine_of_imr_eq_zero rfl, Device.reset_crWord mac, rfl,
      fun i => ⟨State.launch_tsd p mac pci mem i, State.launch_tsad p mac pci mem i, State.launch_pending p mac pci mem i,
        State.launch_clobbered p mac pci mem i⟩,
      rfl, rfl, rfl, rfl, rfl,
      State.launch_busMaster p mac pci mem, fun _ => State.launch_pci p mac pci mem, rfl, rfl, rfl, rfl, rfl, rfl⟩
  · exact ⟨rfl, rfl, rfl, rfl, rfl, rfl, rfl, rfl, rfl, Config.params_echoDefault, rfl, rfl, rfl, rfl, rfl⟩

/-! ## The invariants at launch (10_state.md R43, R46, R47, 42_arp.md R206) -/

section
variable {p : Params} (mac : Mac) (pci : Option NicPci) (mem : Memory)

/-- An empty cache meets the cache invariants. -/
theorem State.launch_arpWf : (State.launch p mac pci mem).ArpWf :=
  ⟨List.nodup_nil, Nat.zero_le _, fun _ he => absurd he List.not_mem_nil, fun _ => rfl⟩

theorem State.launch_upWf (hp : p.Wf) : (State.launch p mac pci mem).UpWf :=
  ⟨⟨ringLenOf_pos _, rfl, ringLenOf_pos _, rfl⟩, hp, fun hi => absurd hi Bool.false_ne_true⟩

/-- No slot is pending or clobbered after power-on, so none needs the device up. -/
theorem State.launch_slotsWf (hp : p.Wf) : (State.launch p mac pci mem).SlotsWf := by
  refine ⟨State.launch_upWf mac pci mem hp, fun i => ?_⟩
  rw [State.launch_pending, State.launch_clobbered]
  exact ⟨fun h => absurd h Bool.false_ne_true, id⟩

theorem State.launch_rokWf (hp : p.Wf) (hr : p.rokClear = .stickyWhileNonempty) : (State.launch p mac pci mem).RokWf :=
  ⟨State.launch_upWf mac pci mem hp, hr, fun hi => absurd hi Bool.false_ne_true⟩

theorem State.launch_busyWf : (State.launch p mac pci mem).BusyWf := rfl

end

/-- R7's parameters fit together (20_memory.md R91). -/
theorem Config.params_wf : Config.params.Wf := by decide

/-! ## Launch premises (70_reset_and_hazards.md R311) -/

theorem Phase.isResolving_eq_false {ph : Phase} : ph.isResolving = false ↔ ph = .idle := by
  cases ph <;> simp [Phase.isResolving]

theorem State.isIdle_iff {s : State} : s.isIdle = true ↔ s.busy = false ∧ s.phase = .idle := by
  simp [State.isIdle, Phase.isResolving_eq_false]

theorem State.nothingInFlight_iff {s : State} :
    s.nothingInFlight = true ↔ (∀ i : Fin 4, s.dev.pending[i] = false) ∧ s.dev.resetting = false := by
  simp [State.nothingInFlight, State.nothingPending]

theorem State.cleanLogs_iff {s : State} : s.cleanLogs = true ↔ s.wireOut = [] ∧ s.diag = [] := by
  simp [State.cleanLogs]

/-- The premises of a launch, taken apart. -/
theorem State.launchPremises_iff {s : State} :
    s.launchPremises = true ↔
      (s.faults = [] ∧ s.refusals = []) ∧ (s.busy = false ∧ s.phase = .idle) ∧
        ((∀ i : Fin 4, s.dev.pending[i] = false) ∧ s.dev.resetting = false) ∧ (s.wireOut = [] ∧ s.diag = []) ∧
        (s.isPowerOn = true ∨ s.isUp = true) := by
  simp only [State.launchPremises, Bool.and_eq_true, Bool.or_eq_true, State.noFault_iff, State.isIdle_iff,
    State.nothingInFlight_iff, State.cleanLogs_iff, and_assoc]

/-- POWER_ON is a state before any NIC_INIT. -/
theorem State.isPowerOn_initialized {s : State} (h : s.isPowerOn = true) : s.initialized = false :=
  congrArg State.initialized (of_decide_eq_true h)

/-- UP is a state a NIC_INIT has left, with some PCI header. -/
theorem State.isUp_freshlyUp {s : State} (h : s.isUp = true) : ∃ nic, s.FreshlyUp nic := by
  rw [State.isUp] at h
  cases hpci : s.pci with
  | none => rw [hpci] at h; exact absurd h Bool.false_ne_true
  | some nic => rw [hpci] at h; exact ⟨nic, (of_decide_eq_true h).1⟩

/-- What R311 asks of an initialised state beside the premises on its marks, slots and logs. -/
theorem State.initialized_launch {s : State} (h : s.isPowerOn = true ∨ s.isUp = true) (hi : s.initialized = true) :
    s.cmdWritten = true ∧ s.ArpWf ∧ ∀ i : Fin 4, s.txAddr[i].toNat = s.txAddr[0].toNat + i.val * s.params.txBufSize := by
  rcases h with h | h
  · rw [State.isPowerOn_initialized h] at hi
    exact absurd hi Bool.false_ne_true
  · obtain ⟨nic, hup, -, -, -, -, -, -, -, -, -, -, -, -, -, -, -, harp, hcmd, -⟩ := State.isUp_freshlyUp h
    obtain ⟨-, -, -, -, -, -, -, -, -, -, -, -, htx⟩ := hup
    exact ⟨hcmd, harp, fun i => (htx i).2.2⟩

/-- Clearing the bus master bit of the PCI header again changes nothing, so a power-on state is POWER_ON. -/
theorem State.launch_isPowerOn (p : Params) (mac : Mac) (pci : Option NicPci) (mem : Memory) :
    (State.launch p mac pci mem).isPowerOn = true := by
  refine decide_eq_true ?_
  cases pci <;>
    simp [State.forgetUnspecified, State.launch, Device.reset, BitVec.and_assoc]

/-- A power-on state is a launch state, with any parameters and any memory. -/
theorem State.launch_start (p : Params) (mac : Mac) (pci : Option NicPci) (mem : Memory) :
    (State.launch p mac pci mem).start = .next (State.launch p mac pci mem) :=
  if_pos (State.launchPremises_iff.2
    ⟨⟨rfl, rfl⟩, ⟨rfl, rfl⟩, ⟨State.launch_pending p mac pci mem, rfl⟩, ⟨rfl, rfl⟩, .inl (State.launch_isPowerOn p mac pci mem)⟩)

/-- Settles O54: the invariants hold of every launch, R7's among them, and each refused state breaks one of the premises. -/
theorem resetMeetsTheInvariants : Obligations.ResetMeetsTheInvariants := by
  refine ⟨fun p mac pci mem hm hp => ?_, ?_, fun s hbad => if_neg fun hprem => ?_⟩
  · exact ⟨hm, State.launch_arpWf mac pci mem, State.launch_slotsWf mac pci mem hp, State.launch_rokWf mac pci mem hp,
      State.launch_busyWf mac pci mem, State.launch_start p mac pci mem⟩
  · exact ⟨Memory.wf_nil, State.launch_arpWf _ _ _, State.launch_slotsWf _ _ _ Config.params_wf,
      State.launch_rokWf _ _ _ Config.params_wf rfl, State.launch_busyWf _ _ _⟩
  · obtain ⟨⟨hfaults, hrefusals⟩, ⟨hbusy, hphase⟩, ⟨hpend, hreset⟩, ⟨hwire, hdiag⟩, hkind⟩ :=
      State.launchPremises_iff.1 hprem
    rcases hbad with h | h | h | h | ⟨i, h⟩ | h | h | h | ⟨hi, h⟩
    · exact h hfaults
    · exact h hrefusals
    · exact Bool.false_ne_true (hbusy.symm.trans h)
    · exact h hphase
    · exact Bool.false_ne_true ((hpend i).symm.trans h)
    · exact Bool.false_ne_true (hreset.symm.trans h)
    · exact h hwire
    · exact h hdiag
    · obtain ⟨hcmd, harp, htx⟩ := State.initialized_launch hkind hi
      rcases h with h | h | ⟨i, h⟩
      · exact Bool.false_ne_true (h.symm.trans hcmd)
      · exact h harp
      · exact h (htx i)

end Sys2Proof.Machine
